-- ==== Sys2Proof/Word.lean ====
section
/-! DEFINITION. The words of the SR24: bytes, journal positions, level images, times, channel numbers. -/

namespace Sys2Proof

/-- One byte, as the host bus, the export link, the image and the journal carry it. -/
abbrev Byte := BitVec 8

/-- A journal position: a 32-bit count of journal bytes, taken modulo 2^32 (R24). -/
abbrev Pos := BitVec 32

/-- One bit for each of the 24 channels: bit n stands for channel n (R3, R11, R109). -/
abbrev Image := BitVec 24

/-- A channel number, 0 to 23 (R71). -/
abbrev Channel := Fin 24

/-- A time: seconds 0 to 4,294,967,295 and microseconds 0 to 999,999 (00_scope.md, "Time"), held as the count of
microseconds within the time cycle of 4,294,967,296,000,000 µs (R7). Addition and subtraction wrap as the counter does. -/
abbrev Time := Fin 4294967296000000

end Sys2Proof
end

