-- ==== Sys2Proof/Syntax.lean ====
section
/-! DEFINITION. The commands of the SR24: one constructor for each row of spec/opcode_table.json, with its operands. -/

namespace Sys2Proof

/-- An edge on the PPS input (R94). -/
inductive PpsEdge where
  | rising
  | falling
  deriving DecidableEq, Repr

/-- The seven latched groups of the host window (R150), named by the register whose first byte latches them. -/
inductive Group where
  | javail
  | hposr
  | timenow
  | flthead
  | live
  | jhead
  | holds
  deriving DecidableEq, Repr

/-- The three link commands that take argument bytes (R128): a transaction can end after their byte 1 and before
they are taken (R131). -/
inductive ArgCommand where
  | xfetch
  | xack
  | xmark
  deriving DecidableEq, Repr

/-- The operations and events of the SR24. Host commands take their arguments from the staging registers. -/
inductive Instr where
  /-- DEVICE_RESET (R178); `cfgld` is the level of the CFGLD strap at the end of the reset. -/
  | deviceReset (cfgld : Bool)
  /-- RAW_EDGE (R74): the sampled field line of `ch` differs from its previous sample. -/
  | rawEdge (ch : Channel)
  /-- SETTLE_EXPIRY (R79) of channel `ch`. -/
  | settleExpiry (ch : Channel)
  /-- WINDOW_EXPIRY (R81) of channel `ch`. -/
  | windowExpiry (ch : Channel)
  /-- QUIET_EXPIRY (R83) of channel `ch`. -/
  | quietExpiry (ch : Channel)
  /-- PULSE (R94): an edge is sampled on PPS. -/
  | pulse (edge : PpsEdge)
  /-- TIMEOUT (R97, R99). -/
  | timeout
  /-- HOLDOVER_EXPIRY (R100). -/
  | holdoverExpiry
  /-- HORIZON_EXPIRY (R63). -/
  | horizonExpiry
  /-- DRAIN_EXPIRY (R58). -/
  | drainExpiry
  /-- START (R51). -/
  | start
  /-- STOP (R54). -/
  | stop
  /-- RESTART (R59). -/
  | restart
  /-- RESTART_CLEARING_DONE (R48, R59). -/
  | restartClearingDone
  /-- RELOAD (R60). -/
  | reload
  /-- ATTACH (R29). -/
  | attach
  /-- DETACH (R33). -/
  | detach
  /-- RELEASE (R31). -/
  | release
  /-- REREAD (R32). -/
  | reread
  /-- MARK (R66); the tag stands in ENTRY0 and ENTRY1. -/
  | mark
  /-- SET_TIME (R105); the time stands in ENTRY0 to ENTRY6. -/
  | setTime
  /-- RELEASE_HOLD (R121). -/
  | releaseHold
  /-- WRITE_ENTRY (R164); the entry is selected by TABSEL and TABIDX. -/
  | writeEntry
  /-- READ_ENTRY (R165); the entry is selected by TABSEL and TABIDX. -/
  | readEntry
  /-- CLEAR_FAULTS (R177). -/
  | clearFaults
  /-- UNKNOWN_COMMAND (R158): a CMD write of a code that names no command. -/
  | unknownCommand (code : Byte)
  /-- JDATA_READ (R154). -/
  | jdataRead
  /-- HSKIP_READ (R153, R34). -/
  | hskipRead
  /-- GROUP_LATCH (R150): a read of the first byte of a latched group. -/
  | groupLatch (g : Group)
  /-- FLTNEXT_WRITE (R176), with any data byte. -/
  | fltnextWrite (value : Byte)
  /-- IRQF_WRITE (R170). -/
  | irqfWrite (value : Byte)
  /-- IRQE_WRITE (R172). -/
  | irqeWrite (value : Byte)
  /-- CMDFLAG_WRITE (R153, R198). -/
  | cmdflagWrite (value : Byte)
  /-- AVTH_LOW_WRITE (R155). -/
  | avthLowWrite (value : Byte)
  /-- AVTH_HIGH_WRITE (R155). -/
  | avthHighWrite (value : Byte)
  /-- REGISTER_WRITE (R148): a bus write of `value` at window address `addr`. -/
  | registerWrite (addr : BitVec 6) (value : Byte)
  /-- TRANSACTION_BEGIN (R129): XSEL# falls. -/
  | transactionBegin
  /-- XSTAT (R144). -/
  | xstat
  /-- XFETCH (R134) with its argument `n`. -/
  | xfetch (n : Byte)
  /-- XACK (R140) with its sequence number and check byte. -/
  | xack (seq check : Byte)
  /-- XREWIND (R141). -/
  | xrewind
  /-- XATTACH (R142). -/
  | xattach
  /-- XDETACH (R143). -/
  | xdetach
  /-- XMARK (R145) with the tag's high byte, its low byte and the check byte. -/
  | xmark (high low check : Byte)
  /-- LINK_UNKNOWN_COMMAND (R130): byte 1 of a transaction names no link command. -/
  | linkUnknownCommand (code : Byte)
  /-- FRAME_DELIVERED (R137). -/
  | frameDelivered
  /-- TRANSACTION_END (R131): XSEL# rises. `decoded` is the argument-taking command whose byte 1 had been received
  whole without the command being taken, if there is one. -/
  | transactionEnd (decoded : Option ArgCommand)
  /-- LOAD_HEADER_RECEIVED (R181): the five header bytes MDI presents. -/
  | loadHeaderReceived (format version countLow countHigh flags : Byte)
  /-- LOAD_RECORD_RECEIVED (R182): the ten record bytes MDI presents. -/
  | loadRecordReceived (table index : Byte) (entry : Vector Byte 8)
  /-- LOAD_CRC_RECEIVED (R183): the two CRC bytes MDI presents. -/
  | loadCrcReceived (low high : Byte)
  /-- APPLYING_DONE (R184, R185). -/
  | applyingDone
  /-- AUTO_START (R185). -/
  | autoStart
  /-- RELOAD_CLEARING_DONE (R60). -/
  | reloadClearingDone
  deriving DecidableEq, Repr

end Sys2Proof
end

