-- ==== Sys2Proof/Config.lean ====
section
/-! DEFINITION. What the part fixes once (sizes and limits of the spec), and the model's free values. -/

namespace Sys2Proof.Config

/-- The journal ring's size in bytes (00_scope.md, R24). -/
def ringSize : Nat := 16384

/-- The reserve: the bytes every packet but the two closing ones leaves free (R37). -/
def reserve : Nat := 32

/-- The capacity of the sync index (R26). -/
def indexCapacity : Nat := 64

/-- The capacity of the ordering queue (R61). -/
def queueCapacity : Nat := 32

/-- The capacity of the fault queue (R173). -/
def faultCapacity : Nat := 4

/-- The capacity of the outstanding frame list (R133). -/
def frameCapacity : Nat := 4

/-- The largest number of journal bytes in a frame (R134). -/
def frameDataMax : Nat := 64

/-- The guard within the release horizon, in µs (R53). -/
def horizonGuard : Nat := 1000

/-- The largest count a delta or backward distance field holds (R2). -/
def deltaMax : Nat := 34359738367

/-- The largest record count of a configuration image (R181). -/
def recordMax : Nat := 64

/-- FREE VALUE (log entry 5). Which of several events that fall at the same microsecond is taken first: the spec leaves
the order open ("either may be taken first": R78, R81, R83, R89, R102). Applied to the model's counter of choices. -/
opaque coincidenceOrder : Nat → Nat

/-- FREE VALUE (log entry 6). Whether capture control's CLAMP faults of one step are logged before the input channels':
the spec leaves the order of the holders open (R174). Applied to the model's counter of choices. -/
opaque queueClampsFirst : Nat → Bool

/-- FREE VALUE (log entry 6). The places the input channels' CLAMP faults of one step take among each other: the spec
gives no order within the group (R88, R174). Applied to the model's counter of choices and to the number of faults
placed so far. -/
opaque channelClampPlace : Nat → Nat → Nat

end Sys2Proof.Config
end

