-- ==== Sys2Proof/Machine/State.lean ====
section
/-! DEFINITION. The state of the SR24, block by block (00_scope.md, "Blocks"), the reasons a step can stop, and reset. -/

namespace Sys2Proof.Machine

/-- The faults that would stop the machine. There is none: no rule of the spec stops the part (its fault log, R173, is
state). An empty type says so; it is safe. -/
inductive Fault
  deriving DecidableEq, Repr

/-- The reasons a command could have no meaning. -/
inductive Refusal where
  /-- Raised by an arm of `exec` for a command that has no meaning yet; safe. No arm raises it. -/
  | notModelled (mnemonic : String)
  deriving DecidableEq, Repr

/-! ### Names shared by several blocks -/

/-- The time base's quality (R91). -/
inductive Quality where
  | unsynced
  | acquiring
  | locked
  | holdover
  deriving DecidableEq, Repr

/-- The hold state NONE, COLLECTING or CLOSED (R115). -/
inductive HoldState where
  | noHold
  | collecting
  | closed
  deriving DecidableEq, Repr

/-- The journal's fill policy (R39). -/
inductive FillPolicy where
  | keepOldest
  | keepNewest
  deriving DecidableEq, Repr

/-- The store's fill state (R36). -/
inductive FillState where
  | normal
  | losing
  deriving DecidableEq, Repr

/-- The capture state (R50). -/
inductive CaptureState where
  | stopped
  | running
  | draining
  | loading
  deriving DecidableEq, Repr

/-- The reason an END packet carries (R5). -/
inductive StopReason where
  | hostStop
  | holdStop
  deriving DecidableEq, Repr

/-- Who placed a mark (R61). -/
inductive MarkSource where
  | host
  | link
  deriving DecidableEq, Repr

/-! ### ICU: the input channels (chapter 4) -/

/-- The state of a channel (section 4.3). -/
inductive ChanState where
  | off
  | stable
  | settling
  | suppressed
  | suppressedSettling
  deriving DecidableEq, Repr

/-- A running timer: the elapsed time since it began and the length it took when it started, both in µs (R76). -/
structure Timer where
  elapsed : Nat
  length : Nat
  deriving DecidableEq, Repr

/-- A channel descriptor (R71). -/
structure ChanDesc where
  enable : Bool
  invert : Bool
  settle : Byte
  chatterLimit : Byte
  chatterWindow : Byte
  quietTime : Byte
  deriving DecidableEq, Repr

/-- One input channel: its descriptor, the last sample of its line (R74), and the state of R76. -/
structure ChannelRec where
  desc : ChanDesc
  line : Bool
  state : ChanState
  accepted : Bool
  stamp : Option Time
  chatterCount : Nat
  window : Option Timer
  quiet : Option Timer
  settle : Option Timer
  deriving DecidableEq, Repr

/-! ### TB: the time base (chapter 5) -/

/-- Where an acquisition began (R91). -/
inductive Origin where
  | fromUnsynced
  | fromHeld
  deriving DecidableEq, Repr

/-- The holdover timer: stopped, running with the elapsed µs since the last accepted pulse, or expired (R91). -/
inductive HoldoverTimer where
  | stopped
  | running (elapsed : Nat)
  | expired
  deriving DecidableEq, Repr

/-- What caused a step (R104). -/
inductive StepCause where
  | pulse
  | host
  deriving DecidableEq, Repr

/-- The time table (R92). -/
structure TimeTable where
  ppsEnable : Bool
  ppsEdge : PpsEdge
  lockWindow : BitVec 16
  trimBand : Byte
  holdoverLimit : BitVec 16
  deriving DecidableEq, Repr

/-- The time base's state (R90, R91). -/
structure TimeBase where
  counter : Time
  quality : Quality
  reference : Option Time
  origin : Origin
  rejects : Nat
  holdover : HoldoverTimer
  trims : Nat
  table : TimeTable
  deriving DecidableEq, Repr

/-! ### OQ: ordering queue and capture control (chapter 3) -/

/-- What an entry is made of, besides its stamp (R61). -/
inductive EntryBody where
  | change (ch : Channel) (level : Bool)
  | suppress (ch : Channel) (level : Bool)
  | release (ch : Channel) (level : Bool)
  | timeq (new previous : Quality)
  | mark (tag : BitVec 16) (source : MarkSource)
  deriving DecidableEq, Repr

/-- One entry of the ordering queue (R61). -/
structure Entry where
  stamp : Time
  body : EntryBody
  deriving DecidableEq, Repr

/-- Capture control and the ordering queue (R50). -/
structure Capture where
  state : CaptureState
  horizon : Nat
  stopStamp : Time
  queue : List Entry
  deriving DecidableEq, Repr

/-! ### JE: the journal encoder (chapter 1) -/

/-- The encoder's state (R6). -/
structure Encoder where
  runningTime : Time
  image : Image
  mask : Image
  sinceSync : Nat
  segment : BitVec 16
  lossCount : Nat
  firstLost : Time
  lastLost : Time
  stopReason : StopReason
  deriving DecidableEq, Repr

/-! ### JS: the journal store (chapter 2) -/

/-- The journal RAM: the bytes that differ from `Memory.default`, addresses (ring offsets) strictly rising. -/
abbrev Memory := List Host.Cell

/-- A consumer record (R28). -/
structure Consumer where
  attached : Bool
  read : Pos
  release : Pos
  skips : Nat
  skipPending : Bool
  deriving DecidableEq, Repr

/-- The journal table (R39). -/
structure JournalTable where
  policy : FillPolicy
  syncInterval : Byte
  resumeRoom : Byte
  p : Byte
  q : BitVec 16
  deriving DecidableEq, Repr

/-- The journal store's state (R24, R26, R28, R36, R39). -/
structure Store where
  ram : Memory
  head : Pos
  tail : Pos
  index : List Pos
  hostC : Consumer
  exportC : Consumer
  fill : FillState
  table : JournalTable
  deriving DecidableEq, Repr

/-! ### TU: triggers and hold (chapter 6) -/

/-- The edge a trigger rule watches for (R109). -/
inductive RuleEdge where
  | rise
  | fall
  | either
  deriving DecidableEq, Repr

/-- The action of a trigger rule (R109). -/
inductive RuleAction where
  | note
  | hold
  | holdStop
  deriving DecidableEq, Repr

/-- The action a hold was started with (R115). -/
inductive HoldAction where
  | hold
  | holdStop
  deriving DecidableEq, Repr

/-- A trigger rule (R109). -/
structure TriggerRule where
  enable : Bool
  channel : Channel
  edge : RuleEdge
  mask : Image
  value : Image
  action : RuleAction
  interrupt : Bool
  deriving DecidableEq, Repr

/-- The trigger unit: the trigger table and the hold record (R109, R115). `start` is the protected start; it bounds the
store's tail while the hold is active (R27). -/
structure TriggerUnit where
  rules : Vector TriggerRule 8
  hold : HoldState
  action : HoldAction
  quota : Nat
  count : Nat
  start : Pos
  deriving DecidableEq, Repr

/-! ### The bits of a serial port (R127, R180) -/

/-- The bits of the transaction on a serial port: the clock's level, true high; the bits sampled of the byte not yet whole,
first first; the bytes received whole, first first; and how many bits behind the first have been presented on the output.
The export link and the configuration memory port each have one (R127, R180). -/
structure SerialPort where
  clock : Bool
  sampled : List Bool
  received : List Byte
  presented : Nat
  deriving DecidableEq, Repr

/-- A port with its clock at a level and no bit of a transaction: what the bits and bytes are counted from. -/
def SerialPort.fresh (clock : Bool) : SerialPort := { clock := clock, sampled := [], received := [], presented := 0 }

/-! ### XL: the export link (chapter 7) -/

/-- An outstanding frame record: its sequence number, its first position and the position after its last (R133). -/
structure FrameRec where
  seq : Byte
  start : Pos
  stop : Pos
  deriving DecidableEq, Repr

/-- The frame in flight: its record, its skip report, and the copy of all its bytes (R132, R139). -/
structure Flight where
  frame : FrameRec
  skip : Bool
  bytes : List Byte
  deriving DecidableEq, Repr

/-- The transaction on the port (R127, R128). `status` is the link status byte formed when XSEL# fell and sent as byte 1,
`response` the bytes sent from byte 2 on; every byte beyond them is FFh. -/
inductive LinkPhase where
  /-- XSEL# is high; XDO is high impedance. -/
  | deselected
  /-- XSEL# is low and no command of this transaction has been taken. -/
  | selected (status : Byte)
  /-- XSEL# is low and this transaction's command has been taken. -/
  | served (status : Byte) (response : List Byte)
  /-- XSEL# is still low after a device reset ended the transaction (R127). -/
  | endedByReset
  deriving DecidableEq, Repr

/-- The export link's state (R132), its transaction and the bits of its port (R127). -/
structure Link where
  outstanding : List FrameRec
  nextSeq : Byte
  aborts : Nat
  error : Bool
  flight : Option Flight
  phase : LinkPhase
  port : SerialPort
  deriving DecidableEq, Repr

/-! ### HW: the host window (chapter 8) -/

/-- The result codes of host commands (R157). -/
inductive Result where
  | ok
  | locked
  | badarg
  | nospace
  | notattached
  | unknown
  deriving DecidableEq, Repr

/-- The commands that stay in progress after their write (R166): every other command completes at its write. -/
inductive LongCommand where
  | stop
  | restart
  | reload
  deriving DecidableEq, Repr

/-- The latches of the seven groups (R150), each group's bytes least significant first. -/
structure Latches where
  javail : BitVec 16
  hposr : Pos
  hposl : Pos
  timenow : BitVec 56
  flthead : BitVec 72
  live : Image
  jhead : Pos
  holds : Pos
  deriving DecidableEq, Repr

/-- The strobe lines of the host bus as they stand, `true` for high (R148). `spoiled` is the model's own: the write strobe
now low met a low RD# with CS# low, or a device reset ended its access, so that no write is taken at its rise. -/
structure HostBus where
  cs : Bool
  rd : Bool
  wr : Bool
  spoiled : Bool
  deriving DecidableEq, Repr

/-- The host window's own state (R149). BUSY is set exactly while `inProgress` holds a command. `dataOut` is the byte
driven on D7–D0: that of the read taken, until RD# rises (R148); `none` at high impedance. -/
structure HostWindow where
  tabsel : Byte
  tabidx : Byte
  entry : Vector Byte 8
  result : Result
  inProgress : Option LongCommand
  collision : Bool
  readEmpty : Bool
  latches : Latches
  avth : BitVec 16
  avthLow : Byte
  dataOut : Option Byte
  bus : HostBus
  deriving DecidableEq, Repr

/-! ### IFU: interrupts and fault log (chapter 9) -/

/-- The kinds of fault record (R175). -/
inductive FaultKind where
  | forced
  | late
  | clamp
  | linkcheck
  | loadfail
  deriving DecidableEq, Repr

/-- One record of the fault queue (R173). -/
structure FaultRec where
  kind : FaultKind
  detail : Byte
  time : Time
  deriving DecidableEq, Repr

/-- The interrupt and fault unit's state (R168). `above` is the AVL comparison as last evaluated. -/
structure FaultUnit where
  irqf : BitVec 8
  irqe : BitVec 8
  above : Bool
  faults : List FaultRec
  lost : Nat
  deriving DecidableEq, Repr

/-! ### CL: the configuration loader (chapter 10) -/

/-- The loader's state (R179). -/
inductive LoaderState where
  | idle
  | reading
  | applying
  deriving DecidableEq, Repr

/-- What began a load (R179). -/
inductive LoadCause where
  | reset
  | reload
  deriving DecidableEq, Repr

/-- The configuration loader (R179). The staged records stand in the journal RAM, ten bytes each from ring offset 0;
`staged` counts them. `headerSeen` says that READING is past the header, and `autoStartDue` that the START an image
asked for has not been requested yet: both are implied by R181 and R185. -/
structure Loader where
  state : LoaderState
  cause : LoadCause
  autoStart : Bool
  attachHost : Bool
  attachExport : Bool
  count : Nat
  read : Nat
  crc : BitVec 16
  staged : Nat
  headerSeen : Bool
  autoStartDue : Bool
  port : SerialPort
  deriving DecidableEq, Repr

/-! ### The whole part -/

/-- The state of the SR24. `pending` is the queue of waiting commands and `choices` the number of free values the model
has drawn: both are the model's own. -/
structure State where
  icu : Vector ChannelRec 24
  tb : TimeBase
  oq : Capture
  je : Encoder
  js : Store
  tu : TriggerUnit
  xl : Link
  hw : HostWindow
  ifu : FaultUnit
  cl : Loader
  pending : List Instr
  choices : Nat
  deriving DecidableEq, Repr

/-! ### Reset values -/

/-- A channel descriptor's reset value (R71, R197). -/
def ChanDesc.reset : ChanDesc :=
  { enable := false, invert := false, settle := 0x14#8, chatterLimit := 0#8, chatterWindow := 0x64#8,
    quietTime := 0x32#8 }

/-- A channel at device reset and RELOAD (R71, R76), its line sampled at `line`. -/
def ChannelRec.reset (line : Bool) : ChannelRec :=
  { desc := ChanDesc.reset, line := line, state := .off, accepted := false, stamp := none, chatterCount := 0,
    window := none, quiet := none, settle := none }

/-- The time table's reset value (R92). -/
def TimeTable.reset : TimeTable :=
  { ppsEnable := false, ppsEdge := .rising, lockWindow := 1000#16, trimBand := 10#8, holdoverLimit := 600#16 }

/-- The time base after device reset (R90, R91). -/
def TimeBase.reset : TimeBase :=
  { counter := 0, quality := .unsynced, reference := none, origin := .fromUnsynced, rejects := 0,
    holdover := .stopped, trims := 0, table := TimeTable.reset }

/-- Capture control after device reset (R50), in the given capture state. -/
def Capture.reset (state : CaptureState) : Capture :=
  { state := state, horizon := 1000, stopStamp := 0, queue := [] }

/-- The encoder after device reset (R6). -/
def Encoder.reset : Encoder :=
  { runningTime := 0, image := 0#24, mask := 0#24, sinceSync := 0, segment := 0#16, lossCount := 0, firstLost := 0,
    lastLost := 0, stopReason := .hostStop }

/-- A consumer record after device reset (R28). -/
def Consumer.reset : Consumer :=
  { attached := false, read := 0#32, release := 0#32, skips := 0, skipPending := false }

/-- The journal table's reset value (R39). -/
def JournalTable.reset : JournalTable :=
  { policy := .keepOldest, syncInterval := 4#8, resumeRoom := 4#8, p := 1#8, q := 256#16 }

/-- The store after device reset (R24, R26, R28, R36, R39), its RAM holding `ram`. -/
def Store.reset (ram : Memory) : Store :=
  { ram := ram, head := 0#32, tail := 0#32, index := [], hostC := Consumer.reset, exportC := Consumer.reset,
    fill := .normal, table := JournalTable.reset }

/-- A trigger rule's reset value (R109). -/
def TriggerRule.reset : TriggerRule :=
  { enable := false, channel := 0, edge := .rise, mask := 0#24, value := 0#24, action := .note, interrupt := false }

/-- The trigger unit after device reset (R109, R115). -/
def TriggerUnit.reset : TriggerUnit :=
  { rules := Vector.replicate 8 TriggerRule.reset, hold := .noHold, action := .hold, quota := 256, count := 0,
    start := 0#32 }

/-- The export link after device reset (R132), its port in the given phase, with XCLK at the given level and no bit
received. -/
def Link.reset (phase : LinkPhase) (clock : Bool) : Link :=
  { outstanding := [], nextSeq := 0#8, aborts := 0, error := false, flight := none, phase := phase,
    port := SerialPort.fresh clock }

/-- The latches after device reset (R149). -/
def Latches.reset : Latches :=
  { javail := 0#16, hposr := 0#32, hposl := 0#32, timenow := 0#56, flthead := 0#72, live := 0#24, jhead := 0#32,
    holds := 0#32 }

/-- The host bus with no strobe and no chip select. -/
def HostBus.idle : HostBus := { cs := true, rd := true, wr := true, spoiled := false }

/-- The host window after device reset (R149), on an idle bus. -/
def HostWindow.reset : HostWindow :=
  { tabsel := 0#8, tabidx := 0#8, entry := Vector.replicate 8 0#8, result := .ok, inProgress := none,
    collision := false, readEmpty := false, latches := Latches.reset, avth := 64#16, avthLow := 0x40#8, dataOut := none,
    bus := HostBus.idle }

/-- The interrupt and fault unit after device reset (R168). -/
def FaultUnit.reset : FaultUnit :=
  { irqf := 0#8, irqe := 0#8, above := false, faults := [], lost := 0 }

/-- The loader after device reset (R179): READING when the CFGLD strap is high, IDLE when it is low. -/
def Loader.reset (cfgld : Bool) : Loader :=
  { state := if cfgld then .reading else .idle, cause := .reset, autoStart := false, attachHost := false,
    attachExport := false, count := 0, read := 0, crc := 0xFFFF#16, staged := 0, headerSeen := false,
    autoStartDue := false, port := SerialPort.fresh false }

/-- The part right after power-on with the CFGLD strap low and every field line at 0 (log entries 1 to 4). -/
def State.reset : State :=
  { icu := Vector.replicate 24 (ChannelRec.reset false), tb := TimeBase.reset, oq := Capture.reset .stopped,
    je := Encoder.reset, js := Store.reset [], tu := TriggerUnit.reset, xl := Link.reset .deselected false,
    hw := HostWindow.reset, ifu := FaultUnit.reset, cl := Loader.reset false, pending := [], choices := 0 }

end Sys2Proof.Machine
end

