-- ==== Sys2Proof/Machine/Clock.lean ====
section
/-! DEFINITION. Arithmetic on times: distances around the time cycle, order, rebasing, and the seconds and microseconds
of a time (00_scope.md "Time", R7, R69, R88, R94). -/

namespace Sys2Proof.Machine

/-- Half the time cycle, in µs (R7). -/
def halfCycle : Nat := 2147483648000000

/-- The forward distance in µs from `a` to `b` around the time cycle (R7). -/
def forward (a b : Time) : Nat := (b - a).val

/-- `a` lies before `b`: the forward distance from `a` to `b` is above 0 and below half the cycle (R7, R62). -/
def isBefore (a b : Time) : Bool := decide (0 < forward a b) && decide (forward a b < halfCycle)

/-- The counter `now` has reached the time `deadline`: it lies at or after it (R7). -/
def reached (now deadline : Time) : Bool := !isBefore now deadline

/-- The later of a running time and a stamp: the stamp unless it lies before the running time (R7, R12, R13). -/
def later (running stamp : Time) : Time := if isBefore stamp running then running else stamp

/-- The time `n` µs after `t`, wrapping as the counter does (R90). -/
def addMicros (t : Time) (n : Nat) : Time := t + Fin.ofNat _ n

/-- The seconds of a time. -/
def secondsOf (t : Time) : BitVec 32 := BitVec.ofNat 32 (t.val / 1000000)

/-- The microseconds of a time, 0 to 999,999. -/
def microsOf (t : Time) : Nat := t.val % 1000000

/-- The time with the given seconds and microseconds. -/
def timeOf (seconds : BitVec 32) (micros : Nat) : Time := Fin.ofNat _ (seconds.toNat * 1000000 + micros)

/-- A step of `S` µs would take `t` below 0.000000 (R69, R88). -/
def clampsAt (t : Time) (S : Int) : Bool := decide ((t.val : Int) + S < 0)

/-- `t` rebased by a step of `S` µs: set to 0.000000 where `S` would take it below, wrapped at the end of the seconds
count (R69, R70, R88, R104). -/
def rebase (t : Time) (S : Int) : Time :=
  if clampsAt t S then 0 else Fin.ofNat _ ((t.val : Int) + S).toNat

/-- The offset e of a pulse whose counter value is `t` (R94). -/
def offsetOf (t : Time) : Int :=
  if microsOf t < 500000 then (microsOf t : Int) else (microsOf t : Int) - 1000000

end Sys2Proof.Machine
end

