-- ==== Sys2Proof/Machine/Ops.lean ====
section
/-! DEFINITION. Shared operations: the updates of one block of the state, the journal RAM, bytes of wider values,
saturating counts, images. -/

namespace Sys2Proof.Machine

/-! ### One block of the state -/

/-- The state with its channels mapped. -/
def State.onIcu (f : Vector ChannelRec 24 → Vector ChannelRec 24) (s : State) : State := { s with icu := f s.icu }
/-- The state with its time base mapped. -/
def State.onTb (f : TimeBase → TimeBase) (s : State) : State := { s with tb := f s.tb }
/-- The state with its capture control mapped. -/
def State.onOq (f : Capture → Capture) (s : State) : State := { s with oq := f s.oq }
/-- The state with its encoder mapped. -/
def State.onJe (f : Encoder → Encoder) (s : State) : State := { s with je := f s.je }
/-- The state with its store mapped. -/
def State.onJs (f : Store → Store) (s : State) : State := { s with js := f s.js }
/-- The state with its trigger unit mapped. -/
def State.onTu (f : TriggerUnit → TriggerUnit) (s : State) : State := { s with tu := f s.tu }
/-- The state with its export link mapped. -/
def State.onXl (f : Link → Link) (s : State) : State := { s with xl := f s.xl }
/-- The bits of the export link's port updated. -/
def State.onLinkPort (f : SerialPort → SerialPort) (s : State) : State := s.onXl fun x => { x with port := f x.port }
/-- The state with its host window mapped. -/
def State.onHw (f : HostWindow → HostWindow) (s : State) : State := { s with hw := f s.hw }
/-- The host bus lines updated. -/
def State.onBus (f : HostBus → HostBus) (s : State) : State := s.onHw fun w => { w with bus := f w.bus }
/-- The state with its interrupt and fault unit mapped. -/
def State.onIfu (f : FaultUnit → FaultUnit) (s : State) : State := { s with ifu := f s.ifu }
/-- The state with its loader mapped. -/
def State.onCl (f : Loader → Loader) (s : State) : State := { s with cl := f s.cl }
/-- The bits of the configuration memory's port updated. -/
def State.onMemoryPort (f : SerialPort → SerialPort) (s : State) : State := s.onCl fun c => { c with port := f c.port }
/-- The state after one more free value has been drawn. -/
def State.drawn (s : State) : State := { s with choices := s.choices + 1 }

/-! ### The journal RAM -/

/-- What a ring offset that nothing has written holds (log entry 2). -/
def Memory.default : Byte := 0#8

/-- The byte at a ring offset. -/
def Memory.read : Memory → Nat → Byte
  | [], _ => Memory.default
  | (k, v) :: rest, a => if k = a then v else Memory.read rest a

/-- The memory with `b` at offset `a`, in canonical form. -/
def Memory.write : Memory → Nat → Byte → Memory
  | [], a, b => if b = Memory.default then [] else [(a, b)]
  | (k, v) :: rest, a, b =>
    if a < k then (if b = Memory.default then (k, v) :: rest else (a, b) :: (k, v) :: rest)
    else if a = k then (if b = Memory.default then rest else (a, b) :: rest)
    else (k, v) :: Memory.write rest a b

/-- The canonical form: offsets strictly rising and within the ring, and no entry at the default. -/
abbrev Memory.wf (m : Memory) : Prop :=
  m.Pairwise (fun x y => x.1 < y.1) ∧ ∀ c ∈ m, c.1 < Config.ringSize ∧ c.2 ≠ Memory.default

/-- Writes `bytes` from position `at` upwards, each at its position modulo the ring size (R24, R25). -/
def Memory.writeBytes (m : Memory) (pos : Nat) : List Byte → Memory
  | [] => m
  | b :: bs => Memory.writeBytes (Memory.write m (pos % Config.ringSize) b) (pos + 1) bs

/-- The `n` bytes from position `pos` upwards (R30). -/
def Memory.readBytes (m : Memory) (pos : Pos) : Nat → List Byte
  | 0 => []
  | n + 1 => Memory.read m (pos.toNat % Config.ringSize) :: Memory.readBytes m (pos + 1#32) n

/-! ### Bits of a serial port -/

/-- The byte of eight bits, the most significant first (00_scope.md, "Byte order"). -/
def byteOfBits (bits : List Bool) : Byte := bits.foldl BitVec.shiftConcat 0#8

/-- A rising edge of the clock samples one bit; the eighth completes a byte (R127, R180). -/
def SerialPort.rise (bit : Bool) (p : SerialPort) : SerialPort :=
  let bits := p.sampled ++ [bit]
  if bits.length < 8 then { p with clock := true, sampled := bits }
  else { p with clock := true, sampled := [], received := p.received ++ [byteOfBits bits] }

/-- A falling edge of the clock presents the next bit (R127, R180). -/
def SerialPort.fall (p : SerialPort) : SerialPort := { p with clock := false, presented := p.presented + 1 }

/-- The bit a port presents of the bytes it sends, the most significant first; none where it drives no byte. -/
def SerialPort.output (p : SerialPort) (sent : Nat → Option Byte) : Option Bool :=
  (sent (p.presented / 8)).map fun b => b.getMsbD (p.presented % 8)

/-! ### Bytes, counts, images -/

/-- Byte `i` of a value, byte 0 the least significant (chapter 12: least significant byte first). -/
def byteOf {w : Nat} (v : BitVec w) (i : Nat) : Byte := v.extractLsb' (8 * i) 8

/-- The first `n` bytes of a value, least significant first. -/
def bytesOf {w : Nat} (v : BitVec w) (n : Nat) : List Byte := (List.range n).map (byteOf v)

/-- The seven bytes of a full time: seconds in bytes 0–3, microseconds in bytes 4–6 (R2, chapter 12). -/
def timeWord (t : Time) : BitVec 56 := BitVec.ofNat 24 (microsOf t) ++ secondsOf t

/-- `n` increased by one, saturating at `limit`. -/
def satInc (limit n : Nat) : Nat := if n < limit then n + 1 else limit

/-- Channel `ch`'s bit in an image. -/
def chanBit (ch : Channel) : Image := BitVec.ofNat 24 (2 ^ ch.val)

/-- An image with channel `ch` at `level`. -/
def setLevel (img : Image) (ch : Channel) (level : Bool) : Image :=
  if level then img ||| chanBit ch else img &&& ~~~chanBit ch

/-- The image that holds 1 exactly for the channels where `f` does. -/
def imageOf (f : Channel → Bool) : Image :=
  (List.finRange 24).foldl (fun img ch => if f ch then img ||| chanBit ch else img) 0#24

/-- The accepted levels of the 24 channels (R75, the LIVE readout). -/
def liveImage (s : State) : Image := imageOf (fun ch => s.icu[ch].accepted)

/-- The channels whose descriptor enables them (R11, R71). -/
def enabledImage (s : State) : Image := imageOf (fun ch => s.icu[ch].desc.enable)

end Sys2Proof.Machine
end

