-- ==== Sys2Proof/Machine/Flags.lean ====
section
/-! DEFINITION. The interrupt flags and the fault log (chapter 9), the AVL comparison (R171), and the status bytes of the
host window and the export link (R129, R153, R198). -/

namespace Sys2Proof.Machine

/-! ### Codes -/

/-- The quality code (R194). -/
def Quality.code : Quality → Nat
  | .unsynced => 0
  | .acquiring => 1
  | .locked => 2
  | .holdover => 3

/-- The hold state code (R194). -/
def HoldState.code : HoldState → Nat
  | .noHold => 0
  | .collecting => 1
  | .closed => 2

/-- The fill policy code (R194). -/
def FillPolicy.code : FillPolicy → Nat
  | .keepOldest => 0
  | .keepNewest => 1

/-- The capture state code (R194). -/
def CaptureState.code : CaptureState → Nat
  | .stopped => 0
  | .running => 1
  | .draining => 2
  | .loading => 3

/-- The result code (R157). -/
def Result.code : Result → Byte
  | .ok => 0#8
  | .locked => 1#8
  | .badarg => 2#8
  | .nospace => 3#8
  | .notattached => 4#8
  | .unknown => 5#8

/-- The fault kind code (R175). -/
def FaultKind.code : FaultKind → Byte
  | .forced => 1#8
  | .late => 2#8
  | .clamp => 3#8
  | .linkcheck => 4#8
  | .loadfail => 5#8

/-! ### Flags -/

/-- AVL's bit in IRQF and IRQE (R198). -/
def flagAvl : BitVec 8 := 0x01#8
/-- TRG's bit. -/
def flagTrg : BitVec 8 := 0x02#8
/-- HLD's bit. -/
def flagHld : BitVec 8 := 0x04#8
/-- LSS's bit. -/
def flagLss : BitVec 8 := 0x08#8
/-- TQC's bit. -/
def flagTqc : BitVec 8 := 0x10#8
/-- FLT's bit. -/
def flagFlt : BitVec 8 := 0x20#8
/-- STP's bit. -/
def flagStp : BitVec 8 := 0x40#8
/-- CMD's bit. -/
def flagCmd : BitVec 8 := 0x80#8

/-- Sets a sticky flag (R169). -/
def setFlag (flag : BitVec 8) (s : State) : State := s.onIfu fun u => { u with irqf := u.irqf ||| flag }

/-- IRQ# is driven low: some flag and its enable are both set (R172). -/
def irqLow (s : State) : Bool := s.ifu.irqf &&& s.ifu.irqe != 0#8

/-! ### The fault log -/

/-- Logs a fault: appended with the present counter, or counted as lost when the queue holds four; FLT is set (R174). -/
def logFault (kind : FaultKind) (detail : Byte) (s : State) : State :=
  setFlag flagFlt <| s.onIfu fun u =>
    if u.faults.length < Config.faultCapacity then
      { u with faults := u.faults ++ [{ kind := kind, detail := detail, time := s.tb.counter }] }
    else { u with lost := satInc 255 u.lost }

/-- Logs one fault of a kind for each detail, in order. -/
def logFaults (kind : FaultKind) : List Byte → State → State
  | [], s => s
  | d :: ds, s => logFaults kind ds (logFault kind d s)

/-! ### Unread counts and AVL -/

/-- A consumer's unread count: head minus read mark, 0 while it is detached (R28, R171, R144). -/
def unreadOf (head : Pos) (c : Consumer) : Nat := if c.attached then (head - c.read).toNat else 0

/-- HOST's unread count. -/
def hostUnread (s : State) : Nat := unreadOf s.js.head s.js.hostC

/-- EXPORT's unread count. -/
def exportUnread (s : State) : Nat := unreadOf s.js.head s.js.exportC

/-- Evaluates the AVL comparison after a change of either side; AVL is set when it turns true (R171). -/
def evalAvl (s : State) : State :=
  let above := decide (s.hw.avth.toNat ≤ hostUnread s)
  let s' := s.onIfu fun u => { u with above := above }
  if above && !s.ifu.above then setFlag flagAvl s' else s'

/-! ### Status bytes -/

/-- A flag at bit `i` of a byte. -/
def bitAt (i : Nat) (b : Bool) : Byte := if b then BitVec.ofNat 8 (2 ^ i) else 0#8

/-- BUSY: a command has been taken and has not completed (R149). -/
def busy (s : State) : Bool := s.hw.inProgress.isSome

/-- The hold is active: COLLECTING or CLOSED (R129). -/
def holdActive (s : State) : Bool := s.tu.hold != .noHold

/-- The store is LOSING. -/
def isLosing (s : State) : Bool := s.js.fill == .losing

/-- CAPST (R153, R198). -/
def capst (s : State) : Byte :=
  BitVec.ofNat 8 s.oq.state.code ||| bitAt 2 (busy s) ||| bitAt 3 (isLosing s) |||
    BitVec.ofNat 8 (16 * s.tu.hold.code) ||| bitAt 6 s.js.hostC.attached ||| bitAt 7 (decide (0 < hostUnread s))

/-- TIMEST (R153, R198). -/
def timest (s : State) : Byte :=
  BitVec.ofNat 8 s.tb.quality.code ||| bitAt 2 s.tb.table.ppsEnable ||| BitVec.ofNat 8 (8 * s.tb.rejects)

/-- CMDFLAG (R153, R198). -/
def cmdflag (s : State) : Byte :=
  bitAt 0 s.hw.collision ||| bitAt 1 s.hw.readEmpty ||| bitAt 2 s.js.hostC.skipPending

/-- The link status byte (R129, R195). -/
def linkStatus (s : State) : Byte :=
  bitAt 0 s.js.exportC.attached ||| bitAt 1 (decide (0 < exportUnread s)) |||
    bitAt 2 (decide (s.xl.outstanding.length = Config.frameCapacity)) ||| bitAt 3 s.js.exportC.skipPending |||
    bitAt 4 (holdActive s) ||| bitAt 5 (isLosing s) ||| bitAt 6 (s.oq.state == .loading) ||| bitAt 7 s.xl.error

end Sys2Proof.Machine
end

