-- ==== Sys2Proof/Machine/Operands.lean ====
section
/-! DEFINITION. Operand forms: the layouts of table entries (R197) with their checks (R39, R72, R92, R110), the selection
of an entry by table id and index (R164), and the arguments of host commands (R163, R198). -/

namespace Sys2Proof.Machine

/-- Eight entry bytes, as ENTRY0–7 or an image record carry them. -/
abbrev EntryBytes := Vector Byte 8

/-- An entry selected by a table id and an index (R164). -/
inductive TableSlot where
  | channel (i : Channel)
  | trigger (i : Fin 8)
  | time
  | journal
  deriving DecidableEq, Repr

/-- The entry a table id and an index select; none for an id other than 1 to 4 or an index out of range (R164). -/
def slotOf (table index : Byte) : Option TableSlot :=
  match table.toNat with
  | 1 => if h : index.toNat < 24 then some (.channel ⟨index.toNat, h⟩) else none
  | 2 => if h : index.toNat < 8 then some (.trigger ⟨index.toNat, h⟩) else none
  | 3 => if index.toNat = 0 then some .time else none
  | 4 => if index.toNat = 0 then some .journal else none
  | _ => none

/-- A checked entry together with its place. -/
inductive TableEntry where
  | channel (i : Channel) (d : ChanDesc)
  | trigger (i : Fin 8) (r : TriggerRule)
  | time (t : TimeTable)
  | journal (j : JournalTable)
  deriving DecidableEq, Repr

/-- A yes/no field: 0 no, 1 yes, any other code fails (R197). -/
def yesNo (v : Nat) : Option Bool :=
  match v with
  | 0 => some false
  | 1 => some true
  | _ => none

/-- The yes/no field's code. -/
def yesNoCode (b : Bool) : Nat := if b then 1 else 0

/-- Bits `hi` down to `lo` of a byte, as a number. -/
def bitField (b : Byte) (hi lo : Nat) : Nat := b.toNat / 2 ^ lo % 2 ^ (hi + 1 - lo)

/-- A 16-bit value from its low and high byte. -/
def word16 (low high : Byte) : BitVec 16 := high ++ low

/-- A 24-bit value from its bytes, least significant first. -/
def word24 (b0 b1 b2 : Byte) : BitVec 24 := b2 ++ b1 ++ b0

/-- A 32-bit value from its bytes, least significant first. -/
def word32 (b0 b1 b2 b3 : Byte) : BitVec 32 := b3 ++ b2 ++ b1 ++ b0

/-- The chatter limit is 0 or 2 to 63 (R72). -/
def chatterLimitOk (b : Byte) : Bool := b == 0#8 || (2 ≤ b.toNat && b.toNat ≤ 63)

/-- A channel descriptor from its bytes, none where a check of R72 fails. -/
def decodeChannel (b : EntryBytes) : Option ChanDesc :=
  match yesNo (bitField b[0] 3 0), yesNo (bitField b[0] 7 4) with
  | some enable, some invert =>
    if chatterLimitOk b[2] && b[3] != 0#8 && b[4] != 0#8 && b[5] == 0#8 && b[6] == 0#8 && b[7] == 0#8 then
      some { enable := enable, invert := invert, settle := b[1], chatterLimit := b[2], chatterWindow := b[3],
             quietTime := b[4] }
    else none
  | _, _ => none

/-- A channel descriptor's bytes (R197). -/
def encodeChannel (d : ChanDesc) : EntryBytes :=
  #v[BitVec.ofNat 8 (yesNoCode d.enable + 16 * yesNoCode d.invert), d.settle, d.chatterLimit, d.chatterWindow,
     d.quietTime, 0#8, 0#8, 0#8]

/-- The edge field's meaning (R197). -/
def ruleEdgeOf (v : Nat) : Option RuleEdge :=
  match v with
  | 0 => some .rise
  | 1 => some .fall
  | 2 => some .either
  | _ => none

/-- The edge field's code. -/
def RuleEdge.code : RuleEdge → Nat
  | .rise => 0
  | .fall => 1
  | .either => 2

/-- The action field's meaning (R197). -/
def ruleActionOf (v : Nat) : Option RuleAction :=
  match v with
  | 0 => some .note
  | 1 => some .hold
  | 2 => some .holdStop
  | _ => none

/-- The action field's code. -/
def RuleAction.code : RuleAction → Nat
  | .note => 0
  | .hold => 1
  | .holdStop => 2

/-- A trigger rule from its bytes, none where a check of R110 fails. -/
def decodeTrigger (b : EntryBytes) : Option TriggerRule :=
  let mask := word24 b[2] b[3] b[4]
  let value := word24 b[5] b[6] b[7]
  match ruleEdgeOf (bitField b[0] 6 5), yesNo (bitField b[1] 1 0), ruleActionOf (bitField b[1] 3 2),
      yesNo (bitField b[1] 5 4) with
  | some edge, some enable, some action, some interrupt =>
    if h : bitField b[0] 4 0 < 24 then
      if bitField b[0] 7 7 == 0 && bitField b[1] 7 6 == 0 && value &&& ~~~mask == 0#24 then
        some { enable := enable, channel := ⟨bitField b[0] 4 0, h⟩, edge := edge, mask := mask, value := value,
               action := action, interrupt := interrupt }
      else none
    else none
  | _, _, _, _ => none

/-- A trigger rule's bytes (R197). -/
def encodeTrigger (r : TriggerRule) : EntryBytes :=
  #v[BitVec.ofNat 8 (r.channel.val + 32 * r.edge.code),
     BitVec.ofNat 8 (yesNoCode r.enable + 4 * r.action.code + 16 * yesNoCode r.interrupt),
     byteOf r.mask 0, byteOf r.mask 1, byteOf r.mask 2, byteOf r.value 0, byteOf r.value 1, byteOf r.value 2]

/-- The PPS edge field's meaning (R197). -/
def ppsEdgeOf (v : Nat) : Option PpsEdge :=
  match v with
  | 0 => some .rising
  | 1 => some .falling
  | _ => none

/-- The PPS edge field's code. -/
def ppsEdgeCode : PpsEdge → Nat
  | .rising => 0
  | .falling => 1

/-- The time entry from its bytes, none where a check of R92 fails. -/
def decodeTime (b : EntryBytes) : Option TimeTable :=
  let w := word16 b[1] b[2]
  let limit := word16 b[4] b[5]
  match yesNo (bitField b[0] 3 0), ppsEdgeOf (bitField b[0] 7 4) with
  | some enable, some edge =>
    if 10 ≤ w.toNat && w.toNat ≤ 50000 && limit != 0#16 && b[6] == 0#8 && b[7] == 0#8 then
      some { ppsEnable := enable, ppsEdge := edge, lockWindow := w, trimBand := b[3], holdoverLimit := limit }
    else none
  | _, _ => none

/-- The time entry's bytes on reading, with the trim count in the final two (R92). -/
def encodeTime (t : TimeTable) (trims : Nat) : EntryBytes :=
  let c := BitVec.ofNat 16 trims
  #v[BitVec.ofNat 8 (yesNoCode t.ppsEnable + 16 * ppsEdgeCode t.ppsEdge), byteOf t.lockWindow 0, byteOf t.lockWindow 1,
     t.trimBand, byteOf t.holdoverLimit 0, byteOf t.holdoverLimit 1, byteOf c 0, byteOf c 1]

/-- The policy byte's meaning (R197). -/
def policyOf (v : Byte) : Option FillPolicy :=
  match v.toNat with
  | 0 => some .keepOldest
  | 1 => some .keepNewest
  | _ => none

/-- The journal entry from its bytes, none where a check of R39 fails. -/
def decodeJournal (b : EntryBytes) : Option JournalTable :=
  let q := word16 b[4] b[5]
  match policyOf b[0] with
  | some policy =>
    if 1 ≤ b[1].toNat && b[1].toNat ≤ 16 && 1 ≤ b[2].toNat && b[2].toNat ≤ 16 && b[3].toNat ≤ 15 &&
        1 ≤ q.toNat && q.toNat ≤ 4095 && b[6] == 0#8 && b[7] == 0#8 then
      some { policy := policy, syncInterval := b[1], resumeRoom := b[2], p := b[3], q := q }
    else none
  | none => none

/-- The journal entry's bytes (R197). -/
def encodeJournal (j : JournalTable) : EntryBytes :=
  #v[BitVec.ofNat 8 j.policy.code, j.syncInterval, j.resumeRoom, j.p, byteOf j.q 0, byteOf j.q 1, 0#8, 0#8]

/-- The check of a whole entry by the selected table's rule (R164, R182). -/
def decodeEntry (slot : TableSlot) (b : EntryBytes) : Option TableEntry :=
  match slot with
  | .channel i => (decodeChannel b).map (.channel i)
  | .trigger i => (decodeTrigger b).map (.trigger i)
  | .time => (decodeTime b).map .time
  | .journal => (decodeJournal b).map .journal

/-- The selected entry's bytes as READ ENTRY returns them (R165). -/
def encodeSlot (slot : TableSlot) (s : State) : EntryBytes :=
  match slot with
  | .channel i => encodeChannel s.icu[i].desc
  | .trigger i => encodeTrigger s.tu.rules[i]
  | .time => encodeTime s.tb.table s.tb.trims
  | .journal => encodeJournal s.js.table

/-- MARK's tag: ENTRY0 low, ENTRY1 high (R66). -/
def markTag (s : State) : BitVec 16 := word16 s.hw.entry[0] s.hw.entry[1]

/-- SET TIME's seconds: ENTRY0–3 (R105). -/
def argSeconds (s : State) : BitVec 32 := word32 s.hw.entry[0] s.hw.entry[1] s.hw.entry[2] s.hw.entry[3]

/-- SET TIME's microseconds: ENTRY4–6 (R105). -/
def argMicros (s : State) : Nat := (word24 s.hw.entry[4] s.hw.entry[5] s.hw.entry[6]).toNat

end Sys2Proof.Machine
end

