-- ==== Sys2Proof/Machine/Packets.lean ====
section
/-! DEFINITION. The bytes of journal packets (R2 to R5, R194) and the CRC-16 of frames and images (R136, R183). -/

namespace Sys2Proof.Machine

/-! ### CRC-16 -/

/-- One bit of the CRC, generator x^16 + x^12 + x^5 + 1 (R136). -/
def crcBit (crc : BitVec 16) : BitVec 16 :=
  if crc.msb then (crc <<< 1) ^^^ 0x1021#16 else crc <<< 1

/-- One byte of the CRC, most significant bit first (R136). -/
def crcByte (crc : BitVec 16) (b : Byte) : BitVec 16 :=
  crcBit <| crcBit <| crcBit <| crcBit <| crcBit <| crcBit <| crcBit <| crcBit (crc ^^^ (b ++ 0#8))

/-- The CRC continued over bytes. -/
def crcOver (crc : BitVec 16) (bytes : List Byte) : BitVec 16 := bytes.foldl crcByte crc

/-- The CRC-16 of bytes, from the initial value FFFFh (R136). -/
def crc16 (bytes : List Byte) : BitVec 16 := crcOver 0xFFFF#16 bytes

/-! ### Fields -/

/-- The fewest bytes that hold a count, seven bits each, least significant group first (R2); `fuel` bytes at most. -/
def varintBytes : Nat → Nat → List Byte
  | 0, _ => []
  | fuel + 1, n =>
    if n < 128 then [BitVec.ofNat 8 n] else BitVec.ofNat 8 (n % 128 + 128) :: varintBytes fuel (n / 128)

/-- A delta or backward distance field, one to five bytes (R2). -/
def varint (n : Nat) : List Byte := varintBytes 5 n

/-- A full time field (R2). -/
def fullTime (t : Time) : List Byte := bytesOf (timeWord t) 7

/-- A header: the kind code in bits 7–4 and small fields in bits 3–0 (R194). -/
def header (kind small : Nat) : Byte := BitVec.ofNat 8 (16 * kind + small)

/-- 1 for true, 0 for false. -/
def bit (b : Bool) : Nat := if b then 1 else 0

/-! ### The entry packets -/

/-- An entry's order key: its channel, 24 for TIMEQ, 25 for MARK (R61). -/
def orderKey (e : Entry) : Nat :=
  match e.body with
  | .change ch _ => ch.val
  | .suppress ch _ => ch.val
  | .release ch _ => ch.val
  | .timeq _ _ => 24
  | .mark _ _ => 25

/-- The order key as a fault's detail (R9, R64). -/
def orderDetail (e : Entry) : Byte := BitVec.ofNat 8 (orderKey e)

/-- An entry is late when its stamp lies before the running time (R9). -/
def isLate (running : Time) (e : Entry) : Bool := isBefore e.stamp running

/-- The delta or the backward distance of an entry's packet (R8, R9); 0 for a late TIMEQ. -/
def entryDistance (running : Time) (e : Entry) : Nat :=
  if isLate running e then
    match e.body with
    | .timeq _ _ => 0
    | _ => min (forward e.stamp running) Config.deltaMax
  else forward running e.stamp

/-- An entry's packet against the running time (R4, R8, R9, R194). -/
def entryPacket (running : Time) (e : Entry) : List Byte :=
  let late := bit (isLate running e)
  let dist := varint (entryDistance running e)
  match e.body with
  | .change ch level => header 2 (bit level + 2 * late) :: BitVec.ofNat 8 ch.val :: dist
  | .suppress ch level => header 3 (bit level + 2 * late) :: BitVec.ofNat 8 ch.val :: dist
  | .release ch level => header 3 (bit level + 2 * late + 4) :: BitVec.ofNat 8 ch.val :: dist
  | .timeq new previous => header 4 (new.code + 4 * previous.code) :: dist
  | .mark tag source =>
    header 7 ((match source with | .host => 0 | .link => 1) + 2 * late) :: (bytesOf tag 2 ++ dist)

/-! ### The encoder packets -/

/-- SYNC's status byte: quality, hold state, fill policy (R3, R194). -/
def syncStatus (s : State) : Byte :=
  BitVec.ofNat 8 (s.tb.quality.code + 4 * s.tu.hold.code + 16 * s.js.table.policy.code)

/-- The SYNC packet composed now with the given time and image (R3, R194); a channel outside the mask is written 0. -/
def syncPacket (s : State) (time : Time) (image : Image) : List Byte :=
  header 1 0 :: (bytesOf s.je.segment 2 ++ fullTime time ++ [syncStatus s] ++ bytesOf s.je.mask 3 ++
    bytesOf (image &&& s.je.mask) 3)

/-- The STEP packet (R5, R194). -/
def stepPacket (cause : StepCause) (old new : Time) : List Byte :=
  header 5 (match cause with | .pulse => 0 | .host => 1) :: (fullTime old ++ fullTime new)

/-- The LOSS packet carrying the loss record (R5, R194). -/
def lossPacket (e : Encoder) : List Byte :=
  header 6 0 :: (bytesOf (BitVec.ofNat 16 e.lossCount) 2 ++ fullTime e.firstLost ++ fullTime e.lastLost)

/-- The TRIGGER packet of a rule: outcome "hold busy" or "action taken" (R5, R194). -/
def triggerPacket (rule : Fin 8) (holdBusy : Bool) : List Byte :=
  [header 8 (bit holdBusy), BitVec.ofNat 8 rule.val]

/-- The reason of a HOLD packet (R5). -/
inductive HoldReason where
  | byQuota
  | byStop
  | released
  deriving DecidableEq, Repr

/-- The HOLD packet (R194). -/
def holdPacket (reason : HoldReason) : List Byte :=
  [header 9 (match reason with | .byQuota => 1 | .byStop => 2 | .released => 3)]

/-- The END packet (R5, R194). -/
def endPacket (reason : StopReason) (stopTime : Time) : List Byte :=
  header 10 (match reason with | .hostStop => 0 | .holdStop => 1) :: fullTime stopTime

end Sys2Proof.Machine
end

