-- ==== Sys2Proof/Machine/Store.lean ====
section
/-! DEFINITION. The journal store's operations (chapter 2): positions, freeing, discard with the link's discard notice
(R146), the fit test, offers, attach, release, reread and detach. -/

namespace Sys2Proof.Machine

/-! ### Positions -/

/-- The forward distance of a position from the tail (R24). -/
def distFrom (tail p : Pos) : Nat := (p - tail).toNat

/-- `p` lies below `q`, measured from `tail` (R24). -/
def below (tail p q : Pos) : Bool := decide (distFrom tail p < distFrom tail q)

/-- Occupancy: head minus tail (R24). -/
def occupancy (j : Store) : Nat := distFrom j.tail j.head

/-- Free space (R24). -/
def freeSpace (j : Store) : Nat := Config.ringSize - occupancy j

/-- Moves the tail; the index entries below the new tail leave (R26, R35, R41). -/
def moveTail (t : Pos) (j : Store) : Store :=
  { j with tail := t, index := j.index.filter fun e => !below j.tail e t }

/-- The first sync-index entry at or after the tail, or the head when there is none (R26, R29). -/
def attachPoint (j : Store) : Pos := j.index.head?.getD j.head

/-- The first sync-index entry strictly after the tail (R26). -/
def nextSync (j : Store) : Option Pos := j.index.find? fun e => decide (0 < distFrom j.tail e)

/-- The sync-index entry `p` entries before the newest, or the tail when the index holds `p` entries or fewer
(R26, R116). -/
def syncBeforeNewest (j : Store) (p : Nat) : Pos :=
  if j.index.length ≤ p then j.tail else j.index.getD (j.index.length - 1 - p) j.tail

/-- The bound on the tail: the protected start while the hold is active (R27). -/
def holdBound (s : State) : Option Pos := if holdActive s then some s.tu.start else none

/-! ### Freeing -/

/-- Of two positions, the one nearer the tail. -/
def nearer (tail a b : Pos) : Pos := if below tail b a then b else a

/-- Where freeing moves the tail: the smallest attached release mark, bounded by the protected start; none while no
consumer is attached (R35). -/
def freeTarget (s : State) : Option Pos :=
  let marks :=
    (if s.js.hostC.attached then [s.js.hostC.release] else []) ++
      (if s.js.exportC.attached then [s.js.exportC.release] else [])
  match marks with
  | [] => none
  | m :: ms => some ((ms ++ (holdBound s).toList).foldl (nearer s.js.tail) m)

/-- Re-evaluates freeing (R35). -/
def reevalFreeing (s : State) : State :=
  match freeTarget s with
  | none => s
  | some t => s.onJs (moveTail t)

/-! ### Discard -/

/-- A consumer after a discard step from `old` to `new` (R42). -/
def discardConsumer (old new : Pos) (c : Consumer) : Consumer :=
  if c.attached && below old c.release new then
    { c with release := new, read := if below old c.read new then new else c.read, skips := satInc 255 c.skips,
             skipPending := true }
  else c

/-- The frame records a discard notice leaves (R146). -/
def prunedFrames (old new : Pos) (frames : List FrameRec) : List FrameRec :=
  frames.filter fun f => !below old f.start new

/-- The export link takes a discard notice: the new tail, positions measured from the old one (R43, R146). -/
def discardNotice (old new : Pos) (s : State) : State :=
  if s.js.exportC.attached then
    let kept := prunedFrames old new s.xl.outstanding
    let c := s.js.exportC
    let release := match kept with | [] => c.read | f :: _ => f.start
    let read := if below old c.read new then new else c.read
    reevalFreeing <| (s.onXl fun x => { x with outstanding := kept }).onJs fun j =>
      { j with exportC := { c with release := release, read := read } }
  else s

/-- Where the next discard step would move the tail: the next sync-index entry after it, unless that lies beyond the
protected start (R41). -/
def discardTarget (s : State) : Option Pos :=
  match nextSync s.js with
  | none => none
  | some e =>
    match holdBound s with
    | none => some e
    | some b => if below s.js.tail b e then none else some e

/-- One discard step to `e`, with its effects on the consumers and the link (R41 to R43). -/
def discardTo (e : Pos) (s : State) : State :=
  let old := s.js.tail
  discardNotice old e <| evalAvl <| s.onJs fun j =>
    { moveTail e j with hostC := discardConsumer old e j.hostC, exportC := discardConsumer old e j.exportC }

/-- Discard steps until `goal` holds or no further step is possible; `fuel` steps at most (R41). -/
def discardUntil (goal : State → Bool) : Nat → State → State
  | 0, s => s
  | fuel + 1, s =>
    if goal s then s
    else
      match discardTarget s with
      | none => s
      | some e => discardUntil goal fuel (discardTo e s)

/-- Makes room by the fill policy: discard under KEEP-NEWEST, nothing under KEEP-OLDEST (R40, R41, R46, R47). Each step
takes at least one of the index entries after the tail away, so the index's length bounds the steps. -/
def makeRoom (goal : State → Bool) (s : State) : State :=
  match s.js.table.policy with
  | .keepOldest => s
  | .keepNewest => discardUntil goal s.js.index.length s

/-! ### Offers -/

/-- The fit test for a packet of `n` bytes (R37). -/
def fits (n : Nat) (isSync : Bool) (s : State) : Bool :=
  decide (n + Config.reserve ≤ freeSpace s.js) && (!isSync || decide (s.js.index.length < Config.indexCapacity))

/-- Stores a packet: its bytes at the head, the head advanced, a SYNC into the index, AVL evaluated (R25). -/
def storePacket (bytes : List Byte) (isSync : Bool) (s : State) : State :=
  evalAvl <| s.onJs fun j =>
    { j with ram := j.ram.writeBytes j.head.toNat bytes, head := j.head + BitVec.ofNat 32 bytes.length,
             index := if isSync then j.index ++ [j.head] else j.index }

/-- The store's answer to an offer (R36). -/
inductive Answer where
  | stored
  | lost
  | dropped
  deriving DecidableEq, Repr

/-- The store enters LOSING, and LSS is set (R40, R44). -/
def enterLosing (s : State) : State := setFlag flagLss <| s.onJs fun j => { j with fill := .losing }

/-- The encoder offers a packet (R36, R40, R41, R44). -/
def offer (bytes : List Byte) (isSync : Bool) (s : State) : Answer × State :=
  match s.js.fill with
  | .losing => (.dropped, s)
  | .normal =>
    let s1 := makeRoom (fits bytes.length isSync) s
    if fits bytes.length isSync s1 then (.stored, storePacket bytes isSync s1) else (.lost, enterLosing s1)

/-! ### The consumers -/

/-- A consumer attached at the first retained SYNC or the head (R29). -/
def attachConsumer (j : Store) (c : Consumer) : Consumer :=
  { c with attached := true, read := attachPoint j, release := attachPoint j }

/-- HOST is attached (R29). -/
def attachHostOp (s : State) : State := evalAvl <| s.onJs fun j => { j with hostC := attachConsumer j j.hostC }

/-- EXPORT is attached (R29). -/
def attachExportOp (s : State) : State := s.onJs fun j => { j with exportC := attachConsumer j j.exportC }

/-- A consumer record emptied by RESTART or RELOAD (R28). -/
def clearConsumer (c : Consumer) : Consumer :=
  { c with read := 0#32, release := 0#32, skips := 0, skipPending := false }

/-- The store emptied by RESTART or RELOAD (R48). -/
def emptyStore (j : Store) : Store :=
  { j with head := 0#32, tail := 0#32, index := [], fill := .normal, hostC := clearConsumer j.hostC,
           exportC := clearConsumer j.exportC }

end Sys2Proof.Machine
end

