-- ==== Sys2Proof/Machine/Trigger.lean ====
section
/-! DEFINITION. The trigger unit's operations (chapter 6): rule evaluation, hold start, quota, and the stop it asks
capture control for (R55). -/

namespace Sys2Proof.Machine

/-- The rule's edge is fired by a new level (R112). -/
def RuleEdge.firedBy (e : RuleEdge) (level : Bool) : Bool :=
  match e with
  | .rise => level
  | .fall => !level
  | .either => true

/-- A rule matches a CHANGE of `ch` to `level` with `img` the running image after it (R112). -/
def ruleMatches (r : TriggerRule) (ch : Channel) (level : Bool) (img : Image) : Bool :=
  r.enable && r.channel == ch && r.edge.firedBy level && img &&& r.mask == r.value &&& r.mask

/-- The hold action a rule's action starts a hold with; none for NOTE (R113). -/
def RuleAction.holdAction : RuleAction → Option HoldAction
  | .note => none
  | .hold => some .hold
  | .holdStop => some .holdStop

/-- A hold starts (R116). -/
def startHold (a : HoldAction) (s : State) : State :=
  s.onTu fun u =>
    { u with start := syncBeforeNewest s.js s.js.table.p.toNat, action := a, quota := s.js.table.q.toNat, count := 0,
             hold := .collecting }

/-- The outcome of a matching rule: whether it is "hold busy", and the state after it (R113, R114). -/
def takeRule (r : TriggerRule) (s : State) : Bool × State :=
  let s1 := if r.interrupt then setFlag flagTrg s else s
  match r.action.holdAction with
  | none => (false, s1)
  | some a => if s1.tu.hold = .noHold then (false, startHold a s1) else (true, s1)

/-- Evaluates the rules with the given numbers in order; answers the matching ones with their outcomes (R111, R113). -/
def evaluateRules (ch : Channel) (level : Bool) (img : Image) : List (Fin 8) → State → List (Fin 8 × Bool) × State
  | [], s => ([], s)
  | i :: is, s =>
    if ruleMatches s.tu.rules[i] ch level img then
      let (holdBusy, s1) := takeRule s.tu.rules[i] s
      let (hits, s2) := evaluateRules ch level img is s1
      ((i, holdBusy) :: hits, s2)
    else evaluateRules ch level img is s

/-- The evaluation of a released entry: only a CHANGE is evaluated (R111). -/
def evaluateEntry (e : Entry) (s : State) : List (Fin 8 × Bool) × State :=
  match e.body with
  | .change ch level => evaluateRules ch level s.je.image (List.finRange 8) s
  | _ => ([], s)

/-- The trigger unit asks capture control for a stop: a drain begins in RUNNING, nothing in any other state (R55). -/
def holdStopRequest (s : State) : State :=
  if s.oq.state = .running then
    (s.onOq fun q => { q with stopStamp := s.tb.counter, state := .draining }).onJe fun e =>
      { e with stopReason := .holdStop }
  else s

/-- The hold closes: CLOSED, the protected start kept, HLD set (R118, R119). -/
def closeHold (s : State) : State := setFlag flagHld <| s.onTu fun u => { u with hold := .closed }

/-- The hold record after RESTART or RELOAD (R115, R124). -/
def clearHold (u : TriggerUnit) : TriggerUnit :=
  { u with hold := .noHold, action := .hold, quota := 256, count := 0, start := 0#32 }

end Sys2Proof.Machine
end

