-- ==== Sys2Proof/Machine/Encoder.lean ====
section
/-! DEFINITION. The journal encoder's operations (chapter 1): offering packets, the handling of a released entry
(R15 to R18), the opening and the close of a run (R19, R20), HOLD "released" (R21) and steps (R22, R23). -/

namespace Sys2Proof.Machine

/-! ### Offering packets -/

/-- The bytes since SYNC after a stored packet of `n` bytes (R14). -/
def sinceAfter (since n : Nat) (isSync : Bool) : Nat := if isSync then 0 else min Config.ringSize (since + n)

/-- The encoder's counts after a stored packet (R14). -/
def countStored (n : Nat) (isSync : Bool) (s : State) : State :=
  s.onJe fun e =>
    { e with sinceSync := sinceAfter e.sinceSync n isSync, segment := if isSync then e.segment + 1#16 else e.segment }

/-- The loss record at the entry into LOSING (R17). -/
def beginLoss (failure : Time) (s : State) : State :=
  s.onJe fun e => { e with lossCount := 0, firstLost := failure, lastLost := failure }

/-- Offers a packet and keeps the encoder's state in step with the answer; `failure` is the failure time (R14, R17). -/
def emit (bytes : List Byte) (isSync : Bool) (failure : Time) (s : State) : Answer × State :=
  match offer bytes isSync s with
  | (.stored, s1) => (.stored, countStored bytes.length isSync s1)
  | (.lost, s1) => (.lost, beginLoss failure s1)
  | (.dropped, s1) => (.dropped, s1)

/-- Composes and offers a SYNC; when it is stored the running time becomes its time (R12, R13). -/
def emitSync (time : Time) (image : Image) (failure : Time) (s : State) : Answer × State :=
  match emit (syncPacket s time image) true failure s with
  | (.stored, s1) => (.stored, s1.onJe fun e => { e with runningTime := time })
  | r => r

/-- Offers packets one after another, whatever the answers (R15 step 5). -/
def emitAll (failure : Time) : List (List Byte) → State → State
  | [], s => s
  | p :: ps, s => emitAll failure ps (emit p false failure s).2

/-- Offers a close-exempt packet: stored when free space is at least its length, without the reserve (R38). -/
def emitExempt (bytes : List Byte) (s : State) : State :=
  if bytes.length ≤ freeSpace s.js then countStored bytes.length false (storePacket bytes false s) else s

/-! ### A released entry -/

/-- The running image after an entry is processed (R11). -/
def imageAfter (e : Entry) (img : Image) : Image :=
  match e.body with
  | .change ch level => setLevel img ch level
  | .suppress ch level => setLevel img ch level
  | .release ch level => setLevel img ch level
  | .timeq _ _ => img
  | .mark _ _ => img

/-- Counts an entry as lost in the loss record (R16). -/
def countLost (stamp : Time) (s : State) : State :=
  s.onJe fun e =>
    { e with lossCount := satInc 65535 e.lossCount, firstLost := if e.lossCount = 0 then stamp else e.firstLost,
             lastLost := stamp }

/-- A SYNC is due for an entry, by length or by distance (R12). -/
def syncDue (e : Entry) (s : State) : Bool :=
  decide (256 * s.js.table.syncInterval.toNat ≤ s.je.sinceSync) ||
    (!isLate s.je.runningTime e && decide (Config.deltaMax < forward s.je.runningTime e.stamp))

/-- The time of a SYNC placed before an entry: the later of the running time and the stamp (R12, R13). -/
def entrySyncTime (e : Entry) (s : State) : Time := later s.je.runningTime e.stamp

/-- Composes and offers the entry's own packet; the running time becomes the stamp of a stored non-late one, and an
entry whose packet is not stored is counted as lost (R8, R9, R16). -/
def emitEntry (e : Entry) (s : State) : State :=
  match emit (entryPacket s.je.runningTime e) false e.stamp s with
  | (.stored, s1) =>
    if isLate s.je.runningTime e then s1 else s1.onJe fun j => { j with runningTime := e.stamp }
  | (_, s1) => countLost e.stamp s1

/-- A SYNC and then the entry's packet; an entry whose SYNC is not stored is counted as lost (R15 step 3, R18). -/
def emitSyncThenEntry (e : Entry) (before : Image) (s : State) : State :=
  match emitSync (entrySyncTime e s) before e.stamp s with
  | (.stored, s1) => emitEntry e s1
  | (_, s1) => countLost e.stamp s1

/-- The packets of an entry handled in NORMAL: a due SYNC, then the entry's packet (R15 steps 3 and 4). -/
def normalPackets (e : Entry) (before : Image) (s : State) : State :=
  if syncDue e s then emitSyncThenEntry e before s else emitEntry e s

/-- The packets of the entry that resumes the stream: LOSS, forced SYNC, the entry's packet (R18). -/
def resumePackets (e : Entry) (before : Image) (s : State) : State :=
  match emit (lossPacket s.je) false e.stamp s with
  | (.stored, s1) =>
    emitSyncThenEntry e before <| s1.onJe fun j => { j with lossCount := 0, firstLost := 0, lastLost := 0 }
  | (_, s1) => countLost e.stamp s1

/-- The store's free space has reached the resume room (R46). -/
def resumeRoomFree (s : State) : Bool := decide (256 * s.js.table.resumeRoom.toNat ≤ freeSpace s.js)

/-- The resumption check at the start of an entry's handling; answers whether the store returned to NORMAL (R46). -/
def resumptionCheck (s : State) : Bool × State :=
  match s.js.fill with
  | .normal => (false, s)
  | .losing =>
    let s1 := makeRoom resumeRoomFree s
    if resumeRoomFree s1 then (true, s1.onJs fun j => { j with fill := .normal }) else (false, s1)

/-- The entry's own packets by the fill state and the resumption (R15, R16, R18). -/
def entryPackets (resumed : Bool) (e : Entry) (before : Image) (s : State) : State :=
  match s.js.fill with
  | .losing => countLost e.stamp s
  | .normal => if resumed then resumePackets e before s else normalPackets e before s

/-- The encoder reports the processed entry: the post-trigger count advances when the hold was COLLECTING before the
entry's evaluation, and the hold closes by quota when the count reaches it (R15 step 6, R117, R118). -/
def reportEntry (wasCollecting : Bool) (stamp : Time) (s : State) : State :=
  if wasCollecting then
    let s1 := s.onTu fun u => { u with count := u.count + 1 }
    if s1.tu.quota ≤ s1.tu.count then
      let s2 := closeHold s1
      let s3 := (emit (holdPacket .byQuota) false stamp s2).2
      match s3.tu.action with
      | .hold => s3
      | .holdStop => holdStopRequest s3
    else s1
  else s

/-- The encoder takes a released entry whole (R15 to R18). -/
def handleEntry (e : Entry) (s : State) : State :=
  let (resumed, s1) := resumptionCheck s
  let before := s1.je.image
  let wasCollecting := s1.tu.hold == .collecting
  let (hits, s2) := evaluateEntry e (s1.onJe fun j => { j with image := imageAfter e j.image })
  let s3 := if isLate s2.je.runningTime e then logFault .late (orderDetail e) s2 else s2
  let s4 := entryPackets resumed e before s3
  let s5 := emitAll e.stamp (hits.map fun h => triggerPacket h.1 h.2) s4
  reportEntry wasCollecting e.stamp s5

/-! ### Run boundaries -/

/-- The encoder begins a run: running time, image and mask afresh, then the first SYNC (R19). -/
def beginRun (s : State) : State :=
  let s1 := s.onJe fun e =>
    { e with runningTime := s.tb.counter, image := liveImage s &&& enabledImage s, mask := enabledImage s }
  (emitSync s.tb.counter s1.je.image s.tb.counter s1).2

/-- The closing LOSS, written when the store is LOSING; storing it returns the store to NORMAL (R20, R38). -/
def closingLoss (s : State) : State :=
  match s.js.fill with
  | .normal => s
  | .losing =>
    if (lossPacket s.je).length ≤ freeSpace s.js then
      ((emitExempt (lossPacket s.je) s).onJs fun j => { j with fill := .normal }).onJe fun e =>
        { e with lossCount := 0, firstLost := 0, lastLost := 0 }
    else s

/-- The encoder closes a run: HOLD "closed by stop" when the hold has so closed, LOSS when LOSING, END (R20). -/
def closeRun (closedByStop : Bool) (s : State) : State :=
  let s1 := if closedByStop then (emit (holdPacket .byStop) false s.je.runningTime s).2 else s
  let s2 := closingLoss s1
  (emitExempt (endPacket s2.je.stopReason s2.oq.stopStamp) s2).onJe fun e => { e with stopReason := .hostStop }

/-- The HOLD "released" packet outside the handling of an entry (R21). -/
def emitHoldReleased (s : State) : State := (emit (holdPacket .released) false s.je.runningTime s).2

/-- The encoder's state cleared by RESTART or RELOAD (R6). -/
def clearEncoder (e : Encoder) : Encoder :=
  { e with sinceSync := 0, segment := 0#16, lossCount := 0, firstLost := 0, lastLost := 0, stopReason := .hostStop }

/-! ### Steps -/

/-- The STEP packet and, when it is stored, the forced SYNC after it (R13, R23). -/
def emitStep (cause : StepCause) (old new : Time) (s : State) : State :=
  let s1 := (emit (stepPacket cause old new) false new s).2
  (emitSync new s1.je.image new s1).2

/-- The encoder takes a step notice: the running time is rebased in RUNNING and DRAINING, and a journaled step in
RUNNING is written (R22, R23). -/
def encoderStep (S : Int) (cause : StepCause) (journaled : Bool) (s : State) : State :=
  let old := s.je.runningTime
  let new := rebase old S
  let s1 := s.onJe fun e => { e with runningTime := new }
  match s.oq.state with
  | .running => if journaled then emitStep cause old new s1 else s1
  | .draining => s1
  | _ => s

end Sys2Proof.Machine
end

