-- ==== Sys2Proof/Machine/Queue.lean ====
section
/-! DEFINITION. The ordering queue (sections 3.2, 3.4, 3.5): placing and taking entries, forced release, release at the
horizon, and the rebasing of queued stamps. -/

namespace Sys2Proof.Machine

/-- `x` stays ahead of the arrival `e`: its stamp is before, or equal with an order key at most `e`'s (R62). -/
def precedes (e x : Entry) : Bool :=
  isBefore x.stamp e.stamp || (x.stamp == e.stamp && decide (orderKey x ≤ orderKey e))

/-- The queue with `e` placed immediately after the last entry that stays ahead of it (R62). -/
def placeEntry (e : Entry) : List Entry → List Entry
  | [] => [e]
  | x :: xs => if (x :: xs).any (precedes e) then x :: placeEntry e xs else e :: x :: xs

/-- The queue takes an entry; at a full queue the earliest of the 33 is released at once, with a FORCED fault
(R62, R64). -/
def takeEntry (e : Entry) (s : State) : State :=
  if s.oq.queue.length < Config.queueCapacity then s.onOq fun q => { q with queue := placeEntry e q.queue }
  else
    match placeEntry e s.oq.queue with
    | [] => s
    | first :: rest =>
      handleEntry first <| logFault .forced (orderDetail first) <| s.onOq fun q => { q with queue := rest }

/-- The entry is one of the three channel kinds (R56). -/
def isChannelEntry (e : Entry) : Bool :=
  match e.body with
  | .change _ _ => true
  | .suppress _ _ => true
  | .release _ _ => true
  | .timeq _ _ => false
  | .mark _ _ => false

/-- An entry is offered to capture control: taken in RUNNING, judged by kind and stop stamp in DRAINING, not taken in
STOPPED or LOADING (R56, R65). -/
def offerEntry (e : Entry) (s : State) : State :=
  match s.oq.state with
  | .running => takeEntry e s
  | .draining => if isChannelEntry e && isBefore e.stamp s.oq.stopStamp then takeEntry e s else s
  | .stopped => s
  | .loading => s

/-- Offers entries one after another, each judged as capture stands when it is offered (R56, R65, R87). DESIGN CHOICE (log
entry 27): where a CHANGE accepted at its edge (settle 0) meets a full queue, its forced release may close a HOLD-STOP hold
and begin a drain whose stop stamp is the CHANGE's own. The SUPPRESS behind it is then discarded, by the table of R56,
though the CHANGE has been taken. R56's text has both taken or both discarded. -/
def offerEntries : List Entry → State → State
  | [], s => s
  | e :: es, s => offerEntries es (offerEntry e s)

/-- A run is open: RUNNING or DRAINING. -/
def runOpen (s : State) : Bool := s.oq.state == .running || s.oq.state == .draining

/-- The horizon expiry of the queue's head has come: the counter has reached its stamp plus H (R63). -/
def horizonDue (s : State) : Bool :=
  match s.oq.queue with
  | [] => false
  | e :: _ => runOpen s && reached s.tb.counter (addMicros e.stamp s.oq.horizon)

/-- The queue's head is released to the encoder (R63). -/
def releaseHead (s : State) : State :=
  match s.oq.queue with
  | [] => s
  | e :: rest => handleEntry e (s.onOq fun q => { q with queue := rest })

/-- The entries are released one at a time in queue order (R58 step 1). -/
def releaseAll : List Entry → State → State
  | [], s => s
  | e :: rest, s => releaseAll rest (handleEntry e (s.onOq fun q => { q with queue := rest }))

/-- The queued stamps that a step clamps, each logged with the detail FFh (R69), and the stop stamp while DRAINING
(R70). -/
def queueClamps (S : Int) (s : State) : List Byte :=
  if runOpen s then
    List.replicate ((s.oq.queue.filter fun e => clampsAt e.stamp S).length +
      (if s.oq.state = .draining && clampsAt s.oq.stopStamp S then 1 else 0)) 0xFF#8
  else []

/-- Capture control takes a step notice: the queued stamps are rebased in RUNNING and DRAINING, the stop stamp while
DRAINING (R68 to R70). The faults are logged by the caller. -/
def rebaseQueue (S : Int) (s : State) : State :=
  if runOpen s then
    s.onOq fun q =>
      { q with queue := q.queue.map (fun e => { e with stamp := rebase e.stamp S }),
               stopStamp := if q.state = .draining then rebase q.stopStamp S else q.stopStamp }
  else s

/-! ### HORIZON_EXPIRY -/

/-- HORIZON_EXPIRY: the head entry is released to the encoder once its expiry has come (R63); before that the event
does not occur and nothing changes (log entry 7). -/
def execHorizonExpiry (s : State) : Host.Outcome State Fault Refusal :=
  .next (if horizonDue s then releaseHead s else s)

end Sys2Proof.Machine
end

