-- ==== Sys2Proof/Machine/Channels.lean ====
section
/-! DEFINITION. The input channels (chapter 4): set-up, raw edges, the three expiries, chatter, and the notices of
START, run end and steps. -/

namespace Sys2Proof.Machine

/-! ### One channel -/

/-- A timer that starts now with the given length (R76). -/
def startTimer (length : Nat) : Option Timer := some { elapsed := 0, length := length }

/-- The timer is running and has reached its length (R76). -/
def timerDue (t : Option Timer) : Bool :=
  match t with
  | none => false
  | some t => decide (t.length ≤ t.elapsed)

/-- The settle time in µs (R76). -/
def settleMicros (d : ChanDesc) : Nat := 100 * d.settle.toNat
/-- The chatter window in µs (R76). -/
def windowMicros (d : ChanDesc) : Nat := 10000 * d.chatterWindow.toNat
/-- The quiet time in µs (R76). -/
def quietMicros (d : ChanDesc) : Nat := 100000 * d.quietTime.toNat

/-- The line level of a channel: its sampled line, inverted when the invert field is set (R74). -/
def lineLevel (c : ChannelRec) : Bool := c.line ^^ c.desc.invert

/-- A channel set up from a written descriptor (R73). -/
def setupChannel (d : ChanDesc) (c : ChannelRec) : ChannelRec :=
  { desc := d, line := c.line, state := if d.enable then .stable else .off,
    accepted := if d.enable then c.line ^^ d.invert else false, stamp := none, chatterCount := 0, window := none,
    quiet := none, settle := none }

/-- The line settles at a first edge: SETTLING or SUPPRESSED-SETTLING with the edge's stamp (R77, R82). -/
def beginSettling (now : Time) (state : ChanState) (c : ChannelRec) : ChannelRec :=
  { c with state := state, stamp := some now, settle := startTimer (settleMicros c.desc) }

/-- A settling is abandoned: the timer stops and the stamp is discarded (R78, R82). -/
def abandonSettling (state : ChanState) (c : ChannelRec) : ChannelRec :=
  { c with state := state, stamp := none, settle := none }

/-- A change accepted without an offer: the level taken, the stamp discarded (R79, R82). -/
def acceptLevel (state : ChanState) (c : ChannelRec) : ChannelRec :=
  { c with state := state, accepted := lineLevel c, stamp := none, settle := none }

/-- The channel after an acceptance, and whether it was suppressed by it (R79, R80). `counting` says that a run is open
and the chatter limit is not 0. -/
def countAcceptance (counting : Bool) (c : ChannelRec) : Bool × ChannelRec :=
  let c1 := acceptLevel .stable c
  if counting then
    if c.chatterCount + 1 = c.desc.chatterLimit.toNat then
      (true, { c1 with state := .suppressed, chatterCount := 0, window := none,
                       quiet := startTimer (quietMicros c.desc) })
    else
      (false, { c1 with chatterCount := c.chatterCount + 1,
                        window := if c.chatterCount = 0 then startTimer (windowMicros c.desc) else c.window })
  else (false, c1)

/-- The entries an acceptance offers while a run is open: the CHANGE, and the SUPPRESS behind it (R79, R80, R87). -/
def acceptanceEntries (ch : Channel) (level : Bool) (stamp : Time) (suppressed : Bool) : List Entry :=
  { stamp := stamp, body := .change ch level } ::
    (if suppressed then [{ stamp := stamp, body := .suppress ch level }] else [])

/-- A channel is settling towards a journal entry or in suppression (R88). -/
def holdsStamp (c : ChannelRec) : Bool := c.state == .settling || c.state == .suppressedSettling

/-- A channel takes a START notice (R85). -/
def startNotice (start : Time) (c : ChannelRec) : ChannelRec :=
  let c1 :=
    if c.state = .settling then
      { c with stamp := c.stamp.map fun t => if isBefore t start then start else t }
    else c
  if c.desc.enable then { c1 with chatterCount := 0, window := none, quiet := none } else c1

/-- A channel takes the run-end notice (R86). -/
def runEndNotice (c : ChannelRec) : ChannelRec :=
  { c with
    chatterCount := 0, window := none, quiet := none,
    state :=
      match c.state with
      | .suppressed => .stable
      | .suppressedSettling => .settling
      | st => st }

/-- A channel takes a step notice (R88). -/
def rebaseChannel (S : Int) (c : ChannelRec) : ChannelRec :=
  if holdsStamp c then { c with stamp := c.stamp.map fun t => rebase t S } else c

/-- A channel's stamp is clamped by a step (R88). -/
def channelClamps (S : Int) (c : ChannelRec) : Bool :=
  holdsStamp c && (match c.stamp with | none => false | some t => clampsAt t S)

/-! ### The channels in the state -/

/-- The state with channel `ch` replaced. -/
def setChannel (ch : Channel) (c : ChannelRec) (s : State) : State := s.onIcu fun v => v.set ch c

/-- Channel `ch`'s settling is accepted with the given stamp: level, chatter and, while a run is open, the entries
offered (R79, R80). -/
def acceptChange (ch : Channel) (stamp : Time) (s : State) : State :=
  let c := s.icu[ch]
  let counting := runOpen s && c.desc.chatterLimit != 0#8
  let (suppressed, c1) := countAcceptance counting c
  let s1 := setChannel ch c1 s
  if runOpen s then offerEntries (acceptanceEntries ch (lineLevel c) stamp suppressed) s1 else s1

/-- Channel `ch` meets a raw edge in its present state; its line has taken its new sample (R77, R78, R82). -/
def takeEdge (ch : Channel) (s : State) : State :=
  let c := s.icu[ch]
  let now := s.tb.counter
  let differs := lineLevel c != c.accepted
  match c.state with
  | .off => s
  | .stable =>
    if differs then
      if c.desc.settle = 0#8 then acceptChange ch now s else setChannel ch (beginSettling now .settling c) s
    else s
  | .settling => if differs then s else setChannel ch (abandonSettling .stable c) s
  | .suppressed =>
    let c1 := { c with quiet := startTimer (quietMicros c.desc) }
    if differs then
      if c.desc.settle = 0#8 then setChannel ch (acceptLevel .suppressed c1) s
      else setChannel ch (beginSettling now .suppressedSettling c1) s
    else setChannel ch c1 s
  | .suppressedSettling =>
    let c1 := { c with quiet := startTimer (quietMicros c.desc) }
    setChannel ch (if differs then c1 else abandonSettling .suppressed c1) s

/-- The settle timer of a settling channel has reached its length (R79, R82). -/
def settleDue (c : ChannelRec) : Bool := holdsStamp c && timerDue c.settle

/-- The window timer of a channel has reached its length (R81). -/
def windowDue (c : ChannelRec) : Bool := timerDue c.window

/-- The quiet timer of a suppressed channel has reached its length (R83). -/
def quietDue (c : ChannelRec) : Bool := c.state == .suppressed && timerDue c.quiet

/-- The settle expiry of channel `ch` (R79, R82). -/
def settleExpires (ch : Channel) (s : State) : State :=
  let c := s.icu[ch]
  if c.state = .settling then acceptChange ch (c.stamp.getD s.tb.counter) s
  else setChannel ch (acceptLevel .suppressed c) s

/-- The quiet expiry of channel `ch` (R83). -/
def quietExpires (ch : Channel) (s : State) : State :=
  let c := s.icu[ch]
  let s1 := setChannel ch { c with state := .stable, quiet := none } s
  if runOpen s then offerEntry { stamp := s.tb.counter, body := .release ch c.accepted } s1 else s1

/-- The channels whose first-edge stamps a step clamps, by their numbers (R88). -/
def channelClampDetails (S : Int) (s : State) : List Byte :=
  ((List.finRange 24).filter fun ch => channelClamps S s.icu[ch]).map fun ch => BitVec.ofNat 8 ch.val

/-! ### RAW_EDGE, SETTLE_EXPIRY, WINDOW_EXPIRY, QUIET_EXPIRY -/

/-- RAW_EDGE: the line of `ch` is sampled at its other level, and the channel takes the edge (R74, R77, R78, R82). -/
def execRawEdge (ch : Channel) (s : State) : Host.Outcome State Fault Refusal :=
  .next (takeEdge ch (setChannel ch { s.icu[ch] with line := !s.icu[ch].line } s))

/-- SETTLE_EXPIRY of `ch` once its timer has reached its length (R79, R82); before that nothing changes (log entry 7). -/
def execSettleExpiry (ch : Channel) (s : State) : Host.Outcome State Fault Refusal :=
  .next (if settleDue s.icu[ch] then settleExpires ch s else s)

/-- WINDOW_EXPIRY of `ch`: the chatter count is cleared and the window timer stops (R81); before the timer has reached
its length nothing changes (log entry 7). -/
def execWindowExpiry (ch : Channel) (s : State) : Host.Outcome State Fault Refusal :=
  .next (if windowDue s.icu[ch] then setChannel ch { s.icu[ch] with chatterCount := 0, window := none } s else s)

/-- QUIET_EXPIRY of `ch`: the suppression ends (R83); before the timer has reached its length nothing changes (log
entry 7). -/
def execQuietExpiry (ch : Channel) (s : State) : Host.Outcome State Fault Refusal :=
  .next (if quietDue s.icu[ch] then quietExpires ch s else s)

end Sys2Proof.Machine
end

