-- ==== Sys2Proof/Machine/TimeBase.lean ====
section
/-! DEFINITION. The time base (chapter 5): steps and their notices, quality changes, pulses, timeout, holdover expiry,
SET TIME's step, and the effects of a written time table. -/

namespace Sys2Proof.Machine

/-! ### Steps -/

/-- The entries of a list in the order that `place` gives: each is put in at a place among those behind it. -/
def inOrderOf (place : Nat → Nat) : List Byte → List Byte
  | [] => []
  | [x] => [x]
  | x :: xs =>
    let ys := inOrderOf place xs
    let n := place ys.length % (ys.length + 1)
    ys.take n ++ x :: ys.drop n

/-- The CLAMP details of one step in the order they are logged: the input channels' and capture control's stand together,
and which group comes first, and the order within the channels' group, are open (R88, R174, log entry 6). -/
def clampDetails (S : Int) (s : State) : List Byte × State :=
  let channels := inOrderOf (Config.channelClampPlace s.choices) (channelClampDetails S s)
  let queued := queueClamps S s
  if channels = [] ∨ queued = [] then (channels ++ queued, if channels.length ≤ 1 then s else s.drawn)
  else (if Config.queueClampsFirst s.choices then queued ++ channels else channels ++ queued, s.drawn)

/-- The counter and the pulse reference moved by a step, the reference clamped at 0.000000 (R104). DESIGN CHOICE (log entry
29): a clamped reference moves the timeout against the counter, so that SET TIME and a timeout due with it end in another
quality by their order, where R108 says that both orders give the same. -/
def stepTimeBase (S : Int) (t : TimeBase) : TimeBase :=
  { t with counter := rebase t.counter S, reference := t.reference.map fun r => rebase r S }

/-- A step of `S` µs is applied: the time base's own state first, then the step notice to the input channels, capture
control and the encoder (R104). -/
def applyStep (S : Int) (cause : StepCause) (journaled : Bool) (s : State) : State :=
  let (details, s1) := clampDetails S s
  let s2 := (s1.onTb (stepTimeBase S)).onIcu fun v => v.map (rebaseChannel S)
  encoderStep S cause journaled <| logFaults .clamp details <| rebaseQueue S s2

/-- The step −e of a pulse; none when e is 0 (R103). -/
def applyPulseStep (e : Int) (s : State) : State :=
  if e = 0 then s
  else
    let journaled := decide (s.tb.table.trimBand.toNat < e.natAbs)
    let s1 := if journaled then s else s.onTb fun t => { t with trims := satInc 65535 t.trims }
    applyStep (-e) .pulse journaled s1

/-! ### Quality -/

/-- A change of quality: TQC is set and, in RUNNING, a TIMEQ entry is offered with the present counter (R101). -/
def changeQuality (new : Quality) (s : State) : State :=
  let s1 := setFlag flagTqc <| s.onTb fun t => { t with quality := new }
  if s.oq.state = .running then
    offerEntry { stamp := s.tb.counter, body := .timeq new s.tb.quality } s1
  else s1

/-- The entry into HOLDOVER: the pulse reference is absent; an expired holdover timer passes the quality on to UNSYNCED
at once (R99, R100). The reject count is 0 outside LOCKED (log entry 12). -/
def enterHoldover (s : State) : State :=
  let s1 := changeQuality .holdover <| s.onTb fun t => { t with reference := none, rejects := 0 }
  match s1.tb.holdover with
  | .expired => changeQuality .unsynced <| s1.onTb fun t => { t with holdover := .stopped }
  | _ => s1

/-- A pulse is accepted: the step −e, the whole second as the pulse reference, the holdover timer from zero, the reject
count 0 (R96, R98, R100). -/
def acceptPulse (e : Int) (s : State) : State :=
  (applyPulseStep e s).onTb fun t =>
    { t with reference := some t.counter, holdover := .running 0, rejects := 0 }

/-- A pulse locks the time base: the TIMEQ entry is offered before the step notice (R101). DESIGN CHOICE (log entry 23):
the quality is LOCKED already when the step is applied, so that the forced SYNC behind the pulse's STEP carries LOCKED;
R96 names the step before the change of quality, and R3 takes the quality as it stands when the SYNC is composed. -/
def lockOnPulse (e : Int) (s : State) : State := acceptPulse e (changeQuality .locked s)

/-- A pulse becomes the reference of an acquisition (R95, R98, R100). -/
def beginAcquiring (origin : Origin) (s : State) : State :=
  changeQuality .acquiring <|
    s.onTb fun t => { t with reference := some t.counter, origin := origin, rejects := 0 }

/-- The lock window W in µs. -/
def lockMicros (s : State) : Nat := s.tb.table.lockWindow.toNat

/-- A pulse in ACQUIRING: its interval lies within 1,000,000 ± W (R96). -/
def intervalLocks (s : State) : Bool :=
  match s.tb.reference with
  | none => false
  | some r =>
    decide (1000000 - lockMicros s ≤ forward r s.tb.counter) &&
      decide (forward r s.tb.counter ≤ 1000000 + lockMicros s)

/-- A pulse is handled in the present quality state (R95, R96, R98, R100). -/
def takePulse (s : State) : State :=
  let e := offsetOf s.tb.counter
  let near := decide (e.natAbs ≤ lockMicros s)
  match s.tb.quality with
  | .unsynced => beginAcquiring .fromUnsynced s
  | .acquiring =>
    if intervalLocks s then lockOnPulse e s else s.onTb fun t => { t with reference := some t.counter }
  | .locked =>
    if near then acceptPulse e s
    else if s.tb.rejects + 1 < 3 then s.onTb fun t => { t with rejects := t.rejects + 1 }
    else beginAcquiring .fromHeld s
  | .holdover => if near then lockOnPulse e s else beginAcquiring .fromHeld s

/-- The timeout of ACQUIRING or LOCKED has come: the counter has reached the reference plus 1,000,000 µs plus W
(R97, R99). -/
def timeoutDue (s : State) : Bool :=
  match s.tb.reference with
  | none => false
  | some r =>
    (s.tb.quality == .acquiring || s.tb.quality == .locked) &&
      reached s.tb.counter (addMicros r (1000000 + lockMicros s))

/-- The timeout (R97, R99). -/
def takeTimeout (s : State) : State :=
  if s.tb.quality = .acquiring ∧ s.tb.origin = .fromUnsynced then
    changeQuality .unsynced <| s.onTb fun t => { t with reference := none, holdover := .stopped }
  else enterHoldover s

/-- The holdover timer has reached the holdover limit (R100). DESIGN CHOICE (log entry 25): a timer that has expired in
LOCKED or ACQUIRING holds no elapsed time and stays expired when a write raises the limit (R93); only an accepted pulse
restarts it. -/
def holdoverDue (s : State) : Bool :=
  match s.tb.holdover with
  | .running elapsed => decide (1000000 * s.tb.table.holdoverLimit.toNat ≤ elapsed)
  | _ => false

/-- The holdover expiry (R97, R99, R100). -/
def takeHoldoverExpiry (s : State) : State :=
  match s.tb.quality with
  | .unsynced => s.onTb fun t => { t with holdover := .stopped }
  | .acquiring => s.onTb fun t => { t with origin := .fromUnsynced, holdover := .stopped }
  | .locked => s.onTb fun t => { t with holdover := .expired }
  | .holdover => changeQuality .unsynced <| s.onTb fun t => { t with reference := none, holdover := .stopped }

/-! ### The time table -/

/-- A written time table takes effect at once, field by field (R93): disabling PPS in LOCKED enters HOLDOVER, a new W
may bring the timeout at once, and a new holdover limit the holdover expiry. DESIGN CHOICE (log entry 24): several fields
changed by one write take effect in the order of R93's table: the enable, then W, then the holdover limit. -/
def writeTimeTable (new : TimeTable) (s : State) : State :=
  let old := s.tb.table
  let s1 := s.onTb fun t => { t with table := new }
  let s2 := if old.ppsEnable && !new.ppsEnable && s1.tb.quality == .locked then enterHoldover s1 else s1
  let s3 := if old.lockWindow != new.lockWindow && timeoutDue s2 then takeTimeout s2 else s2
  if old.holdoverLimit != new.holdoverLimit && holdoverDue s3 then takeHoldoverExpiry s3 else s3

/-! ### SET TIME -/

/-- The time SET TIME gives the counter: the seconds alone in LOCKED and HOLDOVER, the full time otherwise
(R106, R107). DESIGN CHOICE (log entry 26): this holds also of a SET TIME that falls together with a timeout or holdover
expiry between the two kinds of quality, where R108 says that both orders give the same time: the quality then held
decides (R105). -/
def newTimeOf (s : State) : Time :=
  match s.tb.quality with
  | .locked => timeOf (argSeconds s) (microsOf s.tb.counter)
  | .holdover => timeOf (argSeconds s) (microsOf s.tb.counter)
  | .unsynced => timeOf (argSeconds s) (argMicros s)
  | .acquiring => timeOf (argSeconds s) (argMicros s)

/-- The host step to a new time; none when it equals the counter (R105). -/
def stepToTime (new : Time) (s : State) : State :=
  if new = s.tb.counter then s else applyStep ((new.val : Int) - s.tb.counter.val) .host true s

/-! ### PULSE, TIMEOUT, HOLDOVER_EXPIRY -/

/-- PULSE: an edge on PPS is a pulse while PPS is enabled and the edge is the selected one (R94); the pulse is handled
in the present quality state. -/
def execPulse (edge : PpsEdge) (s : State) : Host.Outcome State Fault Refusal :=
  .next (if s.tb.table.ppsEnable && edge == s.tb.table.ppsEdge then takePulse s else s)

/-- TIMEOUT, once it has come (R97, R99); before that nothing changes (log entry 7). -/
def execTimeout (s : State) : Host.Outcome State Fault Refusal := .next (if timeoutDue s then takeTimeout s else s)

/-- HOLDOVER_EXPIRY, once the timer has reached the limit (R97, R99, R100); before that nothing changes (log entry 7). -/
def execHoldoverExpiry (s : State) : Host.Outcome State Fault Refusal :=
  .next (if holdoverDue s then takeHoldoverExpiry s else s)

end Sys2Proof.Machine
end

