-- ==== Sys2Proof/Machine/Capture.lean ====
section
/-! DEFINITION. The command protocol of the host window (section 8.4), capture control's START, STOP, drain, RESTART and
RELOAD (chapter 3), and the table writes a RELOAD makes. -/

namespace Sys2Proof.Machine

/-! ### The command protocol -/

/-- A command completes: RESULT, BUSY clear, the CMD flag (R157). -/
def complete (r : Result) (s : State) : State :=
  setFlag flagCmd <| s.onHw fun w => { w with result := r, inProgress := none }

/-- A CMD write: a collision while BUSY (R159), LOCKED in LOADING (R158), otherwise `body` carries the command out
(R156). -/
def request (body : State → State) (s : State) : State :=
  if busy s then s.onHw fun w => { w with collision := true }
  else if s.oq.state = .loading then complete .locked s
  else body s

/-- A command taken that stays in progress (R149, R166). -/
def keepBusy (c : LongCommand) (s : State) : State := s.onHw fun w => { w with inProgress := some c }

/-! ### START -/

/-- The release horizon: the largest settle time among the enabled channels plus the guard (R53). -/
def horizonOf (s : State) : Nat :=
  (List.finRange 24).foldl
      (fun h ch => if s.icu[ch].desc.enable then max h (settleMicros s.icu[ch].desc) else h) 0 + Config.horizonGuard

/-- The length of a SYNC packet (R1). -/
def syncLength : Nat := 17

/-- The run is opened at the START time (R52): H, the first SYNC, the START notice, RUNNING. -/
def openRun (s : State) : State :=
  let start := s.tb.counter
  let s1 := s.onOq fun q => { q with horizon := horizonOf s }
  let s2 := beginRun s1
  (s2.onIcu fun v => v.map (startNotice start)).onOq fun q => { q with state := .running }

/-- Capture control takes a START request: refused outside STOPPED, otherwise the room check and the opening of the run
(R47, R51, R52). -/
def requestStart (s : State) : Result × State :=
  if s.oq.state = .stopped then
    let s1 := makeRoom (fits syncLength true) s
    if fits syncLength true s1 then (.ok, openRun s1) else (.nospace, s1)
  else (.locked, s)

/-- The host's START (R51). -/
def commandStart (s : State) : State :=
  let (r, s1) := requestStart s
  complete r s1

/-! ### STOP and the drain -/

/-- The host's STOP (R54). -/
def commandStop (s : State) : State :=
  if s.oq.state = .running then
    keepBusy .stop <| s.onOq fun q => { q with stopStamp := s.tb.counter, state := .draining }
  else complete .locked s

/-- The drain expiry has come: DRAINING, and the counter has reached the stop stamp plus H (R58). -/
def drainDue (s : State) : Bool :=
  s.oq.state == .draining && reached s.tb.counter (addMicros s.oq.stopStamp s.oq.horizon)

/-- The run is closed at the drain expiry (R58, R20, R86, R119). -/
def closeDrain (s : State) : State :=
  let s1 := releaseAll s.oq.queue s
  let collecting := s1.tu.hold == .collecting
  let s2 := if collecting then closeHold s1 else s1
  let s3 := closeRun collecting s2
  let s4 := s3.onIcu fun v => v.map runEndNotice
  let s5 := setFlag flagStp <| s4.onOq fun q => { q with state := .stopped }
  if s5.hw.inProgress = some .stop then complete .ok s5 else s5

/-! ### RESTART and RELOAD -/

/-- The journal is cleared: the store, the encoder's counts, the hold and the link's list (R48, R59). The store's
re-evaluation of freeing leaves the tail at 0, so it is not written out. -/
def clearJournal (s : State) : State :=
  evalAvl <| (((s.onJs emptyStore).onJe clearEncoder).onTu clearHold).onXl fun x => { x with outstanding := [] }

/-- The tables take their reset values: every channel OFF, the trigger rules disabled, the time table with the effects of
R93, the journal table (R39, R71, R76, R92, R109). -/
def resetTables (s : State) : State :=
  writeTimeTable TimeTable.reset <|
    ((s.onIcu fun v => v.map fun c => ChannelRec.reset c.line).onTu fun u =>
      { u with rules := Vector.replicate 8 TriggerRule.reset }).onJs fun j => { j with table := JournalTable.reset }

/-- The host's RESTART (R59). -/
def commandRestart (s : State) : State :=
  if s.oq.state = .stopped then keepBusy .restart (clearJournal s) else complete .locked s

/-- The loader's values when a RELOAD is taken (R179); READING follows the clearing. -/
def Loader.forReload (c : Loader) : Loader :=
  { c with state := .idle, cause := .reload, autoStart := false, attachHost := false, attachExport := false, count := 0,
           read := 0, crc := 0xFFFF#16, staged := 0, headerSeen := false, autoStartDue := false }

/-- The host's RELOAD: the clearing of RESTART, the tables' reset values, LOADING with BUSY held (R60). -/
def commandReload (s : State) : State :=
  if s.oq.state = .stopped then
    keepBusy .reload <| (resetTables (clearJournal s)).onOq (fun q => { q with state := .loading }) |>.onCl
      Loader.forReload
  else complete .locked s

/-- The clearing of a RELOAD is in progress: LOADING, the loader not yet READING (log entry 11). -/
def reloadClearing (s : State) : Bool :=
  s.hw.inProgress == some .reload && s.oq.state == .loading && s.cl.state == .idle

/-- The loader begins READING (R178 to R180). -/
def beginReading (s : State) : State := s.onCl fun c => { c with state := .reading, port := SerialPort.fresh false }

/-! ### START, STOP, DRAIN_EXPIRY, RESTART, RESTART_CLEARING_DONE, RELOAD, RELOAD_CLEARING_DONE -/

/-- START (R51, R161). -/
def execStart (s : State) : Host.Outcome State Fault Refusal := .next (request commandStart s)

/-- STOP (R54, R161). -/
def execStop (s : State) : Host.Outcome State Fault Refusal := .next (request commandStop s)

/-- DRAIN_EXPIRY, once it has come (R58); before that nothing changes (log entry 7). -/
def execDrainExpiry (s : State) : Host.Outcome State Fault Refusal := .next (if drainDue s then closeDrain s else s)

/-- RESTART (R59, R161). -/
def execRestart (s : State) : Host.Outcome State Fault Refusal := .next (request commandRestart s)

/-- RESTART_CLEARING_DONE: the RESTART in progress completes with OK (R48, R59); with none nothing changes (log
entry 7). -/
def execRestartClearingDone (s : State) : Host.Outcome State Fault Refusal :=
  .next (if s.hw.inProgress = some .restart then complete .ok s else s)

/-- RELOAD (R60, R161). -/
def execReload (s : State) : Host.Outcome State Fault Refusal := .next (request commandReload s)

/-- RELOAD_CLEARING_DONE: the tables hold their reset values, capture is LOADING and the loader begins READING (R60,
R178); with no such clearing in progress nothing changes (log entries 7 and 11). -/
def execReloadClearingDone (s : State) : Host.Outcome State Fault Refusal :=
  .next (if reloadClearing s then beginReading (resetTables s) else s)

end Sys2Proof.Machine
end

