-- ==== Sys2Proof/Machine/Commands.lean ====
section
/-! DEFINITION. The host's reader commands (R162), MARK, SET TIME, RELEASE HOLD, CLEAR FAULTS (R163), the table commands
(section 8.6) and unknown codes (R158). -/

namespace Sys2Proof.Machine

/-! ### The reader commands -/

/-- ATTACH (R29, R162). -/
def commandAttach (s : State) : State := complete .ok (attachHostOp s)

/-- DETACH: the attached flag is cleared and freeing re-evaluated; a detached HOST stays as it is (R33, R162). -/
def commandDetach (s : State) : State :=
  complete .ok <|
    if s.js.hostC.attached then
      evalAvl <| reevalFreeing <| s.onJs fun j => { j with hostC := { j.hostC with attached := false } }
    else s

/-- RELEASE (R31, R162). -/
def commandRelease (s : State) : State :=
  if s.js.hostC.attached then
    complete .ok <| reevalFreeing <| s.onJs fun j => { j with hostC := { j.hostC with release := j.hostC.read } }
  else complete .notattached s

/-- REREAD (R32, R162). -/
def commandReread (s : State) : State :=
  if s.js.hostC.attached then
    complete .ok <| evalAvl <| s.onJs fun j => { j with hostC := { j.hostC with read := j.hostC.release } }
  else complete .notattached s

/-! ### MARK, SET TIME, RELEASE HOLD, CLEAR FAULTS -/

/-- The MARK entry stamped now (R66, R67). -/
def markEntry (tag : BitVec 16) (source : MarkSource) (s : State) : Entry :=
  { stamp := s.tb.counter, body := .mark tag source }

/-- MARK (R66, R163). -/
def commandMark (s : State) : State :=
  if s.oq.state = .running then complete .ok (takeEntry (markEntry (markTag s) .host s) s) else complete .locked s

/-- SET TIME (R105 to R107, R163). -/
def commandSetTime (s : State) : State :=
  if argMicros s < 1000000 then complete .ok (stepToTime (newTimeOf s) s) else complete .badarg s

/-- An active hold ends: NONE, the count 0, the protected start taken away and freeing re-evaluated, then in RUNNING the
HOLD "released" packet (R21, R27, R121; log entry 13). -/
def releaseHold (s : State) : State :=
  if holdActive s then
    let s1 := reevalFreeing <| s.onTu fun u => { u with hold := .noHold, count := 0 }
    if s.oq.state = .running then emitHoldReleased s1 else s1
  else s

/-- RELEASE HOLD (R121, R163). -/
def commandReleaseHold (s : State) : State := complete .ok (releaseHold s)

/-- CLEAR FAULTS (R177, R163). -/
def commandClearFaults (s : State) : State :=
  complete .ok <| s.onIfu fun u => { u with faults := [], lost := 0 }

/-! ### Table entries -/

/-- A checked entry is written whole, and its owner applies it (R164, R184). -/
def applyEntry (e : TableEntry) (s : State) : State :=
  match e with
  | .channel i d => setChannel i (setupChannel d s.icu[i]) s
  | .trigger i r => s.onTu fun u => { u with rules := u.rules.set i r }
  | .time t => writeTimeTable t s
  | .journal j => s.onJs fun st => { st with table := j }

/-- The channel and journal tables are locked while capture is not STOPPED (R39, R72, R164). -/
def tableLocked (slot : TableSlot) (s : State) : Bool :=
  match slot with
  | .channel _ => s.oq.state != .stopped
  | .journal => s.oq.state != .stopped
  | .trigger _ => false
  | .time => false

/-- WRITE ENTRY: id and index, then the lock, then the fields (R158, R164). -/
def commandWriteEntry (s : State) : State :=
  match slotOf s.hw.tabsel s.hw.tabidx with
  | none => complete .badarg s
  | some slot =>
    if tableLocked slot s then complete .locked s
    else
      match decodeEntry slot s.hw.entry with
      | none => complete .badarg s
      | some e => complete .ok (applyEntry e s)

/-- READ ENTRY (R165). -/
def commandReadEntry (s : State) : State :=
  match slotOf s.hw.tabsel s.hw.tabidx with
  | none => complete .badarg s
  | some slot => complete .ok <| s.onHw fun w => { w with entry := encodeSlot slot s }

/-! ### Codes -/

/-- What a command code stands for: the fourteen commands by code, UNKNOWN for every other (R158, R198). -/
def commandOf (code : Byte) : State → State :=
  match code.toNat with
  | 1 => commandStart
  | 2 => commandStop
  | 3 => commandRestart
  | 4 => commandReload
  | 5 => commandAttach
  | 6 => commandDetach
  | 7 => commandRelease
  | 8 => commandReread
  | 9 => commandMark
  | 10 => commandSetTime
  | 11 => commandReleaseHold
  | 12 => commandWriteEntry
  | 13 => commandReadEntry
  | 14 => commandClearFaults
  | _ => complete .unknown

/-! ### The meanings -/

/-- ATTACH (R29, R162). -/
def execAttach (s : State) : Host.Outcome State Fault Refusal := .next (request commandAttach s)

/-- DETACH (R33, R162). -/
def execDetach (s : State) : Host.Outcome State Fault Refusal := .next (request commandDetach s)

/-- RELEASE (R31, R162). -/
def execRelease (s : State) : Host.Outcome State Fault Refusal := .next (request commandRelease s)

/-- REREAD (R32, R162). -/
def execReread (s : State) : Host.Outcome State Fault Refusal := .next (request commandReread s)

/-- MARK (R66, R163). -/
def execMark (s : State) : Host.Outcome State Fault Refusal := .next (request commandMark s)

/-- SET_TIME (R105, R163). -/
def execSetTime (s : State) : Host.Outcome State Fault Refusal := .next (request commandSetTime s)

/-- RELEASE_HOLD (R121, R163). -/
def execReleaseHold (s : State) : Host.Outcome State Fault Refusal := .next (request commandReleaseHold s)

/-- WRITE_ENTRY (R164). -/
def execWriteEntry (s : State) : Host.Outcome State Fault Refusal := .next (request commandWriteEntry s)

/-- READ_ENTRY (R165). -/
def execReadEntry (s : State) : Host.Outcome State Fault Refusal := .next (request commandReadEntry s)

/-- CLEAR_FAULTS (R177). -/
def execClearFaults (s : State) : Host.Outcome State Fault Refusal := .next (request commandClearFaults s)

/-- UNKNOWN_COMMAND: a CMD write of a code, which for a well-formed command names none (R158). -/
def execUnknownCommand (code : Byte) (s : State) : Host.Outcome State Fault Refusal := .next (request (commandOf code) s)

end Sys2Proof.Machine
end

