-- ==== Sys2Proof/Machine/LinkPort.lean ====
section
/-! DEFINITION. The export link (chapter 7): transactions, frames, acknowledgement, rewinding, attachment, status and
marks. -/

namespace Sys2Proof.Machine

/-! ### Transactions -/

/-- A link command is taken in a transaction that has taken none yet: the error bit is cleared by the receipt of byte 1,
then `body` carries the command out and answers the bytes sent from byte 2 on (R128, R130). With XSEL# high, or after the transaction's
command, the bytes are ignored (R127, R128). -/
def linkCommand (body : State → List Byte × State) (s : State) : State :=
  match s.xl.phase with
  | .selected status =>
    let (response, s1) := body (s.onXl fun x => { x with error := false })
    s1.onXl fun x => { x with phase := .served status response }
  | _ => s

/-- The link refuses a command: the error bit is set (R130). -/
def linkError (s : State) : State := s.onXl fun x => { x with error := true }

/-- A command without response: every byte from byte 2 on is FFh (R128). -/
def noResponse (f : State → State) (s : State) : List Byte × State := ([], f s)

/-! ### XSTAT -/

/-- The XSTAT response, sent from byte 2 on (R144, R195). -/
def xstatResponse (s : State) : List Byte :=
  bytesOf (BitVec.ofNat 16 (exportUnread s)) 2 ++
    [BitVec.ofNat 8 s.xl.outstanding.length, BitVec.ofNat 8 s.js.exportC.skips, s.xl.nextSeq,
     BitVec.ofNat 8 s.xl.aborts]

/-! ### XFETCH -/

/-- The outstanding list holds four frames (R134). -/
def windowFull (s : State) : Bool := decide (Config.frameCapacity ≤ s.xl.outstanding.length)

/-- The number of journal bytes a frame for at most `n` carries (R134). -/
def frameLength (n : Nat) (s : State) : Nat :=
  if s.js.exportC.attached then (if windowFull s then 0 else min n (exportUnread s)) else 0

/-- A frame's flags byte (R135, R195). -/
def frameFlags (s : State) : Byte :=
  bitAt 0 s.js.exportC.skipPending ||| bitAt 1 (holdActive s) ||| bitAt 2 (isLosing s) |||
    bitAt 3 (s.js.exportC.attached && windowFull s) ||| bitAt 4 (!s.js.exportC.attached)

/-- A frame's bytes with `k` journal bytes: sequence, flags, length, data, CRC low byte first (R135, R136). -/
def frameBytes (k : Nat) (s : State) : List Byte :=
  let body := s.xl.nextSeq :: frameFlags s :: BitVec.ofNat 8 k :: s.js.ram.readBytes s.js.exportC.read k
  body ++ bytesOf (crc16 body) 2

/-- The record of a frame with `k` journal bytes (R133, R134). -/
def frameRecord (k : Nat) (s : State) : FrameRec :=
  { seq := s.xl.nextSeq, start := s.js.exportC.read, stop := s.js.exportC.read + BitVec.ofNat 32 k }

/-- A frame is built: the record joins the list when it carries data, EXPORT's read mark advances, skip-pending is
cleared, and the copy is in flight; it is sent from byte 3 on, behind FFh for the argument byte (R128, R134, R135,
R139). -/
def buildFrame (n : Nat) (s : State) : List Byte × State :=
  let k := frameLength n s
  let frame := frameRecord k s
  let bytes := frameBytes k s
  (0xFF#8 :: bytes,
    (s.onJs fun j => { j with exportC := { j.exportC with read := frame.stop, skipPending := false } }).onXl fun x =>
      { x with outstanding := if 0 < k then x.outstanding ++ [frame] else x.outstanding,
               flight := some { frame := frame, skip := s.js.exportC.skipPending, bytes := bytes } })

/-- XFETCH (R134). -/
def takeXfetch (n : Byte) (s : State) : List Byte × State :=
  if n.toNat = 0 ∨ Config.frameDataMax < n.toNat then ([], linkError s) else buildFrame n.toNat s

/-- The number of journal bytes a frame carries. -/
def frameData (f : FrameRec) : Nat := (f.stop - f.start).toNat

/-- The frame in flight is delivered: a data frame consumes its number (R137). -/
def deliverFrame (f : Flight) (s : State) : State :=
  s.onXl fun x => { x with flight := none, nextSeq := if 0 < frameData f.frame then x.nextSeq + 1#8 else x.nextSeq }

/-- The frame in flight is withdrawn (R138). -/
def withdrawFrame (f : Flight) (s : State) : State :=
  let listed := s.xl.outstanding.getLast? == some f.frame
  let s1 :=
    if 0 < frameData f.frame then
      let s2 := s.onXl fun x =>
        { x with aborts := satInc 255 x.aborts,
                 outstanding := if listed then x.outstanding.dropLast else x.outstanding }
      if listed then s2.onJs fun j => { j with exportC := { j.exportC with read := f.frame.start } } else s2
    else s
  (s1.onJs fun j => { j with exportC := { j.exportC with skipPending := j.exportC.skipPending || f.skip } }).onXl
    fun x => { x with flight := none }

/-! ### XACK, XREWIND, XATTACH, XDETACH, XMARK -/

/-- The end of the frame numbered `seq` and the records behind it; none when no record has that number (R140). -/
def ackThrough (seq : Byte) : List FrameRec → Option (Pos × List FrameRec)
  | [] => none
  | f :: fs => if f.seq = seq then some (f.stop, fs) else ackThrough seq fs

/-- XACK: check, stale, release (R140). -/
def takeXack (seq check : Byte) (s : State) : State :=
  if check = ~~~seq then
    match ackThrough seq s.xl.outstanding with
    | none => linkError s
    | some (stop, rest) =>
      reevalFreeing <| (s.onXl fun x => { x with outstanding := rest }).onJs fun j =>
        { j with exportC := { j.exportC with release := stop } }
  else linkError (logFault .linkcheck 0x30#8 s)

/-- XREWIND (R141). DESIGN CHOICE (log entry 30): in LOADING too, with EXPORT detached it is refused with the error bit, as
R130 and R141 say, though R147 has XREWIND in LOADING taken and change nothing. -/
def takeXrewind (s : State) : State :=
  if s.js.exportC.attached then
    (s.onXl fun x => { x with outstanding := [] }).onJs fun j =>
      { j with exportC := { j.exportC with read := j.exportC.release } }
  else linkError s

/-- XATTACH (R142). -/
def takeXattach (s : State) : State :=
  if s.oq.state = .loading then linkError s
  else (attachExportOp s).onXl fun x => { x with outstanding := [] }

/-- XDETACH (R143). DESIGN CHOICE (log entry 31): in LOADING it is refused with the error bit also where EXPORT is detached
already, as R130 and R147 say, though R143 closes with "sets no error" of an XDETACH while detached. -/
def takeXdetach (s : State) : State :=
  if s.oq.state = .loading then linkError s
  else if s.js.exportC.attached then
    reevalFreeing <| (s.onXl fun x => { x with outstanding := [] }).onJs fun j =>
      { j with exportC := { j.exportC with read := j.exportC.release, attached := false } }
  else s

/-- XMARK: check byte, then the offer of a MARK entry (R67, R145). -/
def takeXmark (high low check : Byte) (s : State) : State :=
  if check = ~~~(high + low) then
    if s.oq.state = .running then takeEntry (markEntry (word16 low high) .link s) s else linkError s
  else linkError (logFault .linkcheck 0x60#8 s)

/-! ### The codes of R128 -/

/-- The command that the bytes received in a transaction take: byte 1 names it, its argument bytes follow, and bytes
beyond the last argument are ignored; none while its last argument byte has not been received (R128). -/
def linkCommandOf (code : Byte) (args : List Byte) : Option Instr :=
  if code = 0x10#8 then some .xstat
  else if code = 0x20#8 then
    match args with
    | n :: _ => some (.xfetch n)
    | _ => none
  else if code = 0x30#8 then
    match args with
    | seq :: check :: _ => some (.xack seq check)
    | _ => none
  else if code = 0x40#8 then some .xrewind
  else if code = 0x50#8 then some .xattach
  else if code = 0x51#8 then some .xdetach
  else if code = 0x60#8 then
    match args with
    | high :: low :: check :: _ => some (.xmark high low check)
    | _ => none
  else some (.linkUnknownCommand code)

/-- What the command of a transaction's bytes carries out, with the response it sends; none while its last argument byte
has not been received (R128). -/
def linkBody (code : Byte) (args : List Byte) : Option (State → List Byte × State) :=
  if code = 0x10#8 then some fun s => (xstatResponse s, s)
  else if code = 0x20#8 then
    match args with
    | n :: _ => some (takeXfetch n)
    | _ => none
  else if code = 0x30#8 then
    match args with
    | seq :: check :: _ => some (noResponse (takeXack seq check))
    | _ => none
  else if code = 0x40#8 then some (noResponse takeXrewind)
  else if code = 0x50#8 then some (noResponse takeXattach)
  else if code = 0x51#8 then some (noResponse takeXdetach)
  else if code = 0x60#8 then
    match args with
    | high :: low :: check :: _ => some (noResponse (takeXmark high low check))
    | _ => none
  else some (noResponse linkError)

/-- The effect of a transaction's bytes from its byte 1 on, received whole: the command they take, or, while its arguments
are still due, the clearing of the error bit that the receipt of byte 1 brings (R128, R130). -/
def takeLinkBytes (code : Byte) (args : List Byte) (s : State) : State :=
  match linkBody code args with
  | some body => linkCommand body s
  | none =>
    match s.xl.phase with
    | .selected _ => s.onXl fun x => { x with error := false }
    | _ => s

/-- The command decoded and not yet taken when a transaction ends after these bytes: what TRANSACTION_END carries
(R131). -/
def linkArgumentsDue (code : Byte) (args : List Byte) : Option ArgCommand :=
  if code = 0x20#8 ∧ args.length < 1 then some .xfetch
  else if code = 0x30#8 ∧ args.length < 2 then some .xack
  else if code = 0x60#8 ∧ args.length < 3 then some .xmark
  else none

/-- XSEL# falls: the link status byte is formed, and the transaction's bits and bytes are counted from here (R127, R129);
with XSEL# already low nothing falls. -/
def beginTransaction (s : State) : State :=
  match s.xl.phase with
  | .deselected => s.onXl fun x => { x with phase := .selected (linkStatus s), port := SerialPort.fresh x.port.clock }
  | _ => s

/-- The port with XSEL# high: a partial byte received is discarded (R127). -/
def closeTransaction (s : State) : State :=
  s.onXl fun x => { x with phase := .deselected, port := SerialPort.fresh x.port.clock }

/-- XSEL# rises: a decoded command not yet taken is abandoned with the error bit, a frame in flight is withdrawn (R131,
R138). -/
def endTransaction (decoded : Option ArgCommand) (s : State) : State :=
  match s.xl.phase with
  | .deselected => s
  | .endedByReset => closeTransaction s
  | .selected _ => closeTransaction (if decoded.isSome then linkError s else s)
  | .served _ _ => closeTransaction (match s.xl.flight with | none => s | some f => withdrawFrame f s)

/-! ### The bits of the port -/

/-- An edge on XSEL# or XCLK, with XDI's level where it is sampled (R127). -/
inductive LinkEdge where
  | selFalls
  | selRises
  | clkRises (xdi : Bool)
  | clkFalls
  deriving DecidableEq, Repr

/-- A transaction is in progress: XSEL# has been low since no device reset ended it (R127). -/
def transactionOpen (p : LinkPhase) : Bool :=
  match p with
  | .selected _ => true
  | .served _ _ => true
  | _ => false

/-- The command decoded from the bytes received whole and not yet taken (R131). -/
def decodedCommand (received : List Byte) : Option ArgCommand :=
  match received with
  | [] => none
  | code :: args => linkArgumentsDue code args

/-- The frame in flight whose last byte is the last one received: it stands behind byte 1 and the argument byte (R134,
R137). -/
def frameClockedOut (s : State) : Option Flight :=
  s.xl.flight.filter fun f => s.xl.port.received.length == 2 + f.bytes.length

/-- A byte has been received whole: the last of a frame delivers it, and one that completes a command takes it (R128, R130,
R137). -/
def byteReceived (s : State) : State :=
  match frameClockedOut s with
  | some f => deliverFrame f s
  | none =>
    match s.xl.port.received with
    | [] => s
    | code :: args => takeLinkBytes code args s

/-- An edge on the link port (R127): XSEL# begins and ends a transaction; in one, a rising edge of XCLK samples XDI, the
eighth completing a byte, and a falling edge presents XDO's next bit; outside one XCLK does nothing. An edge to the level a
line has does not occur (log entry 7). DESIGN CHOICE (log entry 32): edges come one at a time, and every falling edge of
XCLK in the transaction presents a bit. -/
def linkEdge (e : LinkEdge) (s : State) : State :=
  match e with
  | .selFalls => beginTransaction s
  | .selRises => endTransaction (decodedCommand s.xl.port.received) s
  | .clkRises xdi =>
    if s.xl.port.clock then s
    else if transactionOpen s.xl.phase then
      let s1 := s.onLinkPort (SerialPort.rise xdi)
      if s1.xl.port.sampled = [] then byteReceived s1 else s1
    else s.onLinkPort fun p => { p with clock := true }
  | .clkFalls =>
    if s.xl.port.clock then
      s.onLinkPort fun p => if transactionOpen s.xl.phase then p.fall else { p with clock := false }
    else s

/-! ### The meanings -/

/-- TRANSACTION_BEGIN: XSEL# falls (R127, R129). -/
def execTransactionBegin (s : State) : Host.Outcome State Fault Refusal := .next (beginTransaction s)

/-- XSTAT (R144). -/
def execXstat (s : State) : Host.Outcome State Fault Refusal :=
  .next (linkCommand (fun s => (xstatResponse s, s)) s)

/-- XFETCH (R134). -/
def execXfetch (n : Byte) (s : State) : Host.Outcome State Fault Refusal := .next (linkCommand (takeXfetch n) s)

/-- XACK (R140). -/
def execXack (seq check : Byte) (s : State) : Host.Outcome State Fault Refusal :=
  .next (linkCommand (noResponse (takeXack seq check)) s)

/-- XREWIND (R141). -/
def execXrewind (s : State) : Host.Outcome State Fault Refusal := .next (linkCommand (noResponse takeXrewind) s)

/-- XATTACH (R142). -/
def execXattach (s : State) : Host.Outcome State Fault Refusal := .next (linkCommand (noResponse takeXattach) s)

/-- XDETACH (R143). -/
def execXdetach (s : State) : Host.Outcome State Fault Refusal := .next (linkCommand (noResponse takeXdetach) s)

/-- XMARK (R67, R145). -/
def execXmark (high low check : Byte) (s : State) : Host.Outcome State Fault Refusal :=
  .next (linkCommand (noResponse (takeXmark high low check)) s)

/-- LINK_UNKNOWN_COMMAND: byte 1 names, for a well-formed command, no link command; the error bit is set (R130). -/
def execLinkUnknownCommand (code : Byte) (s : State) : Host.Outcome State Fault Refusal :=
  .next (takeLinkBytes code [] s)

/-- FRAME_DELIVERED: the last CRC bit of the frame in flight is clocked out (R137); with none in flight nothing changes
(log entry 7). -/
def execFrameDelivered (s : State) : Host.Outcome State Fault Refusal :=
  .next (match s.xl.flight with | none => s | some f => deliverFrame f s)

/-- TRANSACTION_END (R131, R138). -/
def execTransactionEnd (decoded : Option ArgCommand) (s : State) : Host.Outcome State Fault Refusal :=
  .next (endTransaction decoded s)

end Sys2Proof.Machine
end

