-- ==== Sys2Proof/Machine/LoaderPort.lean ====
section
/-! DEFINITION. The configuration loader (chapter 10): header, records, CRC, failure, application, auto-start; and the
device reset. -/

namespace Sys2Proof.Machine

/-! ### The end of a load -/

/-- A RELOAD in progress completes with OK (R188). -/
def completeReload (s : State) : State := if s.hw.inProgress = some .reload then complete .ok s else s

/-- The load fails with a reason (R187): staged records discarded, LOADFAIL logged, STOPPED, STP, and a RELOAD
completes. -/
def failLoad (reason : Byte) (s : State) : State :=
  let s1 := logFault .loadfail reason <| s.onCl fun c => { c with staged := 0 }
  let s2 := (s1.onCl fun c => { c with state := .idle }).onOq fun q => { q with state := .stopped }
  completeReload (setFlag flagStp s2)

/-- The running CRC continued over received bytes (R183). -/
def receive (bytes : List Byte) (s : State) : State := s.onCl fun c => { c with crc := crcOver c.crc bytes }

/-! ### Header, records, CRC -/

/-- The header of an image (R181): each field is added to the running CRC as it arrives and checked in order. -/
def takeHeader (format version countLow countHigh flags : Byte) (s : State) : State :=
  if format ≠ 0xC3#8 then failLoad 1#8 (receive [format] s)
  else if version ≠ 0x01#8 then failLoad 1#8 (receive [format, version] s)
  else if Config.recordMax < (word16 countLow countHigh).toNat then
    failLoad 2#8 (receive [format, version, countLow, countHigh] s)
  else
    (receive [format, version, countLow, countHigh, flags] s).onCl fun c =>
      { c with count := (word16 countLow countHigh).toNat, read := 0, headerSeen := true,
               autoStart := flags.getLsbD 0, attachHost := flags.getLsbD 1, attachExport := flags.getLsbD 2 }

/-- The ten bytes of a record (R182). -/
def recordBytes (table index : Byte) (entry : EntryBytes) : List Byte := table :: index :: entry.toList

/-- Places a record behind the staged ones, in the journal RAM from ring offset 0 upwards (R182). -/
def stageRecord (bytes : List Byte) (s : State) : State :=
  (s.onJs fun j => { j with ram := j.ram.writeBytes (10 * s.cl.staged) bytes }).onCl fun c =>
    { c with staged := c.staged + 1 }

/-- A record passes the checks WRITE ENTRY makes of an entry, those of capture state apart (R182). -/
def checkRecord (table index : Byte) (entry : EntryBytes) : Option TableEntry :=
  (slotOf table index).bind fun slot => decodeEntry slot entry

/-- A record of an image (R182). -/
def takeRecord (table index : Byte) (entry : EntryBytes) (s : State) : State :=
  let bytes := recordBytes table index entry
  let s1 := stageRecord bytes (receive bytes s)
  match checkRecord table index entry with
  | none => failLoad 3#8 s1
  | some _ => s1.onCl fun c => { c with read := c.read + 1 }

/-- The image's CRC (R183). -/
def takeCrc (low high : Byte) (s : State) : State :=
  if word16 low high = s.cl.crc then s.onCl fun c => { c with state := .applying } else failLoad 4#8 s

/-! ### The bits of the configuration memory port -/

/-- An edge of MCLK, which the loader drives, with MDI's level where it is sampled (R180). -/
inductive MemoryEdge where
  | clkRises (mdi : Bool)
  | clkFalls
  deriving DecidableEq, Repr

/-- The bytes the loader sends before the image's first: the read command and the address (R180). -/
def commandBytes : Nat := 3

/-- What the loader takes of the image bytes received since its last header or record: a header as soon as a check of it
fails or its five bytes are there, a record of ten bytes, the two bytes of the CRC; none while more bytes are needed (R181
to R183). -/
def imageTaken (bytes : List Byte) (c : Loader) : Option (State → State) :=
  if c.headerSeen = false then
    match bytes with
    | [format] => if format = 0xC3#8 then none else some (takeHeader format 0#8 0#8 0#8 0#8)
    | [format, version] => if version = 0x01#8 then none else some (takeHeader format version 0#8 0#8 0#8)
    | [format, version, low, high] =>
      if (word16 low high).toNat ≤ Config.recordMax then none else some (takeHeader format version low high 0#8)
    | [format, version, low, high, flags] => some (takeHeader format version low high flags)
    | _ => none
  else if c.read < c.count then
    match bytes with
    | [table, index, b0, b1, b2, b3, b4, b5, b6, b7] => some (takeRecord table index #v[b0, b1, b2, b3, b4, b5, b6, b7])
    | _ => none
  else
    match bytes with
    | [low, high] => some (takeCrc low high)
    | _ => none

/-- A byte has been received whole: the three received during the command and the address are no image bytes, and the loader
takes what the image bytes behind them complete (R180 to R183). -/
def imageByteReceived (s : State) : State :=
  match imageTaken (s.cl.port.received.drop commandBytes) s.cl with
  | some take => take (s.onMemoryPort fun p => { p with received := p.received.take commandBytes })
  | none => s

/-- An edge of MCLK while the loader is READING, outside which MCLK stays low (R180): a rising edge samples MDI, the eighth
completing a byte, and a falling edge presents MDO's next bit. -/
def memoryEdge (e : MemoryEdge) (s : State) : State :=
  if s.cl.state = .reading then
    match e with
    | .clkRises mdi =>
      if s.cl.port.clock then s
      else
        let s1 := s.onMemoryPort (SerialPort.rise mdi)
        if s1.cl.port.sampled = [] then imageByteReceived s1 else s1
    | .clkFalls => if s.cl.port.clock then s.onMemoryPort SerialPort.fall else s
  else s

/-! ### Applying -/

/-- Byte `i` of the journal RAM. -/
def stagedByte (i : Nat) (s : State) : Byte := s.js.ram.read i

/-- The checked entry of staged record `i` (R182, R184). -/
def stagedEntry (i : Nat) (s : State) : Option TableEntry :=
  checkRecord (stagedByte (10 * i) s) (stagedByte (10 * i + 1) s)
    (Vector.ofFn fun k : Fin 8 => stagedByte (10 * i + 2 + k.val) s)

/-- The staged records are written in the order they were read (R184). -/
def applyRecords : List Nat → State → State
  | [], s => s
  | i :: is, s =>
    applyRecords is <|
      match stagedEntry i s with
      | none => s
      | some e => applyEntry e s

/-- A valid image is applied: records, attach flags, LOADING left, and a RELOAD completed unless the auto-start comes
first (R184, R185, R188). -/
def finishLoad (s : State) : State :=
  let s1 := applyRecords (List.range s.cl.staged) s
  let s2 := if s1.cl.attachHost then attachHostOp s1 else s1
  let s3 := if s2.cl.attachExport then attachExportOp s2 else s2
  let s4 :=
    (s3.onCl fun c => { c with state := .idle, staged := 0, autoStartDue := c.autoStart }).onOq fun q =>
      { q with state := .stopped }
  if s4.cl.autoStartDue then s4 else completeReload s4

/-- The loader asks capture control for the START its image asked for; a RELOAD then completes (R185, R188, R191). -/
def takeAutoStart (s : State) : State :=
  completeReload (requestStart (s.onCl fun c => { c with autoStartDue := false })).2

/-! ### Device reset -/

/-- The port's phase after a device reset: XSEL# may still be low (R127). -/
def phaseAfterReset (p : LinkPhase) : LinkPhase :=
  match p with
  | .deselected => .deselected
  | _ => .endedByReset

/-- The host bus after a device reset: the lines are the host's, and the access in progress has ended (R149). -/
def busAfterReset (b : HostBus) : HostBus := { b with spoiled := !b.wr }

/-- The part after a device reset with the CFGLD strap at `cfgld` (R178): every block at its device-reset values, the
field lines and the journal RAM's bytes as they are (log entries 2 and 3). -/
def deviceReset (cfgld : Bool) (s : State) : State :=
  { icu := s.icu.map fun c => ChannelRec.reset c.line, tb := TimeBase.reset,
    oq := Capture.reset (if cfgld then .loading else .stopped), je := Encoder.reset, js := Store.reset s.js.ram,
    tu := TriggerUnit.reset, xl := Link.reset (phaseAfterReset s.xl.phase) s.xl.port.clock,
    hw := { HostWindow.reset with bus := busAfterReset s.hw.bus },
    ifu := FaultUnit.reset, cl := Loader.reset cfgld, pending := s.pending, choices := s.choices }

/-! ### The meanings -/

/-- DEVICE_RESET (R178). -/
def execDeviceReset (cfgld : Bool) (s : State) : Host.Outcome State Fault Refusal := .next (deviceReset cfgld s)

/-- LOAD_HEADER_RECEIVED, while READING and before the header (R181); otherwise nothing is received (log entry 7). -/
def execLoadHeaderReceived (format version countLow countHigh flags : Byte) (s : State) :
    Host.Outcome State Fault Refusal :=
  .next (if s.cl.state = .reading ∧ s.cl.headerSeen = false then takeHeader format version countLow countHigh flags s
    else s)

/-- LOAD_RECORD_RECEIVED, while READING and records are due (R182); otherwise nothing is received (log entry 7). -/
def execLoadRecordReceived (table index : Byte) (entry : EntryBytes) (s : State) : Host.Outcome State Fault Refusal :=
  .next (if s.cl.state = .reading ∧ s.cl.headerSeen = true ∧ s.cl.read < s.cl.count then takeRecord table index entry s
    else s)

/-- LOAD_CRC_RECEIVED, while READING and after the last record (R183); otherwise nothing is received (log entry 7). -/
def execLoadCrcReceived (low high : Byte) (s : State) : Host.Outcome State Fault Refusal :=
  .next (if s.cl.state = .reading ∧ s.cl.headerSeen = true ∧ s.cl.read = s.cl.count then takeCrc low high s else s)

/-- APPLYING_DONE, while APPLYING (R184, R185); otherwise nothing changes (log entry 7). -/
def execApplyingDone (s : State) : Host.Outcome State Fault Refusal :=
  .next (if s.cl.state = .applying then finishLoad s else s)

/-- AUTO_START, when a valid image asked for it (R185); otherwise nothing changes (log entry 7). -/
def execAutoStart (s : State) : Host.Outcome State Fault Refusal :=
  .next (if s.cl.autoStartDue then takeAutoStart s else s)

end Sys2Proof.Machine
end

