-- ==== Sys2Proof/Machine/Registers.lean ====
section
/-! DEFINITION. The 64 registers of the host window: what a read of each address returns (R148, R153, R198), the reads
with an effect (JDATA, HSKIP, the latched groups) and the register writes. -/

namespace Sys2Proof.Machine

/-! ### Values latched -/

/-- The oldest fault record as the nine bytes of FLTHEAD; zero when the queue is empty (R152, R176). -/
def faultHead (u : FaultUnit) : BitVec 72 :=
  match u.faults with
  | [] => 0#72
  | f :: _ => timeWord f.time ++ f.detail ++ f.kind.code

/-- A read of a group's first byte latches the owner's value whole (R150, R151, R152). -/
def latchGroup (g : Group) (s : State) : Latches :=
  let l := s.hw.latches
  match g with
  | .javail => { l with javail := BitVec.ofNat 16 (hostUnread s) }
  | .hposr =>
    { l with javail := BitVec.ofNat 16 (hostUnread s), hposr := s.js.hostC.read, hposl := s.js.hostC.release }
  | .timenow => { l with timenow := timeWord s.tb.counter }
  | .flthead => { l with flthead := faultHead s.ifu }
  | .live => { l with live := liveImage s }
  | .jhead => { l with jhead := s.js.head }
  | .holds => { l with holds := s.tu.start }

/-- The latch byte at a window address, with the given latches (R198). -/
def latchByte (l : Latches) (a : Nat) : Byte :=
  if a < 0x18 then byteOf l.javail (a - 0x15)
  else if a < 0x1C then byteOf l.hposr (a - 0x18)
  else if a < 0x20 then byteOf l.hposl (a - 0x1C)
  else if a < 0x28 then byteOf l.timenow (a - 0x20)
  else if a < 0x33 then byteOf l.flthead (a - 0x28)
  else if a < 0x36 then byteOf l.live (a - 0x33)
  else if a < 0x3A then byteOf l.jhead (a - 0x36)
  else byteOf l.holds (a - 0x3A)

/-- The address of a group's first byte (R198). -/
def groupAddress : Group → Nat
  | .javail => 0x15
  | .hposr => 0x18
  | .timenow => 0x20
  | .flthead => 0x28
  | .live => 0x33
  | .jhead => 0x36
  | .holds => 0x3A

/-- The group whose first byte stands at an address. -/
def groupAt (a : Nat) : Option Group :=
  match a with
  | 0x15 => some .javail
  | 0x18 => some .hposr
  | 0x20 => some .timenow
  | 0x28 => some .flthead
  | 0x33 => some .live
  | 0x36 => some .jhead
  | 0x3A => some .holds
  | _ => none

/-! ### Reads -/

/-- The journal byte a JDATA read serves: at HOST's read mark when HOST is attached with unread bytes (R30, R154). -/
def jdataByte (s : State) : Option Byte :=
  if s.js.hostC.attached ∧ s.js.hostC.read ≠ s.js.head then
    some (s.js.ram.read (s.js.hostC.read.toNat % Config.ringSize))
  else none

/-- What a read of a window address returns (R148, R198). -/
def readRegister (a : Nat) (s : State) : Byte :=
  match a with
  | 0x00 => 0xB4#8
  | 0x01 => 0x10#8
  | 0x02 => capst s
  | 0x03 => timest s
  | 0x04 => s.hw.result.code
  | 0x05 => cmdflag s
  | 0x06 => s.hw.tabsel
  | 0x07 => s.hw.tabidx
  | 0x10 => s.ifu.irqf
  | 0x11 => s.ifu.irqe
  | 0x12 => byteOf s.hw.avth 0
  | 0x13 => byteOf s.hw.avth 1
  | 0x14 => (jdataByte s).getD 0#8
  | 0x17 => BitVec.ofNat 8 s.js.hostC.skips
  | 0x27 => BitVec.ofNat 8 s.ifu.faults.length
  | 0x31 => 0#8
  | 0x32 => BitVec.ofNat 8 s.ifu.lost
  | a =>
    if a < 0x10 then s.hw.entry.toList.getD (a - 8) 0#8
    else if a < 0x3E then
      latchByte (match groupAt a with | some g => latchGroup g s | none => s.hw.latches) a
    else 0#8

/-- A byte is driven on D7–D0, until RD# rises (R148). -/
def drive (b : Byte) (s : State) : State := s.onHw fun w => { w with dataOut := some b }

/-- A JDATA read: one byte served, or 00h and read-empty (R154). -/
def readJdata (s : State) : State :=
  match jdataByte s with
  | some b =>
    drive b <| evalAvl <| s.onJs fun j => { j with hostC := { j.hostC with read := j.hostC.read + 1#32 } }
  | none => drive 0#8 <| s.onHw fun w => { w with readEmpty := true }

/-- An HSKIP read: the skip count, and HOST's skip-pending cleared (R34, R153). -/
def readHskip (s : State) : State :=
  drive (readRegister 0x17 s) <| s.onJs fun j => { j with hostC := { j.hostC with skipPending := false } }

/-- A read of a group's first byte (R150). -/
def readGroup (g : Group) (s : State) : State :=
  drive (readRegister (groupAddress g) s) <| s.onHw fun w => { w with latches := latchGroup g s }

/-! ### Writes -/

/-- A write to FLTNEXT removes the oldest record (R176). -/
def writeFltnext (s : State) : State := s.onIfu fun u => { u with faults := u.faults.tail }

/-- A write to IRQF clears each flag written as 1 (R170). -/
def writeIrqf (v : Byte) (s : State) : State := s.onIfu fun u => { u with irqf := u.irqf &&& ~~~v }

/-- A write to IRQE sets each enable to the bit written (R172). -/
def writeIrqe (v : Byte) (s : State) : State := s.onIfu fun u => { u with irqe := v }

/-- A write to CMDFLAG clears the collision and read-empty bits written as 1 (R153, R198). -/
def writeCmdflag (v : Byte) (s : State) : State :=
  s.onHw fun w =>
    { w with collision := w.collision && !v.getLsbD 0, readEmpty := w.readEmpty && !v.getLsbD 1 }

/-- A write of AVTH's low byte is held pending (R155). -/
def writeAvthLow (v : Byte) (s : State) : State := s.onHw fun w => { w with avthLow := v }

/-- The value a write of AVTH's high byte forms, and AVTH after it: 1 to 16,384 is taken (R155). -/
def avthAfter (v : Byte) (w : HostWindow) : BitVec 16 :=
  let formed := word16 w.avthLow v
  if 1 ≤ formed.toNat ∧ formed.toNat ≤ Config.ringSize then formed else w.avth

/-- A write of AVTH's high byte (R155, R171). -/
def writeAvthHigh (v : Byte) (s : State) : State :=
  evalAvl <| s.onHw fun w => { w with avth := avthAfter v w, avthLow := byteOf (avthAfter v w) 0 }

/-- A write to ENTRY`k`. -/
def writeEntryByte (k : Nat) (v : Byte) (s : State) : State :=
  s.onHw fun w => { w with entry := w.entry.setIfInBounds k v }

/-- A bus write at a window address: staging bytes are held, a register with a behaviour of its own does it, and any
other write is ignored (R148, R160, R198). -/
def writeRegister (a : Nat) (v : Byte) (s : State) : State :=
  match a with
  | 0x04 => request (commandOf v) s
  | 0x05 => writeCmdflag v s
  | 0x06 => s.onHw fun w => { w with tabsel := v }
  | 0x07 => s.onHw fun w => { w with tabidx := v }
  | 0x10 => writeIrqf v s
  | 0x11 => writeIrqe v s
  | 0x12 => writeAvthLow v s
  | 0x13 => writeAvthHigh v s
  | 0x31 => writeFltnext s
  | a => if 8 ≤ a ∧ a < 0x10 then writeEntryByte (a - 8) v s else s

/-! ### The strobes of the host bus -/

/-- An edge of one strobe line of the host bus, with the address and data lines as they stand at it (R148). -/
inductive BusEdge where
  | csFalls
  | csRises
  | rdFalls (addr : BitVec 6)
  | rdRises
  | wrFalls
  | wrRises (addr : BitVec 6) (data : Byte)
  deriving DecidableEq, Repr

/-- The read of a window address, taken at the fall of RD#: its effect, if it has one, once, and its value driven on D7–D0
(R148). -/
def readAccess (a : Nat) (s : State) : State :=
  match a with
  | 0x14 => readJdata s
  | 0x17 => readHskip s
  | a =>
    match groupAt a with
    | some g => readGroup g s
    | none => drive (readRegister a s) s

/-- D7–D0 at high impedance (R148). -/
def releaseData (s : State) : State := s.onHw fun w => { w with dataOut := none }

/-- An edge on the host bus (R148): a read is taken when RD# falls with CS# low and WR# high, and drives D7–D0 until RD#
rises; a write is taken when WR# rises with CS# low, unless RD# has been low with it; with CS# high, strobes are ignored.
An edge to the level a line has does not occur (log entry 7). DESIGN CHOICE (log entry 28): edges come one at a time, and a
read taken before WR# falls stands. -/
def busEdge (e : BusEdge) (s : State) : State :=
  let b := s.hw.bus
  match e with
  | .csFalls => if b.cs then s.onBus (fun b => { b with cs := false, spoiled := b.spoiled || (!b.rd && !b.wr) }) else s
  | .csRises => s.onBus fun b => { b with cs := true }
  | .rdFalls a =>
    if b.rd then
      let s1 := releaseData <| s.onBus fun b => { b with rd := false, spoiled := b.spoiled || (!b.cs && !b.wr) }
      if !b.cs && b.wr then readAccess a.toNat s1 else s1
    else s
  | .rdRises => if b.rd then s else releaseData <| s.onBus fun b => { b with rd := true }
  | .wrFalls => if b.wr then s.onBus (fun b => { b with wr := false, spoiled := !b.cs && !b.rd }) else s
  | .wrRises a v =>
    if b.wr then s
    else
      let s1 := s.onBus fun b => { b with wr := true, spoiled := false }
      if !b.cs && !b.spoiled then writeRegister a.toNat v s1 else s1

/-! ### Output pins -/

/-- The configuration memory is selected: MSEL# is low while the loader is READING (R180). -/
def mselLow (s : State) : Bool := s.cl.state == .reading

/-- The configuration memory port's outputs during one byte of a read: MSEL# low, the clocks MCLK gives (with none it
stays low), and the byte on MDO; outside a read R180 gives MDO no level. -/
structure MemoryPort where
  selected : Bool
  clocks : Nat
  mdo : Option Byte
  deriving DecidableEq, Repr

/-- The memory port during byte `i` (counted from 0) of the read: the read command 03h, the address 00h, 00h, and from
there on MDO low while the loader receives; outside READING MSEL# is high and MCLK low (R180). -/
def memoryPort (i : Nat) (s : State) : MemoryPort :=
  if mselLow s then { selected := true, clocks := 8, mdo := some ([0x03#8, 0x00#8, 0x00#8].getD i 0x00#8) }
  else { selected := false, clocks := 0, mdo := none }

/-- The bit on MDO; none outside a read, where R180 gives it no level. -/
def mdoBit (s : State) : Option Bool := s.cl.port.output fun i => (memoryPort i s).mdo

/-- MCLK is high (R180). -/
def mclkHigh (s : State) : Bool := mselLow s && s.cl.port.clock

/-- Byte `i` (counted from 1) that the link sends in the present transaction; none with XDO at high impedance. Byte 1 is
the status byte, then the response, and every byte beyond it is FFh (R127, R128). -/
def xdoByte (i : Nat) (s : State) : Option Byte :=
  match s.xl.phase with
  | .deselected => none
  | .endedByReset => none
  | .selected status => some (if i = 1 then status else 0xFF#8)
  | .served status response => some (if i = 1 then status else response.getD (i - 2) 0xFF#8)

/-- The bit on XDO; none with XDO at high impedance (R127). -/
def xdoBit (s : State) : Option Bool := s.xl.port.output fun i => xdoByte (i + 1) s

/-! ### The meanings -/

/-- JDATA_READ (R154). -/
def execJdataRead (s : State) : Host.Outcome State Fault Refusal := .next (readJdata s)

/-- HSKIP_READ (R34, R153). -/
def execHskipRead (s : State) : Host.Outcome State Fault Refusal := .next (readHskip s)

/-- GROUP_LATCH (R150). -/
def execGroupLatch (g : Group) (s : State) : Host.Outcome State Fault Refusal := .next (readGroup g s)

/-- FLTNEXT_WRITE, with any data byte (R176). -/
def execFltnextWrite (_value : Byte) (s : State) : Host.Outcome State Fault Refusal := .next (writeFltnext s)

/-- IRQF_WRITE (R170). -/
def execIrqfWrite (value : Byte) (s : State) : Host.Outcome State Fault Refusal := .next (writeIrqf value s)

/-- IRQE_WRITE (R172). -/
def execIrqeWrite (value : Byte) (s : State) : Host.Outcome State Fault Refusal := .next (writeIrqe value s)

/-- CMDFLAG_WRITE (R153). -/
def execCmdflagWrite (value : Byte) (s : State) : Host.Outcome State Fault Refusal := .next (writeCmdflag value s)

/-- AVTH_LOW_WRITE (R155). -/
def execAvthLowWrite (value : Byte) (s : State) : Host.Outcome State Fault Refusal := .next (writeAvthLow value s)

/-- AVTH_HIGH_WRITE (R155). -/
def execAvthHighWrite (value : Byte) (s : State) : Host.Outcome State Fault Refusal := .next (writeAvthHigh value s)

/-- REGISTER_WRITE (R148). -/
def execRegisterWrite (addr : BitVec 6) (value : Byte) (s : State) : Host.Outcome State Fault Refusal :=
  .next (writeRegister addr.toNat value s)

end Sys2Proof.Machine
end

