-- ==== Sys2Proof/Machine/Dispatch.lean ====
section
/-! DEFINITION. The meaning of each command: one arm for each constructor of Instr. -/

namespace Sys2Proof.Machine

def exec (i : Instr) (s : State) : Host.Outcome State Fault Refusal :=
  match i with
  | .deviceReset cfgld => Sys2Proof.Machine.execDeviceReset cfgld s
  | .rawEdge ch => Sys2Proof.Machine.execRawEdge ch s
  | .settleExpiry ch => Sys2Proof.Machine.execSettleExpiry ch s
  | .windowExpiry ch => Sys2Proof.Machine.execWindowExpiry ch s
  | .quietExpiry ch => Sys2Proof.Machine.execQuietExpiry ch s
  | .pulse edge => Sys2Proof.Machine.execPulse edge s
  | .timeout => Sys2Proof.Machine.execTimeout s
  | .holdoverExpiry => Sys2Proof.Machine.execHoldoverExpiry s
  | .horizonExpiry => Sys2Proof.Machine.execHorizonExpiry s
  | .drainExpiry => Sys2Proof.Machine.execDrainExpiry s
  | .start => Sys2Proof.Machine.execStart s
  | .stop => Sys2Proof.Machine.execStop s
  | .restart => Sys2Proof.Machine.execRestart s
  | .restartClearingDone => Sys2Proof.Machine.execRestartClearingDone s
  | .reload => Sys2Proof.Machine.execReload s
  | .attach => Sys2Proof.Machine.execAttach s
  | .detach => Sys2Proof.Machine.execDetach s
  | .release => Sys2Proof.Machine.execRelease s
  | .reread => Sys2Proof.Machine.execReread s
  | .mark => Sys2Proof.Machine.execMark s
  | .setTime => Sys2Proof.Machine.execSetTime s
  | .releaseHold => Sys2Proof.Machine.execReleaseHold s
  | .writeEntry => Sys2Proof.Machine.execWriteEntry s
  | .readEntry => Sys2Proof.Machine.execReadEntry s
  | .clearFaults => Sys2Proof.Machine.execClearFaults s
  | .unknownCommand code => Sys2Proof.Machine.execUnknownCommand code s
  | .jdataRead => Sys2Proof.Machine.execJdataRead s
  | .hskipRead => Sys2Proof.Machine.execHskipRead s
  | .groupLatch g => Sys2Proof.Machine.execGroupLatch g s
  | .fltnextWrite value => Sys2Proof.Machine.execFltnextWrite value s
  | .irqfWrite value => Sys2Proof.Machine.execIrqfWrite value s
  | .irqeWrite value => Sys2Proof.Machine.execIrqeWrite value s
  | .cmdflagWrite value => Sys2Proof.Machine.execCmdflagWrite value s
  | .avthLowWrite value => Sys2Proof.Machine.execAvthLowWrite value s
  | .avthHighWrite value => Sys2Proof.Machine.execAvthHighWrite value s
  | .registerWrite addr value => Sys2Proof.Machine.execRegisterWrite addr value s
  | .transactionBegin => Sys2Proof.Machine.execTransactionBegin s
  | .xstat => Sys2Proof.Machine.execXstat s
  | .xfetch n => Sys2Proof.Machine.execXfetch n s
  | .xack seq check => Sys2Proof.Machine.execXack seq check s
  | .xrewind => Sys2Proof.Machine.execXrewind s
  | .xattach => Sys2Proof.Machine.execXattach s
  | .xdetach => Sys2Proof.Machine.execXdetach s
  | .xmark high low check => Sys2Proof.Machine.execXmark high low check s
  | .linkUnknownCommand code => Sys2Proof.Machine.execLinkUnknownCommand code s
  | .frameDelivered => Sys2Proof.Machine.execFrameDelivered s
  | .transactionEnd decoded => Sys2Proof.Machine.execTransactionEnd decoded s
  | .loadHeaderReceived format version countLow countHigh flags => Sys2Proof.Machine.execLoadHeaderReceived format version countLow countHigh flags s
  | .loadRecordReceived table index entry => Sys2Proof.Machine.execLoadRecordReceived table index entry s
  | .loadCrcReceived low high => Sys2Proof.Machine.execLoadCrcReceived low high s
  | .applyingDone => Sys2Proof.Machine.execApplyingDone s
  | .autoStart => Sys2Proof.Machine.execAutoStart s
  | .reloadClearingDone => Sys2Proof.Machine.execReloadClearingDone s

end Sys2Proof.Machine
end

