-- ==== Sys2Proof/Machine/Idle.lean ====
section
/-! DEFINITION. What the part does with no command waiting (log entry 8): the events of its own timers that have come,
and otherwise one microsecond of the reference clock. -/

namespace Sys2Proof.Machine

/-! ### One microsecond -/

/-- A running timer one microsecond on (R76). -/
def tickTimer (t : Option Timer) : Option Timer := t.map fun t => { t with elapsed := t.elapsed + 1 }

/-- A channel one microsecond on (R76). -/
def tickChannel (c : ChannelRec) : ChannelRec :=
  { c with window := tickTimer c.window, quiet := tickTimer c.quiet, settle := tickTimer c.settle }

/-- The holdover timer one microsecond on (R91). -/
def tickHoldover (t : HoldoverTimer) : HoldoverTimer :=
  match t with
  | .running elapsed => .running (elapsed + 1)
  | t => t

/-- One microsecond of the reference clock: the counter and every running timer advance (R76, R90, R91). -/
def tick (s : State) : State :=
  (s.onTb fun t => { t with counter := addMicros t.counter 1, holdover := tickHoldover t.holdover }).onIcu fun v =>
    v.map tickChannel

/-! ### The events that have come -/

/-- The expiries of channel `ch` that have come. -/
def channelEvents (ch : Channel) (c : ChannelRec) : List Instr :=
  (if settleDue c then [Instr.settleExpiry ch] else []) ++ (if windowDue c then [Instr.windowExpiry ch] else []) ++
    (if quietDue c then [Instr.quietExpiry ch] else [])

/-- Every event of the part's own timers that has come and has not been taken. -/
def dueEvents (s : State) : List Instr :=
  (List.finRange 24).flatMap (fun ch => channelEvents ch s.icu[ch]) ++
    (if timeoutDue s then [.timeout] else []) ++ (if holdoverDue s then [.holdoverExpiry] else []) ++
    (if horizonDue s then [.horizonExpiry] else []) ++ (if drainDue s then [.drainExpiry] else [])

/-- The part with no command waiting: an event that has come is taken, of several that have come one that the spec leaves
open (log entry 5); when none has come, a microsecond passes. -/
def idle (s : State) : Host.Outcome State Fault Refusal :=
  match dueEvents s with
  | [] => .next (tick s)
  | [c] => exec c s
  | c :: cs => exec ((c :: cs).getD (Config.coincidenceOrder s.choices % (c :: cs).length) c) s.drawn

end Sys2Proof.Machine
end

