-- ==== Sys2Proof/Safety.lean ====
section
/-! DEFINITION. What counts as a sound state of the part: the laws the spec states of every state, in the terms the
claims use. -/

namespace Sys2Proof.Machine

/-- A consumer's marks stand in order between the tail and the head (R28, R37). -/
def marksOrdered (j : Store) (c : Consumer) : Prop :=
  distFrom j.tail c.release ≤ distFrom j.tail c.read ∧ distFrom j.tail c.read ≤ occupancy j

/-- The outstanding frames run contiguously from position `a` to position `b`, each with 1 to 64 journal bytes (R133). -/
def framesRun (tail a : Pos) : List FrameRec → Pos → Prop
  | [], b => a = b
  | f :: fs, b =>
    f.start = a ∧ distFrom tail f.start < distFrom tail f.stop ∧
      distFrom tail f.stop ≤ distFrom tail f.start + Config.frameDataMax ∧ framesRun tail f.stop fs b

/-- The sequence numbers of the records are consecutive modulo 256 (R133). -/
def seqsRun : List FrameRec → Prop
  | [] => True
  | [_] => True
  | f :: g :: fs => g.seq = f.seq + 1#8 ∧ seqsRun (g :: fs)

/-- The frame in flight carries journal bytes, so that its delivery consumes its number (R137). -/
def dataInFlight (x : Link) : Bool :=
  match x.flight with
  | none => false
  | some f => decide (0 < frameData f.frame)

/-- The link's numbering: consecutive numbers; the newest record carries the number before the next, or the next number
itself while its frame is in flight; a frame is in flight only within its transaction (R132, R133, R137). -/
structure LinkNumbered (x : Link) : Prop where
  consecutive : seqsRun x.outstanding
  newest : dataInFlight x = false → ∀ f ∈ x.outstanding.getLast?, f.seq + 1#8 = x.nextSeq
  flying : ∀ f ∈ x.flight, dataInFlight x = true →
    f.frame.seq = x.nextSeq ∧ (x.outstanding = [] ∨ x.outstanding.getLast? = some f.frame)
  served : x.flight.isSome → ∃ status response, x.phase = .served status response

/-- The journal is sound: the laws of R26, R37, R116 and R133, and the empty journal of LOADING (R49). -/
structure JournalSound (s : State) : Prop where
  occupied : occupancy s.js ≤ Config.ringSize
  hostMarks : s.js.hostC.attached = true → marksOrdered s.js s.js.hostC
  exportMarks : s.js.exportC.attached = true → marksOrdered s.js s.js.exportC
  indexRising : s.js.index.Pairwise (fun a b => distFrom s.js.tail a < distFrom s.js.tail b)
  indexRetained : ∀ e ∈ s.js.index, distFrom s.js.tail e < occupancy s.js
  indexBound : s.js.index.length ≤ Config.indexCapacity
  holdRetained : holdActive s = true → distFrom s.js.tail s.tu.start ≤ occupancy s.js
  frames : s.js.exportC.attached = true →
    framesRun s.js.tail s.js.exportC.release s.xl.outstanding s.js.exportC.read
  noFrames : s.js.exportC.attached = false → s.xl.outstanding = []
  frameBound : s.xl.outstanding.length ≤ Config.frameCapacity
  numbered : LinkNumbered s.xl
  loadingEmpty : s.oq.state = .loading → s.js.head = 0#32 ∧ s.js.tail = 0#32
  loaderLoading : s.cl.state ≠ .idle → s.oq.state = .loading

/-- The queues and counts stand within the limits the spec gives them (R6, R28, R61, R91, R115, R132, R149, R173, R174,
R179); a hold that is COLLECTING has not reached its quota (R117, R118). -/
structure WithinLimits (s : State) : Prop where
  queue : s.oq.queue.length ≤ Config.queueCapacity
  faults : s.ifu.faults.length ≤ Config.faultCapacity
  lost : s.ifu.lost ≤ 255
  threshold : 1 ≤ s.hw.avth.toNat ∧ s.hw.avth.toNat ≤ Config.ringSize
  hostSkips : s.js.hostC.skips ≤ 255
  exportSkips : s.js.exportC.skips ≤ 255
  aborts : s.xl.aborts ≤ 255
  lossCount : s.je.lossCount ≤ 65535
  sinceSync : s.je.sinceSync ≤ Config.ringSize
  trims : s.tb.trims ≤ 65535
  rejects : s.tb.rejects ≤ 2
  quota : 1 ≤ s.tu.quota ∧ s.tu.quota ≤ 4095
  postTrigger : s.tu.count ≤ 4095
  collecting : s.tu.hold = .collecting → s.tu.count < s.tu.quota
  records : s.cl.read ≤ s.cl.count ∧ s.cl.count ≤ Config.recordMax

/-- The journal RAM is in canonical form. -/
def RamCanonical (s : State) : Prop := Memory.wf s.js.ram

/-- The queue is empty outside a run: "The queue is empty whenever capture is STOPPED or LOADING" (R50). -/
def QueueEmptyOutsideRun (s : State) : Prop := runOpen s = false → s.oq.queue = []

/-- The queue stands in nondecreasing stamp order, by the comparison of R7: the law of R62. The other fields say why it
does: no stamp is further back than H, since each entry leaves at its stamp plus H (R63); a settling's stamp is no further
back than its timer has run (R76, R77, R88), and H covers the settle time of every enabled channel (R53). -/
structure QueueInOrder (s : State) : Prop where
  ordered : s.oq.queue.Pairwise fun a b => isBefore b.stamp a.stamp = false
  recent : ∀ e ∈ s.oq.queue, forward e.stamp s.tb.counter ≤ s.oq.horizon
  settling : ∀ (ch : Channel) (x : Timer) (stamp : Time), s.icu[ch].settle = some x → s.icu[ch].stamp = some stamp →
    forward stamp s.tb.counter ≤ x.elapsed ∧ x.elapsed ≤ x.length ∧ x.length = 100 * s.icu[ch].desc.settle.toNat
  horizon : s.oq.horizon ≤ 26500
  covers : runOpen s = true → ∀ ch : Channel, s.icu[ch].desc.enable = true →
    100 * s.icu[ch].desc.settle.toNat + 1000 ≤ s.oq.horizon

/-- The reserve is free throughout a run (R37), and the fill state is NORMAL outside one (R36). -/
structure ReserveKept (s : State) : Prop where
  reserve : runOpen s = true → Config.reserve ≤ freeSpace s.js
  normal : runOpen s = false → s.js.fill = .normal

/-- Each entry of the sync index is the position of a SYNC header (R26, R194). -/
def HeadersAtIndex (s : State) : Prop :=
  ∀ e ∈ s.js.index, s.js.ram.read (e.toNat % Config.ringSize) = 0x10#8

/-- The AVL comparison is as HOST's unread count and AVTH now stand (R171). -/
def AvlCurrent (s : State) : Prop := s.ifu.above = decide (s.hw.avth.toNat ≤ hostUnread s)

/-- One channel holds what its state calls for (section 4.3, R73, R75 to R83); `running` says that a run is open. -/
structure ChannelSound (running : Bool) (c : ChannelRec) : Prop where
  off : c.state = .off ↔ c.desc.enable = false
  offLevel : c.state = .off → c.accepted = false
  stamped : c.stamp.isSome = (c.state == .settling || c.state == .suppressedSettling)
  settles : c.settle.isSome = (c.state == .settling || c.state == .suppressedSettling)
  quiets : c.quiet.isSome = (c.state == .suppressed || c.state == .suppressedSettling)
  atRest : c.state = .stable ∨ c.state = .suppressed → lineLevel c = c.accepted
  moving : c.state = .settling ∨ c.state = .suppressedSettling → lineLevel c ≠ c.accepted
  windowed : c.window.isSome = decide (0 < c.chatterCount)
  counted : c.chatterCount = 0 ∨ c.chatterCount < c.desc.chatterLimit.toNat
  unsuppressed : running = false → c.quiet = none ∧ c.window = none

/-- Every channel is sound (chapter 4). -/
def ChannelsSound (s : State) : Prop := ∀ ch : Channel, ChannelSound (runOpen s) s.icu[ch]

/-- The time base holds what its quality calls for (the table of section 5.4, R91, R95 to R100). -/
structure TimeBaseSound (t : TimeBase) : Prop where
  unsynced : t.quality = .unsynced → t.reference = none ∧ t.holdover = .stopped
  acquiring : t.quality = .acquiring →
    t.reference.isSome ∧ (t.holdover = .stopped ↔ t.origin = .fromUnsynced)
  locked : t.quality = .locked → t.reference.isSome ∧ t.holdover ≠ .stopped
  holdover : t.quality = .holdover → t.reference = none ∧ ∃ elapsed, t.holdover = .running elapsed
  rejects : t.quality ≠ .locked → t.rejects = 0

/-- Every table holds entries that pass their checks (R39, R72, R92, R110). -/
structure TablesLegal (s : State) : Prop where
  channels : ∀ ch : Channel, chatterLimitOk s.icu[ch].desc.chatterLimit = true ∧
    s.icu[ch].desc.chatterWindow ≠ 0#8 ∧ s.icu[ch].desc.quietTime ≠ 0#8
  triggers : ∀ i : Fin 8, s.tu.rules[i].value &&& ~~~s.tu.rules[i].mask = 0#24
  window : 10 ≤ s.tb.table.lockWindow.toNat ∧ s.tb.table.lockWindow.toNat ≤ 50000
  limit : s.tb.table.holdoverLimit ≠ 0#16
  interval : 1 ≤ s.js.table.syncInterval.toNat ∧ s.js.table.syncInterval.toNat ≤ 16
  room : 1 ≤ s.js.table.resumeRoom.toNat ∧ s.js.table.resumeRoom.toNat ≤ 16
  p : s.js.table.p.toNat ≤ 15
  q : 1 ≤ s.js.table.q.toNat ∧ s.js.table.q.toNat ≤ 4095

/-! ### Terms the claims use -/

/-- `bytes` stand in the ring from position `p` upwards (R24). -/
def BytesAt (m : Memory) (p : Pos) (bytes : List Byte) : Prop :=
  ∀ (i : Nat) (h : i < bytes.length), m.read ((p.toNat + i) % Config.ringSize) = bytes[i]

/-- `t` holds `bytes` appended to the journal of `s`: at the old head, the head moved behind them, every ring offset
outside them as it was (R25). -/
structure Appended (s t : State) (bytes : List Byte) : Prop where
  head : t.js.head = s.js.head + BitVec.ofNat 32 bytes.length
  written : BytesAt t.js.ram s.js.head bytes
  others : ∀ a, (∀ i < bytes.length, a ≠ (s.js.head.toNat + i) % Config.ringSize) → t.js.ram.read a = s.js.ram.read a

/-- Of a queued entry and an arrival `e`: the queued one's stamp is before the arrival's, or equal with an order key at
most the arrival's (R62). -/
def StaysAhead (e x : Entry) : Prop :=
  isBefore x.stamp e.stamp = true ∨ (x.stamp = e.stamp ∧ orderKey x ≤ orderKey e)

/-- `arrivals` stand in `after` together, behind the last entry of `before` that stays ahead of the first of them, and
nothing else has moved (R62). -/
def JoinedQueue (e : Entry) (arrivals before after : List Entry) : Prop :=
  ∃ l m, before = l ++ m ∧ after = l ++ arrivals ++ m ∧ (∀ x ∈ l.getLast?, StaysAhead e x) ∧ ∀ x ∈ m, ¬StaysAhead e x

/-- The host window and the flags as a completion with result `r` leaves them (R157). -/
def completedWith (r : Result) (s : State) : State :=
  { s with
    hw := { s.hw with result := r, inProgress := none },
    ifu := { s.ifu with irqf := s.ifu.irqf ||| 0x80#8 } }

/-- The whole second nearest a time (R94, R96). -/
def wholeSecond (t : Time) : Time := Fin.ofNat _ ((t.val + 500000) / 1000000 * 1000000)

/-- How far a time stands from the whole second nearest it, in µs: |e| of R94. -/
def offSecond (t : Time) : Nat := if t.val % 1000000 < 500000 then t.val % 1000000 else 1000000 - t.val % 1000000

/-- The step that takes a time to the whole second nearest it: −e of R94 and R103. -/
def stepToSecond (t : Time) : Int :=
  if t.val % 1000000 < 500000 then -((t.val % 1000000 : Nat) : Int) else 1000000 - ((t.val % 1000000 : Nat) : Int)

/-- A pulse now is one that leaves the quality LOCKED: at the right interval in ACQUIRING (R96), or on the second in
LOCKED or HOLDOVER (R98, R100). -/
def PulseAligns (b : TimeBase) : Prop :=
  (b.quality = .acquiring ∧ ∃ r, b.reference = some r ∧ 1000000 - b.table.lockWindow.toNat ≤ forward r b.counter ∧
      forward r b.counter ≤ 1000000 + b.table.lockWindow.toNat) ∨
    ((b.quality = .locked ∨ b.quality = .holdover) ∧ offSecond b.counter ≤ b.table.lockWindow.toNat)

/-- The time SET TIME takes from the staging bytes: the seconds alone while a pulse holds the sub-second, in LOCKED and
HOLDOVER, and the microseconds too otherwise (R105 to R107). -/
def givenTime (s : State) : Time :=
  let n (i : Fin 8) : Nat := (s.hw.entry[i]).toNat
  Fin.ofNat _ ((n 0 + 256 * n 1 + 65536 * n 2 + 16777216 * n 3) * 1000000 +
    if s.tb.quality = .locked ∨ s.tb.quality = .holdover then s.tb.counter.val % 1000000
    else n 4 + 256 * n 5 + 65536 * n 6)

/-- In `s` the command `i` changes the quality once and leaves the time base `new`: a first pulse, the third reject, a pulse
off the second in HOLDOVER, a timeout of either quality, a holdover expiry (R95, R97 to R100). The pulse that locks, the
timeout that finds the holdover timer expired and the disabling of PPS are stated apart. -/
def QualityChange (s : State) (i : Instr) (new : TimeBase) : Prop :=
  let b := s.tb
  let begun (o : Origin) : TimeBase :=
    { b with quality := .acquiring, reference := some b.counter, origin := o, rejects := 0 }
  let lost : TimeBase := { b with quality := .unsynced, reference := none, holdover := .stopped }
  (i = .pulse b.table.ppsEdge ∧ b.table.ppsEnable = true ∧
      ((b.quality = .unsynced ∧ new = begun .fromUnsynced) ∨
        (b.quality = .locked ∧ b.table.lockWindow.toNat < offSecond b.counter ∧ b.rejects = 2 ∧ new = begun .fromHeld) ∨
        (b.quality = .holdover ∧ b.table.lockWindow.toNat < offSecond b.counter ∧ new = begun .fromHeld))) ∨
    (i = .timeout ∧ (∃ r, b.reference = some r ∧
        isBefore b.counter (addMicros r (1000000 + b.table.lockWindow.toNat)) = false) ∧
      ((b.quality = .acquiring ∧ b.origin = .fromUnsynced ∧ new = lost) ∨
        ((b.quality = .locked ∨ (b.quality = .acquiring ∧ b.origin = .fromHeld)) ∧ b.holdover ≠ .expired ∧
          new = { b with quality := .holdover, reference := none, rejects := 0 }))) ∨
    (i = .holdoverExpiry ∧ b.quality = .holdover ∧
      (∃ n, b.holdover = .running n ∧ 1000000 * b.table.holdoverLimit.toNat ≤ n) ∧ new = lost)

/-- A timeout that finds the holdover timer expired is due: the quality passes through HOLDOVER to UNSYNCED (R99, R100). -/
def DoubleChangeDue (b : TimeBase) : Prop :=
  (b.quality = .locked ∨ (b.quality = .acquiring ∧ b.origin = .fromHeld)) ∧ b.holdover = .expired ∧
    ∃ r, b.reference = some r ∧ isBefore b.counter (addMicros r (1000000 + b.table.lockWindow.toNat)) = false

/-- A WRITE ENTRY to the time table that only disables PPS is due in LOCKED, the holdover timer not expired (R93, R164). -/
def DisablesPps (s : State) (x : TimeTable) : Prop :=
  s.hw.inProgress = none ∧ s.oq.state ≠ .loading ∧ s.hw.tabsel = 3#8 ∧ s.hw.tabidx = 0#8 ∧
    decodeTime s.hw.entry = some x ∧ x.lockWindow = s.tb.table.lockWindow ∧
    x.holdoverLimit = s.tb.table.holdoverLimit ∧ s.tb.quality = .locked ∧ s.tb.table.ppsEnable = true ∧
    x.ppsEnable = false ∧ s.tb.holdover ≠ .expired

/-- The fault queue after a fault is logged (R174). -/
def faultsWith (s : State) (kind : FaultKind) (detail : Byte) : List FaultRec :=
  if s.ifu.faults.length < 4 then s.ifu.faults ++ [{ kind := kind, detail := detail, time := s.tb.counter }]
  else s.ifu.faults

/-- The fault unit `v` is `u` after one fault of the kind for each detail, in order, at the time given: records while the
queue has room, lost counts from there on, and FLT set (R174). -/
def LoggedAll (kind : FaultKind) (details : List Byte) (time : Time) (u v : FaultUnit) : Prop :=
  let lost := details.length - (4 - u.faults.length)
  v.faults = (u.faults ++ details.map fun d => FaultRec.mk kind d time).take (max 4 u.faults.length) ∧
    v.lost = (if lost = 0 then u.lost else min 255 (u.lost + lost)) ∧ (details ≠ [] → v.irqf.getLsbD 5 = true)

/-! ### A step of the time -/

/-- The channel holds a first-edge stamp: it is SETTLING or SUPPRESSED-SETTLING (R88). -/
def stampHeld (c : ChannelRec) : Bool := c.state == .settling || c.state == .suppressedSettling

/-- The channels whose first-edge stamps a step of `S` µs clamps, by number (R88). -/
def clampedChannels (S : Int) (s : State) : List Byte :=
  ((List.finRange 24).filter fun ch => stampHeld s.icu[ch] && s.icu[ch].stamp.any fun x => clampsAt x S).map fun ch =>
    BitVec.ofNat 8 ch.val

/-- How many stamps of capture control a step of `S` µs clamps: queued ones in a run, and the stop stamp while DRAINING
(R69, R70). -/
def clampedQueued (S : Int) (s : State) : Nat :=
  if runOpen s then
    (s.oq.queue.filter fun e => clampsAt e.stamp S).length +
      if s.oq.state = .draining ∧ clampsAt s.oq.stopStamp S = true then 1 else 0
  else 0

/-- What a step of `S` µs leaves in every holder of a stamp (R104): the channels' first-edge stamps (R88), in a run the
queued stamps and the running time (R69, R22), while DRAINING the stop stamp (R70), each moved by `S` and clamped at
0.000000; a CLAMP fault for each clamped stamp of the channels, with the channel's number, and of capture control, with
FFh, each holder's together (R174, R175). In which order the holders and the channels report is open (log entry 6). -/
structure StepTaken (S : Int) (s t : State) : Prop where
  channels : ∀ ch : Channel, t.icu[ch] = { s.icu[ch] with
    stamp := if stampHeld s.icu[ch] then s.icu[ch].stamp.map fun x => rebase x S else s.icu[ch].stamp }
  capture : t.oq = { s.oq with
    queue := if runOpen s then s.oq.queue.map fun e => { e with stamp := rebase e.stamp S } else s.oq.queue
    stopStamp := if s.oq.state = .draining then rebase s.oq.stopStamp S else s.oq.stopStamp }
  running : t.je.runningTime = if runOpen s then rebase s.je.runningTime S else s.je.runningTime
  faults : ∃ numbers details : List Byte, numbers.Perm (clampedChannels S s) ∧
    (details = numbers ++ List.replicate (clampedQueued S s) 0xFF#8 ∨
      details = List.replicate (clampedQueued S s) 0xFF#8 ++ numbers) ∧
    LoggedAll .clamp details t.tb.counter s.ifu t.ifu

/-! ### Packets -/

/-- The bytes of an entry packet before its delta or distance, with the late bit (R194). -/
def entryHead (late : Nat) : EntryBody → List Byte
  | .change ch level => [BitVec.ofNat 8 (0x20 + 2 * late + level.toNat), BitVec.ofNat 8 ch.val]
  | .suppress ch level => [BitVec.ofNat 8 (0x30 + 2 * late + level.toNat), BitVec.ofNat 8 ch.val]
  | .release ch level => [BitVec.ofNat 8 (0x34 + 2 * late + level.toNat), BitVec.ofNat 8 ch.val]
  | .timeq new previous => [BitVec.ofNat 8 (0x40 + 4 * previous.code + new.code)]
  | .mark tag .host => [BitVec.ofNat 8 (0x70 + 2 * late), tag.extractLsb' 0 8, tag.extractLsb' 8 8]
  | .mark tag .link => [BitVec.ofNat 8 (0x71 + 2 * late), tag.extractLsb' 0 8, tag.extractLsb' 8 8]

/-- The seventeen bytes of a SYNC composed in `s` (R3, R194). -/
def syncAs (s : State) (time : Time) (image : Image) : List Byte :=
  [0x10#8, s.je.segment.extractLsb' 0 8, s.je.segment.extractLsb' 8 8] ++ fullTime time ++
    [BitVec.ofNat 8 (s.tb.quality.code + 4 * s.tu.hold.code + 16 * s.js.table.policy.code)] ++
    [s.je.mask.extractLsb' 0 8, s.je.mask.extractLsb' 8 8, s.je.mask.extractLsb' 16 8] ++
    [(image &&& s.je.mask).extractLsb' 0 8, (image &&& s.je.mask).extractLsb' 8 8,
     (image &&& s.je.mask).extractLsb' 16 8]

/-- The seventeen bytes of a LOSS with the given count, first and last time (R18, R194). -/
def lossAs (count : Nat) (first last : Time) : List Byte :=
  [0x60#8, (BitVec.ofNat 16 count).extractLsb' 0 8, (BitVec.ofNat 16 count).extractLsb' 8 8] ++ fullTime first ++
    fullTime last

/-- A rule matches a CHANGE of `ch` to `level`, with `image` the running image after it (R112). -/
def RuleFires (r : TriggerRule) (ch : Channel) (level : Bool) (image : Channel → Bool) : Bool :=
  r.enable && r.channel == ch && (match r.edge with | .rise => level | .fall => !level | .either => true) &&
    (List.finRange 24).all fun c => !r.mask.getLsbD c || image c == r.value.getLsbD c

/-- Of matching rules taken one after another from the given hold state: which have the outcome "hold busy" (R113, R120). -/
def holdBusyList : HoldState → List TriggerRule → List Bool
  | _, [] => []
  | h, r :: rs =>
    if r.action = .note then false :: holdBusyList h rs
    else if h = .noHold then false :: holdBusyList .collecting rs
    else true :: holdBusyList h rs

/-- No enabled trigger rule watches the entry's channel, if the entry is a CHANGE (R112). -/
def Unwatched (s : State) (e : Entry) : Prop :=
  ∀ (i : Fin 8) (ch : Channel) (level : Bool), e.body = .change ch level → s.tu.rules[i].enable = true →
    s.tu.rules[i].channel ≠ ch

/-- The queue's head is `e`, in a run, and its horizon expiry has come (R63). -/
structure HeadDue (s : State) (e : Entry) (rest : List Entry) : Prop where
  queued : s.oq.queue = e :: rest
  runs : runOpen s = true
  come : isBefore s.tb.counter (addMicros e.stamp s.oq.horizon) = false

/-- No SYNC is due before the entry: neither by length nor by distance (R12). -/
def NoSyncDue (s : State) (e : Entry) : Prop :=
  s.je.sinceSync < 256 * s.js.table.syncInterval.toNat ∧
    (isBefore e.stamp s.je.runningTime = true ∨ forward s.je.runningTime e.stamp ≤ 34359738367)

/-- The state in which `first` stands at the head of `rest` with its FORCED fault logged and nothing to wait for, so that
HORIZON_EXPIRY hands it to the encoder as any other (R64). -/
def forcedHead (first : Entry) (rest : List Entry) (s : State) : State :=
  { s with
    oq := { s.oq with queue := first :: rest, horizon := 0 },
    ifu := { s.ifu with irqf := s.ifu.irqf ||| 0x20#8, faults := faultsWith s .forced (BitVec.ofNat 8 (orderKey first)),
                        lost := if s.ifu.faults.length < 4 then s.ifu.lost else satInc 255 s.ifu.lost } }

/-- The arrival `e` at a full queue takes `s` to `t`: of the 33 entries the first is released, with a FORCED fault naming
it, and the other 32 stay; the encoder handles the released entry as it handles one released at its horizon (R64). -/
def ForcesRelease (e : Entry) (s t : State) : Prop :=
  ∃ (first : Entry) (rest : List Entry), JoinedQueue e [e] s.oq.queue (first :: rest) ∧
    t.oq.queue = rest ∧ rest.length = 32 ∧ t.oq.horizon = s.oq.horizon ∧ t.ifu.irqf.getLsbD 5 = true ∧
    faultsWith s .forced (BitVec.ofNat 8 (orderKey first)) <+: t.ifu.faults ∧
    (isBefore s.tb.counter first.stamp = false →
      exec .horizonExpiry (forcedHead first rest s) = .next { t with oq := { t.oq with horizon := 0 } })

/-! ### Freeing and discard -/

/-- Where freeing leaves the tail of `s`: at the nearest of the attached readers' release marks and an active hold's
protected start; unmoved with no reader attached (R35). -/
def FreedTo (s : State) (p : Pos) : Prop :=
  let marks := (if s.js.hostC.attached then [s.js.hostC.release] else []) ++
    (if s.js.exportC.attached then [s.js.exportC.release] else [])
  let bounds := marks ++ (if s.tu.hold = .noHold then [] else [s.tu.start])
  if marks = [] then p = s.js.tail
  else p ∈ bounds ∧ ∀ m ∈ bounds, distFrom s.js.tail p ≤ distFrom s.js.tail m

/-- The store with its tail moved to `p` and the index entries below it gone (R26, R35). -/
def tailAt (p : Pos) (j : Store) : Store :=
  { j with tail := p, index := j.index.filter fun e => decide (distFrom j.tail p ≤ distFrom j.tail e) }

/-- `x` is the first entry of the sync index strictly after the tail (R41). -/
def NextSegment (j : Store) (x : Pos) : Prop :=
  x ∈ j.index ∧ 0 < distFrom j.tail x ∧ ∀ y ∈ j.index, 0 < distFrom j.tail y → distFrom j.tail x ≤ distFrom j.tail y

/-- `s` after the discard step that moves the tail to `x`: index entries below it gone (R41), each attached consumer whose
release mark it passes moved and told (R42), and the link's notice taken up to the freeing it asks for: records starting
below `x` gone, EXPORT's release mark at the oldest remaining record or the read mark, the read mark at least `x`
(R43, R146). -/
def discardedTo (x : Pos) (s : State) : State :=
  let passed (p : Pos) : Bool := decide (distFrom s.js.tail p < distFrom s.js.tail x)
  let moved (c : Consumer) : Consumer :=
    if c.attached && passed c.release then
      { c with release := x, read := if passed c.read then x else c.read, skips := satInc 255 c.skips,
               skipPending := true }
    else c
  let kept := s.xl.outstanding.filter fun f => !passed f.start
  let c := moved s.js.exportC
  let noticed : Consumer :=
    { c with release := (match kept with | [] => c.read | f :: _ => f.start), read := if passed c.read then x else c.read }
  { s with
    js := { s.js with tail := x, index := s.js.index.filter fun y => !passed y, hostC := moved s.js.hostC,
                      exportC := if c.attached then noticed else c },
    xl := { s.xl with outstanding := if c.attached then kept else s.xl.outstanding } }

/-- HOST's or EXPORT's unread count as a number of bytes (R28, R144). -/
def unread (j : Store) (c : Consumer) : Nat := if c.attached then (j.head - c.read).toNat else 0

/-- Reads a delta or distance field as a reader does: seven bits a byte, least significant group first, as long as the
top bit says that another byte follows (R2). -/
def readCount : List Byte → Option Nat
  | [] => none
  | b :: bs => if b.toNat < 128 then some b.toNat else (readCount bs).map fun n => b.toNat - 128 + 128 * n

/-! ### Records of an image -/

/-- A record passes the checks made of a WRITE ENTRY, those of capture state apart (R182). -/
def RecordPasses (id idx : Byte) (entry : Vector Byte 8) : Prop :=
  (id = 1#8 ∧ idx.toNat < 24 ∧ (decodeChannel entry).isSome) ∨ (id = 2#8 ∧ idx.toNat < 8 ∧ (decodeTrigger entry).isSome) ∨
    (id = 3#8 ∧ idx = 0#8 ∧ (decodeTime entry).isSome) ∨ (id = 4#8 ∧ idx = 0#8 ∧ (decodeJournal entry).isSome)

/-- The host window with staged record `i` in its staging registers and no command in progress (R164, R182). -/
def stagedForWrite (i : Nat) (s : State) : State :=
  { s with hw := { s.hw with
    tabsel := s.js.ram.read (10 * i), tabidx := s.js.ram.read (10 * i + 1), inProgress := none,
    entry := Vector.ofFn fun k => s.js.ram.read (10 * i + 2 + k.val) } }

/-- WRITE ENTRY of the staged records with these numbers, one after another, takes `s` to `t`, each with the result OK. -/
def WritesInOrder : List Nat → State → State → Prop
  | [], s, t => t = s
  | i :: is, s, t => ∃ u, exec .writeEntry (stagedForWrite i s) = .next u ∧ u.hw.result = .ok ∧ WritesInOrder is u t

/-! ### Accesses of the host bus -/

/-- The command row of a read of a window address; a read with no effect has none (R148, R150, R153, R154, R198). -/
def rowOfRead (a : BitVec 6) : Option Instr :=
  match a.toNat with
  | 0x14 => some .jdataRead
  | 0x15 => some (.groupLatch .javail)
  | 0x17 => some .hskipRead
  | 0x18 => some (.groupLatch .hposr)
  | 0x20 => some (.groupLatch .timenow)
  | 0x28 => some (.groupLatch .flthead)
  | 0x33 => some (.groupLatch .live)
  | 0x36 => some (.groupLatch .jhead)
  | 0x3A => some (.groupLatch .holds)
  | _ => none

/-- The command row of a CMD write (R156, R198). -/
def rowOfCode (code : Byte) : Instr :=
  match code.toNat with
  | 1 => .start
  | 2 => .stop
  | 3 => .restart
  | 4 => .reload
  | 5 => .attach
  | 6 => .detach
  | 7 => .release
  | 8 => .reread
  | 9 => .mark
  | 10 => .setTime
  | 11 => .releaseHold
  | 12 => .writeEntry
  | 13 => .readEntry
  | 14 => .clearFaults
  | _ => .unknownCommand code

/-- The command row of a write of a byte to a window address (R148, R198). -/
def rowOfWrite (a : BitVec 6) (v : Byte) : Instr :=
  match a.toNat with
  | 0x04 => rowOfCode v
  | 0x05 => .cmdflagWrite v
  | 0x10 => .irqfWrite v
  | 0x11 => .irqeWrite v
  | 0x12 => .avthLowWrite v
  | 0x13 => .avthHighWrite v
  | 0x31 => .fltnextWrite v
  | _ => .registerWrite a v

/-- The state with other bus lines. -/
def withBus (s : State) (b : HostBus) : State := { s with hw := { s.hw with bus := b } }

/-- The state with other bits on the export link's port. -/
def withLinkPort (s : State) (p : SerialPort) : State := { s with xl := { s.xl with port := p } }

/-- The state with other bits on the configuration memory's port. -/
def withMemoryPort (s : State) (p : SerialPort) : State := { s with cl := { s.cl with port := p } }

/-- The first seven bits of a byte shifted most significant bit first. -/
def leadingBits (b : Byte) : List Bool := (List.range 7).map fun j => b.getLsbD (7 - j)

/-- The state with another byte, or none, driven on D7–D0. -/
def withData (s : State) (d : Option Byte) : State := { s with hw := { s.hw with dataOut := d } }

/-- The fourteen host commands and the codes that name none: the rows a CMD write brings (R156, R158). -/
def isHostCommand : Instr → Bool
  | .start | .stop | .restart | .reload | .attach | .detach | .release | .reread | .mark | .setTime | .releaseHold
  | .writeEntry | .readEntry | .clearFaults | .unknownCommand _ => true
  | _ => false

end Sys2Proof.Machine
end

