-- ==== Sys2Proof/WellFormed.lean ====
section
/-! DEFINITION. Which commands are well formed: those whose operands belong to their row of the table. -/

namespace Sys2Proof

/-- The command codes that name a host command, 01h to 0Eh (R158). -/
def namesHostCommand (code : Byte) : Bool := 1 ≤ code.toNat && code.toNat ≤ 14

/-- The command codes that name a link command (R128). -/
def namesLinkCommand (code : Byte) : Bool :=
  code == 0x10#8 || code == 0x20#8 || code == 0x30#8 || code == 0x40#8 || code == 0x50#8 || code == 0x51#8 ||
    code == 0x60#8

/-- The window addresses whose writes have a row of their own: CMD, CMDFLAG, IRQF, IRQE, AVTH and FLTNEXT (R198). -/
def writeHasOwnRow (addr : BitVec 6) : Bool :=
  addr == 0x04#6 || addr == 0x05#6 || addr == 0x10#6 || addr == 0x11#6 || addr == 0x12#6 || addr == 0x13#6 ||
    addr == 0x31#6

/-- A command's operands belong to its row: an unknown command's code names no command, and a REGISTER_WRITE is to a
register without a row of its own. -/
def Instr.wellFormed : Instr → Bool
  | .unknownCommand code => !namesHostCommand code
  | .linkUnknownCommand code => !namesLinkCommand code
  | .registerWrite addr _ => !writeHasOwnRow addr
  | _ => true

end Sys2Proof
end

