-- ==== Sys2Proof/Certificates/Slice0/Obligations.lean ====
section
/-! DEFINITION. The statements for the provers, by numbered rule of the spec: the whole part first, then block by block.
`t` is always the state after the command. -/

section

open Sys2Proof Sys2Proof.Machine

/-! ### The whole part -/

/-- A step takes the command at the front of the queue with the queue's rest. -/
def Obligations.StepTakesFrontCommand : Prop :=
  ∀ (c : Instr) (rest : List Instr) (s : State),
    step { s with pending := c :: rest } = exec c { s with pending := rest }

/-- No command stops the part, and none touches the queue of waiting commands; so every step answers a next state. -/
def Obligations.EveryCommandAnswersNext : Prop :=
  (∀ (c : Instr) (s : State), ∃ t, exec c s = .next t ∧ t.pending = s.pending) ∧ ∀ s : State, ∃ t, step s = .next t

/-- With nothing waiting and no expiry due, one microsecond passes: the counter and every running timer advance by one
and nothing else moves (R90, R76). That this is what a step on an empty queue does is the model's choice (log entry 8). -/
def Obligations.IdlePartCountsOneMicrosecond : Prop :=
  ∀ s : State, s.pending = [] → dueEvents s = [] →
    ∃ t, step s = .next t ∧
      t.tb.counter.val = (s.tb.counter.val + 1) % 4294967296000000 ∧
      t.tb = { s.tb with counter := t.tb.counter,
                         holdover := (match s.tb.holdover with | .running n => .running (n + 1) | h => h) } ∧
      (∀ ch : Channel, t.icu[ch] =
        { s.icu[ch] with
          window := s.icu[ch].window.map (fun x => { x with elapsed := x.elapsed + 1 }),
          quiet := s.icu[ch].quiet.map (fun x => { x with elapsed := x.elapsed + 1 }),
          settle := s.icu[ch].settle.map (fun x => { x with elapsed := x.elapsed + 1 }) }) ∧
      t = { s with tb := t.tb, icu := t.icu }

/-- Every step keeps the journal sound: occupancy at most 16,384, marks of an attached reader in order, the sync index
strictly increasing with at most 64 entries, the tail not past an active hold's protected start, at most four
outstanding frames running contiguously and consecutively numbered, an empty journal in LOADING (R24, R26, R28, R37,
R49, R116, R133). -/
def Obligations.StepKeepsJournalSound : Prop :=
  ∀ s t : State, JournalSound s → step s = .next t → JournalSound t

/-- Every step keeps the reserve of 32 bytes free throughout a run, and the fill state NORMAL outside one (R36, R37). -/
def Obligations.StepKeepsReserve : Prop :=
  ∀ s t : State, JournalSound s → ReserveKept s → step s = .next t → ReserveKept t

/-- Every step keeps queues, counts and thresholds within the limits the spec gives them: the ordering queue, the fault log
with its lost count, AVTH, skips, aborts, the loss count, the bytes since SYNC, trims, rejects, the post-trigger count and
its quota, the loader's record count and records read (R6, R28, R61, R91, R115, R132, R149, R173, R174, R179). -/
def Obligations.StepKeepsLimits : Prop :=
  ∀ s t : State, TablesLegal s → WithinLimits s → step s = .next t → WithinLimits t

/-- Every step keeps every channel sound (chapter 4). -/
def Obligations.StepKeepsChannelsSound : Prop :=
  ∀ s t : State, JournalSound s → ChannelsSound s → step s = .next t → ChannelsSound t

/-- Every step keeps the time base sound (section 5.4) and the tables legal (R39, R72, R92, R110). -/
def Obligations.StepKeepsTimeBaseAndTables : Prop :=
  ∀ s t : State, step s = .next t →
    (TimeBaseSound s.tb → TimeBaseSound t.tb) ∧ (TablesLegal s → TablesLegal t)

/-- Every step keeps the AVL comparison current (R171), the journal RAM canonical, the ordering queue empty outside a run
(R50) and in nondecreasing stamp order (R62), and a SYNC header at each position of the sync index (R26). -/
def Obligations.StepKeepsAvlRamQueueAndHeaders : Prop :=
  ∀ s t : State, step s = .next t →
    (AvlCurrent s → AvlCurrent t) ∧ (RamCanonical s → RamCanonical t) ∧
      (JournalSound s → QueueEmptyOutsideRun s → QueueEmptyOutsideRun t) ∧
      (JournalSound s → ChannelsSound s → QueueEmptyOutsideRun s → QueueInOrder s → QueueInOrder t) ∧
      (JournalSound s → RamCanonical s → HeadersAtIndex s → HeadersAtIndex t)

/-- The reset state, and the part after any DEVICE_RESET, meets every invariant stated above. -/
def Obligations.ResetMeetsInvariants : Prop :=
  ∀ t : State, (t = State.reset ∨ ∃ (cfgld : Bool) (s : State), RamCanonical s ∧ exec (.deviceReset cfgld) s = .next t) →
    JournalSound t ∧ ReserveKept t ∧ HeadersAtIndex t ∧ WithinLimits t ∧ ChannelsSound t ∧ TimeBaseSound t.tb ∧
      TablesLegal t ∧ AvlCurrent t ∧ RamCanonical t ∧ QueueEmptyOutsideRun t ∧ QueueInOrder t

/-- Nothing is appended outside a run: where no run is open before and after a command, the head and the RAM stay, or the
head stays and the loader that is READING may have staged a record, or the store has been emptied with its RAM as it
stood (R19, R48, R49). -/
def Obligations.NothingAppendedOutsideRun : Prop :=
  ∀ (c : Instr) (s t : State), exec c s = .next t → runOpen s = false → runOpen t = false →
    t.js.head = s.js.head ∧ t.js.ram = s.js.ram ∨ t.js.head = s.js.head ∧ s.cl.state = .reading ∨
      t.js.head = 0#32 ∧ t.js.tail = 0#32 ∧ t.js.index = [] ∧ t.js.ram = s.js.ram

/-- Under every command but a device reset: a flag once set stays set, a write to IRQF apart; the fault records stay in
order and the lost-fault count does not fall, FLTNEXT and CLEAR FAULTS apart; and the time counter does not move, PULSE
and SET TIME apart (R90, R169, R170, R173, R174, R176, R177). -/
def Obligations.FlagsFaultsAndCounterHold : Prop :=
  ∀ (c : Instr) (s t : State), c.wellFormed = true → (∀ b, c ≠ .deviceReset b) → exec c s = .next t →
    ((∀ v, c ≠ .irqfWrite v) → ∀ i < 8, s.ifu.irqf.getLsbD i = true → t.ifu.irqf.getLsbD i = true) ∧
    ((∀ v, c ≠ .fltnextWrite v) → c ≠ .clearFaults →
      s.ifu.faults <+: t.ifu.faults ∧ (s.ifu.lost ≤ 255 → s.ifu.lost ≤ t.ifu.lost ∧ t.ifu.lost ≤ 255)) ∧
    ((∀ e, c ≠ .pulse e) → c ≠ .setTime → t.tb.counter = s.tb.counter)

/-- The capture state passes only along the ways of chapter 3, and only by the requests that make them: a run opens by
START or auto-start, LOADING begins by RELOAD, a drain begins by STOP or by the close of a HOLD-STOP hold, a run closes at
the drain expiry, a load ends at the end of APPLYING or, with STP set, at a failed check (R50, R51, R54, R55, R58,
R60). -/
def Obligations.CaptureStateTransitions : Prop :=
  ∀ (c : Instr) (s t : State), c.wellFormed = true → (∀ b, c ≠ .deviceReset b) →
    (s.cl.state ≠ .idle → s.oq.state = .loading) → exec c s = .next t → t.oq.state ≠ s.oq.state →
      (s.oq.state = .stopped ∧ t.oq.state = .running ∧ (c = .start ∨ c = .autoStart)) ∨
        (s.oq.state = .stopped ∧ t.oq.state = .loading ∧ c = .reload) ∨
        (s.oq.state = .running ∧ t.oq.state = .draining ∧
          (c = .stop ∨ (t.tu.hold = .closed ∧ t.tu.action = .holdStop ∧ t.ifu.irqf.getLsbD 2 = true))) ∨
        (s.oq.state = .draining ∧ t.oq.state = .stopped ∧ c = .drainExpiry) ∨
        (s.oq.state = .loading ∧ t.oq.state = .stopped ∧ s.cl.state ≠ .idle ∧
          (c = .applyingDone ∨ t.ifu.irqf.getLsbD 6 = true))

/-- The channel table and the journal table do not change while a run is open (R39, R53, R72). -/
def Obligations.TablesFixedDuringRun : Prop :=
  ∀ (c : Instr) (s t : State), runOpen s = true → s.cl.state = .idle → (∀ b, c ≠ .deviceReset b) →
    exec c s = .next t → (∀ ch : Channel, t.icu[ch].desc = s.icu[ch].desc) ∧ t.js.table = s.js.table

/-- DEVICE_RESET gives every block its device-reset values, whatever the state before: the field lines keep their
samples and the journal RAM its bytes (log entries 2 and 3), and the CFGLD strap decides between LOADING and STOPPED
(R6, R28, R36, R50, R71, R76, R90 to R92, R109, R115, R132, R149, R168, R178, R179). The model's choice, where the spec
gives no value: the acquisition origin UNSYNCED, the loader's cause "reset" also with CFGLD low, no byte driven on D7–D0
(log entry 1), a port that ignores its transaction until XSEL# has risen (log entry 17), a host bus whose lines stay as
the host holds them, a write strobe that is low being taken no more (log entry 28), and XCLK as the link master holds it (log
entry 32). -/
def Obligations.DeviceResetGivesResetValues : Prop :=
  ∀ (cfgld : Bool) (s : State), ∃ t, exec (.deviceReset cfgld) s = .next t ∧
    t.oq = { state := if cfgld then .loading else .stopped, horizon := 1000, stopStamp := 0, queue := [] } ∧
    t.cl = { state := if cfgld then .reading else .idle, cause := .reset, autoStart := false, attachHost := false,
             attachExport := false, count := 0, read := 0, crc := 0xFFFF#16, staged := 0, headerSeen := false,
             autoStartDue := false, port := { clock := false, sampled := [], received := [], presented := 0 } } ∧
    t.tb = { counter := 0, quality := .unsynced, reference := none, origin := .fromUnsynced, rejects := 0,
             holdover := .stopped, trims := 0,
             table := { ppsEnable := false, ppsEdge := .rising, lockWindow := 1000#16, trimBand := 10#8,
                        holdoverLimit := 600#16 } } ∧
    t.je = { runningTime := 0, image := 0#24, mask := 0#24, sinceSync := 0, segment := 0#16, lossCount := 0,
             firstLost := 0, lastLost := 0, stopReason := .hostStop } ∧
    (t.js.head = 0#32 ∧ t.js.tail = 0#32 ∧ t.js.index = [] ∧ t.js.fill = .normal ∧ t.js.ram = s.js.ram ∧
      t.js.hostC = { attached := false, read := 0#32, release := 0#32, skips := 0, skipPending := false } ∧
      t.js.exportC = t.js.hostC ∧
      t.js.table = { policy := .keepOldest, syncInterval := 4#8, resumeRoom := 4#8, p := 1#8, q := 256#16 }) ∧
    (t.tu.hold = .noHold ∧ t.tu.action = .hold ∧ t.tu.quota = 256 ∧ t.tu.count = 0 ∧ t.tu.start = 0#32 ∧
      ∀ i : Fin 8, t.tu.rules[i] = { enable := false, channel := 0, edge := .rise, mask := 0#24, value := 0#24,
                                     action := .note, interrupt := false }) ∧
    (t.xl.outstanding = [] ∧ t.xl.nextSeq = 0#8 ∧ t.xl.aborts = 0 ∧ t.xl.error = false ∧ t.xl.flight = none ∧
      t.xl.phase = (if s.xl.phase = .deselected then .deselected else .endedByReset) ∧
      t.xl.port = { clock := s.xl.port.clock, sampled := [], received := [], presented := 0 }) ∧
    t.hw = { tabsel := 0#8, tabidx := 0#8, entry := Vector.replicate 8 0#8, result := .ok, inProgress := none,
             collision := false, readEmpty := false, avth := 64#16, avthLow := 0x40#8, dataOut := none,
             bus := { s.hw.bus with spoiled := !s.hw.bus.wr },
             latches := { javail := 0#16, hposr := 0#32, hposl := 0#32, timenow := 0#56, flthead := 0#72, live := 0#24,
                          jhead := 0#32, holds := 0#32 } } ∧
    t.ifu = { irqf := 0#8, irqe := 0#8, above := false, faults := [], lost := 0 } ∧
    (∀ ch : Channel, t.icu[ch] =
      { desc := { enable := false, invert := false, settle := 20#8, chatterLimit := 0#8, chatterWindow := 100#8,
                  quietTime := 50#8 },
        line := s.icu[ch].line, state := .off, accepted := false, stamp := none, chatterCount := 0, window := none,
        quiet := none, settle := none })

/-- An expiry that has not come changes nothing (the model's choice, log entry 7). -/
def Obligations.EarlyExpiryChangesNothing : Prop :=
  ∀ (s : State) (ch : Channel),
    (s.icu[ch].settle = none → exec (.settleExpiry ch) s = .next s) ∧
    (∀ x, s.icu[ch].settle = some x → x.elapsed < x.length → exec (.settleExpiry ch) s = .next s) ∧
    (∀ x, s.icu[ch].window = some x → x.elapsed < x.length → exec (.windowExpiry ch) s = .next s) ∧
    (∀ x, s.icu[ch].quiet = some x → x.elapsed < x.length → exec (.quietExpiry ch) s = .next s) ∧
    (∀ r, s.tb.reference = some r →
      isBefore s.tb.counter (addMicros r (1000000 + s.tb.table.lockWindow.toNat)) = true →
        exec .timeout s = .next s) ∧
    (∀ n, s.tb.holdover = .running n → n < 1000000 * s.tb.table.holdoverLimit.toNat →
      exec .holdoverExpiry s = .next s) ∧
    (∀ e rest, s.oq.queue = e :: rest → isBefore s.tb.counter (addMicros e.stamp s.oq.horizon) = true →
      exec .horizonExpiry s = .next s) ∧
    (isBefore s.tb.counter (addMicros s.oq.stopStamp s.oq.horizon) = true → exec .drainExpiry s = .next s)

/-! ### Input channels -/

/-- A raw edge drives the debouncing: OFF takes no notice; a first edge begins a settling stamped now; the line's return
abandons it; in suppression every edge restarts the quiet timer (R74, R77, R78, R82). -/
def Obligations.RawEdgeDrivesDebouncing : Prop :=
  ∀ (ch : Channel) (s : State),
    let c := s.icu[ch]
    let level := !(c.line ^^ c.desc.invert)
    let seen : ChannelRec := { c with line := !c.line }
    let settle : Option Timer := some { elapsed := 0, length := 100 * c.desc.settle.toNat }
    let quiet : Option Timer := some { elapsed := 0, length := 100000 * c.desc.quietTime.toNat }
    let becomes (d : ChannelRec) : Prop := exec (.rawEdge ch) s = .next { s with icu := s.icu.set ch d }
    (c.state = .off → becomes seen) ∧
    (c.state = .stable → level ≠ c.accepted → c.desc.settle ≠ 0#8 →
      becomes { seen with state := .settling, stamp := some s.tb.counter, settle := settle }) ∧
    (c.state = .stable → level ≠ c.accepted → c.desc.settle = 0#8 → runOpen s = false →
      becomes { seen with accepted := level, stamp := none, settle := none }) ∧
    (c.state = .settling → level = c.accepted →
      becomes { seen with state := .stable, stamp := none, settle := none }) ∧
    (c.state = .suppressed → level ≠ c.accepted → c.desc.settle ≠ 0#8 →
      becomes { seen with state := .suppressedSettling, stamp := some s.tb.counter, settle := settle, quiet := quiet }) ∧
    (c.state = .suppressed → level ≠ c.accepted → c.desc.settle = 0#8 →
      becomes { seen with accepted := level, stamp := none, settle := none, quiet := quiet }) ∧
    (c.state = .suppressedSettling → level = c.accepted →
      becomes { seen with state := .suppressed, stamp := none, settle := none, quiet := quiet })

/-- A change is accepted at its settle expiry, or at the edge itself with settle 0: the accepted level becomes the line
level, and in RUNNING, with chatter off and room in the queue, one CHANGE stamped at the first edge joins the queue;
outside a run nothing is offered (R77, R79, R87). Acceptances that are counted stand in ChatterLimitSuppresses. -/
def Obligations.AcceptedChangeIsOffered : Prop :=
  ∀ (ch : Channel) (s : State),
    let c := s.icu[ch]
    (∀ x, c.state = .settling → c.settle = some x → x.length ≤ x.elapsed →
      let level := c.line ^^ c.desc.invert
      let d : ChannelRec := { c with state := .stable, accepted := level, stamp := none, settle := none }
      (runOpen s = false → exec (.settleExpiry ch) s = .next { s with icu := s.icu.set ch d }) ∧
      (∀ stamp, c.stamp = some stamp → s.oq.state = .running → c.desc.chatterLimit = 0#8 → s.oq.queue.length < 32 →
        let e : Entry := { stamp := stamp, body := .change ch level }
        ∃ q, JoinedQueue e [e] s.oq.queue q ∧
          exec (.settleExpiry ch) s = .next { s with icu := s.icu.set ch d, oq := { s.oq with queue := q } })) ∧
    ((!(c.line ^^ c.desc.invert)) ≠ c.accepted → c.state = .stable → c.desc.settle = 0#8 → s.oq.state = .running →
      c.desc.chatterLimit = 0#8 → s.oq.queue.length < 32 →
        let level := !(c.line ^^ c.desc.invert)
        let e : Entry := { stamp := s.tb.counter, body := .change ch level }
        let d : ChannelRec := { c with line := !c.line, accepted := level, stamp := none, settle := none }
        ∃ q, JoinedQueue e [e] s.oq.queue q ∧
          exec (.rawEdge ch) s = .next { s with icu := s.icu.set ch d, oq := { s.oq with queue := q } })

/-- Chatter counting in RUNNING, at a settle expiry and at an edge with settle 0: below the limit the count rises, its first
one starting the window, and the CHANGE joins the queue; at the limit the channel is suppressed and a SUPPRESS joins the
queue directly behind its CHANGE. Outside a run nothing is counted (R77, R79, R80, R87). -/
def Obligations.ChatterLimitSuppresses : Prop :=
  ∀ (ch : Channel) (s : State),
    let c := s.icu[ch]
    let counted (i : Instr) (seen : ChannelRec) (level : Bool) (stamp : Time) : Prop :=
      let e : Entry := { stamp := stamp, body := .change ch level }
      let f : Entry := { stamp := stamp, body := .suppress ch level }
      let d : ChannelRec := { seen with state := .stable, accepted := level, stamp := none, settle := none }
      (s.oq.state = .running → c.chatterCount + 1 < c.desc.chatterLimit.toNat → s.oq.queue.length < 32 →
        ∃ q, JoinedQueue e [e] s.oq.queue q ∧
          exec i s = .next { s with
            icu := s.icu.set ch { d with
              chatterCount := c.chatterCount + 1,
              window := if c.chatterCount = 0
                then some { elapsed := 0, length := 10000 * c.desc.chatterWindow.toNat } else c.window },
            oq := { s.oq with queue := q } }) ∧
      (s.oq.state = .running → c.chatterCount + 1 = c.desc.chatterLimit.toNat → s.oq.queue.length + 2 ≤ 32 →
        ∃ q, JoinedQueue e [e, f] s.oq.queue q ∧
          exec i s = .next { s with
            icu := s.icu.set ch { d with
              state := .suppressed, chatterCount := 0, window := none,
              quiet := some { elapsed := 0, length := 100000 * c.desc.quietTime.toNat } },
            oq := { s.oq with queue := q } }) ∧
      (runOpen s = false → exec i s = .next { s with icu := s.icu.set ch d })
    (∀ (x : Timer) (stamp : Time), c.state = .settling → c.settle = some x → x.length ≤ x.elapsed → c.stamp = some stamp →
      counted (.settleExpiry ch) c (c.line ^^ c.desc.invert) stamp) ∧
    (c.state = .stable → (!(c.line ^^ c.desc.invert)) ≠ c.accepted → c.desc.settle = 0#8 →
      counted (.rawEdge ch) { c with line := !c.line } (!(c.line ^^ c.desc.invert)) s.tb.counter)

/-- The window's end clears the count (R81); the quiet time's end lifts a suppression and, in RUNNING with room in the
queue, offers a RELEASE of the accepted level stamped now (R83); a settling in suppression ends unrecorded (R82). -/
def Obligations.ChannelTimersEndSuppression : Prop :=
  ∀ (ch : Channel) (s : State) (x : Timer),
    let c := s.icu[ch]
    x.length ≤ x.elapsed →
      (c.window = some x →
        exec (.windowExpiry ch) s = .next { s with icu := s.icu.set ch { c with chatterCount := 0, window := none } }) ∧
      (c.state = .suppressed → c.quiet = some x → runOpen s = false →
        exec (.quietExpiry ch) s = .next { s with icu := s.icu.set ch { c with state := .stable, quiet := none } }) ∧
      (c.state = .suppressed → c.quiet = some x → s.oq.state = .running → s.oq.queue.length < 32 →
        let e : Entry := { stamp := s.tb.counter, body := .release ch c.accepted }
        ∃ q, JoinedQueue e [e] s.oq.queue q ∧
          exec (.quietExpiry ch) s = .next { s with
            icu := s.icu.set ch { c with state := .stable, quiet := none }, oq := { s.oq with queue := q } }) ∧
      (c.state = .suppressedSettling → c.settle = some x →
        exec (.settleExpiry ch) s = .next { s with
          icu := s.icu.set ch { c with
            state := .suppressed, accepted := c.line ^^ c.desc.invert, stamp := none, settle := none } })

/-- While DRAINING a channel's entries join the queue exactly when their stamp lies before the stop stamp; otherwise they
leave no trace, and the channel goes on alike (R56). So for the CHANGE of an acceptance, at a settle expiry or at an edge
with settle 0, counted or not, for the CHANGE and SUPPRESS of the acceptance that reaches the chatter limit, and for the
RELEASE of a quiet expiry. -/
def Obligations.DrainJudgesEntriesByStamp : Prop :=
  ∀ (ch : Channel) (s : State), s.oq.state = .draining →
    let c := s.icu[ch]
    let judged (i : Instr) (stamp : Time) (d : ChannelRec) (e : Entry) (arrivals : List Entry) : Prop :=
      s.oq.queue.length + arrivals.length ≤ 32 →
        (isBefore stamp s.oq.stopStamp = true → ∃ q, JoinedQueue e arrivals s.oq.queue q ∧
          exec i s = .next { s with icu := s.icu.set ch d, oq := { s.oq with queue := q } }) ∧
        (isBefore stamp s.oq.stopStamp = false → exec i s = .next { s with icu := s.icu.set ch d })
    let accepted (i : Instr) (seen : ChannelRec) (level : Bool) (stamp : Time) : Prop :=
      let d : ChannelRec := { seen with state := .stable, accepted := level, stamp := none, settle := none }
      let e : Entry := { stamp := stamp, body := .change ch level }
      let window : Option Timer :=
        if c.chatterCount = 0 then some { elapsed := 0, length := 10000 * c.desc.chatterWindow.toNat } else c.window
      let quiet : Option Timer := some { elapsed := 0, length := 100000 * c.desc.quietTime.toNat }
      (c.desc.chatterLimit = 0#8 → judged i stamp d e [e]) ∧
      (c.chatterCount + 1 < c.desc.chatterLimit.toNat →
        judged i stamp { d with chatterCount := c.chatterCount + 1, window := window } e [e]) ∧
      (c.chatterCount + 1 = c.desc.chatterLimit.toNat →
        judged i stamp { d with state := .suppressed, chatterCount := 0, window := none, quiet := quiet } e
          [e, { stamp := stamp, body := .suppress ch level }])
    (∀ (x : Timer) (stamp : Time), c.state = .settling → c.settle = some x → x.length ≤ x.elapsed → c.stamp = some stamp →
      accepted (.settleExpiry ch) c (c.line ^^ c.desc.invert) stamp) ∧
    (c.state = .stable → (!(c.line ^^ c.desc.invert)) ≠ c.accepted → c.desc.settle = 0#8 →
      accepted (.rawEdge ch) { c with line := !c.line } (!(c.line ^^ c.desc.invert)) s.tb.counter) ∧
    (∀ x : Timer, c.state = .suppressed → c.quiet = some x → x.length ≤ x.elapsed →
      let e : Entry := { stamp := s.tb.counter, body := .release ch c.accepted }
      judged (.quietExpiry ch) s.tb.counter { c with state := .stable, quiet := none } e [e])

/-! ### The time base -/

/-- With PPS disabled, or on the other edge, no pulse is taken (R94). A pulse in UNSYNCED, the third reject in LOCKED and
a pulse off the second in HOLDOVER begin an acquisition at the pulse; a reject below the third is counted; a pulse too
early in ACQUIRING becomes the new reference (R95, R96, R98, R100). -/
def Obligations.PulseBeginsAcquisition : Prop :=
  ∀ (edge : PpsEdge) (s : State),
    let b := s.tb
    let W := b.table.lockWindow.toNat
    let acquiring (o : Origin) : TimeBase :=
      { b with quality := .acquiring, reference := some b.counter, origin := o, rejects := 0 }
    ((b.table.ppsEnable = false ∨ edge ≠ b.table.ppsEdge) → exec (.pulse edge) s = .next s) ∧
    (b.table.ppsEnable = true → edge = b.table.ppsEdge → ∃ t, exec (.pulse edge) s = .next t ∧
      (b.quality = .unsynced → t.tb = acquiring .fromUnsynced ∧ t.ifu.irqf.getLsbD 4 = true) ∧
      (b.quality = .locked → W < offSecond b.counter → b.rejects = 2 →
        t.tb = acquiring .fromHeld ∧ t.ifu.irqf.getLsbD 4 = true) ∧
      (b.quality = .locked → W < offSecond b.counter → b.rejects < 2 →
        t = { s with tb := { b with rejects := b.rejects + 1 } }) ∧
      (b.quality = .holdover → W < offSecond b.counter →
        t.tb = acquiring .fromHeld ∧ t.ifu.irqf.getLsbD 4 = true) ∧
      (∀ r, b.quality = .acquiring → b.reference = some r → forward r b.counter < 1000000 - W →
        t = { s with tb := { b with reference := some b.counter } }))

/-- A pulse at the right interval in ACQUIRING, or on the second in LOCKED or HOLDOVER, sets the counter to the whole
second it marks, makes that second the reference, restarts the holdover timer and leaves the quality LOCKED; a step of
at most T is a silent trim and counted (R96, R98, R100, R103). In every capture state the step moves every stamp held,
with a CLAMP fault for each clamped one, a TIMEQ entry that the pulse offers among them; a step that is not journaled, or
does not meet RUNNING, moves nothing else (R22, R69, R70, R88, R101, R104). -/
def Obligations.PulseLocksTimeBase : Prop :=
  ∀ s : State,
    let b := s.tb
    let e : Entry := { stamp := b.counter, body := .timeq .locked b.quality }
    b.table.ppsEnable = true → PulseAligns b →
      ∃ t, exec (.pulse b.table.ppsEdge) s = .next t ∧
        t.tb = { b with
          counter := wholeSecond b.counter, quality := .locked, reference := some (wholeSecond b.counter),
          rejects := 0, holdover := .running 0,
          trims := if 0 < offSecond b.counter ∧ offSecond b.counter ≤ b.table.trimBand.toNat
            then min 65535 (b.trims + 1) else b.trims } ∧
        (b.quality ≠ .locked → t.ifu.irqf.getLsbD 4 = true) ∧
        ((s.oq.state ≠ .running ∨ b.quality = .locked) → StepTaken (stepToSecond b.counter) s t) ∧
        (s.oq.state = .running → b.quality ≠ .locked → s.oq.queue.length < 32 →
          ∃ q, JoinedQueue e [e] s.oq.queue q ∧
            StepTaken (stepToSecond b.counter) { s with oq := { s.oq with queue := q } } t) ∧
        ((s.oq.state ≠ .running ∨ offSecond b.counter ≤ b.table.trimBand.toNat) →
          (s.oq.state ≠ .running ∨ b.quality = .locked ∨ s.oq.queue.length < 32) →
            t.je = { s.je with runningTime := t.je.runningTime } ∧ t.js = s.js ∧ t.tu = s.tu ∧ t.xl = s.xl ∧ t.hw = s.hw ∧
              t.cl = s.cl)

/-- The timeout of ACQUIRING or LOCKED: an acquisition begun in UNSYNCED returns there; otherwise HOLDOVER is entered
with the reference absent, and an expired holdover timer passes it on to UNSYNCED at once (R97, R99). The holdover
expiry: HOLDOVER ends in UNSYNCED, an acquisition loses its held origin, LOCKED notes it (R97, R99, R100). -/
def Obligations.TimeoutsLoseTheTime : Prop :=
  ∀ s : State,
    let b := s.tb
    (∀ r, (b.quality = .acquiring ∨ b.quality = .locked) → b.reference = some r →
      isBefore b.counter (addMicros r (1000000 + b.table.lockWindow.toNat)) = false →
        ∃ t, exec .timeout s = .next t ∧ t.ifu.irqf.getLsbD 4 = true ∧
          (b.quality = .acquiring → b.origin = .fromUnsynced →
            t.tb = { b with quality := .unsynced, reference := none, holdover := .stopped }) ∧
          ((b.quality = .locked ∨ b.origin = .fromHeld) → b.holdover ≠ .expired →
            t.tb = { b with quality := .holdover, reference := none, rejects := 0 }) ∧
          ((b.quality = .locked ∨ b.origin = .fromHeld) → b.holdover = .expired →
            t.tb = { b with quality := .unsynced, reference := none, rejects := 0, holdover := .stopped })) ∧
    (∀ n, b.holdover = .running n → 1000000 * b.table.holdoverLimit.toNat ≤ n →
      ∃ t, exec .holdoverExpiry s = .next t ∧
        (b.quality = .holdover → t.tb = { b with quality := .unsynced, reference := none, holdover := .stopped } ∧
          t.ifu.irqf.getLsbD 4 = true) ∧
        (b.quality = .acquiring → t = { s with tb := { b with origin := .fromUnsynced, holdover := .stopped } }) ∧
        (b.quality = .locked → t = { s with tb := { b with holdover := .expired } }))

/-- Every change of quality by a pulse, a timeout, a holdover expiry or the disabling of PPS is reported by TQC and, in
RUNNING only, by a TIMEQ entry with the previous and the new quality, stamped at the counter before any step; a double
change offers two, in that order. A pulse that locks offers its TIMEQ before its step, which then moves the entry with the
rest of the queue (R69, R93, R95, R97 to R101). The model's choice: the reject count is 0 in the HOLDOVER entered by
disabling PPS (log entry 12). -/
def Obligations.QualityChangeOffersTimeq : Prop :=
  ∀ s : State,
    let b := s.tb
    let e (new previous : Quality) : Entry := { stamp := b.counter, body := .timeq new previous }
    let after (new : TimeBase) (q : List Entry) : State :=
      { s with tb := new, oq := { s.oq with queue := q }, ifu := { s.ifu with irqf := s.ifu.irqf ||| 0x10#8 } }
    let reported (i : Instr) (first : Entry) (more : List Entry) (done : List Entry → State) : Prop :=
      (s.oq.state ≠ .running → exec i s = .next (done s.oq.queue)) ∧
      (s.oq.state = .running → s.oq.queue.length + 1 + more.length ≤ 32 →
        ∃ q, JoinedQueue first (first :: more) s.oq.queue q ∧ exec i s = .next (done q))
    (∀ (i : Instr) (new : TimeBase), QualityChange s i new →
      reported i (e new.quality b.quality) [] fun q => after new q) ∧
    (DoubleChangeDue b →
      reported .timeout (e .holdover b.quality) [e .unsynced .holdover] fun q =>
        after { b with quality := .unsynced, reference := none, rejects := 0, holdover := .stopped } q) ∧
    (∀ x : TimeTable, DisablesPps s x →
      reported .writeEntry (e .holdover .locked) [] fun q =>
        completedWith .ok (after { b with table := x, quality := .holdover, reference := none, rejects := 0 } q)) ∧
    (b.table.ppsEnable = true → PulseAligns b → b.quality ≠ .locked → s.oq.queue.length < 32 →
      ∃ t, exec (.pulse b.table.ppsEdge) s = .next t ∧ t.ifu.irqf.getLsbD 4 = true ∧
        (runOpen s = false → t.oq = s.oq) ∧
        (s.oq.state = .draining → t.oq.queue = s.oq.queue.map fun x =>
          { x with stamp := rebase x.stamp (stepToSecond b.counter) }) ∧
        (s.oq.state = .running → ∃ q, JoinedQueue (e .locked b.quality) [e .locked b.quality] s.oq.queue q ∧
          t.oq = { s.oq with queue := q.map fun x => { x with stamp := rebase x.stamp (stepToSecond b.counter) } }))

/-- SET TIME in each capture state but LOADING: the new time is the given one, or the given seconds alone while a pulse
holds the sub-second; the counter, the pulse reference, the channels' first-edge stamps and, in a run, the queued stamps,
the stop stamp of a drain and the running time all move by the step, clamped at 0.000000, with one CLAMP fault for each
clamped stamp of the channels, naming the channel, and of capture control, with FFh; outside RUNNING nothing else moves and
no packet is written (R22, R69, R70, R88, R104 to R107, R174, R175). -/
def Obligations.SetTimeMovesEveryStamp : Prop :=
  ∀ s : State, s.hw.inProgress = none → s.oq.state ≠ .loading →
    let micros := s.hw.entry[4].toNat + 256 * s.hw.entry[5].toNat + 65536 * s.hw.entry[6].toNat
    let new := givenTime s
    let S : Int := (new.val : Int) - s.tb.counter.val
    (1000000 ≤ micros → exec .setTime s = .next (completedWith .badarg s)) ∧
    (micros < 1000000 → new = s.tb.counter → exec .setTime s = .next (completedWith .ok s)) ∧
    (micros < 1000000 → new ≠ s.tb.counter →
      ∃ t, exec .setTime s = .next t ∧ StepTaken S s t ∧
        t.tb = { s.tb with counter := new, reference := s.tb.reference.map fun r => rebase r S } ∧
        t.hw = { s.hw with result := .ok, inProgress := none } ∧ t.ifu.irqf.getLsbD 7 = true ∧
        (s.oq.state ≠ .running → t.je = { s.je with runningTime := t.je.runningTime } ∧ t.js = s.js ∧ t.tu = s.tu ∧
          t.xl = s.xl ∧ (clampedChannels S s = [] → clampedQueued S s = 0 →
            t.ifu = { s.ifu with irqf := s.ifu.irqf ||| 0x80#8 })))

/-- A journaled step in RUNNING with room for both packets, by SET TIME in any quality or by a pulse whose offset exceeds
T: a STEP with its cause and the running time before and after, then a forced SYNC at its new time, which starts a new
segment (R5, R13, R22, R23, R103, R106, R107). That the SYNC of a pulse that locks carries the quality LOCKED is the
model's choice (log entry 23). -/
def Obligations.JournaledStepIsWritten : Prop :=
  ∀ s : State, s.oq.state = .running → s.js.fill = .normal → 64 ≤ freeSpace s.js → occupancy s.js ≤ 16384 →
    s.js.index.length < 64 → RamCanonical s →
      let written (header : Byte) (S : Int) (quality : Quality) (t : State) : Prop :=
        let after := rebase s.je.runningTime S
        Appended s t ([header] ++ fullTime s.je.runningTime ++ fullTime after ++
            syncAs { s with tb := { s.tb with quality := quality } } after s.je.image) ∧
          t.js.index = s.js.index ++ [s.js.head + 15#32] ∧ t.js.tail = s.js.tail ∧ t.js.fill = .normal ∧
          t.je = { s.je with runningTime := after, sinceSync := 0, segment := s.je.segment + 1#16 } ∧ t.tu = s.tu ∧
          t.xl = s.xl
      (s.hw.inProgress = none → (word24 s.hw.entry[4] s.hw.entry[5] s.hw.entry[6]).toNat < 1000000 →
        givenTime s ≠ s.tb.counter →
          let S : Int := ((givenTime s).val : Int) - s.tb.counter.val
          ∃ t, exec .setTime s = .next t ∧ written 0x51#8 S s.tb.quality t ∧ t.tb.counter = givenTime s ∧
            t.oq = { s.oq with queue := s.oq.queue.map fun e => { e with stamp := rebase e.stamp S } } ∧
            t.hw.result = .ok) ∧
      (s.tb.table.ppsEnable = true → PulseAligns s.tb → s.tb.table.trimBand.toNat < offSecond s.tb.counter →
        (s.tb.quality = .locked ∨ s.oq.queue.length < 32) →
          ∃ t, exec (.pulse s.tb.table.ppsEdge) s = .next t ∧ t.hw = s.hw ∧
            written 0x50#8 (stepToSecond s.tb.counter) .locked t)

/-! ### The ordering queue and the encoder -/

/-- A host MARK and a link XMARK taken in RUNNING with room in the queue place their tag behind every entry that stays
ahead of it, stamped now (R62, R66, R67, R145, R163). -/
def Obligations.MarksJoinTheQueue : Prop :=
  ∀ s : State, s.oq.state = .running → s.oq.queue.length < 32 →
    (s.hw.inProgress = none →
      let e : Entry := { stamp := s.tb.counter, body := .mark (s.hw.entry[1] ++ s.hw.entry[0]) .host }
      ∃ q, JoinedQueue e [e] s.oq.queue q ∧
        exec .mark s = .next (completedWith .ok { s with oq := { s.oq with queue := q } })) ∧
    (∀ (high low check status : Byte), s.xl.phase = .selected status →
      check.toNat = 255 - (high.toNat + low.toNat) % 256 →
        let e : Entry := { stamp := s.tb.counter, body := .mark (high ++ low) .link }
        ∃ q, JoinedQueue e [e] s.oq.queue q ∧
          exec (.xmark high low check) s = .next { s with
            oq := { s.oq with queue := q }, xl := { s.xl with error := false, phase := .served status [] } })

/-- An arrival at the full queue releases the earliest of the 33, with a FORCED fault naming it, and 32 entries stay; the
encoder handles the released entry as one released at its horizon. So for a host MARK, an XMARK, the CHANGE of a settle
expiry and of an edge with settle 0, counted or not, the RELEASE of a quiet expiry and the TIMEQ of every cause. A CHANGE and
its SUPPRESS, and the two TIMEQ of a double change, release two, one after the other (R56, R64, R65, R79, R80, R87, R101,
R174, R175). The model's choice: where the first release closes a HOLD-STOP hold, the SUPPRESS that is then stamped at the
stop stamp is discarded (log entry 27), and the reject count is 0 in the HOLDOVER entered by disabling PPS (log entry
12). -/
def Obligations.FullQueueForcesRelease : Prop :=
  ∀ s : State, s.oq.queue.length = 32 →
    let kept (stamp : Time) : Prop :=
      s.oq.state = .running ∨ (s.oq.state = .draining ∧ isBefore stamp s.oq.stopStamp = true)
    (s.hw.inProgress = none → s.oq.state = .running →
      let e : Entry := { stamp := s.tb.counter, body := .mark (s.hw.entry[1] ++ s.hw.entry[0]) .host }
      ∃ t, ForcesRelease e s t ∧ exec .mark s = .next (completedWith .ok t)) ∧
    (∀ (high low check status : Byte), s.oq.state = .running → s.xl.phase = .selected status →
      check.toNat = 255 - (high.toNat + low.toNat) % 256 →
        let e : Entry := { stamp := s.tb.counter, body := .mark (high ++ low) .link }
        ∃ t, ForcesRelease e { s with xl := { s.xl with error := false } } t ∧
          exec (.xmark high low check) s = .next { t with xl := { t.xl with phase := .served status [] } }) ∧
    (s.oq.state = .running →
      let b := s.tb
      let e (new previous : Quality) : Entry := { stamp := b.counter, body := .timeq new previous }
      let changed (new : TimeBase) (u : State) : State :=
        { u with tb := new, ifu := { u.ifu with irqf := u.ifu.irqf ||| 0x10#8 } }
      (∀ (i : Instr) (new : TimeBase), QualityChange s i new →
        ∃ t, ForcesRelease (e new.quality b.quality) (changed new s) t ∧ exec i s = .next t) ∧
      (∀ x : TimeTable, DisablesPps s x →
        ∃ t, ForcesRelease (e .holdover .locked)
            (changed { b with table := x, quality := .holdover, reference := none, rejects := 0 } s) t ∧
          exec .writeEntry s = .next (completedWith .ok t)) ∧
      (b.table.ppsEnable = true → PulseAligns b → b.quality ≠ .locked →
        ∃ u, ForcesRelease (e .locked b.quality) (changed { b with quality := .locked } s) u ∧
          ∃ t, exec (.pulse b.table.ppsEdge) s = .next t ∧ StepTaken (stepToSecond b.counter) u t) ∧
      (DoubleChangeDue b →
        ∃ u, ForcesRelease (e .holdover b.quality)
            (changed { b with quality := .holdover, reference := none, rejects := 0 } s) u ∧
          let v := changed { u.tb with quality := .unsynced, holdover := .stopped } u
          (u.oq.state = .running →
            ∃ t, ForcesRelease (e .unsynced .holdover) v t ∧ exec .timeout s = .next t) ∧
          (u.oq.state ≠ .running → exec .timeout s = .next v))) ∧
    ∀ ch : Channel,
      let c := s.icu[ch]
      let put (d : ChannelRec) : State := { s with icu := s.icu.set ch d }
      let accepted (i : Instr) (seen : ChannelRec) (level : Bool) (stamp : Time) : Prop :=
        let d : ChannelRec := { seen with state := .stable, accepted := level, stamp := none, settle := none }
        let e : Entry := { stamp := stamp, body := .change ch level }
        let f : Entry := { stamp := stamp, body := .suppress ch level }
        let window : Option Timer :=
          if c.chatterCount = 0 then some { elapsed := 0, length := 10000 * c.desc.chatterWindow.toNat } else c.window
        let quiet : Option Timer := some { elapsed := 0, length := 100000 * c.desc.quietTime.toNat }
        (c.desc.chatterLimit = 0#8 → ∃ t, ForcesRelease e (put d) t ∧ exec i s = .next t) ∧
        (c.chatterCount + 1 < c.desc.chatterLimit.toNat →
          ∃ t, ForcesRelease e (put { d with chatterCount := c.chatterCount + 1, window := window }) t ∧
            exec i s = .next t) ∧
        (c.chatterCount + 1 = c.desc.chatterLimit.toNat →
          ∃ u, ForcesRelease e
              (put { d with state := .suppressed, chatterCount := 0, window := none, quiet := quiet }) u ∧
            ((u.oq.state = .running ∨ isBefore stamp u.oq.stopStamp = true) →
              ∃ t, ForcesRelease f u t ∧ exec i s = .next t) ∧
            (u.oq.state = .draining → isBefore stamp u.oq.stopStamp = false → exec i s = .next u))
      (∀ (x : Timer) (stamp : Time), kept stamp → c.state = .settling → c.settle = some x → x.length ≤ x.elapsed →
        c.stamp = some stamp → accepted (.settleExpiry ch) c (c.line ^^ c.desc.invert) stamp) ∧
      (kept s.tb.counter → c.state = .stable → (!(c.line ^^ c.desc.invert)) ≠ c.accepted → c.desc.settle = 0#8 →
        accepted (.rawEdge ch) { c with line := !c.line } (!(c.line ^^ c.desc.invert)) s.tb.counter) ∧
      (∀ x : Timer, kept s.tb.counter → c.state = .suppressed → c.quiet = some x → x.length ≤ x.elapsed →
        let e : Entry := { stamp := s.tb.counter, body := .release ch c.accepted }
        ∃ t, ForcesRelease e (put { c with state := .stable, quiet := none }) t ∧ exec (.quietExpiry ch) s = .next t)

/-- At its horizon expiry a non-late entry that needs no SYNC and fits is appended with its delta; the running time
becomes its stamp, a channel entry sets its channel's level in the running image, and nothing else of the journal
moves (R4, R8, R11, R14, R15, R25, R63, R194). -/
def Obligations.HeadEntryIsStored : Prop :=
  ∀ (s : State) (e : Entry) (rest : List Entry),
    let bytes := entryHead 0 e.body ++ varint (forward s.je.runningTime e.stamp)
    HeadDue s e rest → Unwatched s e → s.tu.hold ≠ .collecting → s.js.fill = .normal → RamCanonical s →
    isBefore e.stamp s.je.runningTime = false → NoSyncDue s e → bytes.length + 32 ≤ freeSpace s.js →
      ∃ t, exec .horizonExpiry s = .next t ∧ Appended s t bytes ∧
        t.je.runningTime = e.stamp ∧ t.je.sinceSync = min 16384 (s.je.sinceSync + bytes.length) ∧
        (∀ ch : Channel, t.je.image.getLsbD ch =
          match e.body with
          | .change c level => if ch = c then level else s.je.image.getLsbD ch
          | .suppress c level => if ch = c then level else s.je.image.getLsbD ch
          | .release c level => if ch = c then level else s.je.image.getLsbD ch
          | .timeq _ _ => s.je.image.getLsbD ch
          | .mark _ _ => s.je.image.getLsbD ch) ∧
        t.ifu.faults = s.ifu.faults ∧ t.ifu.lost = s.ifu.lost ∧
        t = { s with
          oq := { s.oq with queue := rest }, js := { s.js with ram := t.js.ram, head := t.js.head },
          je := { s.je with runningTime := e.stamp, image := t.je.image, sinceSync := t.je.sinceSync }, ifu := t.ifu }

/-- A late entry of the kinds CHANGE, CHATTER and MARK is appended with its late flag and its backward distance,
saturating; a late TIMEQ is appended with delta 0; either logs a LATE fault with its order key, and the running time does
not move (R9). -/
def Obligations.LateEntryIsWrittenBackward : Prop :=
  ∀ (s : State) (e : Entry) (rest : List Entry),
    let back := min (forward e.stamp s.je.runningTime) 34359738367
    let bytes := entryHead 1 e.body ++ varint (match e.body with | .timeq _ _ => 0 | _ => back)
    HeadDue s e rest → Unwatched s e → s.tu.hold ≠ .collecting → s.js.fill = .normal → RamCanonical s →
    isBefore e.stamp s.je.runningTime = true → NoSyncDue s e → bytes.length + 32 ≤ freeSpace s.js →
      ∃ t, exec .horizonExpiry s = .next t ∧ Appended s t bytes ∧ t.je.runningTime = s.je.runningTime ∧
        t.oq.queue = rest ∧ t.ifu.faults = faultsWith s .late (BitVec.ofNat 8 (orderKey e)) ∧
        t.ifu.irqf.getLsbD 5 = true ∧ t.js.index = s.js.index ∧ t.js.tail = s.js.tail

/-- A SYNC due by length, or by distance before a non-late entry, is appended before its entry, at the later of the running
time and the stamp and with the image before the entry; a non-late entry's delta is measured from it, a late entry stays
late against it, with its backward distance and its LATE fault (R9, R12, R25, R26). -/
def Obligations.DueSyncPrecedesEntry : Prop :=
  ∀ (s : State) (e : Entry) (rest : List Entry),
    let late := isBefore e.stamp s.je.runningTime
    let back := match e.body with | .timeq _ _ => 0 | _ => min (forward e.stamp s.je.runningTime) 34359738367
    let bytes := syncAs s (if late then s.je.runningTime else e.stamp) s.je.image ++
      (entryHead late.toNat e.body ++ varint (if late then back else 0))
    HeadDue s e rest → Unwatched s e → s.tu.hold ≠ .collecting → s.js.fill = .normal → RamCanonical s →
    (256 * s.js.table.syncInterval.toNat ≤ s.je.sinceSync ∨
      (late = false ∧ 34359738367 < forward s.je.runningTime e.stamp)) →
    occupancy s.js ≤ 16384 → bytes.length + 32 ≤ freeSpace s.js → s.js.index.length < 64 →
      ∃ t, exec .horizonExpiry s = .next t ∧ Appended s t bytes ∧ t.js.index = s.js.index ++ [s.js.head] ∧
        t.je.runningTime = (if late then s.je.runningTime else e.stamp) ∧ t.je.segment = s.je.segment + 1#16 ∧
        t.je.sinceSync = bytes.length - 17 ∧ t.oq.queue = rest ∧ t.js.tail = s.js.tail ∧
        (late = false → t.ifu.faults = s.ifu.faults) ∧
        (late = true → t.ifu.faults = faultsWith s .late (BitVec.ofNat 8 (orderKey e)) ∧ t.ifu.irqf.getLsbD 5 = true)

/-- Under KEEP-OLDEST an entry's packet that does not fit is lost: nothing is written, the store is LOSING, LSS is set
and the entry is the first counted; while the store is LOSING with less than the resume room free, each released entry is
counted as lost and nothing is written (R16, R17, R40, R45, R46). -/
def Obligations.FullStoreLosesEntries : Prop :=
  ∀ (s : State) (e : Entry) (rest : List Entry), HeadDue s e rest → s.js.table.policy = .keepOldest →
    (Unwatched s e → s.tu.hold ≠ .collecting → s.js.fill = .normal → isBefore e.stamp s.je.runningTime = false →
      NoSyncDue s e →
      freeSpace s.js < (entryHead 0 e.body ++ varint (forward s.je.runningTime e.stamp)).length + 32 →
        ∃ t, exec .horizonExpiry s = .next t ∧ t.js = { s.js with fill := .losing } ∧
          t.ifu = { s.ifu with irqf := s.ifu.irqf ||| 0x08#8 } ∧
          t.je = { s.je with image := t.je.image, lossCount := 1, firstLost := e.stamp, lastLost := e.stamp } ∧
          t.oq = { s.oq with queue := rest } ∧ t.tu = s.tu) ∧
    (s.js.fill = .losing → freeSpace s.js < 256 * s.js.table.resumeRoom.toNat →
      ∃ t, exec .horizonExpiry s = .next t ∧ t.js = s.js ∧ t.oq.queue = rest ∧
        t.je.lossCount = min 65535 (s.je.lossCount + 1) ∧ t.je.lastLost = e.stamp ∧
        t.je.firstLost = (if s.je.lossCount = 0 then e.stamp else s.je.firstLost) ∧
        t.je.runningTime = s.je.runningTime ∧ t.je.segment = s.je.segment)

/-- With the resume room free again, the next released entry returns the store to NORMAL and appends a LOSS with the loss
record, a forced SYNC and the entry's packet; the loss record is cleared (R13, R18, R46). -/
def Obligations.ResumptionReportsTheLoss : Prop :=
  ∀ (s : State) (e : Entry) (rest : List Entry),
    HeadDue s e rest → Unwatched s e → s.tu.hold ≠ .collecting → s.js.fill = .losing → RamCanonical s →
    isBefore e.stamp s.je.runningTime = false → 256 * s.js.table.resumeRoom.toNat ≤ freeSpace s.js →
    1 ≤ s.js.table.resumeRoom.toNat → occupancy s.js ≤ 16384 → s.js.index.length < 64 → s.je.lossCount ≤ 65535 →
      let loss := lossAs s.je.lossCount s.je.firstLost s.je.lastLost
      ∃ t, exec .horizonExpiry s = .next t ∧
        Appended s t (loss ++ syncAs s e.stamp s.je.image ++ (entryHead 0 e.body ++ [0#8])) ∧
        t.js.fill = .normal ∧ t.js.index = s.js.index ++ [s.js.head + 17#32] ∧
        t.je.lossCount = 0 ∧ t.je.firstLost = 0 ∧ t.je.lastLost = 0 ∧ t.je.runningTime = e.stamp ∧
        t.je.segment = s.je.segment + 1#16 ∧ t.oq.queue = rest

/-- Under KEEP-NEWEST a packet that does not fit is made to fit by discarding the oldest segment: the tail moves to the
next index entry, each attached reader whose release mark it passes is moved there, told, and counts one skip, and the link
takes its notice: the frames passed are pruned, EXPORT's marks follow, and freeing is re-evaluated (R41 to R43, R146). When
the packet does not fit even so and no further step is possible, or none was possible at all, because no index entry
follows the tail or the next lies beyond an active hold's protected start, the packet is lost, and the steps made stand
(R41, R44). -/
def Obligations.DiscardMovesReadersOn : Prop :=
  ∀ (s : State) (e : Entry) (rest : List Entry),
    let bytes := entryHead 0 e.body ++ varint (forward s.je.runningTime e.stamp)
    let lost (j : Store) (t : State) : Prop :=
      t.js = { j with fill := .losing } ∧ t.ifu.irqf.getLsbD 3 = true ∧ t.je.lossCount = 1 ∧ t.je.firstLost = e.stamp ∧
        t.je.lastLost = e.stamp ∧ t.je.runningTime = s.je.runningTime
    JournalSound s → HeadDue s e rest → Unwatched s e → s.tu.hold ≠ .collecting → s.js.fill = .normal → RamCanonical s →
    isBefore e.stamp s.je.runningTime = false → NoSyncDue s e → s.js.table.policy = .keepNewest →
    freeSpace s.js < bytes.length + 32 →
      (∀ x, NextSegment s.js x → (s.tu.hold = .noHold ∨ distFrom s.js.tail x ≤ distFrom s.js.tail s.tu.start) →
        let u := discardedTo x s
        ∃ p, (s.js.exportC.attached = true → FreedTo u p) ∧ (s.js.exportC.attached = false → p = x) ∧
          let j := tailAt p u.js
          (bytes.length + 32 ≤ freeSpace j → ∃ t, exec .horizonExpiry s = .next t ∧ Appended s t bytes ∧
            t.js = { j with ram := t.js.ram, head := t.js.head } ∧ t.xl = u.xl ∧ t.tu = s.tu ∧ t.oq.queue = rest ∧
            t.je.runningTime = e.stamp) ∧
          (freeSpace j < bytes.length + 32 → (∀ y ∈ s.js.index, distFrom s.js.tail y ≤ distFrom s.js.tail x) →
            ∃ t, exec .horizonExpiry s = .next t ∧ lost j t ∧ t.xl = u.xl ∧ t.tu = s.tu ∧ t.oq.queue = rest)) ∧
      ((∀ x, NextSegment s.js x → s.tu.hold ≠ .noHold ∧ distFrom s.js.tail s.tu.start < distFrom s.js.tail x) →
        ∃ t, exec .horizonExpiry s = .next t ∧ lost s.js t ∧ t.xl = s.xl ∧ t.tu = s.tu ∧ t.oq.queue = rest)

/-! ### Triggers and hold -/

/-- A CHANGE that enabled rules match appends its CHANGE and, in rule order, one TRIGGER packet for each of them, with its
outcome and number. With no hold the first rule with a hold action starts one, with the protected start P entries before the
newest of the index; every other hold action is "hold busy" and leaves the hold as it is. TRG is set when the interrupt field
of some matching rule is set (R5, R111 to R114, R116, R120). -/
def Obligations.MatchingRulesAct : Prop :=
  ∀ (s : State) (stamp : Time) (ch : Channel) (level : Bool) (rest : List Entry),
    let e : Entry := { stamp := stamp, body := .change ch level }
    let image (c : Channel) : Bool := if c = ch then level else s.je.image.getLsbD c
    let hits := (List.finRange 8).filter fun i => RuleFires s.tu.rules[i] ch level image
    let rules := hits.map fun i => s.tu.rules[i]
    let n := s.js.index.length
    let P := s.js.table.p.toNat
    let bytes := entryHead 0 e.body ++ varint (forward s.je.runningTime stamp) ++
      (hits.zip (holdBusyList s.tu.hold rules)).flatMap fun h =>
        [(if h.2 then 0x81#8 else 0x80#8), BitVec.ofNat 8 h.1.val]
    HeadDue s e rest → s.tu.hold ≠ .collecting → s.js.fill = .normal → RamCanonical s →
    isBefore stamp s.je.runningTime = false → NoSyncDue s e → occupancy s.js ≤ 16384 →
    bytes.length + 32 ≤ freeSpace s.js →
      ∃ t, exec .horizonExpiry s = .next t ∧ Appended s t bytes ∧ t.oq = { s.oq with queue := rest } ∧
        t.ifu.irqf.getLsbD 1 = (s.ifu.irqf.getLsbD 1 || rules.any fun r => r.interrupt) ∧
        ((s.tu.hold ≠ .noHold ∨ ∀ r ∈ rules, r.action = .note) → t.tu = s.tu) ∧
        (s.tu.hold = .noHold → ∀ r ∈ rules.find? (fun r => r.action != .note),
          t.tu = { s.tu with
            hold := .collecting, count := 0, quota := s.js.table.q.toNat,
            action := (if r.action = .hold then .hold else .holdStop),
            start := if n ≤ P then s.js.tail else s.js.index.getD (n - 1 - P) s.js.tail })

/-- While COLLECTING each released entry counts, and the one that reaches the quota closes the hold: CLOSED with the
protected start kept, HLD set, a HOLD "closed by quota" packet behind the entry's own packets, and for HOLD-STOP in RUNNING
a drain begun now with the reason "hold-stop". A HOLD packet that does not fit is lost, with a count of 0; in LOSING it is
dropped (R5, R17, R55, R117, R118). -/
def Obligations.QuotaClosesHold : Prop :=
  ∀ (s : State) (e : Entry) (rest : List Entry),
    HeadDue s e rest → s.tu.hold = .collecting →
      ∃ t, exec .horizonExpiry s = .next t ∧ t.oq.queue = rest ∧
        (s.tu.count + 1 < s.tu.quota → t.tu = { s.tu with count := s.tu.count + 1 } ∧ t.oq.state = s.oq.state) ∧
        (s.tu.count + 1 = s.tu.quota →
          t.tu = { s.tu with count := s.tu.count + 1, hold := .closed } ∧ t.ifu.irqf.getLsbD 2 = true ∧
          (s.tu.action = .holdStop → s.oq.state = .running →
            t.oq.state = .draining ∧ t.oq.stopStamp = s.tb.counter ∧ t.je.stopReason = .holdStop) ∧
          (s.tu.action = .hold ∨ s.oq.state = .draining →
            t.oq = { s.oq with queue := rest } ∧ t.je.stopReason = s.je.stopReason) ∧
          (s.js.fill = .normal → RamCanonical s → Unwatched s e → isBefore e.stamp s.je.runningTime = false →
            NoSyncDue s e →
              let bytes := entryHead 0 e.body ++ varint (forward s.je.runningTime e.stamp)
              (bytes.length + 33 ≤ freeSpace s.js → Appended s t (bytes ++ [0x91#8]) ∧ t.js.fill = .normal) ∧
              (bytes.length + 32 = freeSpace s.js → s.js.table.policy = .keepOldest →
                Appended s t bytes ∧ t.js.fill = .losing ∧ t.ifu.irqf.getLsbD 3 = true ∧ t.je.lossCount = 0 ∧
                  t.je.firstLost = e.stamp ∧ t.je.lastLost = e.stamp)) ∧
          (s.js.fill = .losing → s.js.table.policy = .keepOldest →
            freeSpace s.js < 256 * s.js.table.resumeRoom.toNat → t.js = s.js))

/-! ### Capture control -/

/-- START in STOPPED with room opens the run: H is the largest settle time of an enabled channel plus 1,000 µs, the
running time is the START time, image and mask come from the channels, the first SYNC is appended and indexed, settling
channels have an earlier stamp raised to the START time, capture is RUNNING and the command completes with OK (R11, R19,
R47, R51 to R53, R85, R157). -/
def Obligations.StartOpensRun : Prop :=
  ∀ s : State, s.hw.inProgress = none → s.oq.state = .stopped → s.js.fill = .normal → 49 ≤ freeSpace s.js →
    s.js.index.length < 64 → RamCanonical s →
      ∃ t, exec .start s = .next t ∧
        t.oq = { s.oq with state := .running, horizon := t.oq.horizon } ∧
        (∀ ch : Channel, s.icu[ch].desc.enable = true → 100 * s.icu[ch].desc.settle.toNat + 1000 ≤ t.oq.horizon) ∧
        (t.oq.horizon = 1000 ∨ ∃ ch : Channel, s.icu[ch].desc.enable = true ∧
          t.oq.horizon = 100 * s.icu[ch].desc.settle.toNat + 1000) ∧
        (∀ ch : Channel, t.je.mask.getLsbD ch = s.icu[ch].desc.enable ∧
          t.je.image.getLsbD ch = (s.icu[ch].desc.enable && s.icu[ch].accepted)) ∧
        t.je = { s.je with runningTime := s.tb.counter, mask := t.je.mask, image := t.je.image, sinceSync := 0,
                           segment := s.je.segment + 1#16 } ∧
        Appended s t (syncAs { s with je := { s.je with mask := t.je.mask } } s.tb.counter t.je.image) ∧
        t.js = { s.js with ram := t.js.ram, head := t.js.head, index := s.js.index ++ [s.js.head] } ∧
        (∀ ch : Channel, t.icu[ch] =
          let c := s.icu[ch]
          let raised : Option Time := c.stamp.map fun x => if isBefore x s.tb.counter then s.tb.counter else x
          let d : ChannelRec := { c with stamp := if c.state = .settling then raised else c.stamp }
          if c.desc.enable then { d with chatterCount := 0, window := none, quiet := none } else d) ∧
        t.tb = s.tb ∧ t.tu = s.tu ∧ t.xl = s.xl ∧ t.cl = s.cl ∧ t.hw = { s.hw with result := .ok, inProgress := none } ∧
        t.ifu.irqf.getLsbD 7 = true

/-- A CMD write while BUSY is a collision and nothing else; in LOADING it completes with LOCKED whatever its code.
Otherwise commands refused by the capture state complete with LOCKED and nothing else (START, RESTART and RELOAD outside
STOPPED, STOP and MARK outside RUNNING), RELEASE and REREAD of a detached HOST with NOTATTACHED, START without room under
KEEP-OLDEST with NOSPACE, an unknown code with UNKNOWN (R31, R32, R47, R51, R54, R59, R60, R66, R156, R158, R159,
R162). -/
def Obligations.RefusedCommandsChangeOnlyTheResult : Prop :=
  ∀ s : State,
    (∀ c : Instr, isHostCommand c = true →
      (∀ l, s.hw.inProgress = some l → exec c s = .next { s with hw := { s.hw with collision := true } }) ∧
      (s.hw.inProgress = none → s.oq.state = .loading → exec c s = .next (completedWith .locked s))) ∧
    (s.hw.inProgress = none → s.oq.state ≠ .loading →
      (s.oq.state ≠ .stopped → ∀ c : Instr, c = .start ∨ c = .restart ∨ c = .reload →
        exec c s = .next (completedWith .locked s)) ∧
      (s.oq.state ≠ .running → ∀ c : Instr, c = .stop ∨ c = .mark → exec c s = .next (completedWith .locked s)) ∧
      (s.js.hostC.attached = false → ∀ c : Instr, c = .release ∨ c = .reread →
        exec c s = .next (completedWith .notattached s)) ∧
      (s.oq.state = .stopped → s.js.table.policy = .keepOldest →
        (freeSpace s.js < 49 ∨ 64 ≤ s.js.index.length) → exec .start s = .next (completedWith .nospace s)) ∧
      (∀ code : Byte, (code = 0#8 ∨ 14 < code.toNat) →
        exec (.unknownCommand code) s = .next (completedWith .unknown s)))

/-- STOP in RUNNING begins a drain at the present time with BUSY held (R54). RESTART in STOPPED empties the journal, the
hold and the outstanding list and holds BUSY, and its clearing done completes with OK and CMD (R6, R48, R59, R124,
R147). The model's choice: the journal is emptied when RESTART is taken (log entry 10), and a clearing done with no RESTART
in progress changes nothing (log entry 7). -/
def Obligations.StopAndRestartHoldBusy : Prop :=
  ∀ s : State,
    (s.hw.inProgress = none → s.oq.state = .running →
      exec .stop s = .next { s with
        oq := { s.oq with stopStamp := s.tb.counter, state := .draining },
        hw := { s.hw with inProgress := some .stop } }) ∧
    (s.hw.inProgress = none → s.oq.state = .stopped →
      let emptied (c : Consumer) : Consumer :=
        { c with read := 0#32, release := 0#32, skips := 0, skipPending := false }
      ∃ t, exec .restart s = .next t ∧ AvlCurrent t ∧ t.ifu.irqe = s.ifu.irqe ∧ t.ifu.faults = s.ifu.faults ∧
        t.ifu.lost = s.ifu.lost ∧ (1 ≤ s.hw.avth.toNat → t.ifu.irqf = s.ifu.irqf) ∧
        t = { s with
          js := { s.js with head := 0#32, tail := 0#32, index := [], fill := .normal, hostC := emptied s.js.hostC,
                            exportC := emptied s.js.exportC },
          je := { s.je with sinceSync := 0, segment := 0#16, lossCount := 0, firstLost := 0, lastLost := 0,
                            stopReason := .hostStop },
          tu := { s.tu with hold := .noHold, action := .hold, quota := 256, count := 0, start := 0#32 },
          xl := { s.xl with outstanding := [] }, hw := { s.hw with inProgress := some .restart }, ifu := t.ifu }) ∧
    (s.hw.inProgress = some .restart → exec .restartClearingDone s = .next (completedWith .ok s)) ∧
    (s.hw.inProgress ≠ some .restart → exec .restartClearingDone s = .next s)

/-- RELOAD in STOPPED clears the journal as RESTART does, resets the tables and enters LOADING with BUSY; its clearing
done sets the loader READING (R49, R60, R71, R76, R92, R93, R109, R178, R179). The model's choice, of the moments R60 leaves
within the clearing: journal, tables and LOADING change when RELOAD is taken, and the loader stays IDLE until the clearing
is done (log entry 11). -/
def Obligations.ReloadEntersLoading : Prop :=
  ∀ s : State,
    (s.hw.inProgress = none → s.oq.state = .stopped →
      ∃ t, exec .reload s = .next t ∧ t.oq = { s.oq with state := .loading } ∧
        t.hw = { s.hw with inProgress := some .reload } ∧
        (t.js.head = 0#32 ∧ t.js.tail = 0#32 ∧ t.js.index = [] ∧ t.js.fill = .normal ∧ t.js.ram = s.js.ram ∧
          t.js.hostC = { attached := s.js.hostC.attached, read := 0#32, release := 0#32, skips := 0,
                         skipPending := false } ∧
          t.js.exportC = { attached := s.js.exportC.attached, read := 0#32, release := 0#32, skips := 0,
                           skipPending := false } ∧
          t.js.table = State.reset.js.table) ∧
        t.tu = State.reset.tu ∧ t.tb.table = State.reset.tb.table ∧ t.tb.counter = s.tb.counter ∧
        (∀ ch : Channel, t.icu[ch] = { State.reset.icu[ch] with line := s.icu[ch].line }) ∧
        t.xl = { s.xl with outstanding := [] } ∧
        t.je = { s.je with sinceSync := 0, segment := 0#16, lossCount := 0, firstLost := 0, lastLost := 0,
                           stopReason := .hostStop } ∧
        (s.tb.quality = .locked → s.tb.table.ppsEnable = true →
          (∃ n, s.tb.holdover = .running n ∧ n < 600000000) → t.tb.holdover = s.tb.holdover ∧
          t.tb.quality = .holdover ∧ t.tb.reference = none ∧ t.ifu.irqf.getLsbD 4 = true) ∧
        t.cl.state = .idle ∧ t.cl.crc = 0xFFFF#16 ∧ t.cl.cause = .reload) ∧
    (s.hw.inProgress = some .reload → s.oq.state = .loading → s.cl.state = .idle →
      s.tb.table = State.reset.tb.table →
        ∃ t, exec .reloadClearingDone s = .next t ∧ t.oq = s.oq ∧
          t.cl = { s.cl with
            state := .reading, port := { clock := false, sampled := [], received := [], presented := 0 } } ∧
          t.hw = s.hw ∧ t.tb = s.tb ∧ t.tu.rules = State.reset.tu.rules ∧ t.js.table = State.reset.js.table ∧
          (∀ ch : Channel, t.icu[ch] = { State.reset.icu[ch] with line := s.icu[ch].line }) ∧ t.ifu = s.ifu)

/-- The drain expiry closes the run: STOPPED with an empty queue, the fill state NORMAL, no hold COLLECTING, no channel
suppressed, STP set, a host STOP completed with OK, and the END packet, with the drain's reason and stop stamp, as the
last eight bytes of the journal. The entries still queued are released first, one after another, as HORIZON_EXPIRY releases
them. Then a COLLECTING hold closes by stop: CLOSED with its start and count kept, HLD set, and its HOLD packet, where it is
stored, before the rest; a LOSING store writes its closing LOSS before END, with a count of 0 where only that HOLD packet was
lost (R17, R20, R38, R58, R86, R119). -/
def Obligations.DrainExpiryClosesRun : Prop :=
  ∀ s : State, JournalSound s → ReserveKept s → RamCanonical s → s.oq.state = .draining →
    isBefore s.tb.counter (addMicros s.oq.stopStamp s.oq.horizon) = false →
      ∃ t, exec .drainExpiry s = .next t ∧
        t.oq = { s.oq with state := .stopped, queue := [] } ∧ t.js.fill = .normal ∧ t.tu.hold ≠ .collecting ∧
        t.je.stopReason = .hostStop ∧ t.ifu.irqf.getLsbD 6 = true ∧
        (∀ ch : Channel, t.icu[ch].state ≠ .suppressed ∧ t.icu[ch].state ≠ .suppressedSettling ∧
          t.icu[ch].chatterCount = 0 ∧ t.icu[ch].window = none ∧ t.icu[ch].quiet = none ∧
          t.icu[ch].accepted = s.icu[ch].accepted ∧ t.icu[ch].stamp = s.icu[ch].stamp) ∧
        (s.hw.inProgress = some .stop →
          t.hw = { s.hw with result := .ok, inProgress := none } ∧ t.ifu.irqf.getLsbD 7 = true) ∧
        (s.hw.inProgress ≠ some .stop → t.hw = s.hw) ∧
        8 ≤ occupancy t.js ∧
        BytesAt t.js.ram (t.js.head - 8#32)
          ((match s.je.stopReason with | .hostStop => 0xA0#8 | .holdStop => 0xA1#8) :: fullTime s.oq.stopStamp) ∧
        (∀ (e : Entry) (rest : List Entry), HeadDue s e rest → ∀ u, exec .horizonExpiry s = .next u →
          exec .drainExpiry s = exec .drainExpiry u) ∧
        (s.oq.queue = [] →
          let ending := (match s.je.stopReason with | .hostStop => 0xA0#8 | .holdStop => 0xA1#8) ::
            fullTime s.oq.stopStamp
          let first := s.je.runningTime
          (s.tu.hold ≠ .collecting → t.tu = s.tu) ∧
          (s.tu.hold = .collecting → t.tu = { s.tu with hold := .closed } ∧ t.ifu.irqf.getLsbD 2 = true) ∧
          (s.js.fill = .normal → s.tu.hold ≠ .collecting → Appended s t ending) ∧
          (s.js.fill = .normal → s.tu.hold = .collecting → 33 ≤ freeSpace s.js → Appended s t ([0x92#8] ++ ending)) ∧
          (s.js.fill = .normal → s.tu.hold = .collecting → freeSpace s.js = 32 → s.js.table.policy = .keepOldest →
            Appended s t (lossAs 0 first first ++ ending) ∧ t.ifu.irqf.getLsbD 3 = true) ∧
          (s.js.fill = .losing →
            Appended s t (lossAs s.je.lossCount s.je.firstLost s.je.lastLost ++ ending) ∧ t.je.lossCount = 0) ∧
          t.je.runningTime = s.je.runningTime ∧ t.je.image = s.je.image ∧ t.je.segment = s.je.segment)

/-! ### The readers, the hold and the other commands -/

/-- ATTACH sets both of HOST's marks to the first index entry, or the head; RELEASE sets the release mark to the read
mark, DETACH clears the flag, each with freeing re-evaluated; REREAD sets the read mark back (R26, R29, R31 to R33, R35,
R142, R157, R162). -/
def Obligations.ReaderCommandsMoveTheMarks : Prop :=
  ∀ s : State, s.hw.inProgress = none → s.oq.state ≠ .loading →
    let c := s.js.hostC
    let point := match s.js.index with | [] => s.js.head | p :: _ => p
    let counts (t u : State) : Prop := t = { u with ifu := t.ifu } ∧ t.ifu.irqf.getLsbD 7 = true ∧ AvlCurrent t ∧
      t.ifu.faults = s.ifu.faults ∧ (s.ifu.irqf &&& t.ifu.irqf = s.ifu.irqf)
    (∃ t, exec .attach s = .next t ∧ counts t (completedWith .ok { s with
      js := { s.js with hostC := { c with attached := true, read := point, release := point } } })) ∧
    (c.attached = true → ∃ t, exec .reread s = .next t ∧ counts t (completedWith .ok { s with
      js := { s.js with hostC := { c with read := c.release } } })) ∧
    (c.attached = true →
      let u : State := { s with js := { s.js with hostC := { c with release := c.read } } }
      ∃ p, FreedTo u p ∧ exec .release s = .next (completedWith .ok { u with js := tailAt p u.js })) ∧
    (c.attached = true →
      let u : State := { s with js := { s.js with hostC := { c with attached := false } } }
      ∃ p t, FreedTo u p ∧ exec .detach s = .next t ∧ counts t (completedWith .ok { u with js := tailAt p u.js })) ∧
    (c.attached = false → exec .detach s = .next (completedWith .ok s))

/-- RELEASE HOLD ends an active hold, keeping its action, quota and start: the protected start no longer bounds the tail
and freeing is re-evaluated; in RUNNING a HOLD "released" packet follows when it fits; with no hold it does nothing.
CLEAR FAULTS empties the fault queue and the lost count and leaves FLT as it is; in LOADING it is LOCKED (R21, R27, R121,
R163, R177). The model's choice: freeing comes first and the HOLD packet second (log entry 13). -/
def Obligations.ReleaseHoldAndClearFaults : Prop :=
  ∀ s : State, s.hw.inProgress = none →
    (s.oq.state ≠ .loading → s.tu.hold = .noHold → exec .releaseHold s = .next (completedWith .ok s)) ∧
    (s.oq.state ≠ .loading → s.tu.hold ≠ .noHold →
      let u : State := { s with tu := { s.tu with hold := .noHold, count := 0 } }
      ∃ p, FreedTo u p ∧
        (s.oq.state ≠ .running → exec .releaseHold s = .next (completedWith .ok { u with js := tailAt p u.js })) ∧
        (s.oq.state = .running → s.js.fill = .normal → RamCanonical s → 33 ≤ freeSpace (tailAt p s.js) →
          ∃ t, exec .releaseHold s = .next t ∧ Appended s t [0x93#8] ∧ t.js.tail = p ∧ t.tu = u.tu ∧
            t.hw.result = .ok ∧ t.js.index = (tailAt p s.js).index)) ∧
    (s.oq.state ≠ .loading →
      exec .clearFaults s = .next (completedWith .ok { s with ifu := { s.ifu with faults := [], lost := 0 } })) ∧
    (s.oq.state = .loading → exec .clearFaults s = .next (completedWith .locked s))

/-- WRITE ENTRY and READ ENTRY: in every capture state but LOADING a bad id or index is BADARG; a channel or journal
entry written outside STOPPED is LOCKED; then a failing field is BADARG; otherwise the entry is written, and READ ENTRY
returns it as written, but for the trim count in the time entry (R39, R72, R92, R110, R158, R164, R165, R167). -/
def Obligations.WrittenEntriesReadBack : Prop :=
  ∀ s : State, s.hw.inProgress = none → s.oq.state ≠ .loading →
    let id := s.hw.tabsel.toNat
    let idx := s.hw.tabidx.toNat
    let found := (id = 1 ∧ idx < 24) ∨ (id = 2 ∧ idx < 8) ∨ (id = 3 ∧ idx = 0) ∨ (id = 4 ∧ idx = 0)
    (¬found → exec .writeEntry s = .next (completedWith .badarg s) ∧
      exec .readEntry s = .next (completedWith .badarg s)) ∧
    (let returns (bytes : Vector Byte 8) : Prop :=
      exec .readEntry s = .next (completedWith .ok { s with hw := { s.hw with entry := bytes } })
    (∀ ch : Channel, id = 1 → idx = ch.val → returns (encodeChannel s.icu[ch].desc)) ∧
      (∀ i : Fin 8, id = 2 → idx = i.val → returns (encodeTrigger s.tu.rules[i])) ∧
      (id = 3 → idx = 0 → returns (encodeTime s.tb.table s.tb.trims)) ∧
      (id = 4 → idx = 0 → returns (encodeJournal s.js.table))) ∧
    (found → (id = 1 ∨ id = 4) → s.oq.state ≠ .stopped → exec .writeEntry s = .next (completedWith .locked s)) ∧
    (found → (id = 2 ∨ id = 3 ∨ s.oq.state = .stopped) →
      let passes := (id = 1 ∧ (decodeChannel s.hw.entry).isSome) ∨ (id = 2 ∧ (decodeTrigger s.hw.entry).isSome) ∨
        (id = 3 ∧ (decodeTime s.hw.entry).isSome) ∨ (id = 4 ∧ (decodeJournal s.hw.entry).isSome)
      (¬passes → exec .writeEntry s = .next (completedWith .badarg s)) ∧
      (passes → ∃ t, exec .writeEntry s = .next t ∧ t.hw = { s.hw with result := .ok, inProgress := none } ∧
        t.ifu.irqf.getLsbD 7 = true ∧ ∃ u, exec .readEntry t = .next u ∧ u.hw.result = .ok ∧
        (∀ i : Fin 8, id = 3 → 6 ≤ i.val →
          u.hw.entry[i] = (BitVec.ofNat 16 s.tb.trims).extractLsb' (8 * (i.val - 6)) 8) ∧
        (∀ i : Fin 8, (id ≠ 3 ∨ i.val < 6) → u.hw.entry[i] = s.hw.entry[i])))

/-- What a written entry does: a descriptor sets its channel up again, STABLE at the line level with the new invert field
or OFF at level 0, with no settling, count or timer; a rule and the journal entry change nothing else. Of a time entry:
disabling PPS in LOCKED enters HOLDOVER with the reference absent; a changed W brings a timeout already reached, and a
changed holdover limit an expiry already reached; nothing else changes (R73, R93, R110, R164). The model's choice: W comes
before the holdover limit (log entry 24), and the reject count is 0 in the HOLDOVER so entered (log entry 12). -/
def Obligations.WrittenEntryTakesEffect : Prop :=
  ∀ s : State, s.hw.inProgress = none → s.oq.state ≠ .loading →
    let b := s.tb
    (∀ (d : ChanDesc) (ch : Channel), s.oq.state = .stopped → s.hw.tabsel = 1#8 → s.hw.tabidx.toNat = ch.val →
      decodeChannel s.hw.entry = some d →
        let c : ChannelRec :=
          { desc := d, line := s.icu[ch].line, state := if d.enable then .stable else .off,
            accepted := d.enable && (s.icu[ch].line ^^ d.invert), stamp := none, chatterCount := 0, window := none,
            quiet := none, settle := none }
        exec .writeEntry s = .next (completedWith .ok { s with icu := s.icu.set ch c })) ∧
    (∀ (r : TriggerRule) (i : Fin 8), s.hw.tabsel = 2#8 → s.hw.tabidx.toNat = i.val →
      decodeTrigger s.hw.entry = some r →
        exec .writeEntry s = .next (completedWith .ok { s with tu := { s.tu with rules := s.tu.rules.set i r } })) ∧
    (∀ j : JournalTable, s.oq.state = .stopped → s.hw.tabsel = 4#8 → s.hw.tabidx = 0#8 →
      decodeJournal s.hw.entry = some j →
        exec .writeEntry s = .next (completedWith .ok { s with js := { s.js with table := j } })) ∧
    (∀ x : TimeTable, s.hw.tabsel = 3#8 → s.hw.tabidx = 0#8 → decodeTime s.hw.entry = some x →
      ((b.quality ≠ .locked ∨ b.table.ppsEnable = false ∨ x.ppsEnable = true) →
        let u : State := { s with tb := { b with table := x } }
        ∃ v, (if x.lockWindow = b.table.lockWindow then v = u else exec .timeout u = .next v) ∧
          ∃ w, (if x.holdoverLimit = b.table.holdoverLimit then w = v else exec .holdoverExpiry v = .next w) ∧
            exec .writeEntry s = .next (completedWith .ok w)) ∧
        (x.lockWindow = b.table.lockWindow → x.holdoverLimit = b.table.holdoverLimit →
          b.quality = .locked → b.table.ppsEnable = true → x.ppsEnable = false → b.holdover ≠ .expired →
          ∃ t, exec .writeEntry s = .next t ∧ t.ifu.irqf.getLsbD 4 = true ∧
            t.tb = { b with table := x, quality := .holdover, reference := none, rejects := 0 }))

/-- Table entries and their bytes determine each other: bytes that pass the check are the bytes their entry reads as, and
an entry that passes its range checks is what its bytes say. A count of at most 34,359,738,367 reads back from its field,
which has the fewest bytes that hold it (R2, R165, R197). -/
def Obligations.EncodingsRoundTrip : Prop :=
  (∀ (b : Vector Byte 8) (d : ChanDesc), decodeChannel b = some d → encodeChannel d = b) ∧
  (∀ (b : Vector Byte 8) (r : TriggerRule), decodeTrigger b = some r → encodeTrigger r = b) ∧
  (∀ (b : Vector Byte 8) (j : JournalTable), decodeJournal b = some j → encodeJournal j = b) ∧
  (∀ (b : Vector Byte 8) (x : TimeTable), decodeTime b = some x → encodeTime x 0 = b) ∧
  (∀ d : ChanDesc, chatterLimitOk d.chatterLimit = true → d.chatterWindow ≠ 0#8 → d.quietTime ≠ 0#8 →
    decodeChannel (encodeChannel d) = some d) ∧
  (∀ r : TriggerRule, r.value &&& ~~~r.mask = 0#24 → decodeTrigger (encodeTrigger r) = some r) ∧
  (∀ x : TimeTable, 10 ≤ x.lockWindow.toNat → x.lockWindow.toNat ≤ 50000 → x.holdoverLimit ≠ 0#16 →
    decodeTime (encodeTime x 0) = some x) ∧
  (∀ j : JournalTable, 1 ≤ j.syncInterval.toNat → j.syncInterval.toNat ≤ 16 → 1 ≤ j.resumeRoom.toNat →
    j.resumeRoom.toNat ≤ 16 → j.p.toNat ≤ 15 → 1 ≤ j.q.toNat → j.q.toNat ≤ 4095 →
      decodeJournal (encodeJournal j) = some j) ∧
  (∀ n : Nat, n ≤ 34359738367 →
    readCount (varint n) = some n ∧
      (varint n).length = (if n < 128 then 1 else if n < 16384 then 2 else if n < 2097152 then 3
        else if n < 268435456 then 4 else 5))

/-- The CRC-16 over bytes followed by its own value, high byte first, is zero: no bit of the bytes is left out of the
check; and over 31h to 39h it is 29B1h (R136). -/
def Obligations.CrcAbsorbsItsOwnValue : Prop :=
  (∀ bytes : List Byte,
    crc16 (bytes ++ [(crc16 bytes).extractLsb' 8 8, (crc16 bytes).extractLsb' 0 8]) = 0#16) ∧
  crc16 [0x31#8, 0x32#8, 0x33#8, 0x34#8, 0x35#8, 0x36#8, 0x37#8, 0x38#8, 0x39#8] = 0x29B1#16

/-! ### The host window's registers -/

/-- JDATA serves the byte at HOST's read mark and moves the mark on by one, or returns 00h and sets read-empty; HSKIP
returns the skip count and clears skip-pending; a first-byte read latches its group whole (R30, R34, R150 to R154). On the
bus a read is taken when RD# falls with CS# low and WR# high: it does what its row does, or nothing, and drives the
register's value on D7–D0 until RD# rises; otherwise the strobe drives nothing (R148). The model's choice:
edges come one at a time, and CS# rising during a read does not end it (log entry 28). -/
def Obligations.ReadsWithAnEffect : Prop :=
  ∀ s : State,
    let c := s.js.hostC
    (c.attached = true → c.read ≠ s.js.head → ∃ t, exec .jdataRead s = .next t ∧
      t.js = { s.js with hostC := { c with read := c.read + 1#32 } } ∧ AvlCurrent t ∧
      t.hw = { s.hw with dataOut := some (s.js.ram.read (c.read.toNat % 16384)) } ∧
      t.ifu.faults = s.ifu.faults ∧ t.oq = s.oq ∧ t.xl = s.xl ∧ t.tu = s.tu ∧ t.je = s.je ∧ t.tb = s.tb) ∧
    ((c.attached = false ∨ c.read = s.js.head) →
      exec .jdataRead s = .next { s with hw := { s.hw with readEmpty := true, dataOut := some 0#8 } }) ∧
    exec .hskipRead s = .next { s with
      js := { s.js with hostC := { c with skipPending := false } },
      hw := { s.hw with dataOut := some (BitVec.ofNat 8 c.skips) } } ∧
    (∀ g : Group, ∃ l : Latches, exec (.groupLatch g) s =
        .next { s with hw := { s.hw with latches := l, dataOut := some (latchByte l (groupAddress g)) } } ∧
      l.javail = (if g = .javail ∨ g = .hposr then BitVec.ofNat 16 (unread s.js c) else s.hw.latches.javail) ∧
      l.hposr = (if g = .hposr then c.read else s.hw.latches.hposr) ∧
      l.hposl = (if g = .hposr then c.release else s.hw.latches.hposl) ∧
      l.timenow = (if g = .timenow then
        BitVec.ofNat 56 (s.tb.counter.val % 1000000 * 2 ^ 32 + s.tb.counter.val / 1000000)
        else s.hw.latches.timenow) ∧
      l.flthead = (if g = .flthead then (match s.ifu.faults with
        | [] => 0#72
        | f :: _ => BitVec.ofNat 72 (((f.time.val % 1000000 * 2 ^ 32 + f.time.val / 1000000) * 2 ^ 8 +
            f.detail.toNat) * 2 ^ 8 + f.kind.code.toNat)) else s.hw.latches.flthead) ∧
      (g = .live → ∀ ch : Channel, l.live.getLsbD ch = s.icu[ch].accepted) ∧
      (g ≠ .live → l.live = s.hw.latches.live) ∧
      l.jhead = (if g = .jhead then s.js.head else s.hw.latches.jhead) ∧
      l.holds = (if g = .holds then s.tu.start else s.hw.latches.holds)) ∧
    (let b := s.hw.bus
     (b.rd = false → busEdge .rdRises s = withBus (withData s none) { b with rd := true }) ∧
     ∀ a : BitVec 6, b.rd = true →
       (b.cs = false → b.wr = true →
         let u := withBus (withData s none) { b with rd := false }
         (∀ i : Instr, rowOfRead a = some i → exec i u = .next (busEdge (.rdFalls a) s)) ∧
           (rowOfRead a = none → busEdge (.rdFalls a) s = withData u (some (readRegister a.toNat s))) ∧
           (busEdge (.rdFalls a) s).hw.dataOut = some (readRegister a.toNat s)) ∧
       (b.cs = true → busEdge (.rdFalls a) s = withBus (withData s none) { b with rd := false }) ∧
       (b.cs = false → b.wr = false →
         busEdge (.rdFalls a) s = withBus (withData s none) { b with rd := false, spoiled := true }))

/-- IRQF clears each flag written as 1, IRQE sets each enable to the bit written, FLTNEXT removes the oldest record; each
changes nothing else, and after each IRQ# is low exactly when some flag and its enable are both set. A read of IRQF
returns the eight flags as they stand (R170, R172, R176). -/
def Obligations.InterruptRegisterWrites : Prop :=
  ∀ (v : Byte) (s : State),
    let lineFollows (t : State) : Prop :=
      irqLow t = true ↔ ∃ i < 8, t.ifu.irqf.getLsbD i = true ∧ t.ifu.irqe.getLsbD i = true
    readRegister 0x10 s = s.ifu.irqf ∧
    (∃ t, exec (.irqfWrite v) s = .next t ∧ t = { s with ifu := { s.ifu with irqf := t.ifu.irqf } } ∧
      (∀ i < 8, t.ifu.irqf.getLsbD i = (s.ifu.irqf.getLsbD i && !v.getLsbD i)) ∧ lineFollows t) ∧
    (∃ t, exec (.irqeWrite v) s = .next t ∧ t = { s with ifu := { s.ifu with irqe := t.ifu.irqe } } ∧
      (∀ i < 8, t.ifu.irqe.getLsbD i = v.getLsbD i) ∧ lineFollows t) ∧
    (∃ t, exec (.fltnextWrite v) s = .next t ∧ t = { s with ifu := { s.ifu with faults := t.ifu.faults } } ∧
      (s.ifu.faults = [] → t.ifu.faults = []) ∧ (∀ f fs, s.ifu.faults = f :: fs → t.ifu.faults = fs) ∧
      lineFollows t)

/-- AVTH's low byte is held pending; its high byte commits the whole value when it lies in 1 to 16,384 and is otherwise
ignored, the pending byte then AVTH's low byte; AVL is set when the comparison turns true (R155, R171). CMDFLAG's two
bits are write-one-to-clear; a staging byte is held as written; a write to any other address without a row of its own is
ignored (R148, R153, R160, R198). On the bus a write is taken when WR# rises with CS# low, and does what the row of its
address and byte does; with CS# high, or when RD# has been low with it, nothing is taken; CS# alone takes nothing (R148).
The model's reading of "an access in which": a write strobe that has met a low RD# is not taken even where RD# rises first
(log entry 28). -/
def Obligations.WindowRegisterWrites : Prop :=
  ∀ (v : Byte) (s : State),
    exec (.avthLowWrite v) s = .next { s with hw := { s.hw with avthLow := v } } ∧
    (let formed := 256 * v.toNat + s.hw.avthLow.toNat
      ∃ t, exec (.avthHighWrite v) s = .next t ∧
        (1 ≤ formed → formed ≤ 16384 → t.hw.avth.toNat = formed) ∧
        (formed = 0 ∨ 16384 < formed → t.hw.avth = s.hw.avth) ∧
        t.hw = { s.hw with avth := t.hw.avth, avthLow := t.hw.avth.extractLsb' 0 8 } ∧
        t.ifu = { s.ifu with
          above := decide (t.hw.avth.toNat ≤ unread s.js s.js.hostC),
          irqf := if s.ifu.above = false ∧ t.hw.avth.toNat ≤ unread s.js s.js.hostC
            then s.ifu.irqf ||| 0x01#8 else s.ifu.irqf } ∧
        t = { s with hw := t.hw, ifu := t.ifu }) ∧
    exec (.cmdflagWrite v) s = .next { s with hw := { s.hw with
      collision := if v.getLsbD 0 then false else s.hw.collision,
      readEmpty := if v.getLsbD 1 then false else s.hw.readEmpty } } ∧
    exec (.registerWrite 0x06#6 v) s = .next { s with hw := { s.hw with tabsel := v } } ∧
    exec (.registerWrite 0x07#6 v) s = .next { s with hw := { s.hw with tabidx := v } } ∧
    (∀ i : Fin 8, exec (.registerWrite (BitVec.ofNat 6 (8 + i.val)) v) s =
      .next { s with hw := { s.hw with entry := s.hw.entry.set i v } }) ∧
    (∀ a : BitVec 6, (Instr.registerWrite a v).wellFormed = true → (a.toNat < 6 ∨ 16 ≤ a.toNat) →
      exec (.registerWrite a v) s = .next s) ∧
    (let b := s.hw.bus
     (b.wr = true → busEdge .wrFalls s = withBus s { b with wr := false, spoiled := !b.cs && !b.rd }) ∧
     (b.cs = true → busEdge .csFalls s = withBus s { b with cs := false, spoiled := b.spoiled || (!b.rd && !b.wr) }) ∧
     busEdge .csRises s = withBus s { b with cs := true } ∧
     ∀ a : BitVec 6, b.wr = false →
       (b.cs = false → b.spoiled = false →
         exec (rowOfWrite a v) (withBus s { b with wr := true }) = .next (busEdge (.wrRises a v) s)) ∧
       ((b.cs = true ∨ b.spoiled = true) → busEdge (.wrRises a v) s = withBus s { b with wr := true, spoiled := false }))

/-- The live status registers show their owners' state at their bit positions, and bits of no field read 0. Every other
register reads as its kind says: the constants, RESULT, the staging bytes, IRQF and IRQE, AVTH as committed, JDATA's next
byte, HSKIP, FLTCNT and FLTLOST, 00h from FLTNEXT and the unassigned addresses, and the latch from each group's bytes behind
its first (R148, R150, R153 to R155, R176, R198). -/
def Obligations.StatusRegistersShowTheirOwners : Prop :=
  ∀ s : State, s.tb.rejects ≤ 2 →
    (let v := readRegister 0x02 s
     v.toNat % 4 = s.oq.state.code ∧ v.getLsbD 2 = s.hw.inProgress.isSome ∧
        v.getLsbD 3 = decide (s.js.fill = .losing) ∧ v.toNat / 16 % 4 = s.tu.hold.code ∧
        v.getLsbD 6 = s.js.hostC.attached ∧ v.getLsbD 7 = decide (0 < unread s.js s.js.hostC)) ∧
    (let v := readRegister 0x03 s
     v.toNat % 4 = s.tb.quality.code ∧ v.getLsbD 2 = s.tb.table.ppsEnable ∧ v.toNat / 8 = s.tb.rejects) ∧
    (let v := readRegister 0x05 s
     v.getLsbD 0 = s.hw.collision ∧ v.getLsbD 1 = s.hw.readEmpty ∧ v.getLsbD 2 = s.js.hostC.skipPending ∧
        v.toNat < 8) ∧
    readRegister 0x00 s = 0xB4#8 ∧ readRegister 0x01 s = 0x10#8 ∧
    (readRegister 0x04 s).toNat = (match s.hw.result with
      | .ok => 0
      | .locked => 1
      | .badarg => 2
      | .nospace => 3
      | .notattached => 4
      | .unknown => 5) ∧
    readRegister 0x06 s = s.hw.tabsel ∧ readRegister 0x07 s = s.hw.tabidx ∧
    (∀ i : Fin 8, readRegister (8 + i.val) s = s.hw.entry[i]) ∧
    readRegister 0x10 s = s.ifu.irqf ∧ readRegister 0x11 s = s.ifu.irqe ∧
    256 * (readRegister 0x13 s).toNat + (readRegister 0x12 s).toNat = s.hw.avth.toNat ∧
    readRegister 0x14 s = (if 0 < unread s.js s.js.hostC then s.js.ram.read (s.js.hostC.read.toNat % 16384) else 0#8) ∧
    readRegister 0x17 s = BitVec.ofNat 8 s.js.hostC.skips ∧
    readRegister 0x27 s = BitVec.ofNat 8 s.ifu.faults.length ∧ readRegister 0x32 s = BitVec.ofNat 8 s.ifu.lost ∧
    readRegister 0x31 s = 0#8 ∧ readRegister 0x3E s = 0#8 ∧ readRegister 0x3F s = 0#8 ∧
    (let l := s.hw.latches
     readRegister 0x16 s = l.javail.extractLsb' 8 8 ∧
     (∀ k : Fin 3, readRegister (0x19 + k.val) s = l.hposr.extractLsb' (8 * (1 + k.val)) 8 ∧
       readRegister (0x37 + k.val) s = l.jhead.extractLsb' (8 * (1 + k.val)) 8 ∧
       readRegister (0x3B + k.val) s = l.holds.extractLsb' (8 * (1 + k.val)) 8) ∧
     (∀ k : Fin 4, readRegister (0x1C + k.val) s = l.hposl.extractLsb' (8 * k.val) 8) ∧
     (∀ k : Fin 6, readRegister (0x21 + k.val) s = l.timenow.extractLsb' (8 * (1 + k.val)) 8) ∧
     (∀ k : Fin 8, readRegister (0x29 + k.val) s = l.flthead.extractLsb' (8 * (1 + k.val)) 8) ∧
     (∀ k : Fin 2, readRegister (0x34 + k.val) s = l.live.extractLsb' (8 * (1 + k.val)) 8))

/-! ### The export link -/

/-- A transaction begins with the link status byte as the state stands; a command's bytes with XSEL# high, or behind the
transaction's command, change nothing; XSTAT answers the six status items and clears the error bit; an unknown code sets
it. Byte 1 and the argument bytes behind it, received whole, take the command the code names; until the last argument the
command is only decoded (R127 to R131, R144, R195). On the wires an edge of XSEL# begins or ends the transaction as its row
does; in a transaction a rising edge of XCLK samples XDI, most significant bit first, the eighth completing a byte, a
falling edge presents XDO's next bit, and a partial byte is discarded when XSEL# rises; outside one XCLK does nothing and
XDO is high impedance (R127, R128). The model's choice: a TRANSACTION_BEGIN with XSEL# already low changes nothing (log
entry 7), and rows of commands leave the port's bits as they stand (log entry 32). -/
def Obligations.LinkTransactionsAndStatus : Prop :=
  ∀ s : State,
    let x := s.xl
    let c := s.js.exportC
    (x.phase = .deselected → ∃ v : Byte,
      exec .transactionBegin s = .next { s with xl := { x with
        phase := .selected v, port := { clock := x.port.clock, sampled := [], received := [], presented := 0 } } } ∧
      v.getLsbD 0 = c.attached ∧ v.getLsbD 1 = decide (0 < unread s.js c) ∧
      v.getLsbD 2 = decide (x.outstanding.length = 4) ∧ v.getLsbD 3 = c.skipPending ∧
      v.getLsbD 4 = decide (s.tu.hold ≠ .noHold) ∧ v.getLsbD 5 = decide (s.js.fill = .losing) ∧
      v.getLsbD 6 = decide (s.oq.state = .loading) ∧ v.getLsbD 7 = x.error ∧ (JournalSound s → v ≠ 0xFF#8)) ∧
    (x.phase ≠ .deselected → exec .transactionBegin s = .next s) ∧
    ((∀ v, x.phase ≠ .selected v) → ∀ (a b d : Byte),
      exec .xstat s = .next s ∧ exec (.xfetch a) s = .next s ∧ exec (.xack a b) s = .next s ∧
        exec .xrewind s = .next s ∧ exec .xattach s = .next s ∧ exec .xdetach s = .next s ∧
        exec (.xmark a b d) s = .next s ∧ exec (.linkUnknownCommand a) s = .next s) ∧
    (∀ v, x.phase = .selected v →
      let n := BitVec.ofNat 16 (unread s.js c)
      exec .xstat s = .next { s with xl := { x with
        error := false,
        phase := .served v [n.extractLsb' 0 8, n.extractLsb' 8 8, BitVec.ofNat 8 x.outstanding.length,
          BitVec.ofNat 8 c.skips, x.nextSeq, BitVec.ofNat 8 x.aborts] } }) ∧
    (∀ v code, x.phase = .selected v → (Instr.linkUnknownCommand code).wellFormed = true →
      exec (.linkUnknownCommand code) s = .next { s with xl := { x with error := true, phase := .served v [] } }) ∧
    (∀ (a b d : Byte) (more : List Byte),
      linkCommandOf 0x10#8 more = some .xstat ∧ linkCommandOf 0x20#8 (a :: more) = some (.xfetch a) ∧
        linkCommandOf 0x30#8 (a :: b :: more) = some (.xack a b) ∧ linkCommandOf 0x40#8 more = some .xrewind ∧
        linkCommandOf 0x50#8 more = some .xattach ∧ linkCommandOf 0x51#8 more = some .xdetach ∧
        linkCommandOf 0x60#8 (a :: b :: d :: more) = some (.xmark a b d) ∧
        ((Instr.linkUnknownCommand a).wellFormed = true → linkCommandOf a more = some (.linkUnknownCommand a)) ∧
        linkArgumentsDue 0x20#8 [] = some .xfetch ∧ linkArgumentsDue 0x30#8 [a] = some .xack ∧
        linkArgumentsDue 0x60#8 [a, b] = some .xmark) ∧
    (∀ (code : Byte) (args : List Byte),
      (∀ c, linkCommandOf code args = some c → exec c s = .next (takeLinkBytes code args s)) ∧
      ((linkArgumentsDue code args).isSome = (linkCommandOf code args).isNone) ∧
      (∀ v, linkCommandOf code args = none → x.phase = .selected v →
        takeLinkBytes code args s = { s with xl := { x with error := false } })) ∧
    (let p := x.port
     let idle := x.phase = .deselected ∨ x.phase = .endedByReset
     exec .transactionBegin s = .next (linkEdge .selFalls s) ∧
     (p.received = [] → exec (.transactionEnd none) s = .next (linkEdge .selRises s)) ∧
     (∀ code args, p.received = code :: args →
       exec (.transactionEnd (linkArgumentsDue code args)) s = .next (linkEdge .selRises s)) ∧
     (idle → xdoBit s = none ∧
       (p.clock = true → linkEdge .clkFalls s = withLinkPort s { p with clock := false }) ∧
       (p.clock = false → ∀ d, linkEdge (.clkRises d) s = withLinkPort s { p with clock := true })) ∧
     (¬idle →
       (p.clock = true → linkEdge .clkFalls s =
         withLinkPort s { p with clock := false, presented := p.presented + 1 }) ∧
       (p.clock = false → p.sampled.length < 7 → ∀ d, linkEdge (.clkRises d) s =
         withLinkPort s { p with clock := true, sampled := p.sampled ++ [d] }) ∧
       (∀ (b code : Byte) (args : List Byte), p.clock = false → p.sampled = leadingBits b →
         (∀ f, x.flight = some f → p.received.length ≠ 1 + f.bytes.length) → p.received ++ [b] = code :: args →
           linkEdge (.clkRises (b.getLsbD 0)) s = takeLinkBytes code args
             (withLinkPort s { p with clock := true, sampled := [], received := code :: args }))) ∧
     (∀ i j v, j < 8 → p.presented = 8 * i + j →
       (x.phase = .selected v → xdoBit s = some ((if i = 0 then v else 0xFF#8).getLsbD (7 - j))) ∧
       ∀ r, x.phase = .served v r →
         xdoBit s = some ((if i = 0 then v else r.getD (i - 1) 0xFF#8).getLsbD (7 - j))))

/-- XFETCH: n of 0 or above 64 is refused; otherwise the frame carries k bytes from EXPORT's read mark, k the smaller of
n and the unread count, or 0 when EXPORT is detached or four frames are outstanding; its bytes are number, flags, length,
data and CRC; a frame with data joins the list; skip-pending passes into the frame (R134, R135, R136). -/
def Obligations.XfetchBuildsAFrame : Prop :=
  ∀ (n v : Byte) (s : State), s.xl.phase = .selected v →
    let x := s.xl
    let c := s.js.exportC
    let k := if c.attached = false ∨ 4 ≤ x.outstanding.length then 0 else min n.toNat (unread s.js c)
    let frame : FrameRec := { seq := x.nextSeq, start := c.read, stop := c.read + BitVec.ofNat 32 k }
    (n = 0#8 ∨ 64 < n.toNat → exec (.xfetch n) s =
      .next { s with xl := { x with error := true, phase := .served v [] } }) ∧
    (1 ≤ n.toNat → n.toNat ≤ 64 → ∃ (flags : Byte) (data : List Byte),
      let body := x.nextSeq :: flags :: BitVec.ofNat 8 k :: data
      let bytes := body ++ [(crc16 body).extractLsb' 0 8, (crc16 body).extractLsb' 8 8]
      data.length = k ∧ (∀ i (h : i < data.length), data[i] = s.js.ram.read ((c.read.toNat + i) % 16384)) ∧
      flags.getLsbD 0 = c.skipPending ∧ flags.getLsbD 1 = decide (s.tu.hold ≠ .noHold) ∧
      flags.getLsbD 2 = decide (s.js.fill = .losing) ∧
      flags.getLsbD 3 = (c.attached && decide (4 ≤ x.outstanding.length)) ∧ flags.getLsbD 4 = !c.attached ∧
      flags.toNat < 32 ∧
      exec (.xfetch n) s = .next { s with
        js := { s.js with exportC := { c with read := frame.stop, skipPending := false } },
        xl := { x with
          error := false, phase := .served v (0xFF#8 :: bytes),
          outstanding := if 0 < k then x.outstanding ++ [frame] else x.outstanding,
          flight := some { frame := frame, skip := c.skipPending, bytes := bytes } } })

/-- A delivered frame with data consumes its number. A transaction that ends first withdraws its frame: the newest record
and the read mark go back, the abort count rises, and a reported skip is pending again; without data only the flight
ends. A decoded command not taken sets the error bit (R131, R137, R138). On the wires the rising edge of XCLK that completes
the frame's last byte delivers it (R137). The model's choice: FRAME_DELIVERED with no frame
in flight and TRANSACTION_END with XSEL# high change nothing (log entry 7). -/
def Obligations.FramesAreDeliveredOrWithdrawn : Prop :=
  ∀ s : State,
    let x := s.xl
    let c := s.js.exportC
    let closed : Link :=
      { x with
        phase := .deselected, port := { clock := x.port.clock, sampled := [], received := [], presented := 0 } }
    (x.flight = none → exec .frameDelivered s = .next s) ∧
    (∀ f, x.flight = some f → exec .frameDelivered s = .next { s with xl := { x with
      flight := none, nextSeq := if f.frame.start = f.frame.stop then x.nextSeq else x.nextSeq + 1#8 } }) ∧
    (x.phase = .deselected → ∀ d, exec (.transactionEnd d) s = .next s) ∧
    (∀ v, x.phase = .selected v →
      exec (.transactionEnd none) s = .next { s with xl := closed } ∧
      ∀ d, exec (.transactionEnd (some d)) s = .next { s with xl := { closed with error := true } }) ∧
    (∀ v r d, x.phase = .served v r → x.flight = none →
      exec (.transactionEnd d) s = .next { s with xl := closed }) ∧
    (∀ v r d f, x.phase = .served v r → x.flight = some f →
      (f.frame.start = f.frame.stop → exec (.transactionEnd d) s = .next { s with
        js := { s.js with exportC := { c with skipPending := c.skipPending || f.skip } },
        xl := { closed with flight := none } }) ∧
      (∀ older, f.frame.start ≠ f.frame.stop → x.outstanding = older ++ [f.frame] →
        exec (.transactionEnd d) s = .next { s with
          js := { s.js with exportC := { c with read := f.frame.start, skipPending := c.skipPending || f.skip } },
          xl := { closed with flight := none, outstanding := older, aborts := satInc 255 x.aborts } }) ∧
      (f.frame.start ≠ f.frame.stop → f.frame ∉ x.outstanding → exec (.transactionEnd d) s = .next { s with
        js := { s.js with exportC := { c with skipPending := c.skipPending || f.skip } },
        xl := { closed with flight := none, aborts := satInc 255 x.aborts } })) ∧
    (∀ (b : Byte) (v : Byte) (r : List Byte) (f : Flight), x.phase = .served v r → x.flight = some f →
      x.port.clock = false → x.port.sampled = leadingBits b → x.port.received.length = 1 + f.bytes.length →
        exec .frameDelivered (withLinkPort s
            { x.port with clock := true, sampled := [], received := x.port.received ++ [b] }) =
          .next (linkEdge (.clkRises (b.getLsbD 0)) s))

/-- XACK: a check byte that is not the complement is a LINKCHECK fault and the error bit; a number not outstanding is
stale; otherwise the records through that number leave, EXPORT's release mark becomes its frame's end and freeing is
re-evaluated (R31, R35, R140, R174). XMARK with a bad check byte is a LINKCHECK fault, and outside RUNNING an error
(R67, R145). -/
def Obligations.LinkChecksAndAcknowledgement : Prop :=
  ∀ (v : Byte) (s : State), s.xl.phase = .selected v →
    let x := s.xl
    let served (error : Bool) : Link := { x with error := error, phase := .served v [] }
    let logged (detail : Byte) : FaultUnit :=
      { s.ifu with irqf := s.ifu.irqf ||| 0x20#8, faults := faultsWith s .linkcheck detail,
                   lost := if s.ifu.faults.length < 4 then s.ifu.lost else satInc 255 s.ifu.lost }
    (∀ n check : Byte, check.toNat ≠ 255 - n.toNat →
      exec (.xack n check) s = .next { s with xl := served true, ifu := logged 0x30#8 }) ∧
    (∀ n check : Byte, check.toNat = 255 - n.toNat → (∀ f ∈ x.outstanding, f.seq ≠ n) →
      exec (.xack n check) s = .next { s with xl := served true }) ∧
    (∀ (n check : Byte) (older : List FrameRec) (f : FrameRec) (newer : List FrameRec),
      check.toNat = 255 - n.toNat → x.outstanding = older ++ f :: newer → (∀ g ∈ older, g.seq ≠ n) → f.seq = n →
        let u : State := { s with
          js := { s.js with exportC := { s.js.exportC with release := f.stop } },
          xl := { served false with outstanding := newer } }
        ∃ p, FreedTo u p ∧ exec (.xack n check) s = .next { u with js := tailAt p u.js }) ∧
    (∀ high low check : Byte, check.toNat ≠ 255 - (high.toNat + low.toNat) % 256 →
      exec (.xmark high low check) s = .next { s with xl := served true, ifu := logged 0x60#8 }) ∧
    (∀ high low check : Byte, check.toNat = 255 - (high.toNat + low.toNat) % 256 → s.oq.state ≠ .running →
      exec (.xmark high low check) s = .next { s with xl := served true })

/-- XREWIND, XATTACH and XDETACH: the outstanding list is emptied; the read mark goes back, both marks are set to the
first index entry or the head, or the reader is detached and freeing re-evaluated; a detached XREWIND, and XATTACH and
XDETACH in LOADING, are refused with the error bit (R29, R32, R33, R35, R141 to R143). The model's choice: a detached
XREWIND is refused in LOADING too (log entry 30), and XDETACH in LOADING also where EXPORT is detached already (log entry
31). -/
def Obligations.LinkAttachment : Prop :=
  ∀ (v : Byte) (s : State), s.xl.phase = .selected v →
    let x := s.xl
    let c := s.js.exportC
    let served (error : Bool) : Link := { x with error := error, phase := .served v [] }
    let point := match s.js.index with | [] => s.js.head | p :: _ => p
    (c.attached = true → exec .xrewind s = .next { s with
      js := { s.js with exportC := { c with read := c.release } }, xl := { served false with outstanding := [] } }) ∧
    (c.attached = false → exec .xrewind s = .next { s with xl := served true }) ∧
    (s.oq.state = .loading → exec .xattach s = .next { s with xl := served true } ∧
      exec .xdetach s = .next { s with xl := served true }) ∧
    (s.oq.state ≠ .loading → exec .xattach s = .next { s with
      js := { s.js with exportC := { c with attached := true, read := point, release := point } },
      xl := { served false with outstanding := [] } }) ∧
    (s.oq.state ≠ .loading → c.attached = true →
      let u : State := { s with
        js := { s.js with exportC := { c with attached := false, read := c.release } },
        xl := { served false with outstanding := [] } }
      ∃ p, FreedTo u p ∧ exec .xdetach s = .next { u with js := tailAt p u.js }) ∧
    (s.oq.state ≠ .loading → c.attached = false → exec .xdetach s = .next { s with xl := served false })

/-! ### The configuration loader -/

/-- An image is read in order, each byte joining the running CRC: a header with the right format, version and count gives
count and flags; a record that passes its check is staged and counted; a CRC that agrees sends the loader to APPLYING; a
byte that fails is followed by no other: LOADFAIL with its reason, STOPPED, STP, the loader IDLE, and a RELOAD in
progress completed. While READING the memory is selected and MDO gives 03h, 00h, 00h and then stays low; once the loader is
IDLE MSEL# is high and MCLK low. On the wires a rising edge of MCLK samples MDI, most significant bit first, the eighth
completing a byte, and a falling edge presents MDO's next bit; behind the three bytes of the command and the address, the
bytes that complete a header, a check of it that fails, a record or the CRC do what its row does (R180 to R183, R187,
R188). The model's choice: until then the bytes of a header, a record or the CRC wait in the port (log entry 32). -/
def Obligations.ImageIsCheckedInOrder : Prop :=
  ∀ s : State, s.cl.state = .reading →
    let failed (reason : Byte) (crc : BitVec 16) (ram : Memory) (t : State) : Prop :=
      (∀ i, memoryPort i t = { selected := false, clocks := 0, mdo := none }) ∧ t.oq = { s.oq with state := .stopped } ∧
        t.cl = { s.cl with state := .idle, staged := 0, crc := crc } ∧
        t.ifu.faults = faultsWith s .loadfail reason ∧ t.ifu.irqf.getLsbD 5 = true ∧ t.ifu.irqf.getLsbD 6 = true ∧
        t.js = { s.js with ram := ram } ∧ t.tb = s.tb ∧ t.icu = s.icu ∧ t.tu = s.tu ∧
        (s.hw.inProgress = some .reload → t.hw = { s.hw with result := .ok, inProgress := none } ∧
          t.ifu.irqf.getLsbD 7 = true) ∧
        (s.hw.inProgress ≠ some .reload → t.hw = s.hw)
    (∀ i : Nat, memoryPort i s = { selected := true, clocks := 8, mdo := some (if i = 0 then 0x03#8 else 0x00#8) }) ∧
    (∀ f w lo hi g : Byte, s.cl.headerSeen = false →
      let count := 256 * hi.toNat + lo.toNat
      ∃ t, exec (.loadHeaderReceived f w lo hi g) s = .next t ∧
        (f ≠ 0xC3#8 → failed 1#8 (crcOver s.cl.crc [f]) s.js.ram t) ∧
        (f = 0xC3#8 → w ≠ 1#8 → failed 1#8 (crcOver s.cl.crc [f, w]) s.js.ram t) ∧
        (f = 0xC3#8 → w = 1#8 → 64 < count → failed 2#8 (crcOver s.cl.crc [f, w, lo, hi]) s.js.ram t) ∧
        (f = 0xC3#8 → w = 1#8 → count ≤ 64 →
          t = { s with cl := { s.cl with
            crc := crcOver s.cl.crc [f, w, lo, hi, g], count := count, read := 0, headerSeen := true,
            autoStart := g.getLsbD 0, attachHost := g.getLsbD 1, attachExport := g.getLsbD 2 } })) ∧
    (∀ (id idx : Byte) (entry : Vector Byte 8), s.cl.headerSeen = true → s.cl.read < s.cl.count → RamCanonical s →
      let bytes := id :: idx :: entry.toList
      let passes := RecordPasses id idx entry
      ∃ t, exec (.loadRecordReceived id idx entry) s = .next t ∧
        (∀ (i : Nat) (h : i < bytes.length), t.js.ram.read ((10 * s.cl.staged + i) % 16384) = bytes[i]) ∧
        (∀ a, (∀ i < 10, a ≠ (10 * s.cl.staged + i) % 16384) → t.js.ram.read a = s.js.ram.read a) ∧
        (¬passes → failed 3#8 (crcOver s.cl.crc bytes) t.js.ram t) ∧
        (passes → t = { s with
          js := { s.js with ram := t.js.ram },
          cl := { s.cl with crc := crcOver s.cl.crc bytes, read := s.cl.read + 1, staged := s.cl.staged + 1 } })) ∧
    (∀ lo hi : Byte, s.cl.headerSeen = true → s.cl.read = s.cl.count →
      ∃ t, exec (.loadCrcReceived lo hi) s = .next t ∧
        (hi ++ lo = s.cl.crc → t = { s with cl := { s.cl with state := .applying } }) ∧
        (hi ++ lo ≠ s.cl.crc → failed 4#8 s.cl.crc s.js.ram t)) ∧
    (let p := s.cl.port
     (p.clock = true → memoryEdge .clkFalls s =
       withMemoryPort s { p with clock := false, presented := p.presented + 1 }) ∧
     (p.clock = false → p.sampled.length < 7 → ∀ d, memoryEdge (.clkRises d) s =
       withMemoryPort s { p with clock := true, sampled := p.sampled ++ [d] }) ∧
     (∀ i j, j < 8 → p.presented = 8 * i + j →
       mdoBit s = some ((if i = 0 then 0x03#8 else 0x00#8).getLsbD (7 - j))) ∧
     ∀ b : Byte, p.clock = false → p.sampled = leadingBits b →
       let whole := { p with clock := true, sampled := [], received := p.received ++ [b] }
       let t := memoryEdge (.clkRises (b.getLsbD 0)) s
       (p.received.length < 3 → t = withMemoryPort s whole) ∧
       ∀ sent bytes : List Byte, sent.length = 3 → p.received ++ [b] = sent ++ bytes →
         let u := withMemoryPort s { whole with received := sent }
         (s.cl.headerSeen = false → ∀ f w lo hi g : Byte,
           (bytes = [f] → f ≠ 0xC3#8 → exec (.loadHeaderReceived f w lo hi g) u = .next t) ∧
           (bytes = [f, w] → w ≠ 1#8 → exec (.loadHeaderReceived f w lo hi g) u = .next t) ∧
           (bytes = [f, w, lo, hi] → 64 < 256 * hi.toNat + lo.toNat →
             exec (.loadHeaderReceived f w lo hi g) u = .next t) ∧
           (bytes = [f, w, lo, hi, g] → exec (.loadHeaderReceived f w lo hi g) u = .next t) ∧
           (bytes <+: [0xC3#8, 1#8, lo, hi] → (bytes.length = 4 → 256 * hi.toNat + lo.toNat ≤ 64) →
             t = withMemoryPort s whole)) ∧
         (s.cl.headerSeen = true → s.cl.read < s.cl.count →
           (∀ (id idx : Byte) (entry : Vector Byte 8), bytes = id :: idx :: entry.toList →
             exec (.loadRecordReceived id idx entry) u = .next t) ∧
           (bytes.length < 10 → t = withMemoryPort s whole)) ∧
         (s.cl.headerSeen = true → s.cl.read = s.cl.count →
           (∀ lo hi : Byte, bytes = [lo, hi] → exec (.loadCrcReceived lo hi) u = .next t) ∧
           (bytes.length < 2 → t = withMemoryPort s whole)))

/-- APPLYING ends in STOPPED with the loader IDLE: each staged record's entry is written, one after another in the order
read, as a WRITE ENTRY of the same bytes in STOPPED would write it; the image's flags attach HOST and EXPORT at the first
index entry or the head; a RELOAD completes unless the START asked for comes first (R29, R184, R185, R188). -/
def Obligations.ApplyingEndsTheLoad : Prop :=
  ∀ s : State, s.cl.state = .applying → (s.oq.state = .loading ∨ s.cl.staged = 0) →
    (∀ i < s.cl.staged, RecordPasses (s.js.ram.read (10 * i)) (s.js.ram.read (10 * i + 1))
      (Vector.ofFn fun k => s.js.ram.read (10 * i + 2 + k.val))) →
    let attachedAt (on : Bool) (j : Store) (c : Consumer) : Consumer :=
      let point := match j.index with | [] => j.head | p :: _ => p
      if on then { c with attached := true, read := point, release := point } else c
    ∃ u, WritesInOrder (List.range s.cl.staged) { s with oq := { s.oq with state := .stopped } } u ∧
      ∃ t, exec .applyingDone s = .next t ∧ t.icu = u.icu ∧ t.tb = u.tb ∧ t.tu = u.tu ∧ t.oq = u.oq ∧
        t.oq = { s.oq with state := .stopped } ∧ t.cl = { s.cl with state := .idle, staged := 0, autoStartDue := s.cl.autoStart } ∧
        t.js = { s.js with table := u.js.table, hostC := attachedAt s.cl.attachHost s.js s.js.hostC,
                           exportC := attachedAt s.cl.attachExport s.js s.js.exportC } ∧
        t.ifu.faults = s.ifu.faults ∧
        (s.cl.autoStart = false → s.hw.inProgress = some .reload →
          t.hw = { s.hw with result := .ok, inProgress := none } ∧ t.ifu.irqf.getLsbD 7 = true) ∧
        (s.cl.autoStart = true ∨ s.hw.inProgress ≠ some .reload → t.hw = s.hw)

/-- AUTO_START opens the run the image asked for, its first SYNC at the head with the present segment number, and then
completes a RELOAD with OK; where a run is already open it is refused and the RELOAD completes all the same (R51, R185,
R188, R191). -/
def Obligations.AutoStartOpensRun : Prop :=
  ∀ s : State, s.cl.autoStartDue = true →
    let completes (t : State) : Prop :=
      (s.hw.inProgress = some .reload → t.hw = { s.hw with result := .ok, inProgress := none } ∧
        t.ifu.irqf.getLsbD 7 = true) ∧ (s.hw.inProgress ≠ some .reload → t.hw = s.hw)
    (s.oq.state = .stopped → s.js.fill = .normal → 49 ≤ freeSpace s.js → s.js.index.length < 64 → RamCanonical s →
      ∃ t, exec .autoStart s = .next t ∧ t.oq.state = .running ∧ t.oq.queue = s.oq.queue ∧
        t.cl = { s.cl with autoStartDue := false } ∧
        Appended s t (syncAs { s with je := { s.je with mask := t.je.mask } } s.tb.counter t.je.image) ∧
        t.js.index = s.js.index ++ [s.js.head] ∧ t.je.segment = s.je.segment + 1#16 ∧
        t.je.runningTime = s.tb.counter ∧ completes t) ∧
    (s.oq.state ≠ .stopped → ∃ t, exec .autoStart s = .next t ∧ t.oq = s.oq ∧ t.js = s.js ∧ t.je = s.je ∧
      t.cl = { s.cl with autoStartDue := false } ∧ completes t)

end
end

