-- ==== Sys2Proof/Laws/State.lean ====
section
/-! SUPPORT. One lemma for each field under each update of a block of the state, all true by definition. -/

namespace Sys2Proof.Machine

variable (s : State)

@[simp] theorem State.onIcu_icu (f : Vector ChannelRec 24 → Vector ChannelRec 24) : (s.onIcu f).icu = f s.icu := rfl
@[simp] theorem State.onIcu_tb (f : Vector ChannelRec 24 → Vector ChannelRec 24) : (s.onIcu f).tb = s.tb := rfl
@[simp] theorem State.onIcu_oq (f : Vector ChannelRec 24 → Vector ChannelRec 24) : (s.onIcu f).oq = s.oq := rfl
@[simp] theorem State.onIcu_je (f : Vector ChannelRec 24 → Vector ChannelRec 24) : (s.onIcu f).je = s.je := rfl
@[simp] theorem State.onIcu_js (f : Vector ChannelRec 24 → Vector ChannelRec 24) : (s.onIcu f).js = s.js := rfl
@[simp] theorem State.onIcu_tu (f : Vector ChannelRec 24 → Vector ChannelRec 24) : (s.onIcu f).tu = s.tu := rfl
@[simp] theorem State.onIcu_xl (f : Vector ChannelRec 24 → Vector ChannelRec 24) : (s.onIcu f).xl = s.xl := rfl
@[simp] theorem State.onIcu_hw (f : Vector ChannelRec 24 → Vector ChannelRec 24) : (s.onIcu f).hw = s.hw := rfl
@[simp] theorem State.onIcu_ifu (f : Vector ChannelRec 24 → Vector ChannelRec 24) : (s.onIcu f).ifu = s.ifu := rfl
@[simp] theorem State.onIcu_cl (f : Vector ChannelRec 24 → Vector ChannelRec 24) : (s.onIcu f).cl = s.cl := rfl
@[simp] theorem State.onIcu_pending (f : Vector ChannelRec 24 → Vector ChannelRec 24) : (s.onIcu f).pending = s.pending := rfl
@[simp] theorem State.onIcu_choices (f : Vector ChannelRec 24 → Vector ChannelRec 24) : (s.onIcu f).choices = s.choices := rfl
@[simp] theorem State.onTb_icu (f : TimeBase → TimeBase) : (s.onTb f).icu = s.icu := rfl
@[simp] theorem State.onTb_tb (f : TimeBase → TimeBase) : (s.onTb f).tb = f s.tb := rfl
@[simp] theorem State.onTb_oq (f : TimeBase → TimeBase) : (s.onTb f).oq = s.oq := rfl
@[simp] theorem State.onTb_je (f : TimeBase → TimeBase) : (s.onTb f).je = s.je := rfl
@[simp] theorem State.onTb_js (f : TimeBase → TimeBase) : (s.onTb f).js = s.js := rfl
@[simp] theorem State.onTb_tu (f : TimeBase → TimeBase) : (s.onTb f).tu = s.tu := rfl
@[simp] theorem State.onTb_xl (f : TimeBase → TimeBase) : (s.onTb f).xl = s.xl := rfl
@[simp] theorem State.onTb_hw (f : TimeBase → TimeBase) : (s.onTb f).hw = s.hw := rfl
@[simp] theorem State.onTb_ifu (f : TimeBase → TimeBase) : (s.onTb f).ifu = s.ifu := rfl
@[simp] theorem State.onTb_cl (f : TimeBase → TimeBase) : (s.onTb f).cl = s.cl := rfl
@[simp] theorem State.onTb_pending (f : TimeBase → TimeBase) : (s.onTb f).pending = s.pending := rfl
@[simp] theorem State.onTb_choices (f : TimeBase → TimeBase) : (s.onTb f).choices = s.choices := rfl
@[simp] theorem State.onOq_icu (f : Capture → Capture) : (s.onOq f).icu = s.icu := rfl
@[simp] theorem State.onOq_tb (f : Capture → Capture) : (s.onOq f).tb = s.tb := rfl
@[simp] theorem State.onOq_oq (f : Capture → Capture) : (s.onOq f).oq = f s.oq := rfl
@[simp] theorem State.onOq_je (f : Capture → Capture) : (s.onOq f).je = s.je := rfl
@[simp] theorem State.onOq_js (f : Capture → Capture) : (s.onOq f).js = s.js := rfl
@[simp] theorem State.onOq_tu (f : Capture → Capture) : (s.onOq f).tu = s.tu := rfl
@[simp] theorem State.onOq_xl (f : Capture → Capture) : (s.onOq f).xl = s.xl := rfl
@[simp] theorem State.onOq_hw (f : Capture → Capture) : (s.onOq f).hw = s.hw := rfl
@[simp] theorem State.onOq_ifu (f : Capture → Capture) : (s.onOq f).ifu = s.ifu := rfl
@[simp] theorem State.onOq_cl (f : Capture → Capture) : (s.onOq f).cl = s.cl := rfl
@[simp] theorem State.onOq_pending (f : Capture → Capture) : (s.onOq f).pending = s.pending := rfl
@[simp] theorem State.onOq_choices (f : Capture → Capture) : (s.onOq f).choices = s.choices := rfl
@[simp] theorem State.onJe_icu (f : Encoder → Encoder) : (s.onJe f).icu = s.icu := rfl
@[simp] theorem State.onJe_tb (f : Encoder → Encoder) : (s.onJe f).tb = s.tb := rfl
@[simp] theorem State.onJe_oq (f : Encoder → Encoder) : (s.onJe f).oq = s.oq := rfl
@[simp] theorem State.onJe_je (f : Encoder → Encoder) : (s.onJe f).je = f s.je := rfl
@[simp] theorem State.onJe_js (f : Encoder → Encoder) : (s.onJe f).js = s.js := rfl
@[simp] theorem State.onJe_tu (f : Encoder → Encoder) : (s.onJe f).tu = s.tu := rfl
@[simp] theorem State.onJe_xl (f : Encoder → Encoder) : (s.onJe f).xl = s.xl := rfl
@[simp] theorem State.onJe_hw (f : Encoder → Encoder) : (s.onJe f).hw = s.hw := rfl
@[simp] theorem State.onJe_ifu (f : Encoder → Encoder) : (s.onJe f).ifu = s.ifu := rfl
@[simp] theorem State.onJe_cl (f : Encoder → Encoder) : (s.onJe f).cl = s.cl := rfl
@[simp] theorem State.onJe_pending (f : Encoder → Encoder) : (s.onJe f).pending = s.pending := rfl
@[simp] theorem State.onJe_choices (f : Encoder → Encoder) : (s.onJe f).choices = s.choices := rfl
@[simp] theorem State.onJs_icu (f : Store → Store) : (s.onJs f).icu = s.icu := rfl
@[simp] theorem State.onJs_tb (f : Store → Store) : (s.onJs f).tb = s.tb := rfl
@[simp] theorem State.onJs_oq (f : Store → Store) : (s.onJs f).oq = s.oq := rfl
@[simp] theorem State.onJs_je (f : Store → Store) : (s.onJs f).je = s.je := rfl
@[simp] theorem State.onJs_js (f : Store → Store) : (s.onJs f).js = f s.js := rfl
@[simp] theorem State.onJs_tu (f : Store → Store) : (s.onJs f).tu = s.tu := rfl
@[simp] theorem State.onJs_xl (f : Store → Store) : (s.onJs f).xl = s.xl := rfl
@[simp] theorem State.onJs_hw (f : Store → Store) : (s.onJs f).hw = s.hw := rfl
@[simp] theorem State.onJs_ifu (f : Store → Store) : (s.onJs f).ifu = s.ifu := rfl
@[simp] theorem State.onJs_cl (f : Store → Store) : (s.onJs f).cl = s.cl := rfl
@[simp] theorem State.onJs_pending (f : Store → Store) : (s.onJs f).pending = s.pending := rfl
@[simp] theorem State.onJs_choices (f : Store → Store) : (s.onJs f).choices = s.choices := rfl
@[simp] theorem State.onTu_icu (f : TriggerUnit → TriggerUnit) : (s.onTu f).icu = s.icu := rfl
@[simp] theorem State.onTu_tb (f : TriggerUnit → TriggerUnit) : (s.onTu f).tb = s.tb := rfl
@[simp] theorem State.onTu_oq (f : TriggerUnit → TriggerUnit) : (s.onTu f).oq = s.oq := rfl
@[simp] theorem State.onTu_je (f : TriggerUnit → TriggerUnit) : (s.onTu f).je = s.je := rfl
@[simp] theorem State.onTu_js (f : TriggerUnit → TriggerUnit) : (s.onTu f).js = s.js := rfl
@[simp] theorem State.onTu_tu (f : TriggerUnit → TriggerUnit) : (s.onTu f).tu = f s.tu := rfl
@[simp] theorem State.onTu_xl (f : TriggerUnit → TriggerUnit) : (s.onTu f).xl = s.xl := rfl
@[simp] theorem State.onTu_hw (f : TriggerUnit → TriggerUnit) : (s.onTu f).hw = s.hw := rfl
@[simp] theorem State.onTu_ifu (f : TriggerUnit → TriggerUnit) : (s.onTu f).ifu = s.ifu := rfl
@[simp] theorem State.onTu_cl (f : TriggerUnit → TriggerUnit) : (s.onTu f).cl = s.cl := rfl
@[simp] theorem State.onTu_pending (f : TriggerUnit → TriggerUnit) : (s.onTu f).pending = s.pending := rfl
@[simp] theorem State.onTu_choices (f : TriggerUnit → TriggerUnit) : (s.onTu f).choices = s.choices := rfl
@[simp] theorem State.onXl_icu (f : Link → Link) : (s.onXl f).icu = s.icu := rfl
@[simp] theorem State.onXl_tb (f : Link → Link) : (s.onXl f).tb = s.tb := rfl
@[simp] theorem State.onXl_oq (f : Link → Link) : (s.onXl f).oq = s.oq := rfl
@[simp] theorem State.onXl_je (f : Link → Link) : (s.onXl f).je = s.je := rfl
@[simp] theorem State.onXl_js (f : Link → Link) : (s.onXl f).js = s.js := rfl
@[simp] theorem State.onXl_tu (f : Link → Link) : (s.onXl f).tu = s.tu := rfl
@[simp] theorem State.onXl_xl (f : Link → Link) : (s.onXl f).xl = f s.xl := rfl
@[simp] theorem State.onXl_hw (f : Link → Link) : (s.onXl f).hw = s.hw := rfl
@[simp] theorem State.onXl_ifu (f : Link → Link) : (s.onXl f).ifu = s.ifu := rfl
@[simp] theorem State.onXl_cl (f : Link → Link) : (s.onXl f).cl = s.cl := rfl
@[simp] theorem State.onXl_pending (f : Link → Link) : (s.onXl f).pending = s.pending := rfl
@[simp] theorem State.onXl_choices (f : Link → Link) : (s.onXl f).choices = s.choices := rfl
@[simp] theorem State.onLinkPort_icu (f : SerialPort → SerialPort) : (s.onLinkPort f).icu = s.icu := rfl
@[simp] theorem State.onLinkPort_tb (f : SerialPort → SerialPort) : (s.onLinkPort f).tb = s.tb := rfl
@[simp] theorem State.onLinkPort_oq (f : SerialPort → SerialPort) : (s.onLinkPort f).oq = s.oq := rfl
@[simp] theorem State.onLinkPort_je (f : SerialPort → SerialPort) : (s.onLinkPort f).je = s.je := rfl
@[simp] theorem State.onLinkPort_js (f : SerialPort → SerialPort) : (s.onLinkPort f).js = s.js := rfl
@[simp] theorem State.onLinkPort_tu (f : SerialPort → SerialPort) : (s.onLinkPort f).tu = s.tu := rfl
@[simp] theorem State.onLinkPort_xl (f : SerialPort → SerialPort) : (s.onLinkPort f).xl = { s.xl with port := f s.xl.port } := rfl
@[simp] theorem State.onLinkPort_hw (f : SerialPort → SerialPort) : (s.onLinkPort f).hw = s.hw := rfl
@[simp] theorem State.onLinkPort_ifu (f : SerialPort → SerialPort) : (s.onLinkPort f).ifu = s.ifu := rfl
@[simp] theorem State.onLinkPort_cl (f : SerialPort → SerialPort) : (s.onLinkPort f).cl = s.cl := rfl
@[simp] theorem State.onLinkPort_pending (f : SerialPort → SerialPort) : (s.onLinkPort f).pending = s.pending := rfl
@[simp] theorem State.onLinkPort_choices (f : SerialPort → SerialPort) : (s.onLinkPort f).choices = s.choices := rfl
@[simp] theorem State.onHw_icu (f : HostWindow → HostWindow) : (s.onHw f).icu = s.icu := rfl
@[simp] theorem State.onHw_tb (f : HostWindow → HostWindow) : (s.onHw f).tb = s.tb := rfl
@[simp] theorem State.onHw_oq (f : HostWindow → HostWindow) : (s.onHw f).oq = s.oq := rfl
@[simp] theorem State.onHw_je (f : HostWindow → HostWindow) : (s.onHw f).je = s.je := rfl
@[simp] theorem State.onHw_js (f : HostWindow → HostWindow) : (s.onHw f).js = s.js := rfl
@[simp] theorem State.onHw_tu (f : HostWindow → HostWindow) : (s.onHw f).tu = s.tu := rfl
@[simp] theorem State.onHw_xl (f : HostWindow → HostWindow) : (s.onHw f).xl = s.xl := rfl
@[simp] theorem State.onHw_hw (f : HostWindow → HostWindow) : (s.onHw f).hw = f s.hw := rfl
@[simp] theorem State.onHw_ifu (f : HostWindow → HostWindow) : (s.onHw f).ifu = s.ifu := rfl
@[simp] theorem State.onHw_cl (f : HostWindow → HostWindow) : (s.onHw f).cl = s.cl := rfl
@[simp] theorem State.onHw_pending (f : HostWindow → HostWindow) : (s.onHw f).pending = s.pending := rfl
@[simp] theorem State.onHw_choices (f : HostWindow → HostWindow) : (s.onHw f).choices = s.choices := rfl
@[simp] theorem State.onBus_icu (f : HostBus → HostBus) : (s.onBus f).icu = s.icu := rfl
@[simp] theorem State.onBus_tb (f : HostBus → HostBus) : (s.onBus f).tb = s.tb := rfl
@[simp] theorem State.onBus_oq (f : HostBus → HostBus) : (s.onBus f).oq = s.oq := rfl
@[simp] theorem State.onBus_je (f : HostBus → HostBus) : (s.onBus f).je = s.je := rfl
@[simp] theorem State.onBus_js (f : HostBus → HostBus) : (s.onBus f).js = s.js := rfl
@[simp] theorem State.onBus_tu (f : HostBus → HostBus) : (s.onBus f).tu = s.tu := rfl
@[simp] theorem State.onBus_xl (f : HostBus → HostBus) : (s.onBus f).xl = s.xl := rfl
@[simp] theorem State.onBus_hw (f : HostBus → HostBus) : (s.onBus f).hw = { s.hw with bus := f s.hw.bus } := rfl
@[simp] theorem State.onBus_ifu (f : HostBus → HostBus) : (s.onBus f).ifu = s.ifu := rfl
@[simp] theorem State.onBus_cl (f : HostBus → HostBus) : (s.onBus f).cl = s.cl := rfl
@[simp] theorem State.onBus_pending (f : HostBus → HostBus) : (s.onBus f).pending = s.pending := rfl
@[simp] theorem State.onBus_choices (f : HostBus → HostBus) : (s.onBus f).choices = s.choices := rfl
@[simp] theorem State.onIfu_icu (f : FaultUnit → FaultUnit) : (s.onIfu f).icu = s.icu := rfl
@[simp] theorem State.onIfu_tb (f : FaultUnit → FaultUnit) : (s.onIfu f).tb = s.tb := rfl
@[simp] theorem State.onIfu_oq (f : FaultUnit → FaultUnit) : (s.onIfu f).oq = s.oq := rfl
@[simp] theorem State.onIfu_je (f : FaultUnit → FaultUnit) : (s.onIfu f).je = s.je := rfl
@[simp] theorem State.onIfu_js (f : FaultUnit → FaultUnit) : (s.onIfu f).js = s.js := rfl
@[simp] theorem State.onIfu_tu (f : FaultUnit → FaultUnit) : (s.onIfu f).tu = s.tu := rfl
@[simp] theorem State.onIfu_xl (f : FaultUnit → FaultUnit) : (s.onIfu f).xl = s.xl := rfl
@[simp] theorem State.onIfu_hw (f : FaultUnit → FaultUnit) : (s.onIfu f).hw = s.hw := rfl
@[simp] theorem State.onIfu_ifu (f : FaultUnit → FaultUnit) : (s.onIfu f).ifu = f s.ifu := rfl
@[simp] theorem State.onIfu_cl (f : FaultUnit → FaultUnit) : (s.onIfu f).cl = s.cl := rfl
@[simp] theorem State.onIfu_pending (f : FaultUnit → FaultUnit) : (s.onIfu f).pending = s.pending := rfl
@[simp] theorem State.onIfu_choices (f : FaultUnit → FaultUnit) : (s.onIfu f).choices = s.choices := rfl
@[simp] theorem State.onCl_icu (f : Loader → Loader) : (s.onCl f).icu = s.icu := rfl
@[simp] theorem State.onCl_tb (f : Loader → Loader) : (s.onCl f).tb = s.tb := rfl
@[simp] theorem State.onCl_oq (f : Loader → Loader) : (s.onCl f).oq = s.oq := rfl
@[simp] theorem State.onCl_je (f : Loader → Loader) : (s.onCl f).je = s.je := rfl
@[simp] theorem State.onCl_js (f : Loader → Loader) : (s.onCl f).js = s.js := rfl
@[simp] theorem State.onCl_tu (f : Loader → Loader) : (s.onCl f).tu = s.tu := rfl
@[simp] theorem State.onCl_xl (f : Loader → Loader) : (s.onCl f).xl = s.xl := rfl
@[simp] theorem State.onCl_hw (f : Loader → Loader) : (s.onCl f).hw = s.hw := rfl
@[simp] theorem State.onCl_ifu (f : Loader → Loader) : (s.onCl f).ifu = s.ifu := rfl
@[simp] theorem State.onCl_cl (f : Loader → Loader) : (s.onCl f).cl = f s.cl := rfl
@[simp] theorem State.onCl_pending (f : Loader → Loader) : (s.onCl f).pending = s.pending := rfl
@[simp] theorem State.onCl_choices (f : Loader → Loader) : (s.onCl f).choices = s.choices := rfl
@[simp] theorem State.onMemoryPort_icu (f : SerialPort → SerialPort) : (s.onMemoryPort f).icu = s.icu := rfl
@[simp] theorem State.onMemoryPort_tb (f : SerialPort → SerialPort) : (s.onMemoryPort f).tb = s.tb := rfl
@[simp] theorem State.onMemoryPort_oq (f : SerialPort → SerialPort) : (s.onMemoryPort f).oq = s.oq := rfl
@[simp] theorem State.onMemoryPort_je (f : SerialPort → SerialPort) : (s.onMemoryPort f).je = s.je := rfl
@[simp] theorem State.onMemoryPort_js (f : SerialPort → SerialPort) : (s.onMemoryPort f).js = s.js := rfl
@[simp] theorem State.onMemoryPort_tu (f : SerialPort → SerialPort) : (s.onMemoryPort f).tu = s.tu := rfl
@[simp] theorem State.onMemoryPort_xl (f : SerialPort → SerialPort) : (s.onMemoryPort f).xl = s.xl := rfl
@[simp] theorem State.onMemoryPort_hw (f : SerialPort → SerialPort) : (s.onMemoryPort f).hw = s.hw := rfl
@[simp] theorem State.onMemoryPort_ifu (f : SerialPort → SerialPort) : (s.onMemoryPort f).ifu = s.ifu := rfl
@[simp] theorem State.onMemoryPort_cl (f : SerialPort → SerialPort) : (s.onMemoryPort f).cl = { s.cl with port := f s.cl.port } := rfl
@[simp] theorem State.onMemoryPort_pending (f : SerialPort → SerialPort) : (s.onMemoryPort f).pending = s.pending := rfl
@[simp] theorem State.onMemoryPort_choices (f : SerialPort → SerialPort) : (s.onMemoryPort f).choices = s.choices := rfl
@[simp] theorem State.drawn_icu : s.drawn.icu = s.icu := rfl
@[simp] theorem State.drawn_tb : s.drawn.tb = s.tb := rfl
@[simp] theorem State.drawn_oq : s.drawn.oq = s.oq := rfl
@[simp] theorem State.drawn_je : s.drawn.je = s.je := rfl
@[simp] theorem State.drawn_js : s.drawn.js = s.js := rfl
@[simp] theorem State.drawn_tu : s.drawn.tu = s.tu := rfl
@[simp] theorem State.drawn_xl : s.drawn.xl = s.xl := rfl
@[simp] theorem State.drawn_hw : s.drawn.hw = s.hw := rfl
@[simp] theorem State.drawn_ifu : s.drawn.ifu = s.ifu := rfl
@[simp] theorem State.drawn_cl : s.drawn.cl = s.cl := rfl
@[simp] theorem State.drawn_pending : s.drawn.pending = s.pending := rfl
@[simp] theorem State.drawn_choices : s.drawn.choices = s.choices + 1 := rfl

end Sys2Proof.Machine
end

