-- ==== Sys2Proof/Laws/Frames.lean ====
section
/-! SUPPORT. What each shared operation of the journal can change: one frame lemma for each. -/

namespace Sys2Proof.Machine

/-! ### The store's frame: discards, freeing, offers -/

/-- What no operation of the store on behalf of a packet or a reader changes: channels, time base, capture control,
trigger unit, host window, loader, tables; flags are only raised and fault records stay. -/
structure StoreFrame (s t : State) : Prop where
  icu : t.icu = s.icu
  tb : t.tb = s.tb
  oq : t.oq = s.oq
  tu : t.tu = s.tu
  hw : t.hw = s.hw
  cl : t.cl = s.cl
  pending : t.pending = s.pending
  choices : t.choices = s.choices
  table : t.js.table = s.js.table
  hostAttached : t.js.hostC.attached = s.js.hostC.attached
  exportAttached : t.js.exportC.attached = s.js.exportC.attached
  nextSeq : t.xl.nextSeq = s.xl.nextSeq
  aborts : t.xl.aborts = s.xl.aborts
  error : t.xl.error = s.xl.error
  flight : t.xl.flight = s.xl.flight
  phase : t.xl.phase = s.xl.phase
  irqe : t.ifu.irqe = s.ifu.irqe
  faults : t.ifu.faults = s.ifu.faults
  lost : t.ifu.lost = s.ifu.lost
  sticky : s.ifu.irqf &&& t.ifu.irqf = s.ifu.irqf

@[refl] theorem StoreFrame.refl (s : State) : StoreFrame s s := by constructor <;> simp

theorem StoreFrame.trans {s t u : State} (h1 : StoreFrame s t) (h2 : StoreFrame t u) : StoreFrame s u := by
  constructor
  case sticky =>
    calc s.ifu.irqf &&& u.ifu.irqf = s.ifu.irqf &&& t.ifu.irqf &&& u.ifu.irqf := by rw [h1.sticky]
      _ = s.ifu.irqf &&& (t.ifu.irqf &&& u.ifu.irqf) := by rw [BitVec.and_assoc]
      _ = s.ifu.irqf := by rw [h2.sticky, h1.sticky]
  all_goals first
    | exact h2.icu.trans h1.icu | exact h2.tb.trans h1.tb | exact h2.oq.trans h1.oq | exact h2.tu.trans h1.tu
    | exact h2.hw.trans h1.hw | exact h2.cl.trans h1.cl | exact h2.pending.trans h1.pending
    | exact h2.choices.trans h1.choices | exact h2.table.trans h1.table
    | exact h2.hostAttached.trans h1.hostAttached | exact h2.exportAttached.trans h1.exportAttached
    | exact h2.nextSeq.trans h1.nextSeq | exact h2.aborts.trans h1.aborts | exact h2.error.trans h1.error
    | exact h2.flight.trans h1.flight | exact h2.phase.trans h1.phase | exact h2.irqe.trans h1.irqe
    | exact h2.faults.trans h1.faults | exact h2.lost.trans h1.lost

/-- A raised flag keeps every flag that was set. -/
theorem sticky_or (a b : BitVec 8) : a &&& (a ||| b) = a := by
  ext i; simp only [BitVec.getElem_and, BitVec.getElem_or]; cases a[i] <;> simp

theorem setFlag_frame (flag : BitVec 8) (s : State) : StoreFrame s (setFlag flag s) := by
  constructor <;> simp [setFlag, sticky_or]

/-- Evaluating AVL changes the comparison and can raise AVL, nothing else (R171). -/
theorem evalAvl_frame (s : State) : StoreFrame s (evalAvl s) := by
  unfold evalAvl
  dsimp only
  split
  · exact StoreFrame.trans (t := s.onIfu fun u => { u with above := _ }) (by constructor <;> simp) (setFlag_frame _ _)
  · constructor <;> simp

@[simp] theorem evalAvl_je (s : State) : (evalAvl s).je = s.je := by unfold evalAvl setFlag; dsimp only; split <;> rfl
@[simp] theorem evalAvl_js (s : State) : (evalAvl s).js = s.js := by unfold evalAvl setFlag; dsimp only; split <;> rfl
@[simp] theorem evalAvl_xl (s : State) : (evalAvl s).xl = s.xl := by unfold evalAvl setFlag; dsimp only; split <;> rfl
@[simp] theorem evalAvl_tu (s : State) : (evalAvl s).tu = s.tu := (evalAvl_frame s).tu
@[simp] theorem evalAvl_oq (s : State) : (evalAvl s).oq = s.oq := (evalAvl_frame s).oq
@[simp] theorem evalAvl_cl (s : State) : (evalAvl s).cl = s.cl := (evalAvl_frame s).cl
@[simp] theorem evalAvl_hw (s : State) : (evalAvl s).hw = s.hw := (evalAvl_frame s).hw
@[simp] theorem evalAvl_tb (s : State) : (evalAvl s).tb = s.tb := (evalAvl_frame s).tb
@[simp] theorem evalAvl_icu (s : State) : (evalAvl s).icu = s.icu := (evalAvl_frame s).icu
@[simp] theorem evalAvl_pending (s : State) : (evalAvl s).pending = s.pending := (evalAvl_frame s).pending

/-- The comparison's value after it is evaluated (R171). -/
@[simp] theorem evalAvl_above (s : State) :
    (evalAvl s).ifu.above = decide (s.hw.avth.toNat ≤ hostUnread s) := by
  unfold evalAvl setFlag; dsimp only; split <;> rfl

/-- AVL is raised exactly when the comparison turns true; no other flag moves (R171). -/
theorem evalAvl_irqf (s : State) :
    (evalAvl s).ifu.irqf =
      if s.hw.avth.toNat ≤ hostUnread s ∧ s.ifu.above = false then s.ifu.irqf ||| flagAvl else s.ifu.irqf := by
  unfold evalAvl setFlag
  by_cases h : s.hw.avth.toNat ≤ hostUnread s <;> cases h2 : s.ifu.above <;> simp [h]

/-- Freeing moves the tail and takes index entries away, nothing else (R35). -/
theorem reevalFreeing_cases (s : State) :
    (freeTarget s = none ∧ reevalFreeing s = s) ∨
      ∃ p, freeTarget s = some p ∧ reevalFreeing s = s.onJs (moveTail p) := by
  unfold reevalFreeing
  cases h : freeTarget s <;> simp

theorem moveTail_frame (p : Pos) (s : State) : StoreFrame s (s.onJs (moveTail p)) := by
  constructor <;> simp [moveTail]

theorem reevalFreeing_frame (s : State) : StoreFrame s (reevalFreeing s) := by
  rcases reevalFreeing_cases s with ⟨-, h⟩ | ⟨p, -, h⟩ <;> rw [h]
  exact moveTail_frame p s

@[simp] theorem reevalFreeing_je (s : State) : (reevalFreeing s).je = s.je := by
  rcases reevalFreeing_cases s with ⟨-, h⟩ | ⟨p, -, h⟩ <;> rw [h]; rfl
@[simp] theorem reevalFreeing_ifu (s : State) : (reevalFreeing s).ifu = s.ifu := by
  rcases reevalFreeing_cases s with ⟨-, h⟩ | ⟨p, -, h⟩ <;> rw [h]; rfl
@[simp] theorem reevalFreeing_xl (s : State) : (reevalFreeing s).xl = s.xl := by
  rcases reevalFreeing_cases s with ⟨-, h⟩ | ⟨p, -, h⟩ <;> rw [h]; rfl
@[simp] theorem reevalFreeing_ram (s : State) : (reevalFreeing s).js.ram = s.js.ram := by
  rcases reevalFreeing_cases s with ⟨-, h⟩ | ⟨p, -, h⟩ <;> rw [h]; rfl
@[simp] theorem reevalFreeing_head (s : State) : (reevalFreeing s).js.head = s.js.head := by
  rcases reevalFreeing_cases s with ⟨-, h⟩ | ⟨p, -, h⟩ <;> rw [h]; rfl
@[simp] theorem reevalFreeing_fill (s : State) : (reevalFreeing s).js.fill = s.js.fill := by
  rcases reevalFreeing_cases s with ⟨-, h⟩ | ⟨p, -, h⟩ <;> rw [h]; rfl
@[simp] theorem reevalFreeing_hostC (s : State) : (reevalFreeing s).js.hostC = s.js.hostC := by
  rcases reevalFreeing_cases s with ⟨-, h⟩ | ⟨p, -, h⟩ <;> rw [h]; rfl
@[simp] theorem reevalFreeing_exportC (s : State) : (reevalFreeing s).js.exportC = s.js.exportC := by
  rcases reevalFreeing_cases s with ⟨-, h⟩ | ⟨p, -, h⟩ <;> rw [h]; rfl

theorem discardConsumer_attached (old new : Pos) (c : Consumer) :
    (discardConsumer old new c).attached = c.attached := by
  unfold discardConsumer; split <;> simp_all

theorem discardNotice_frame (old new : Pos) (s : State) : StoreFrame s (discardNotice old new s) := by
  unfold discardNotice
  split
  · dsimp only
    refine StoreFrame.trans ?_ (reevalFreeing_frame _)
    constructor <;> simp [State.onXl, State.onJs]
  · exact StoreFrame.refl s

@[simp] theorem discardNotice_je (old new : Pos) (s : State) : (discardNotice old new s).je = s.je := by
  unfold discardNotice; split <;> simp
@[simp] theorem discardNotice_ifu (old new : Pos) (s : State) : (discardNotice old new s).ifu = s.ifu := by
  unfold discardNotice; split <;> simp
@[simp] theorem discardNotice_ram (old new : Pos) (s : State) : (discardNotice old new s).js.ram = s.js.ram := by
  unfold discardNotice; split <;> simp
@[simp] theorem discardNotice_head (old new : Pos) (s : State) : (discardNotice old new s).js.head = s.js.head := by
  unfold discardNotice; split <;> simp
@[simp] theorem discardNotice_fill (old new : Pos) (s : State) : (discardNotice old new s).js.fill = s.js.fill := by
  unfold discardNotice; split <;> simp
@[simp] theorem discardNotice_hostC (old new : Pos) (s : State) :
    (discardNotice old new s).js.hostC = s.js.hostC := by
  unfold discardNotice; split <;> simp

theorem discardTo_frame (e : Pos) (s : State) : StoreFrame s (discardTo e s) := by
  unfold discardTo
  refine StoreFrame.trans ?_ (discardNotice_frame _ _ _)
  refine StoreFrame.trans ?_ (evalAvl_frame _)
  constructor <;> simp [moveTail, discardConsumer_attached]

@[simp] theorem discardTo_je (e : Pos) (s : State) : (discardTo e s).je = s.je := by simp [discardTo]
@[simp] theorem discardTo_ram (e : Pos) (s : State) : (discardTo e s).js.ram = s.js.ram := by
  simp [discardTo, moveTail]
@[simp] theorem discardTo_head (e : Pos) (s : State) : (discardTo e s).js.head = s.js.head := by
  simp [discardTo, moveTail]
@[simp] theorem discardTo_fill (e : Pos) (s : State) : (discardTo e s).js.fill = s.js.fill := by
  simp [discardTo, moveTail]

/-- A property that every possible discard step keeps holds after discard (R41). -/
theorem discardUntil_induct {P : State → Prop} (goal : State → Bool)
    (step : ∀ s e, P s → goal s = false → discardTarget s = some e → P (discardTo e s)) (fuel : Nat) {s : State}
    (h : P s) : P (discardUntil goal fuel s) := by
  induction fuel generalizing s with
  | zero => exact h
  | succ n ih =>
    unfold discardUntil
    split
    · exact h
    · rename_i hg
      split
      · exact h
      · rename_i e he
        exact ih (step s e h (by simpa using hg) he)

/-- A property that every possible discard step keeps holds after room has been made (R40, R41). -/
theorem makeRoom_induct {P : State → Prop} (goal : State → Bool)
    (step : ∀ s e, P s → goal s = false → discardTarget s = some e → P (discardTo e s)) {s : State} (h : P s) :
    P (makeRoom goal s) := by
  unfold makeRoom
  split
  · exact h
  · exact discardUntil_induct goal step _ h

theorem makeRoom_frame (goal : State → Bool) (s : State) : StoreFrame s (makeRoom goal s) :=
  makeRoom_induct (P := StoreFrame s) goal (fun t e h _ _ => h.trans (discardTo_frame e t)) (StoreFrame.refl s)

@[simp] theorem makeRoom_je (goal : State → Bool) (s : State) : (makeRoom goal s).je = s.je :=
  makeRoom_induct (P := fun t => t.je = s.je) goal (fun _ _ h _ _ => by simpa using h) rfl
@[simp] theorem makeRoom_ram (goal : State → Bool) (s : State) : (makeRoom goal s).js.ram = s.js.ram :=
  makeRoom_induct (P := fun t => t.js.ram = s.js.ram) goal (fun _ _ h _ _ => by simpa using h) rfl
@[simp] theorem makeRoom_head (goal : State → Bool) (s : State) : (makeRoom goal s).js.head = s.js.head :=
  makeRoom_induct (P := fun t => t.js.head = s.js.head) goal (fun _ _ h _ _ => by simpa using h) rfl
@[simp] theorem makeRoom_fill (goal : State → Bool) (s : State) : (makeRoom goal s).js.fill = s.js.fill :=
  makeRoom_induct (P := fun t => t.js.fill = s.js.fill) goal (fun _ _ h _ _ => by simpa using h) rfl

/-- Room is not made once the goal holds (R37, R46). -/
theorem makeRoom_of_goal {goal : State → Bool} {s : State} (h : goal s = true) : makeRoom goal s = s := by
  unfold makeRoom
  split
  · rfl
  · cases s.js.index.length <;> simp [discardUntil, h]

theorem storePacket_frame (bytes : List Byte) (isSync : Bool) (s : State) :
    StoreFrame s (storePacket bytes isSync s) := by
  unfold storePacket
  exact StoreFrame.trans (by constructor <;> simp) (evalAvl_frame _)

@[simp] theorem storePacket_je (bytes : List Byte) (isSync : Bool) (s : State) :
    (storePacket bytes isSync s).je = s.je := by simp [storePacket]
@[simp] theorem storePacket_js (bytes : List Byte) (isSync : Bool) (s : State) :
    (storePacket bytes isSync s).js =
      { s.js with ram := s.js.ram.writeBytes s.js.head.toNat bytes, head := s.js.head + BitVec.ofNat 32 bytes.length,
                  index := if isSync then s.js.index ++ [s.js.head] else s.js.index } := by simp [storePacket]
@[simp] theorem storePacket_xl (bytes : List Byte) (isSync : Bool) (s : State) :
    (storePacket bytes isSync s).xl = s.xl := by simp [storePacket]

theorem enterLosing_frame (s : State) : StoreFrame s (enterLosing s) := by
  unfold enterLosing
  exact StoreFrame.trans (by constructor <;> simp) (setFlag_frame _ _)

@[simp] theorem enterLosing_je (s : State) : (enterLosing s).je = s.je := rfl
@[simp] theorem enterLosing_js (s : State) : (enterLosing s).js = { s.js with fill := .losing } := rfl

/-- The store's answers (R36, R40, R44): dropped while LOSING with nothing changed; stored when the packet fits after
room has been made; lost otherwise. -/
theorem offer_cases (bytes : List Byte) (isSync : Bool) (s : State) :
    (s.js.fill = .losing ∧ offer bytes isSync s = (.dropped, s)) ∨
      (s.js.fill = .normal ∧ fits bytes.length isSync (makeRoom (fits bytes.length isSync) s) = true ∧
        offer bytes isSync s = (.stored, storePacket bytes isSync (makeRoom (fits bytes.length isSync) s))) ∨
      (s.js.fill = .normal ∧ fits bytes.length isSync (makeRoom (fits bytes.length isSync) s) = false ∧
        offer bytes isSync s = (.lost, enterLosing (makeRoom (fits bytes.length isSync) s))) := by
  unfold offer
  cases h : s.js.fill
  · by_cases hf : fits bytes.length isSync (makeRoom (fits bytes.length isSync) s) = true <;> simp [hf]
  · simp

theorem offer_frame (bytes : List Byte) (isSync : Bool) (s : State) : StoreFrame s (offer bytes isSync s).2 := by
  rcases offer_cases bytes isSync s with ⟨-, h⟩ | ⟨-, -, h⟩ | ⟨-, -, h⟩ <;> rw [h]
  · exact (makeRoom_frame _ s).trans (storePacket_frame _ _ _)
  · exact (makeRoom_frame _ s).trans (enterLosing_frame _)

@[simp] theorem offer_je (bytes : List Byte) (isSync : Bool) (s : State) : (offer bytes isSync s).2.je = s.je := by
  rcases offer_cases bytes isSync s with ⟨-, h⟩ | ⟨-, -, h⟩ | ⟨-, -, h⟩ <;> simp [h]

/-- A packet that fits as the store stands is stored, at the head (R25, R36, R37). -/
theorem offer_of_fits {bytes : List Byte} {isSync : Bool} {s : State} (hn : s.js.fill = .normal)
    (hf : fits bytes.length isSync s = true) : offer bytes isSync s = (.stored, storePacket bytes isSync s) := by
  have hr : makeRoom (fits bytes.length isSync) s = s := makeRoom_of_goal hf
  rcases offer_cases bytes isSync s with ⟨h, -⟩ | ⟨-, -, h⟩ | ⟨-, h, -⟩
  · rw [hn] at h; cases h
  · rw [h, hr]
  · rw [hr, hf] at h; cases h

/-! ### The encoder's frame -/

/-- What handling packets changes nothing of, with the encoder's own state free. -/
theorem onJe_frame (f : Encoder → Encoder) (s : State) : StoreFrame s (s.onJe f) := by constructor <;> simp

/-- The answers of `emit` (R14, R17). -/
theorem emit_cases (bytes : List Byte) (isSync : Bool) (failure : Time) (s : State) :
    (∃ s1, offer bytes isSync s = (.stored, s1) ∧
        emit bytes isSync failure s = (.stored, countStored bytes.length isSync s1)) ∨
      (∃ s1, offer bytes isSync s = (.lost, s1) ∧ emit bytes isSync failure s = (.lost, beginLoss failure s1)) ∨
      (∃ s1, offer bytes isSync s = (.dropped, s1) ∧ emit bytes isSync failure s = (.dropped, s1)) := by
  unfold emit
  rcases h : offer bytes isSync s with ⟨a, s1⟩
  cases a <;> simp

theorem emit_frame (bytes : List Byte) (isSync : Bool) (failure : Time) (s : State) :
    StoreFrame s (emit bytes isSync failure s).2 := by
  have h := offer_frame bytes isSync s
  rcases emit_cases bytes isSync failure s with ⟨s1, ho, he⟩ | ⟨s1, ho, he⟩ | ⟨s1, ho, he⟩ <;>
    (rw [ho] at h; rw [he]; dsimp only at h ⊢)
  · exact h.trans (onJe_frame _ s1)
  · exact h.trans (onJe_frame _ s1)
  · exact h

/-- A packet offered by the encoder leaves the running image, the mask and the running time (R8, R11). -/
theorem emit_je (bytes : List Byte) (isSync : Bool) (failure : Time) (s : State) :
    (emit bytes isSync failure s).2.je.image = s.je.image ∧ (emit bytes isSync failure s).2.je.mask = s.je.mask ∧
      (emit bytes isSync failure s).2.je.runningTime = s.je.runningTime ∧
      (emit bytes isSync failure s).2.je.stopReason = s.je.stopReason := by
  have h := offer_je bytes isSync s
  rcases emit_cases bytes isSync failure s with ⟨s1, ho, he⟩ | ⟨s1, ho, he⟩ | ⟨s1, ho, he⟩ <;>
    (rw [ho] at h; rw [he]; simp_all [countStored, beginLoss])

theorem emitSync_frame (time : Time) (image : Image) (failure : Time) (s : State) :
    StoreFrame s (emitSync time image failure s).2 := by
  have h := emit_frame (syncPacket s time image) true failure s
  unfold emitSync
  rcases he : emit (syncPacket s time image) true failure s with ⟨a, s1⟩
  rw [he] at h
  dsimp only at h
  cases a <;> dsimp only
  · exact h.trans (onJe_frame _ s1)
  · exact h
  · exact h

/-- A SYNC leaves the image and the mask; stored, its time is the running time (R12, R13). -/
theorem emitSync_je (time : Time) (image : Image) (failure : Time) (s : State) :
    (emitSync time image failure s).2.je.image = s.je.image ∧ (emitSync time image failure s).2.je.mask = s.je.mask ∧
      (emitSync time image failure s).2.je.stopReason = s.je.stopReason ∧
      ((emitSync time image failure s).2.je.runningTime = time ∨
        (emitSync time image failure s).2.je.runningTime = s.je.runningTime) := by
  have h := emit_je (syncPacket s time image) true failure s
  unfold emitSync
  rcases he : emit (syncPacket s time image) true failure s with ⟨a, s1⟩
  rw [he] at h
  cases a <;> simp_all

theorem emitAll_frame (failure : Time) (ps : List (List Byte)) (s : State) : StoreFrame s (emitAll failure ps s) := by
  induction ps generalizing s with
  | nil => exact StoreFrame.refl s
  | cons p ps ih => exact (emit_frame p false failure s).trans (ih _)

theorem emitExempt_frame (bytes : List Byte) (s : State) : StoreFrame s (emitExempt bytes s) := by
  unfold emitExempt
  split
  · exact (storePacket_frame _ _ _).trans (onJe_frame _ _)
  · exact StoreFrame.refl s

theorem emitEntry_frame (e : Entry) (s : State) : StoreFrame s (emitEntry e s) := by
  have h := emit_frame (entryPacket s.je.runningTime e) false e.stamp s
  unfold emitEntry
  rcases he : emit (entryPacket s.je.runningTime e) false e.stamp s with ⟨a, s1⟩
  rw [he] at h
  cases a
  · simp only
    split
    · exact h
    · exact h.trans (onJe_frame _ _)
  · exact h.trans (onJe_frame _ _)
  · exact h.trans (onJe_frame _ _)

theorem emitSyncThenEntry_frame (e : Entry) (before : Image) (s : State) :
    StoreFrame s (emitSyncThenEntry e before s) := by
  have h := emitSync_frame (entrySyncTime e s) before e.stamp s
  unfold emitSyncThenEntry
  rcases he : emitSync (entrySyncTime e s) before e.stamp s with ⟨a, s1⟩
  rw [he] at h
  cases a
  · exact h.trans (emitEntry_frame _ _)
  · exact h.trans (onJe_frame _ _)
  · exact h.trans (onJe_frame _ _)

theorem resumePackets_frame (e : Entry) (before : Image) (s : State) : StoreFrame s (resumePackets e before s) := by
  have h := emit_frame (lossPacket s.je) false e.stamp s
  unfold resumePackets
  rcases he : emit (lossPacket s.je) false e.stamp s with ⟨a, s1⟩
  rw [he] at h
  cases a
  · exact h.trans ((onJe_frame _ _).trans (emitSyncThenEntry_frame _ _ _))
  · exact h.trans (onJe_frame _ _)
  · exact h.trans (onJe_frame _ _)

theorem entryPackets_frame (resumed : Bool) (e : Entry) (before : Image) (s : State) :
    StoreFrame s (entryPackets resumed e before s) := by
  unfold entryPackets
  split
  · exact onJe_frame _ _
  · split
    · exact resumePackets_frame _ _ _
    · unfold normalPackets
      split
      · exact emitSyncThenEntry_frame _ _ _
      · exact emitEntry_frame _ _

theorem resumptionCheck_frame (s : State) : StoreFrame s (resumptionCheck s).2 := by
  unfold resumptionCheck
  split
  · exact StoreFrame.refl s
  · dsimp only
    split
    · exact (makeRoom_frame resumeRoomFree s).trans (by constructor <;> simp)
    · exact makeRoom_frame _ s

/-! ### The frame of a released entry -/

/-- What the handling of one released entry leaves: channels, time base, queue and horizon, tables, host window, loader,
and the link but for its outstanding list. The capture state can only pass from RUNNING to DRAINING. -/
structure EntryFrame (s t : State) : Prop where
  icu : t.icu = s.icu
  tb : t.tb = s.tb
  queue : t.oq.queue = s.oq.queue
  horizon : t.oq.horizon = s.oq.horizon
  rules : t.tu.rules = s.tu.rules
  hw : t.hw = s.hw
  cl : t.cl = s.cl
  pending : t.pending = s.pending
  choices : t.choices = s.choices
  table : t.js.table = s.js.table
  hostAttached : t.js.hostC.attached = s.js.hostC.attached
  exportAttached : t.js.exportC.attached = s.js.exportC.attached
  nextSeq : t.xl.nextSeq = s.xl.nextSeq
  aborts : t.xl.aborts = s.xl.aborts
  error : t.xl.error = s.xl.error
  flight : t.xl.flight = s.xl.flight
  phase : t.xl.phase = s.xl.phase
  irqe : t.ifu.irqe = s.ifu.irqe
  faults : s.ifu.faults <+: t.ifu.faults
  lost : s.ifu.lost ≤ 255 → s.ifu.lost ≤ t.ifu.lost ∧ t.ifu.lost ≤ 255
  sticky : s.ifu.irqf &&& t.ifu.irqf = s.ifu.irqf
  state : t.oq.state = s.oq.state ∨ (s.oq.state = .running ∧ t.oq.state = .draining)

theorem StoreFrame.entryFrame {s t : State} (h : StoreFrame s t) : EntryFrame s t where
  icu := h.icu
  tb := h.tb
  queue := by rw [h.oq]
  horizon := by rw [h.oq]
  rules := by rw [h.tu]
  hw := h.hw
  cl := h.cl
  pending := h.pending
  choices := h.choices
  table := h.table
  hostAttached := h.hostAttached
  exportAttached := h.exportAttached
  nextSeq := h.nextSeq
  aborts := h.aborts
  error := h.error
  flight := h.flight
  phase := h.phase
  irqe := h.irqe
  faults := by rw [h.faults]
  lost := by rw [h.lost]; exact fun h => ⟨le_refl _, h⟩
  sticky := h.sticky
  state := .inl (by rw [h.oq])

@[refl] theorem EntryFrame.refl (s : State) : EntryFrame s s := (StoreFrame.refl s).entryFrame

theorem EntryFrame.trans {s t u : State} (h1 : EntryFrame s t) (h2 : EntryFrame t u) : EntryFrame s u where
  icu := h2.icu.trans h1.icu
  tb := h2.tb.trans h1.tb
  queue := h2.queue.trans h1.queue
  horizon := h2.horizon.trans h1.horizon
  rules := h2.rules.trans h1.rules
  hw := h2.hw.trans h1.hw
  cl := h2.cl.trans h1.cl
  pending := h2.pending.trans h1.pending
  choices := h2.choices.trans h1.choices
  table := h2.table.trans h1.table
  hostAttached := h2.hostAttached.trans h1.hostAttached
  exportAttached := h2.exportAttached.trans h1.exportAttached
  nextSeq := h2.nextSeq.trans h1.nextSeq
  aborts := h2.aborts.trans h1.aborts
  error := h2.error.trans h1.error
  flight := h2.flight.trans h1.flight
  phase := h2.phase.trans h1.phase
  irqe := h2.irqe.trans h1.irqe
  faults := h1.faults.trans h2.faults
  lost := fun h => ⟨(h1.lost h).1.trans (h2.lost (h1.lost h).2).1, (h2.lost (h1.lost h).2).2⟩
  sticky := by
    calc s.ifu.irqf &&& u.ifu.irqf = s.ifu.irqf &&& t.ifu.irqf &&& u.ifu.irqf := by rw [h1.sticky]
      _ = s.ifu.irqf &&& (t.ifu.irqf &&& u.ifu.irqf) := by rw [BitVec.and_assoc]
      _ = s.ifu.irqf := by rw [h2.sticky, h1.sticky]
  state := by
    rcases h1.state with a | ⟨a, b⟩ <;> rcases h2.state with c | ⟨c, d⟩
    · exact .inl (c.trans a)
    · exact .inr ⟨a ▸ c, d⟩
    · exact .inr ⟨a, c.trans b⟩
    · exact .inr ⟨a, d⟩

/-- Logging a fault appends a record or counts it, sets FLT, and changes nothing else (R174). -/
theorem logFault_cases (kind : FaultKind) (detail : Byte) (s : State) :
    logFault kind detail s =
      { s with ifu := { s.ifu with
          irqf := s.ifu.irqf ||| flagFlt,
          faults := if s.ifu.faults.length < 4 then
            s.ifu.faults ++ [{ kind := kind, detail := detail, time := s.tb.counter }] else s.ifu.faults,
          lost := if s.ifu.faults.length < 4 then s.ifu.lost else satInc 255 s.ifu.lost } } := by
  unfold logFault setFlag
  by_cases h : s.ifu.faults.length < 4 <;> simp [h, State.onIfu, Config.faultCapacity]

theorem logFault_frame (kind : FaultKind) (detail : Byte) (s : State) : EntryFrame s (logFault kind detail s) := by
  rw [logFault_cases]
  constructor <;> simp [sticky_or]
  · split <;> simp
  · split
    · simp
    · unfold satInc; split <;> omega

theorem logFaults_frame (kind : FaultKind) (ds : List Byte) (s : State) : EntryFrame s (logFaults kind ds s) := by
  induction ds generalizing s with
  | nil => exact EntryFrame.refl s
  | cons d ds ih => exact (logFault_frame kind d s).trans (ih _)

@[simp] theorem logFault_je (kind : FaultKind) (detail : Byte) (s : State) : (logFault kind detail s).je = s.je := rfl
@[simp] theorem logFault_js (kind : FaultKind) (detail : Byte) (s : State) : (logFault kind detail s).js = s.js := rfl
@[simp] theorem logFault_tu (kind : FaultKind) (detail : Byte) (s : State) : (logFault kind detail s).tu = s.tu := rfl
@[simp] theorem logFault_oq (kind : FaultKind) (detail : Byte) (s : State) : (logFault kind detail s).oq = s.oq := rfl
@[simp] theorem logFault_tb (kind : FaultKind) (detail : Byte) (s : State) : (logFault kind detail s).tb = s.tb := rfl
@[simp] theorem logFault_xl (kind : FaultKind) (detail : Byte) (s : State) : (logFault kind detail s).xl = s.xl := rfl

theorem onTu_frame (f : TriggerUnit → TriggerUnit) (hf : ∀ u, (f u).rules = u.rules) (s : State) :
    EntryFrame s (s.onTu f) := by
  constructor <;> simp [hf]

theorem takeRule_frame (r : TriggerRule) (s : State) : EntryFrame s (takeRule r s).2 := by
  have h1 : EntryFrame s (if r.interrupt then setFlag flagTrg s else s) := by
    split
    · exact (setFlag_frame _ _).entryFrame
    · exact EntryFrame.refl s
  unfold takeRule
  generalize (if r.interrupt then setFlag flagTrg s else s) = s1 at h1
  cases r.action.holdAction with
  | none => exact h1
  | some a =>
    dsimp only
    split
    · refine h1.trans ?_
      show EntryFrame s1 (startHold a s1)
      unfold startHold
      exact onTu_frame _ (by intro _; rfl) _
    · exact h1

/-- Evaluating a rule leaves the encoder, the store and capture control (R111 to R113). -/
theorem takeRule_journal (r : TriggerRule) (s : State) :
    (takeRule r s).2.je = s.je ∧ (takeRule r s).2.js = s.js ∧ (takeRule r s).2.oq = s.oq ∧
      (takeRule r s).2.xl = s.xl := by
  unfold takeRule
  by_cases hi : r.interrupt = true
  · cases ha : r.action.holdAction with
    | none => simp [hi, setFlag]
    | some a => by_cases hn : s.tu.hold = .noHold <;> simp [hi, hn, setFlag, startHold]
  · cases ha : r.action.holdAction with
    | none => simp [hi]
    | some a => by_cases hn : s.tu.hold = .noHold <;> simp [hi, hn, startHold]

theorem evaluateRules_frame (ch : Channel) (level : Bool) (img : Image) (is : List (Fin 8)) (s : State) :
    EntryFrame s (evaluateRules ch level img is s).2 := by
  induction is generalizing s with
  | nil => exact EntryFrame.refl s
  | cons i is ih =>
    unfold evaluateRules
    split
    · exact (takeRule_frame _ _).trans (ih _)
    · exact ih s

theorem evaluateRules_journal (ch : Channel) (level : Bool) (img : Image) (is : List (Fin 8)) (s : State) :
    (evaluateRules ch level img is s).2.je = s.je ∧ (evaluateRules ch level img is s).2.js = s.js ∧
      (evaluateRules ch level img is s).2.oq = s.oq ∧ (evaluateRules ch level img is s).2.xl = s.xl := by
  induction is generalizing s with
  | nil => simp [evaluateRules]
  | cons i is ih =>
    unfold evaluateRules
    split
    · have h := takeRule_journal s.tu.rules[i] s
      have g := ih (takeRule s.tu.rules[i] s).2
      exact ⟨g.1.trans h.1, g.2.1.trans h.2.1, g.2.2.1.trans h.2.2.1, g.2.2.2.trans h.2.2.2⟩
    · exact ih s

theorem evaluateEntry_frame (e : Entry) (s : State) : EntryFrame s (evaluateEntry e s).2 := by
  unfold evaluateEntry
  split
  · exact evaluateRules_frame _ _ _ _ _
  · exact EntryFrame.refl s

theorem evaluateEntry_journal (e : Entry) (s : State) :
    (evaluateEntry e s).2.je = s.je ∧ (evaluateEntry e s).2.js = s.js ∧ (evaluateEntry e s).2.oq = s.oq ∧
      (evaluateEntry e s).2.xl = s.xl := by
  unfold evaluateEntry
  split
  · exact evaluateRules_journal _ _ _ _ _
  · simp

theorem holdStopRequest_frame (s : State) : EntryFrame s (holdStopRequest s) := by
  unfold holdStopRequest
  split
  · constructor <;> simp_all
  · exact EntryFrame.refl s

theorem closeHold_frame (s : State) : EntryFrame s (closeHold s) := by
  unfold closeHold
  exact EntryFrame.trans (onTu_frame _ (by intro _; rfl) _) (setFlag_frame _ _).entryFrame

theorem reportEntry_frame (wasCollecting : Bool) (stamp : Time) (s : State) :
    EntryFrame s (reportEntry wasCollecting stamp s) := by
  unfold reportEntry
  dsimp only
  split
  · have h1 : EntryFrame s (s.onTu fun u => { u with count := u.count + 1 }) := onTu_frame _ (by intro _; rfl) _
    split
    · have h2 := (h1.trans (closeHold_frame _)).trans (emit_frame (holdPacket .byQuota) false stamp _).entryFrame
      split
      · exact h2
      · exact h2.trans (holdStopRequest_frame _)
    · exact h1
  · exact EntryFrame.refl s

/-- All the handling of one released entry can change (R15 to R18). -/
theorem handleEntry_frame (e : Entry) (s : State) : EntryFrame s (handleEntry e s) := by
  unfold handleEntry
  dsimp only
  refine EntryFrame.trans ?_ (reportEntry_frame _ _ _)
  refine EntryFrame.trans ?_ (emitAll_frame _ _ _).entryFrame
  refine EntryFrame.trans ?_ (entryPackets_frame _ _ _ _).entryFrame
  have h : EntryFrame s (evaluateEntry e
      ((resumptionCheck s).2.onJe fun j => { j with image := imageAfter e j.image })).2 :=
    ((resumptionCheck_frame s).trans (onJe_frame _ _)).entryFrame.trans (evaluateEntry_frame e _)
  refine EntryFrame.trans h ?_
  split
  · exact logFault_frame _ _ _
  · exact EntryFrame.refl _

/-- Taking an entry changes the queue and otherwise what handling one entry can (R62, R64). -/
theorem takeEntry_frame (e : Entry) (s : State) :
    EntryFrame (s.onOq fun q => { q with queue := (takeEntry e s).oq.queue }) (takeEntry e s) := by
  unfold takeEntry
  split
  · exact EntryFrame.refl _
  · split
    · exact EntryFrame.refl _
    · rename_i first rest h
      have h := (logFault_frame .forced (orderDetail first) (s.onOq fun q => { q with queue := rest })).trans
        (handleEntry_frame first _)
      have hq : (handleEntry first (logFault .forced (orderDetail first)
          (s.onOq fun q => { q with queue := rest }))).oq.queue = rest := h.queue
      rw [hq]
      exact h

/-! ### The order of CLAMP faults -/

/-- The free order of a step's CLAMP faults loses none of them and adds none. -/
theorem inOrderOf_perm (place : Nat → Nat) (l : List Byte) : (inOrderOf place l).Perm l := by
  induction l using inOrderOf.induct place with
  | case1 => exact .refl _
  | case2 x => exact .refl _
  | case3 x xs h ih =>
    rw [inOrderOf.eq_3 _ _ _ h]
    exact List.perm_middle.trans (by simpa [List.take_append_drop] using ih)

@[simp] theorem length_inOrderOf (place : Nat → Nat) (l : List Byte) : (inOrderOf place l).length = l.length :=
  (inOrderOf_perm place l).length_eq

end Sys2Proof.Machine
end

