-- ==== Sys2Proof/Laws/Memory.lean ====
section
/-! SUPPORT. The journal RAM: reading after writing, and the canonical form under every memory operation. -/

namespace Sys2Proof.Machine

/-! ### One byte -/

/-- No entry of a list with only larger offsets answers a read. -/
theorem Memory.read_default_of_lt {m : Memory} {a : Nat} (h : ∀ c ∈ m, a < c.1) : m.read a = Memory.default := by
  induction m with
  | nil => rfl
  | cons c rest ih =>
    have := h c (by simp)
    simp only [Memory.read, if_neg (Nat.ne_of_gt this)]
    exact ih fun d hd => h d (by simp [hd])

/-- Reading the offset just written gives the byte written. -/
theorem Memory.read_write_self {m : Memory} (hm : m.Pairwise (fun x y => x.1 < y.1)) (a : Nat) (b : Byte) :
    (m.write a b).read a = b := by
  induction m with
  | nil => by_cases hb : b = Memory.default <;> simp [Memory.write, Memory.read, hb]
  | cons c rest ih =>
    obtain ⟨k, v⟩ := c
    have hrest := (List.pairwise_cons.mp hm).1
    unfold Memory.write
    split
    · rename_i h
      split
      · rename_i hb
        have : ∀ d ∈ (k, v) :: rest, a < d.1 := by
          intro d hd
          rcases List.mem_cons.mp hd with rfl | hd
          · exact h
          · exact lt_trans h (hrest d hd)
        rw [Memory.read_default_of_lt this, hb]
      · simp [Memory.read]
    · split
      · rename_i h
        split
        · rename_i hb
          rw [Memory.read_default_of_lt (fun d hd => h ▸ hrest d hd), hb]
        · simp [Memory.read]
      · rename_i h1 h2
        simp only [Memory.read, if_neg (Ne.symm h2)]
        exact ih (List.pairwise_cons.mp hm).2

/-- A write leaves every other offset as it was. -/
theorem Memory.read_write_of_ne (m : Memory) {a x : Nat} (b : Byte) (h : x ≠ a) : (m.write a b).read x = m.read x := by
  induction m with
  | nil => by_cases hb : b = Memory.default <;> simp [Memory.write, Memory.read, hb, Ne.symm h]
  | cons c rest ih =>
    obtain ⟨k, v⟩ := c
    unfold Memory.write
    split
    · split
      · rfl
      · simp [Memory.read, Ne.symm h]
    · split
      · rename_i hk
        subst hk
        split <;> simp [Memory.read, Ne.symm h]
      · simp only [Memory.read, ih]

/-- Every entry a write leaves was there before or is the one written. -/
theorem Memory.mem_write {m : Memory} {a : Nat} {b : Byte} {c : Host.Cell} (h : c ∈ m.write a b) :
    c ∈ m ∨ (c = (a, b) ∧ b ≠ Memory.default) := by
  induction m with
  | nil =>
    unfold Memory.write at h
    split at h
    · simp at h
    · exact .inr ⟨by simpa using h, ‹_›⟩
  | cons d rest ih =>
    obtain ⟨k, v⟩ := d
    unfold Memory.write at h
    split at h
    · split at h
      · exact .inl h
      · rcases List.mem_cons.mp h with rfl | h
        · exact .inr ⟨rfl, ‹_›⟩
        · exact .inl h
    · split at h
      · split at h
        · exact .inl (List.mem_cons_of_mem _ h)
        · rcases List.mem_cons.mp h with rfl | h
          · exact .inr ⟨rfl, ‹_›⟩
          · exact .inl (List.mem_cons_of_mem _ h)
      · rcases List.mem_cons.mp h with rfl | h
        · exact .inl (by simp)
        · rcases ih h with h | h
          · exact .inl (List.mem_cons_of_mem _ h)
          · exact .inr h

/-- A write within the ring keeps the canonical form. -/
theorem Memory.write_wf {m : Memory} (hm : m.wf) {a : Nat} (ha : a < Config.ringSize) (b : Byte) : (m.write a b).wf := by
  refine ⟨?_, fun c hc => ?_⟩
  · obtain ⟨hm, -⟩ := hm
    induction m with
    | nil => by_cases hb : b = Memory.default <;> simp [Memory.write, hb]
    | cons c rest ih =>
      obtain ⟨k, v⟩ := c
      obtain ⟨h1, h2⟩ := List.pairwise_cons.mp hm
      unfold Memory.write
      split
      · split
        · exact hm
        · refine List.pairwise_cons.mpr ⟨fun d hd => ?_, hm⟩
          rcases List.mem_cons.mp hd with rfl | hd
          · assumption
          · exact lt_trans ‹a < k› (h1 d hd)
      · split
        · rename_i hk
          subst hk
          split
          · exact h2
          · exact List.pairwise_cons.mpr ⟨h1, h2⟩
        · refine List.pairwise_cons.mpr ⟨fun d hd => ?_, ih h2⟩
          rcases Memory.mem_write hd with hd | ⟨rfl, -⟩
          · exact h1 d hd
          · show k < a
            omega
  · rcases Memory.mem_write hc with hc | ⟨rfl, hb⟩
    · exact hm.2 c hc
    · exact ⟨ha, hb⟩

/-- Memories in canonical form that read alike are the same list. -/
theorem Memory.ext_of_read {m n : Memory} (hm : m.wf) (hn : n.wf) (h : ∀ a, m.read a = n.read a) : m = n := by
  induction m generalizing n with
  | nil =>
    cases n with
    | nil => rfl
    | cons d ns =>
      have := h d.1
      simp only [Memory.read, if_true] at this
      exact absurd this.symm (hn.2 d (by simp)).2
  | cons c ms ih =>
    obtain ⟨k, v⟩ := c
    obtain ⟨hm1, hm2⟩ := List.pairwise_cons.mp hm.1
    have hv : v ≠ Memory.default := (hm.2 (k, v) (by simp)).2
    cases n with
    | nil =>
      have := h k
      simp only [Memory.read, if_true] at this
      exact absurd this hv
    | cons d ns =>
      obtain ⟨j, w⟩ := d
      obtain ⟨hn1, hn2⟩ := List.pairwise_cons.mp hn.1
      have hw : w ≠ Memory.default := (hn.2 (j, w) (by simp)).2
      have hkj : k = j := by
        rcases lt_trichotomy k j with hlt | heq | hlt
        · have hk := h k
          have hd : Memory.read ((j, w) :: ns) k = Memory.default := by
            apply Memory.read_default_of_lt
            intro c hc
            rcases List.mem_cons.mp hc with rfl | hc
            · exact hlt
            · exact lt_trans hlt (hn1 c hc)
          rw [hd] at hk
          simp only [Memory.read, if_true] at hk
          exact absurd hk hv
        · exact heq
        · have hk := h j
          have hd : Memory.read ((k, v) :: ms) j = Memory.default := by
            apply Memory.read_default_of_lt
            intro c hc
            rcases List.mem_cons.mp hc with rfl | hc
            · exact hlt
            · exact lt_trans hlt (hm1 c hc)
          rw [hd] at hk
          simp only [Memory.read, if_true] at hk
          exact absurd hk.symm hw
      subst hkj
      have hvw : v = w := by simpa [Memory.read] using h k
      subst hvw
      congr 1
      refine ih ⟨hm2, fun c hc => hm.2 c (by simp [hc])⟩ ⟨hn2, fun c hc => hn.2 c (by simp [hc])⟩ fun a => ?_
      by_cases hak : k = a
      · subst hak
        rw [Memory.read_default_of_lt hm1, Memory.read_default_of_lt hn1]
      · simpa [Memory.read, hak] using h a

/-! ### Runs of bytes -/

/-- Writing a run of bytes keeps the canonical form. -/
theorem Memory.writeBytes_wf {m : Memory} (hm : m.wf) (pos : Nat) (bytes : List Byte) : (m.writeBytes pos bytes).wf := by
  induction bytes generalizing m pos with
  | nil => exact hm
  | cons b bs ih => exact ih (Memory.write_wf hm (Nat.mod_lt _ (by decide)) b) (pos + 1)

/-- A run of bytes leaves every offset outside it as it was. -/
theorem Memory.read_writeBytes_outside (m : Memory) (pos : Nat) (bytes : List Byte) {x : Nat}
    (h : ∀ i < bytes.length, x ≠ (pos + i) % Config.ringSize) : (m.writeBytes pos bytes).read x = m.read x := by
  induction bytes generalizing m pos with
  | nil => rfl
  | cons b bs ih =>
    rw [Memory.writeBytes, ih]
    · exact Memory.read_write_of_ne m b (by simpa using h 0 (by simp))
    · intro i hi
      have := h (i + 1) (by simpa using hi)
      rwa [show pos + (i + 1) = pos + 1 + i by omega] at this

/-- The bytes of a run stand at their offsets (R25). -/
theorem Memory.read_writeBytes_inside {m : Memory} (hm : m.wf) (pos : Nat) (bytes : List Byte)
    (hlen : bytes.length ≤ Config.ringSize) {i : Nat} (hi : i < bytes.length) :
    (m.writeBytes pos bytes).read ((pos + i) % Config.ringSize) = bytes[i] := by
  induction bytes generalizing m pos i with
  | nil => simp at hi
  | cons b bs ih =>
    have hwf := Memory.write_wf hm (Nat.mod_lt pos (by decide : 0 < Config.ringSize)) b
    cases i with
    | zero =>
      rw [Memory.writeBytes, Memory.read_writeBytes_outside]
      · simpa using Memory.read_write_self hm.1 (pos % Config.ringSize) b
      · intro i hi
        simp only [Config.ringSize, List.length_cons] at *
        omega
    | succ i =>
      have := ih hwf (pos + 1) (by simp at hlen; omega) (i := i) (by simpa using hi)
      rw [Memory.writeBytes, show pos + (i + 1) = pos + 1 + i by omega, this]
      rfl

/-- As many bytes are read as are asked for. -/
@[simp] theorem Memory.readBytes_length (m : Memory) (pos : Pos) (n : Nat) : (m.readBytes pos n).length = n := by
  induction n generalizing pos with
  | zero => rfl
  | succ n ih => simp [Memory.readBytes, ih]

/-- The bytes read stand at successive positions, each taken modulo the ring size (R30). -/
theorem Memory.readBytes_getElem (m : Memory) (pos : Pos) (n : Nat) {i : Nat} (hi : i < n) :
    (m.readBytes pos n)[i]'(by simpa using hi) =
      m.read ((pos + BitVec.ofNat 32 i).toNat % Config.ringSize) := by
  induction n generalizing pos i with
  | zero => omega
  | succ n ih =>
    cases i with
    | zero => simp [Memory.readBytes]
    | succ i =>
      simp only [Memory.readBytes, List.getElem_cons_succ]
      rw [ih (pos + 1#32) (by omega)]
      congr 3
      rw [BitVec.add_assoc]
      congr 1
      apply BitVec.eq_of_toNat_eq
      simp [Nat.add_comm]

/-- The reset memory is in canonical form. -/
theorem reset_ram_canonical : RamCanonical State.reset := by
  simp [RamCanonical, State.reset, Store.reset, Memory.wf]

end Sys2Proof.Machine
end

