-- ==== Sys2Proof/Laws/Ports.lean ====
section
/-! SUPPORT. What an edge of a serial port's clock does: the bit that is sampled, the byte that the eighth completes, the bit
that is presented. -/

namespace Sys2Proof.Machine

/-- A rising edge before the eighth keeps its bit. -/
theorem SerialPort.rise_short {p : SerialPort} (h : p.sampled.length < 7) (d : Bool) :
    p.rise d = { p with clock := true, sampled := p.sampled ++ [d] } := by
  simp [SerialPort.rise, h]

/-- A byte is its bits, the most significant first. -/
theorem byteOfBits_leadingBits (b : Byte) : byteOfBits (leadingBits b ++ [b.getLsbD 0]) = b := by
  revert b; decide +kernel

/-- The eighth rising edge completes the byte. -/
theorem SerialPort.rise_whole {p : SerialPort} {b : Byte} (h : p.sampled = leadingBits b) :
    p.rise (b.getLsbD 0) = { p with clock := true, sampled := [], received := p.received ++ [b] } := by
  have eight : (leadingBits b ++ [b.getLsbD 0]).length = 8 := rfl
  simp only [SerialPort.rise, h, eight, byteOfBits_leadingBits]; simp

/-- Behind `8 * i + j` bits a port presents bit `j` of byte `i`, the most significant first. -/
theorem SerialPort.output_bit {p : SerialPort} {i j : Nat} (hj : j < 8) (h : p.presented = 8 * i + j)
    (sent : Nat → Option Byte) : p.output sent = (sent i).map fun b => b.getLsbD (7 - j) := by
  have whole : (8 * i + j) / 8 = i := by omega
  have rest : (8 * i + j) % 8 = j := by omega
  have bit : (fun b : Byte => b.getMsbD j) = fun b => b.getLsbD (7 - j) := by
    funext b; simp [BitVec.getMsbD, hj]
  simp only [SerialPort.output, h, whole, rest, bit]

/-- The link's port with the byte that a rising edge of XCLK completes. -/
theorem onLinkPort_rise_whole {s : State} {b : Byte} (h : s.xl.port.sampled = leadingBits b) :
    s.onLinkPort (SerialPort.rise (b.getLsbD 0)) =
      withLinkPort s { s.xl.port with clock := true, sampled := [], received := s.xl.port.received ++ [b] } := by
  simp only [State.onLinkPort, State.onXl, SerialPort.rise_whole h]; rfl

/-- The memory's port with the byte that a rising edge of MCLK completes. -/
theorem onMemoryPort_rise_whole {s : State} {b : Byte} (h : s.cl.port.sampled = leadingBits b) :
    s.onMemoryPort (SerialPort.rise (b.getLsbD 0)) =
      withMemoryPort s { s.cl.port with clock := true, sampled := [], received := s.cl.port.received ++ [b] } := by
  simp only [State.onMemoryPort, State.onCl, SerialPort.rise_whole h]; rfl

/-- In a transaction the rising edge of XCLK that completes a byte gives it to the link. -/
theorem linkEdge_rise_whole {s : State} {b : Byte} (o : transactionOpen s.xl.phase = true) (c : s.xl.port.clock = false)
    (h : s.xl.port.sampled = leadingBits b) :
    linkEdge (.clkRises (b.getLsbD 0)) s = byteReceived
      (withLinkPort s { s.xl.port with clock := true, sampled := [], received := s.xl.port.received ++ [b] }) := by
  simp only [linkEdge, c, o, onLinkPort_rise_whole h]; simp [withLinkPort]

/-- While READING the rising edge of MCLK that completes a byte gives it to the loader. -/
theorem memoryEdge_rise_whole {s : State} {b : Byte} (o : s.cl.state = .reading) (c : s.cl.port.clock = false)
    (h : s.cl.port.sampled = leadingBits b) :
    memoryEdge (.clkRises (b.getLsbD 0)) s = imageByteReceived
      (withMemoryPort s { s.cl.port with clock := true, sampled := [], received := s.cl.port.received ++ [b] }) := by
  simp only [memoryEdge, c, o, onMemoryPort_rise_whole h]; simp [withMemoryPort]

end Sys2Proof.Machine
end

