-- ==== Sys2Proof/Laws/Store.lean ====
section
/-! SUPPORT. The journal store's operations on a sound journal: distances, freeing, discard steps, stored packets, and
the consumers' own moves. -/

namespace Sys2Proof.Machine

/-! ### Distances -/

@[simp] theorem distFrom_self (t : Pos) : distFrom t t = 0 := by simp [distFrom]

/-- Moving the tail up to `u` shortens the distance of every position at or after `u` by the distance moved (R24). -/
theorem distFrom_shift {t u x : Pos} (h : distFrom t u ≤ distFrom t x) :
    distFrom u x = distFrom t x - distFrom t u := by
  unfold distFrom at *
  simp only [BitVec.toNat_sub] at *
  have := t.isLt; have := u.isLt; have := x.isLt
  omega

/-- Positions at one distance from the tail are one position (R24). -/
theorem distFrom_inj {t x y : Pos} (h : distFrom t x = distFrom t y) : x = y := by
  unfold distFrom at h
  have h := BitVec.eq_of_toNat_eq h
  have := congrArg (· + t) h
  simpa [BitVec.sub_add_cancel] using this

/-- A position `n` bytes on lies `n` further from the tail, within the span of positions (R24). -/
theorem distFrom_add {t x : Pos} {n : Nat} (h : distFrom t x + n < 2 ^ 32) :
    distFrom t (x + BitVec.ofNat 32 n) = distFrom t x + n := by
  unfold distFrom at *
  simp only [BitVec.toNat_sub, BitVec.toNat_add, BitVec.toNat_ofNat] at *
  have := t.isLt; have := x.isLt
  omega

/-- The bytes from one position to a later one are the difference of their distances (R24). -/
theorem sub_toNat {t x y : Pos} (h : distFrom t x ≤ distFrom t y) : (y - x).toNat = distFrom t y - distFrom t x :=
  distFrom_shift h

theorem below_iff {t p q : Pos} : below t p q = true ↔ distFrom t p < distFrom t q := by simp [below]

/-! ### Freeing -/

/-- The nearest of positions, and that it is one of them (R35). -/
theorem foldl_nearer (t : Pos) (ps : List Pos) (m : Pos) :
    (ps.foldl (nearer t) m = m ∨ ps.foldl (nearer t) m ∈ ps) ∧
      distFrom t (ps.foldl (nearer t) m) ≤ distFrom t m ∧
        ∀ p ∈ ps, distFrom t (ps.foldl (nearer t) m) ≤ distFrom t p := by
  induction ps generalizing m with
  | nil => simp
  | cons p ps ih =>
    obtain ⟨h1, h2, h3⟩ := ih (nearer t m p)
    have hn : (nearer t m p = m ∨ nearer t m p = p) ∧ distFrom t (nearer t m p) ≤ distFrom t m ∧
        distFrom t (nearer t m p) ≤ distFrom t p := by
      unfold nearer
      split
      · rename_i h; rw [below_iff] at h; exact ⟨.inr rfl, h.le, le_refl _⟩
      · rename_i h; rw [below_iff] at h; exact ⟨.inl rfl, le_refl _, by omega⟩
    simp only [List.foldl_cons, List.mem_cons, forall_eq_or_imp]
    refine ⟨?_, h2.trans hn.2.1, h2.trans hn.2.2, h3⟩
    rcases h1 with h1 | h1
    · rcases hn.1 with h | h
      · exact .inl (h1.trans h)
      · exact .inr (.inl (h1.trans h))
    · exact .inr (.inr h1)

/-- Freeing's target is an attached release mark or the protected start, and no attached release mark and no active
protected start lies nearer the tail (R35). -/
theorem freeTarget_spec {s : State} {p : Pos} (h : freeTarget s = some p) :
    ((s.js.hostC.attached = true ∧ p = s.js.hostC.release) ∨
        (s.js.exportC.attached = true ∧ p = s.js.exportC.release) ∨ (holdActive s = true ∧ p = s.tu.start)) ∧
      (s.js.hostC.attached = true → distFrom s.js.tail p ≤ distFrom s.js.tail s.js.hostC.release) ∧
      (s.js.exportC.attached = true → distFrom s.js.tail p ≤ distFrom s.js.tail s.js.exportC.release) ∧
      (holdActive s = true → distFrom s.js.tail p ≤ distFrom s.js.tail s.tu.start) := by
  unfold freeTarget holdBound at h
  cases hh : s.js.hostC.attached <;> cases he : s.js.exportC.attached <;> cases ha : holdActive s <;>
    simp only [hh, he, ha, Bool.false_eq_true, if_true, if_false, List.nil_append, List.append_nil, List.cons_append,
      Option.some.injEq, Option.toList, reduceCtorEq] at h
  all_goals
    obtain ⟨h1, h2, h3⟩ := foldl_nearer s.js.tail _ _ |> (h ▸ ·)
    simp_all

/-! ### The tail moved over a sound journal -/

/-- The frames run the same from a tail moved up to a position at or before their start (R133). -/
theorem framesRun_shift {t u : Pos} {a b : Pos} {fs : List FrameRec} (hu : distFrom t u ≤ distFrom t a)
    (h : framesRun t a fs b) : framesRun u a fs b := by
  induction fs generalizing a with
  | nil => exact h
  | cons f fs ih =>
    obtain ⟨h1, h2, h3, h4⟩ := h
    subst h1
    have e1 := distFrom_shift hu
    have e2 := distFrom_shift (t := t) (u := u) (x := f.stop) (by omega)
    exact ⟨rfl, by omega, by omega, ih (by omega) h4⟩

/-- Frames run forwards: their end is at or after their start (R133). -/
theorem framesRun_le {t a b : Pos} {fs : List FrameRec} (h : framesRun t a fs b) : distFrom t a ≤ distFrom t b := by
  induction fs generalizing a with
  | nil => rw [show a = b from h]
  | cons f fs ih =>
    obtain ⟨h1, h2, -, h4⟩ := h
    have := ih h4
    rw [← h1]; omega

/-- The tail of a sound journal may move up to any position that no attached reader's release mark and no active
protected start lies before (R35). -/
theorem moveTail_sound {s : State} {p : Pos} (hs : JournalSound s) (hocc : distFrom s.js.tail p ≤ occupancy s.js)
    (hhost : s.js.hostC.attached = true → distFrom s.js.tail p ≤ distFrom s.js.tail s.js.hostC.release)
    (hexp : s.js.exportC.attached = true → distFrom s.js.tail p ≤ distFrom s.js.tail s.js.exportC.release)
    (hhold : holdActive s = true → distFrom s.js.tail p ≤ distFrom s.js.tail s.tu.start) :
    JournalSound (s.onJs (moveTail p)) := by
  have hhead : distFrom p s.js.head = occupancy s.js - distFrom s.js.tail p := distFrom_shift hocc
  have hmarks : ∀ c : Consumer, distFrom s.js.tail p ≤ distFrom s.js.tail c.release → marksOrdered s.js c →
      marksOrdered (moveTail p s.js) c := by
    intro c h1 ⟨h2, h3⟩
    simp only [marksOrdered, moveTail, occupancy] at *
    rw [distFrom_shift h1, distFrom_shift (h1.trans h2), hhead]
    omega
  constructor
  case occupied => have := hs.occupied; simp only [State.onJs_js, moveTail, occupancy] at *; omega
  case hostMarks => exact fun h => hmarks _ (hhost h) (hs.hostMarks h)
  case exportMarks => exact fun h => hmarks _ (hexp h) (hs.exportMarks h)
  case indexRising =>
    simp only [State.onJs_js, moveTail]
    refine (hs.indexRising.filter _).imp_of_mem ?_
    intro a b ha hb hab
    have ha := (List.mem_filter.mp ha).2
    have hb := (List.mem_filter.mp hb).2
    simp only [below, Bool.not_eq_eq_eq_not, Bool.not_true, decide_eq_false_iff_not, not_lt] at ha hb
    rw [distFrom_shift ha, distFrom_shift hb]; omega
  case indexRetained =>
    intro e he
    simp only [State.onJs_js, moveTail, occupancy] at he ⊢
    obtain ⟨he, hb⟩ := List.mem_filter.mp he
    have := hs.indexRetained e he
    simp only [below, Bool.not_eq_eq_eq_not, Bool.not_true, decide_eq_false_iff_not, not_lt] at hb
    rw [distFrom_shift hb, hhead]
    simp only [occupancy] at *; omega
  case indexBound =>
    simp only [State.onJs_js, moveTail]
    exact (List.length_filter_le _ _).trans hs.indexBound
  case holdRetained =>
    intro h
    have := hs.holdRetained h
    have h2 := hhold h
    simp only [State.onJs_js, State.onJs_tu, moveTail, occupancy] at *
    rw [distFrom_shift h2, hhead]; omega
  case frames => exact fun h => framesRun_shift (hexp h) (hs.frames h)
  case noFrames => exact hs.noFrames
  case frameBound => exact hs.frameBound
  case numbered => exact hs.numbered
  case loadingEmpty =>
    intro h
    obtain ⟨h1, h2⟩ := hs.loadingEmpty h
    refine ⟨h1, ?_⟩
    simp only [State.onJs_js, moveTail, occupancy, h1, h2] at *
    exact distFrom_inj (t := 0#32) (by simp at hocc ⊢; exact hocc)
  case loaderLoading => exact hs.loaderLoading

/-- Freeing keeps the journal sound (R35). -/
theorem reevalFreeing_sound {s : State} (hs : JournalSound s) : JournalSound (reevalFreeing s) := by
  rcases reevalFreeing_cases s with ⟨-, h⟩ | ⟨p, ht, h⟩ <;> rw [h]
  · exact hs
  · obtain ⟨h1, h2, h3, h4⟩ := freeTarget_spec ht
    refine moveTail_sound hs ?_ h2 h3 h4
    rcases h1 with ⟨ha, rfl⟩ | ⟨ha, rfl⟩ | ⟨ha, rfl⟩
    · exact (hs.hostMarks ha).1.trans (hs.hostMarks ha).2
    · exact (hs.exportMarks ha).1.trans (hs.exportMarks ha).2
    · exact hs.holdRetained ha

/-! ### Soundness does not look at the rest of the state -/

/-- Soundness rests on the store, the hold, the link and the two states of loading alone. -/
theorem JournalSound.congr {s t : State} (hs : JournalSound s) (js : t.js = s.js) (hold : t.tu.hold = s.tu.hold)
    (start : t.tu.start = s.tu.start) (xl : t.xl = s.xl) (oq : t.oq.state = s.oq.state) (cl : t.cl.state = s.cl.state) :
    JournalSound t := by
  have ha : holdActive t = holdActive s := by simp [holdActive, hold]
  constructor
  all_goals simp only [js, ha, start, xl, oq, cl]
  · exact hs.occupied
  · exact hs.hostMarks
  · exact hs.exportMarks
  · exact hs.indexRising
  · exact hs.indexRetained
  · exact hs.indexBound
  · exact hs.holdRetained
  · exact hs.frames
  · exact hs.noFrames
  · exact hs.frameBound
  · exact hs.numbered
  · exact hs.loadingEmpty
  · exact hs.loaderLoading

theorem evalAvl_sound {s : State} (hs : JournalSound s) : JournalSound (evalAvl s) := by
  apply hs.congr <;> simp

theorem setFlag_sound {s : State} (flag : BitVec 8) (hs : JournalSound s) : JournalSound (setFlag flag s) := by
  apply hs.congr <;> simp [setFlag]

theorem logFault_sound {s : State} (kind : FaultKind) (detail : Byte) (hs : JournalSound s) :
    JournalSound (logFault kind detail s) := by
  apply hs.congr <;> simp [logFault_cases]

/-! ### Stored packets -/

/-- Storing a packet of at most the free space keeps the journal sound; a SYNC needs a byte and a free index entry
(R25, R26, R37). -/
theorem storePacket_sound {s : State} (hs : JournalSound s) (hl : s.oq.state ≠ .loading) {bytes : List Byte}
    {isSync : Bool} (hlen : bytes.length ≤ freeSpace s.js)
    (hsync : isSync = true → 0 < bytes.length ∧ s.js.index.length < Config.indexCapacity) :
    JournalSound (storePacket bytes isSync s) := by
  have hocc := hs.occupied
  have hring : Config.ringSize = 16384 := rfl
  have hroom : occupancy s.js + bytes.length ≤ Config.ringSize := by simp only [freeSpace] at hlen; omega
  have hhead : distFrom s.js.tail (s.js.head + BitVec.ofNat 32 bytes.length) = occupancy s.js + bytes.length := by
    unfold occupancy at *
    exact distFrom_add (by omega)
  have hcl : (storePacket bytes isSync s).cl = s.cl := (storePacket_frame _ _ s).cl
  have hoq : (storePacket bytes isSync s).oq = s.oq := (storePacket_frame _ _ s).oq
  have htu : (storePacket bytes isSync s).tu = s.tu := (storePacket_frame _ _ s).tu
  constructor
  case loadingEmpty => intro h; rw [hoq] at h; exact absurd h hl
  case loaderLoading => rw [hcl, hoq]; exact hs.loaderLoading
  all_goals simp only [storePacket_js, storePacket_xl, holdActive, htu, occupancy, hhead]
  case occupied => exact hroom
  case hostMarks =>
    intro h
    have := hs.hostMarks h
    simp only [marksOrdered, occupancy, hhead] at *; omega
  case exportMarks =>
    intro h
    have := hs.exportMarks h
    simp only [marksOrdered, occupancy, hhead] at *; omega
  case indexRising =>
    split
    · refine List.pairwise_append.mpr ⟨hs.indexRising, by simp, ?_⟩
      intro a ha b hb
      simp only [List.mem_singleton] at hb
      subst hb
      exact hs.indexRetained a ha
    · exact hs.indexRising
  case indexRetained =>
    intro e he
    split at he
    · rcases List.mem_append.mp he with he | he
      · have := hs.indexRetained e he; simp only [occupancy] at *; omega
      · simp only [List.mem_singleton] at he
        subst he
        have := (hsync ‹_›).1
        simp only [occupancy] at *; omega
    · have := hs.indexRetained e he; simp only [occupancy] at *; omega
  case indexBound =>
    split
    · have := (hsync ‹_›).2
      simp only [List.length_append, List.length_singleton]; omega
    · exact hs.indexBound
  case holdRetained => intro h; have := hs.holdRetained h; simp only [occupancy] at *; omega
  case frames => exact hs.frames
  case noFrames => exact hs.noFrames
  case frameBound => exact hs.frameBound
  case numbered => exact hs.numbered

/-- The fit test leaves the reserve and, for a SYNC, a free index entry (R37). -/
theorem fits_iff {n : Nat} {isSync : Bool} {s : State} :
    fits n isSync s = true ↔
      n + Config.reserve ≤ freeSpace s.js ∧ (isSync = true → s.js.index.length < Config.indexCapacity) := by
  cases isSync <;> simp [fits]

/-! ### Discard steps -/

/-- The frame records that a discard leaves are the newest ones, and run from the first of them (R146). -/
theorem prunedFrames_run {t u a b : Pos} {fs : List FrameRec} (h : framesRun t a fs b) :
    (prunedFrames t u fs <:+ fs) ∧
      (match prunedFrames t u fs with
        | [] => True
        | f :: _ => distFrom t u ≤ distFrom t f.start ∧ framesRun t f.start (prunedFrames t u fs) b) := by
  induction fs generalizing a with
  | nil => simp [prunedFrames]
  | cons f fs ih =>
    obtain ⟨h1, h2, h3, h4⟩ := h
    obtain ⟨i1, i2⟩ := ih h4
    by_cases hb : distFrom t f.start < distFrom t u
    · have : prunedFrames t u (f :: fs) = prunedFrames t u fs := by
        simp [prunedFrames, below, hb]
      rw [this]
      exact ⟨i1.trans (List.suffix_cons f fs), i2⟩
    · have hall : ∀ g ∈ fs, distFrom t f.stop ≤ distFrom t g.start := by
        clear i1 i2 ih hb
        intro g hg
        have : ∀ (gs : List FrameRec) (c : Pos), framesRun t c gs b → g ∈ gs → distFrom t c ≤ distFrom t g.start := by
          intro gs
          induction gs with
          | nil => simp
          | cons k ks ik =>
            intro c hc hk
            obtain ⟨c1, c2, -, c4⟩ := hc
            rcases List.mem_cons.mp hk with rfl | hk
            · rw [c1]
            · have := ik k.stop c4 hk
              rw [← c1]; omega
        exact this fs f.stop h4 hg
      have hp : prunedFrames t u (f :: fs) = f :: fs := by
        unfold prunedFrames
        rw [List.filter_eq_self]
        intro g hg
        simp only [below, Bool.not_eq_eq_eq_not, Bool.not_true, decide_eq_false_iff_not, not_lt]
        rcases List.mem_cons.mp hg with rfl | hg
        · omega
        · have := hall g hg; omega
      rw [hp]
      exact ⟨List.suffix_rfl, by omega, rfl, h2, h3, h4⟩

theorem seqsRun_suffix {fs gs : List FrameRec} (h : seqsRun fs) (hs : gs <:+ fs) : seqsRun gs := by
  obtain ⟨pre, rfl⟩ := hs
  induction pre with
  | nil => exact h
  | cons p pre ih =>
    apply ih
    cases hq : pre ++ gs with
    | nil => trivial
    | cons q qs =>
      rw [List.cons_append, hq] at h
      exact h.2

/-- Numbering survives the loss of the oldest records (R146). -/
theorem LinkNumbered.suffix {x : Link} {fs : List FrameRec} (h : LinkNumbered x) (hs : fs <:+ x.outstanding) :
    LinkNumbered { x with outstanding := fs } := by
  obtain ⟨pre, hp⟩ := hs
  have hlast : fs = [] ∨ x.outstanding.getLast? = fs.getLast? := by
    cases hf : fs with
    | nil => exact .inl rfl
    | cons f gs => right; rw [← hp, hf, List.getLast?_append]; simp [List.getLast?_cons]
  constructor
  · exact seqsRun_suffix h.consecutive ⟨pre, hp⟩
  · intro hd f hf
    rcases hlast with rfl | hl
    · simp at hf
    · exact h.newest hd f (hl ▸ hf)
  · intro f hf hd
    have := h.flying f hf hd
    refine ⟨this.1, ?_⟩
    rcases hlast with rfl | hl
    · exact .inl rfl
    · rcases this.2 with h0 | h0
      · left
        rw [h0] at hp
        exact (List.append_eq_nil_iff.mp hp).2
      · right; rw [← hl]; exact h0
  · exact h.served

/-- A discard step leaves a consumer whose release mark it does not pass, and raises the marks of one it passes (R42). -/
theorem discardConsumer_cases (old new : Pos) (c : Consumer) :
    ((c.attached = true → distFrom old new ≤ distFrom old c.release) ∧ discardConsumer old new c = c) ∨
      (c.attached = true ∧ distFrom old c.release < distFrom old new ∧
        discardConsumer old new c =
          { c with release := new, read := if distFrom old c.read < distFrom old new then new else c.read,
                   skips := satInc 255 c.skips, skipPending := true }) := by
  unfold discardConsumer
  cases h : c.attached
  · simp
  · by_cases hb : distFrom old c.release < distFrom old new
    · right; simp [below, hb]
    · left; simp [below, hb]; omega

/-- A consumer's read mark after a discard step to `new`. -/
theorem discardConsumer_read {old new : Pos} {c : Consumer} (hc : c.attached = true)
    (hm : distFrom old c.release ≤ distFrom old c.read) :
    (discardConsumer old new c).read = if distFrom old c.read < distFrom old new then new else c.read := by
  rcases discardConsumer_cases old new c with ⟨h1, h2⟩ | ⟨-, h1, h2⟩
  · have := h1 hc
    rw [h2, if_neg (by omega)]
  · rw [h2]

/-- The first position of a list of frames, or the position `d` when there is none. -/
def firstStart (d : Pos) : List FrameRec → Pos
  | [] => d
  | f :: _ => f.start

/-- EXPORT after a discard step and its notice: marks in order at or after the new tail, the frames left running from
one to the other (R42, R43, R146). -/
theorem discardNotice_export {t e : Pos} {c : Consumer} {fs : List FrameRec} {occ : Nat} (hc : c.attached = true)
    (hm : distFrom t c.release ≤ distFrom t c.read) (ho : distFrom t c.read ≤ occ) (he : distFrom t e ≤ occ)
    (hf : framesRun t c.release fs c.read) :
    let c1 := discardConsumer t e c
    let read := if below t c1.read e then e else c1.read
    let kept := prunedFrames t e fs
    distFrom t e ≤ distFrom t (firstStart c1.read kept) ∧ distFrom t (firstStart c1.read kept) ≤ distFrom t read ∧
      distFrom t read ≤ occ ∧ framesRun t (firstStart c1.read kept) kept read := by
  intro c1 read kept
  have h1 : c1.read = if distFrom t c.read < distFrom t e then e else c.read := discardConsumer_read hc hm
  have h2 : distFrom t e ≤ distFrom t c1.read := by rw [h1]; split <;> omega
  have h3 : read = c1.read := if_neg (by rw [below_iff]; omega)
  rw [h3]
  obtain ⟨-, hp⟩ := prunedFrames_run (u := e) hf
  have hk : prunedFrames t e fs = kept := rfl
  rw [hk] at hp
  clear_value kept
  cases kept with
  | nil => exact ⟨h2, le_refl _, by rw [h1]; split <;> omega, rfl⟩
  | cons f gs =>
    obtain ⟨hp1, hp2⟩ := hp
    have hle := framesRun_le hp2
    have h4 : c1.read = c.read := by rw [h1, if_neg (by omega)]
    rw [h4]
    exact ⟨hp1, hle, ho, hp2⟩

/-- Where a discard step goes: an index entry after the tail and not beyond an active protected start (R41). -/
theorem discardTarget_spec {s : State} {e : Pos} (h : discardTarget s = some e) :
    e ∈ s.js.index ∧ 0 < distFrom s.js.tail e ∧
      (holdActive s = true → distFrom s.js.tail e ≤ distFrom s.js.tail s.tu.start) := by
  unfold discardTarget holdBound at h
  cases hf : nextSync s.js with
  | none => rw [hf] at h; cases h
  | some x =>
    have hx := List.mem_of_find?_eq_some hf
    have hx0 : 0 < distFrom s.js.tail x := by simpa using List.find?_some hf
    rw [hf] at h
    cases ha : holdActive s <;> simp only [ha, if_true, Bool.false_eq_true, if_false] at h
    · cases h; exact ⟨hx, hx0, by simp⟩
    · split at h
      · cases h
      · rename_i hb
        cases h
        exact ⟨hx, hx0, fun _ => by rw [below_iff] at hb; omega⟩

/-- What a discard step makes of the store and the outstanding list, with EXPORT attached (R41 to R43, R146). -/
theorem discardTo_attached {s : State} (e : Pos) (ha : s.js.exportC.attached = true) :
    ∃ u, discardTo e s = reevalFreeing u ∧ u.tu = s.tu ∧ u.oq = s.oq ∧ u.cl = s.cl ∧
      u.xl = { s.xl with outstanding := prunedFrames s.js.tail e s.xl.outstanding } ∧
      u.js = { moveTail e s.js with
        hostC := discardConsumer s.js.tail e s.js.hostC,
        exportC := { discardConsumer s.js.tail e s.js.exportC with
          release := firstStart (discardConsumer s.js.tail e s.js.exportC).read
            (prunedFrames s.js.tail e s.xl.outstanding),
          read := if below s.js.tail (discardConsumer s.js.tail e s.js.exportC).read e then e
            else (discardConsumer s.js.tail e s.js.exportC).read } } := by
  unfold discardTo discardNotice
  simp only [evalAvl_js, State.onJs_js, discardConsumer_attached, ha, if_true]
  refine ⟨_, rfl, ?_, ?_, ?_, ?_, ?_⟩
  · simp
  · simp
  · simp
  · simp
  · simp only [State.onJs_js, State.onXl_js, evalAvl_js, evalAvl_xl, State.onJs_xl, moveTail]
    congr 2

/-- What a discard step makes of the store, with EXPORT detached (R41 to R43). -/
theorem discardTo_detached {s : State} (e : Pos) (ha : s.js.exportC.attached = false) :
    (discardTo e s).js = { moveTail e s.js with hostC := discardConsumer s.js.tail e s.js.hostC } ∧
      (discardTo e s).xl = s.xl := by
  have hc : discardConsumer s.js.tail e s.js.exportC = s.js.exportC := by simp [discardConsumer, ha]
  unfold discardTo discardNotice
  simp only [evalAvl_js, State.onJs_js, ha, hc, Bool.false_eq_true, if_false, moveTail]
  simp

/-- A possible discard step keeps the journal sound (R41 to R43, R146). -/
theorem discardTo_sound {s : State} {e : Pos} (hs : JournalSound s) (ht : discardTarget s = some e) :
    JournalSound (discardTo e s) := by
  obtain ⟨hmem, -, hbound⟩ := discardTarget_spec ht
  have hocc := hs.indexRetained e hmem
  have hhost : s.js.hostC.attached = true →
      distFrom s.js.tail e ≤ distFrom s.js.tail (discardConsumer s.js.tail e s.js.hostC).release ∧
        marksOrdered s.js (discardConsumer s.js.tail e s.js.hostC) := by
    intro ha
    obtain ⟨hm1, hm2⟩ := hs.hostMarks ha
    rcases discardConsumer_cases s.js.tail e s.js.hostC with ⟨h1, h2⟩ | ⟨-, h1, h2⟩ <;> rw [h2]
    · exact ⟨h1 ha, hm1, hm2⟩
    · refine ⟨le_refl _, ?_⟩
      dsimp only [marksOrdered]
      split <;> omega
  by_cases ha : s.js.exportC.attached = true
  · obtain ⟨hm1, hm2⟩ := hs.exportMarks ha
    obtain ⟨k1, k2, k3, k4⟩ := discardNotice_export ha hm1 hm2 hocc.le (hs.frames ha)
    have hsuf : prunedFrames s.js.tail e s.xl.outstanding <:+ s.xl.outstanding := (prunedFrames_run (hs.frames ha)).1
    obtain ⟨u, hu, utu, uoq, ucl, uxl, ujs⟩ := discardTo_attached e ha
    rw [hu]
    apply reevalFreeing_sound
    -- the same state before its tail is moved
    let m : State := { s with
      js := { s.js with
        hostC := discardConsumer s.js.tail e s.js.hostC,
        exportC := { discardConsumer s.js.tail e s.js.exportC with
          release := firstStart (discardConsumer s.js.tail e s.js.exportC).read
            (prunedFrames s.js.tail e s.xl.outstanding),
          read := if below s.js.tail (discardConsumer s.js.tail e s.js.exportC).read e then e
            else (discardConsumer s.js.tail e s.js.exportC).read } },
      xl := { s.xl with outstanding := prunedFrames s.js.tail e s.xl.outstanding } }
    have hm : JournalSound m := by
      constructor
      case occupied => exact hs.occupied
      case hostMarks => intro h; exact (hhost (by simpa [m, discardConsumer_attached] using h)).2
      case exportMarks => exact fun _ => ⟨k2, k3⟩
      case indexRising => exact hs.indexRising
      case indexRetained => exact hs.indexRetained
      case indexBound => exact hs.indexBound
      case holdRetained => exact hs.holdRetained
      case frames => exact fun _ => k4
      case noFrames => intro h; simp [m, discardConsumer_attached, ha] at h
      case frameBound => exact hsuf.length_le.trans hs.frameBound
      case numbered => exact hs.numbered.suffix hsuf
      case loadingEmpty => exact hs.loadingEmpty
      case loaderLoading => exact hs.loaderLoading
    have hmove : JournalSound (m.onJs (moveTail e)) := by
      refine moveTail_sound hm hocc.le (fun h => (hhost ?_).1) (fun _ => k1) hbound
      simpa [m, discardConsumer_attached] using h
    refine hmove.congr ?_ ?_ ?_ ?_ ?_ ?_
    · rw [ujs]; rfl
    · rw [utu]; rfl
    · rw [utu]; rfl
    · rw [uxl]; rfl
    · rw [uoq]; rfl
    · rw [ucl]; rfl
  · have ha : s.js.exportC.attached = false := by simpa using ha
    obtain ⟨djs, dxl⟩ := discardTo_detached e ha
    have hf := discardTo_frame e s
    let m : State := { s with js := { s.js with hostC := discardConsumer s.js.tail e s.js.hostC } }
    have hm : JournalSound m := by
      constructor
      case occupied => exact hs.occupied
      case hostMarks => intro h; exact (hhost (by simpa [m, discardConsumer_attached] using h)).2
      case exportMarks => exact hs.exportMarks
      case indexRising => exact hs.indexRising
      case indexRetained => exact hs.indexRetained
      case indexBound => exact hs.indexBound
      case holdRetained => exact hs.holdRetained
      case frames => exact hs.frames
      case noFrames => exact hs.noFrames
      case frameBound => exact hs.frameBound
      case numbered => exact hs.numbered
      case loadingEmpty => exact hs.loadingEmpty
      case loaderLoading => exact hs.loaderLoading
    have hmove : JournalSound (m.onJs (moveTail e)) := by
      refine moveTail_sound hm hocc.le (fun h => (hhost ?_).1) (fun h => ?_) hbound
      · simpa [m, discardConsumer_attached] using h
      · simp [m, ha] at h
    refine hmove.congr ?_ ?_ ?_ ?_ ?_ ?_
    · rw [djs]; rfl
    · rw [hf.tu]; rfl
    · rw [hf.tu]; rfl
    · rw [dxl]; rfl
    · rw [hf.oq]; rfl
    · rw [hf.cl]; rfl

/-- Making room keeps the journal sound (R40, R41). -/
theorem makeRoom_sound (goal : State → Bool) {s : State} (hs : JournalSound s) : JournalSound (makeRoom goal s) :=
  makeRoom_induct goal (fun _ _ h _ ht => discardTo_sound h ht) hs

/-- An offer outside LOADING keeps the journal sound (R36, R37). -/
theorem offer_sound {s : State} (hs : JournalSound s) (hl : s.oq.state ≠ .loading) {bytes : List Byte} {isSync : Bool}
    (hb : isSync = true → 0 < bytes.length) : JournalSound (offer bytes isSync s).2 := by
  have hm := makeRoom_sound (fits bytes.length isSync) hs
  have hoq := (makeRoom_frame (fits bytes.length isSync) s).oq
  rcases offer_cases bytes isSync s with ⟨-, h⟩ | ⟨-, hf, h⟩ | ⟨-, -, h⟩ <;> rw [h]
  · exact hs
  · obtain ⟨f1, f2⟩ := fits_iff.mp hf
    exact storePacket_sound hm (by rw [hoq]; exact hl) (by omega) fun hi => ⟨hb hi, f2 hi⟩
  · generalize makeRoom (fits bytes.length isSync) s = u at hm
    constructor
    · exact hm.occupied
    · exact hm.hostMarks
    · exact hm.exportMarks
    · exact hm.indexRising
    · exact hm.indexRetained
    · exact hm.indexBound
    · exact hm.holdRetained
    · exact hm.frames
    · exact hm.noFrames
    · exact hm.frameBound
    · exact hm.numbered
    · exact hm.loadingEmpty
    · exact hm.loaderLoading

/-- After a stored packet at least the reserve stays free, and after a lost one nothing was written (R37, R40). -/
theorem offer_leaves_reserve {s : State} {bytes : List Byte} {isSync : Bool} {t : State}
    (ho : occupancy (makeRoom (fits bytes.length isSync) s).js ≤ Config.ringSize)
    (h : offer bytes isSync s = (.stored, t)) : Config.reserve ≤ freeSpace t.js := by
  rcases offer_cases bytes isSync s with ⟨-, h'⟩ | ⟨-, hf, h'⟩ | ⟨-, -, h'⟩ <;> rw [h'] at h
  · cases h
  · obtain ⟨f1, -⟩ := fits_iff.mp hf
    obtain ⟨-, rfl⟩ := Prod.mk.inj h
    have hring : Config.ringSize = 16384 := rfl
    have hhead : occupancy (storePacket bytes isSync (makeRoom (fits bytes.length isSync) s)).js =
        occupancy (makeRoom (fits bytes.length isSync) s).js + bytes.length := by
      simp only [storePacket_js, occupancy]
      apply distFrom_add
      simp only [freeSpace, occupancy] at *
      have : Config.reserve = 32 := rfl
      omega
    unfold freeSpace at f1 ⊢
    omega
  · cases h

end Sys2Proof.Machine
end

