-- ==== Sys2Proof/Tests/Slice0.lean ====
section
/-! SUPPORT. Tests of single commands against the spec's worked examples and tables, the well-formedness smoke test, and
a witness for the hypotheses of each obligation. -/

namespace Sys2Proof.Tests

open Sys2Proof Sys2Proof.Machine

-- One theorem at a time: elaborated side by side, their evaluations start more threads than memory has stacks for.
set_option Elab.async false

/-! ### Builders -/

/-- The state a command answers. -/
def after (c : Instr) (s : State) : State :=
  match exec c s with
  | .next t => t
  | .fault _ => s
  | .refused _ => s

/-- Reset with the given counter. -/
def at' (now : Time) : State := { State.reset with tb := { TimeBase.reset with counter := now } }

/-- The state with the given capture state, horizon 1,000 and queue. -/
def capturing (c : CaptureState) (queue : List Entry) (s : State) : State :=
  { s with oq := { state := c, horizon := 1000, stopStamp := 0, queue := queue } }

/-- The state with channel 3 replaced. -/
def withChannel (c : ChannelRec) (s : State) : State := { s with icu := s.icu.set 3 c }

/-- An enabled channel at rest at level 0, with its reset descriptor. -/
def resting : ChannelRec := { ChannelRec.reset false with desc := { ChanDesc.reset with enable := true }, state := .stable }

/-- A channel settling towards 1 since time 100, its settle timer at `n` of 2,000 µs. -/
def settlingAt (n : Nat) : ChannelRec :=
  { resting with line := true, state := .settling, stamp := some 100, settle := some { elapsed := n, length := 2000 } }

/-- A suppressed channel, its quiet timer at `n` of 5,000,000 µs. -/
def suppressedAt (n : Nat) : ChannelRec :=
  { resting with state := .suppressed, quiet := some { elapsed := n, length := 5000000 } }

/-- A channel settling in suppression, its settle timer at `n` of 2,000 µs. -/
def suppressedSettlingAt (n : Nat) : ChannelRec :=
  { settlingAt n with state := .suppressedSettling, quiet := some { elapsed := n, length := 5000000 } }

/-- A CHANGE of channel 7 to 1. -/
def change (stamp : Time) : Entry := { stamp := stamp, body := .change 7 true }

/-- A host MARK with tag 0102h. -/
def mark (stamp : Time) : Entry := { stamp := stamp, body := .mark 0x0102#16 .host }

/-- The state with the staging registers set. -/
def staged (table index : Byte) (entry : Vector Byte 8) (s : State) : State :=
  { s with hw := { s.hw with tabsel := table, tabidx := index, entry := entry } }

/-- The state with head and tail set. -/
def spanning (tail head : Pos) (s : State) : State := { s with js := { s.js with tail := tail, head := head } }

/-- The state with HOST attached at the given marks. -/
def hostAt (release read : Pos) (s : State) : State :=
  { s with js := { s.js with hostC := { Consumer.reset with attached := true, read := read, release := release } } }

/-- The state with EXPORT attached at the given marks and the given outstanding frames. -/
def exportAt (release read : Pos) (frames : List FrameRec) (s : State) : State :=
  { s with
    js := { s.js with exportC := { Consumer.reset with attached := true, read := read, release := release } },
    xl := { s.xl with outstanding := frames } }

/-- The state within a link transaction whose command has not come. -/
def selected (s : State) : State := { s with xl := { s.xl with phase := .selected 0x01#8 } }

/-- Capture RUNNING at time 2,000 with one entry due: stamped 1,000, running time 990. -/
def due (e : Entry) : State :=
  let s := capturing .running [e] (at' 2000)
  { s with je := { s.je with runningTime := 990 } }

/-! ### Well-formedness: one ill-formed command refused by each check -/

theorem test_unknown_command_naming_start_is_ill_formed : (Instr.unknownCommand 0x01#8).wellFormed = false := by decide +kernel

theorem test_link_unknown_command_naming_xmark_is_ill_formed :
    (Instr.linkUnknownCommand 0x60#8).wellFormed = false := by decide +kernel

theorem test_register_write_to_irqf_is_ill_formed : (Instr.registerWrite 0x10#6 0xFF#8).wellFormed = false := by decide +kernel

theorem test_bad_codes_and_plain_registers_are_well_formed :
    (Instr.unknownCommand 0x0F#8).wellFormed = true ∧ (Instr.linkUnknownCommand 0x52#8).wellFormed = true ∧
      (Instr.registerWrite 0x3F#6 0#8).wellFormed = true := by decide +kernel

/-! ### The spec's worked values -/

/-- R136: the CRC-16 over 31h to 39h is 29B1h. -/
theorem test_crc_of_the_nine_digits :
    crc16 [0x31#8, 0x32#8, 0x33#8, 0x34#8, 0x35#8, 0x36#8, 0x37#8, 0x38#8, 0x39#8] = 0x29B1#16 := by decide +kernel

/-- Section 12.1: the CHANGE of channel 7 to 1 with delta 4,110 is 21h, 07h, 8Eh, 20h. -/
theorem test_change_packet : entryPacket 90 (change 4200) = [0x21#8, 0x07#8, 0x8E#8, 0x20#8] := by decide +kernel

/-- Section 12.1: the late CHANGE of channel 3 to 0 with backward distance 50 is 22h, 03h, 32h. -/
theorem test_late_change_packet :
    entryPacket 4200 { stamp := 4150, body := .change 3 false } = [0x22#8, 0x03#8, 0x32#8] := by decide +kernel

/-- Section 12.4: the rule on channel 3, rise, HOLD, interrupt, qualifier channel 5 at 1 reads 03h, 15h, 20h, 0, 0, 20h,
0, 0. -/
theorem test_trigger_rule_bytes :
    encodeTrigger { enable := true, channel := 3, edge := .rise, mask := 0x20#24, value := 0x20#24, action := .hold,
                    interrupt := true } =
      #v[0x03#8, 0x15#8, 0x20#8, 0#8, 0#8, 0x20#8, 0#8, 0#8] := by decide +kernel

/-- Section 12.4: the reset bytes of the channel, time and journal entries. -/
theorem test_reset_entry_bytes :
    encodeChannel ChanDesc.reset = #v[0#8, 0x14#8, 0#8, 0x64#8, 0x32#8, 0#8, 0#8, 0#8] ∧
      encodeTime TimeTable.reset 0 = #v[0#8, 0xE8#8, 0x03#8, 0x0A#8, 0x58#8, 0x02#8, 0#8, 0#8] ∧
      encodeJournal JournalTable.reset = #v[0#8, 4#8, 4#8, 1#8, 0#8, 1#8, 0#8, 0#8] := by decide +kernel

/-- Section 12.4: an enable code of 2, an edge code of 3 and a policy byte of 02h fail. -/
theorem test_codes_without_meaning_fail :
    decodeChannel #v[2#8, 0#8, 0#8, 1#8, 1#8, 0#8, 0#8, 0#8] = none ∧
      decodeTrigger #v[0x60#8, 0#8, 0#8, 0#8, 0#8, 0#8, 0#8, 0#8] = none ∧
      decodeJournal #v[2#8, 4#8, 4#8, 1#8, 0#8, 1#8, 0#8, 0#8] = none := by decide +kernel

/-- R198: CAPST reads 03h during a reset load and 00h after a reset with CFGLD low. -/
theorem test_capst_after_reset :
    readRegister 0x02 (after (.deviceReset true) State.reset) = 0x03#8 ∧
      readRegister 0x02 (after (.deviceReset false) State.reset) = 0x00#8 := by decide +kernel

/-- R198: after a failed reset load IRQF reads 60h. -/
theorem test_irqf_after_failed_load :
    (after (.loadHeaderReceived 0x00#8 1#8 0#8 0#8 0#8) (after (.deviceReset true) State.reset)).ifu.irqf = 0x60#8 := by
  decide +kernel

/-- Section 2.3's example: the XACK of a frame ending at 1,200 leaves the tail at 1,040, HOST's RELEASE too, and RELEASE
HOLD moves it to 1,200 with the index entry 1,040 gone. -/
theorem test_freeing_with_two_readers_and_a_hold :
    let s := hostAt 1500#32 2400#32 <| exportAt 1200#32 1200#32 [] <| spanning 1040#32 2400#32 State.reset
    let held : State := { s with tu := { s.tu with hold := .closed, start := 1040#32 },
                                 js := { s.js with index := [1040#32, 2080#32] } }
    (after .release held).js.tail = 1040#32 ∧ (after .releaseHold (after .release held)).js.tail = 1200#32 ∧
      (after .releaseHold (after .release held)).js.index = [2080#32] := by decide +kernel

/-- Section 11.3: the discard step to 21,030 prunes both frames, sets EXPORT's marks to 21,030 and counts one skip. -/
theorem test_discard_overtaking_two_frames :
    let s := exportAt 20000#32 20128#32
      [{ seq := 40#8, start := 20000#32, stop := 20064#32 }, { seq := 41#8, start := 20064#32, stop := 20128#32 }] <|
      hostAt 30000#32 36350#32 <| spanning 20000#32 36350#32 State.reset
    let t := discardTo 21030#32 { s with js := { s.js with index := [20000#32, 21030#32, 22050#32] } }
    t.xl.outstanding = [] ∧ t.js.exportC.read = 21030#32 ∧ t.js.exportC.release = 21030#32 ∧ t.js.exportC.skips = 1 ∧
      t.js.hostC = s.js.hostC := by decide +kernel

/-- Section 11.4: with P = 2 the protected start is 5,120. -/
theorem test_protected_start_two_before_newest :
    syncBeforeNewest { Store.reset [] with tail := 4096#32, head := 7500#32,
                                           index := [4096#32, 5120#32, 6144#32, 7168#32] } 2 = 5120#32 := by decide +kernel

/-- Section 11.5: the pulse at 58.412290 steps the counter to 58.000000 and the settling stamp to 57.998710. -/
theorem test_pulse_locks_and_rebases :
    let s := withChannel { settlingAt 1290 with stamp := some 58411000 } (at' 58412290)
    let t := after (.pulse .rising) { s with tb := { s.tb with
      quality := .acquiring, reference := some 57412300, table := { TimeTable.reset with ppsEnable := true } } }
    t.tb.counter = 58000000 ∧ t.tb.quality = .locked ∧ t.icu[(3 : Channel)].stamp = some 57998710 := by decide +kernel

/-- Section 3.7: with 32 entries held, a MARK releases the held head and logs FORCED with the head's order key. -/
theorem test_forced_release_of_the_head :
    let s := capturing .running (List.replicate 32 (change 1990)) (at' 2000)
    (after .mark s).oq.queue.length = 32 ∧
      (after .mark s).ifu.faults = [{ kind := .forced, detail := 7#8, time := 2000 }] := by decide +kernel

/-- Section 11.6: a CRC that differs ends the load with LOADFAIL, reason 4. -/
theorem test_crc_mismatch_is_reason_4 :
    let s := after (.loadHeaderReceived 0xC3#8 1#8 0#8 0#8 5#8) (after (.deviceReset true) State.reset)
    (after (.loadCrcReceived 0#8 0#8) s).ifu.faults = [{ kind := .loadfail, detail := 4#8, time := 0 }] := by decide +kernel

/-- R128: the code 60h takes three argument bytes and nothing before the third; bytes beyond are ignored. -/
theorem test_link_bytes_of_xmark :
    linkCommandOf 0x60#8 [0x01#8, 0x02#8, 0xFC#8, 0x55#8] = some (.xmark 0x01#8 0x02#8 0xFC#8) ∧
      linkCommandOf 0x60#8 [0x01#8, 0x02#8] = none := by decide +kernel

/-- Eight clocks of the link carry a byte in, the most significant bit first. -/
def clockIn (b : Byte) (s : State) : State :=
  (List.range 8).foldl (fun s j => linkEdge .clkFalls (linkEdge (.clkRises (b.getLsbD (7 - j))) s)) s

/-- R127, R128: eight rising edges that carry 10h take XSTAT as its row does; seven complete nothing, and XSEL#'s rise
discards them; XDO gives the status byte's bits, the most significant first, and is high impedance behind a device reset. -/
theorem test_link_bits :
    let on := linkEdge .selFalls { State.reset with xl := { State.reset.xl with error := true } }
    let bare (s : State) : State := withLinkPort s (SerialPort.fresh false)
    bare (clockIn 0x10#8 on) = bare (after .xstat on) ∧
      (let seven := { on with xl := { on.xl with port := { on.xl.port with sampled := leadingBits 0x10#8 } } }
       linkEdge .selRises seven = { on with xl := { on.xl with phase := .deselected } }) ∧
      (xdoBit on = some true ∧ xdoBit (linkEdge .clkFalls (linkEdge (.clkRises true) on)) = some false ∧
        xdoBit (clockIn 0x10#8 on) = some false) ∧
      xdoBit (after (.deviceReset false) on) = none ∧
      (linkEdge (.clkRises true) (after (.deviceReset false) on)).xl.port.sampled = [] := by decide +kernel

/-- Eight clocks of the configuration memory carry a byte in, the most significant bit first. -/
def clockImage (b : Byte) (s : State) : State :=
  (List.range 8).foldl (fun s j => memoryEdge .clkFalls (memoryEdge (.clkRises (b.getLsbD (7 - j))) s)) s

/-- R180, R181: behind the three bytes of the command, C3h goes on and 3Ch fails the load with reason 1, MCLK then low. -/
theorem test_memory_bits :
    let on := clockImage 0xFF#8 (clockImage 0xFF#8 (clockImage 0xFF#8 (after (.deviceReset true) State.reset)))
    mdoBit on = some false ∧ (clockImage 0xC3#8 on).cl.state = .reading ∧ (clockImage 0x3C#8 on).oq.state = .stopped ∧
      (clockImage 0x3C#8 on).ifu.faults = [{ kind := .loadfail, detail := 1#8, time := 0 }] ∧
      mclkHigh (clockImage 0x3C#8 on) = false := by decide +kernel

/-- R180: MDO carries 03h, 00h, 00h and is low from there on; outside a read MSEL# is high and MCLK low. -/
theorem test_memory_port :
    (List.range 4).map (fun i => (memoryPort i (after (.deviceReset true) State.reset)).mdo) =
        [some 0x03#8, some 0#8, some 0#8, some 0#8] ∧
      memoryPort 0 State.reset = { selected := false, clocks := 0, mdo := none } := by decide +kernel

/-- R148: a read of ID drives B4h until RD# rises; with WR# low too neither strobe is taken, so that IRQE stays 00h; a write
alone is taken at WR#'s rise. -/
theorem test_bus_strobes :
    let on := busEdge .csFalls State.reset
    let read := busEdge (.rdFalls 0x00#6) on
    let both := busEdge (.wrRises 0x11#6 0xFF#8) (busEdge .rdRises (busEdge (.rdFalls 0x00#6) (busEdge .wrFalls on)))
    read.hw.dataOut = some 0xB4#8 ∧ (busEdge .rdRises read).hw.dataOut = none ∧ both.ifu.irqe = 0#8 ∧
      (busEdge (.rdFalls 0x00#6) (busEdge .wrFalls on)).hw.dataOut = none ∧
      (busEdge (.wrRises 0x11#6 0xFF#8) (busEdge .wrFalls on)).ifu.irqe = 0xFF#8 ∧
      (busEdge (.rdFalls 0x00#6) State.reset).hw.dataOut = none := by decide +kernel

/-- The table of R56, as log entry 27 takes it: on a full queue the CHANGE of an edge with settle 0 closes a HOLD-STOP hold by
its forced release, and the SUPPRESS stamped at the new stop stamp is discarded. -/
theorem test_suppress_behind_a_forced_close :
    let c : ChannelRec := { resting with desc := { resting.desc with settle := 0#8, chatterLimit := 2#8 }, chatterCount := 1 }
    let s := withChannel c (capturing .running (List.replicate 32 (mark 90)) (at' 100))
    let t := after (.rawEdge 3) { s with tu := { s.tu with hold := .collecting, quota := 1, action := .holdStop } }
    t.oq.state = .draining ∧ t.oq.stopStamp = 100 ∧ t.ifu.faults.length = 1 ∧
      (t.oq.queue.filter isChannelEntry).map (·.body) = [.change 3 true] ∧ t.icu[(3 : Channel)].state = .suppressed := by
  decide +kernel

/-! ### Witnesses for the hypotheses of the obligations -/

/-- Two frames of 64 and 10 bytes outstanding from position 0. -/
def twoFrames : List FrameRec :=
  [{ seq := 4#8, start := 0#32, stop := 64#32 }, { seq := 5#8, start := 64#32, stop := 74#32 }]

/-- A part at work: RUNNING with 100 bytes stored, a SYNC at 0 and one at 40, both readers attached, two frames
outstanding, a closed hold, one entry queued and channel 3 settling. -/
def working : State :=
  let s := withChannel { settlingAt 5 with stamp := some 1495 } <| hostAt 0#32 50#32 <|
    exportAt 0#32 74#32 twoFrames <| spanning 0#32 100#32 <| capturing .running [change 1000] (at' 1500)
  { s with
    js := { s.js with ram := [(0, 0x10#8), (40, 0x10#8)], index := [0#32, 40#32] },
    tu := { s.tu with hold := .closed, start := 40#32 }, xl := { s.xl with nextSeq := 6#8 },
    pending := [.irqeWrite 1#8], oq := { s.oq with horizon := 3000 } }

theorem working_journal_sound : JournalSound working where
  occupied := by decide +kernel
  hostMarks := by unfold marksOrdered; decide +kernel
  exportMarks := by unfold marksOrdered; decide +kernel
  indexRising := by decide +kernel
  indexRetained := by
    show ∀ e ∈ [0#32, 40#32], distFrom 0#32 e < 100
    intro e he
    simp only [List.mem_cons, List.not_mem_nil, or_false] at he
    rcases he with rfl | rfl <;> decide
  indexBound := by decide +kernel
  holdRetained := by decide +kernel
  frames := by
    intro _
    refine ⟨rfl, ?_, ?_, rfl, ?_, ?_, rfl⟩ <;> decide +kernel
  noFrames := by decide +kernel
  frameBound := by decide +kernel
  numbered :=
    { consecutive := ⟨rfl, trivial⟩
      newest := fun _ f hf => by
        have : f = { seq := 5#8, start := 64#32, stop := 74#32 } := by
          simpa [working, exportAt, twoFrames, spanning, capturing, at', withChannel, hostAt] using hf.symm
        subst this; decide
      flying := fun f hf => by
        have h : working.xl.flight = none := by decide +kernel
        rw [h] at hf; cases hf
      served := fun h => absurd h (by decide +kernel) }
  loadingEmpty := by decide +kernel
  loaderLoading := by decide +kernel

theorem working_queue_in_order : QueueInOrder working where
  ordered := by decide +kernel
  recent := by decide +kernel
  settling := by
    intro ch x stamp hx hs
    by_cases h3 : ch = 3
    · subst h3
      obtain rfl : { elapsed := 5, length := 2000 } = x := Option.some.inj hx
      obtain rfl : 1495 = stamp := Option.some.inj hs
      decide +kernel
    · have none_running : ∀ c : Channel, c ≠ 3 → working.icu[c].settle = none := by decide +kernel
      rw [none_running ch h3] at hx; cases hx
  horizon := by decide +kernel
  covers := by decide +kernel

theorem working_is_sound :
    ReserveKept working ∧ HeadersAtIndex working ∧ WithinLimits working ∧ ChannelsSound working ∧
      TimeBaseSound working.tb ∧ TablesLegal working ∧ AvlCurrent working ∧ RamCanonical working ∧
      QueueEmptyOutsideRun working := by
  refine ⟨⟨by decide +kernel, by decide +kernel⟩, ?_, ?_, ?_, ?_, ?_, ?_, ?_, ?_⟩
  · show ∀ e ∈ [0#32, 40#32], working.js.ram.read (e.toNat % Config.ringSize) = 0x10#8
    intro e he
    simp only [List.mem_cons, List.not_mem_nil, or_false] at he
    rcases he with rfl | rfl <;> decide +kernel
  · constructor <;> decide +kernel
  · intro ch
    revert ch
    suffices h : ∀ ch : Channel, ch ≠ 3 → working.icu[ch] = ChannelRec.reset false by
      intro ch
      by_cases h3 : ch = 3
      · subst h3; constructor <;> decide +kernel
      · rw [h ch h3]; constructor <;> decide +kernel
    decide +kernel
  · constructor
    · exact fun _ => ⟨rfl, rfl⟩
    · decide +kernel
    · decide +kernel
    · exact fun h => absurd h (by decide +kernel)
    · decide +kernel
  · constructor <;> decide +kernel
  · unfold AvlCurrent; decide +kernel
  · unfold RamCanonical; decide +kernel
  · unfold QueueEmptyOutsideRun; decide +kernel

/-- IdlePartCountsOneMicrosecond: nothing waits and nothing is due. -/
theorem witness_idle_part : State.reset.pending = [] ∧ dueEvents State.reset = [] := by decide +kernel

/-- The invariants' statements: a part at work that meets every invariant takes a step. -/
theorem witness_step_invariants :
    ∃ t, JournalSound working ∧ ReserveKept working ∧ HeadersAtIndex working ∧ WithinLimits working ∧
      ChannelsSound working ∧ TimeBaseSound working.tb ∧ TablesLegal working ∧ AvlCurrent working ∧
      RamCanonical working ∧ QueueEmptyOutsideRun working ∧ QueueInOrder working ∧ step working = .next t :=
  let ⟨a, b, c, d, e, f, g, h, i⟩ := working_is_sound
  ⟨_, working_journal_sound, a, b, c, d, e, f, g, h, i, working_queue_in_order, rfl⟩

/-- ResetMeetsInvariants, its second case: a part at work is reset. -/
theorem witness_device_reset : ∃ t, RamCanonical working ∧ exec (.deviceReset true) working = .next t :=
  ⟨_, working_is_sound.2.2.2.2.2.2.2.1, rfl⟩

/-- NothingAppendedOutsideRun: RESTART of a journal of 100 bytes. -/
theorem witness_nothing_appended :
    let s := spanning 0#32 100#32 State.reset
    runOpen s = false ∧ runOpen (after .restart s) = false ∧ (after .restart s).js.head = 0#32 ∧ s.js.head = 100#32 := by
  decide +kernel

/-- FlagsFaultsAndCounterHold: an early timeout with every flag set, four records and 255 lost. -/
theorem witness_flags_and_faults :
    let s : State := { State.reset with ifu := { FaultUnit.reset with
      irqf := 0xFF#8, lost := 255, faults := List.replicate 4 { kind := .late, detail := 3#8, time := 5 } } }
    Instr.timeout.wellFormed = true ∧ exec .timeout s = .next s ∧ s.ifu.irqf.getLsbD 7 = true ∧ s.ifu.lost ≤ 255 :=
  ⟨rfl, rfl, rfl, by decide⟩

/-- CaptureStateTransitions: START changes the capture state, with the loader IDLE and with it READING only in LOADING. -/
theorem witness_capture_transition :
    Instr.start.wellFormed = true ∧ State.reset.cl.state = .idle ∧ (after .start State.reset).oq.state = .running ∧
      (after (.loadHeaderReceived 0#8 1#8 0#8 0#8 0#8) (after (.deviceReset true) State.reset)).oq.state = .stopped := by
  decide +kernel

/-- TablesFixedDuringRun: a part at work has its run open and its loader IDLE. -/
theorem witness_tables_fixed : runOpen working = true ∧ working.cl.state = .idle := by decide +kernel

/-- EarlyExpiryChangesNothing: each timer one microsecond short of its length, and no settling at all. -/
theorem witness_early_expiry :
    State.reset.icu[(3 : Channel)].settle = none ∧
    (settlingAt 1999).settle = some { elapsed := 1999, length := 2000 } ∧ 1999 < 2000 ∧
    (suppressedAt 4999999).quiet = some { elapsed := 4999999, length := 5000000 } ∧
    ({ resting with window := some { elapsed := 9999, length := 10000 } } : ChannelRec).window.isSome = true ∧
    (let s : State := { at' 1000999 with tb := { (at' 1000999).tb with quality := .acquiring, reference := some 0 } }
     isBefore s.tb.counter (addMicros 0 (1000000 + s.tb.table.lockWindow.toNat)) = true) ∧
    599999999 < 1000000 * TimeTable.reset.holdoverLimit.toNat ∧
    (let s := capturing .running [change 1000] (at' 1999)
     isBefore s.tb.counter (addMicros (change 1000).stamp s.oq.horizon) = true) ∧
    (let s := capturing .draining [] (at' 999)
     isBefore s.tb.counter (addMicros s.oq.stopStamp s.oq.horizon) = true) := by decide +kernel

/-- RawEdgeDrivesDebouncing: each channel state with a line at the level each clause asks for. -/
theorem witness_raw_edge :
    let level (c : ChannelRec) := !(c.line ^^ c.desc.invert)
    let instant (c : ChannelRec) : ChannelRec := { c with desc := { c.desc with settle := 0#8 } }
    State.reset.icu[(3 : Channel)].state = .off ∧
    (resting.state = .stable ∧ level resting ≠ resting.accepted ∧ resting.desc.settle ≠ 0#8) ∧
    ((instant resting).desc.settle = 0#8 ∧ level (instant resting) ≠ (instant resting).accepted ∧
      runOpen State.reset = false) ∧
    ((settlingAt 5).state = .settling ∧ level (settlingAt 5) = (settlingAt 5).accepted) ∧
    ((suppressedAt 5).state = .suppressed ∧ level (suppressedAt 5) ≠ (suppressedAt 5).accepted ∧
      (suppressedAt 5).desc.settle ≠ 0#8 ∧ (instant (suppressedAt 5)).desc.settle = 0#8) ∧
    ((suppressedSettlingAt 5).state = .suppressedSettling ∧
      level (suppressedSettlingAt 5) = (suppressedSettlingAt 5).accepted) := by decide +kernel

/-- AcceptedChangeIsOffered: channel 3 has settled, outside a run and in RUNNING with 31 entries queued; and a channel
with settle 0 at rest. -/
theorem witness_accepted_change :
    let s := withChannel (settlingAt 2000) (capturing .running (List.replicate 31 (change 90)) (at' 2100))
    let z := withChannel { resting with desc := { resting.desc with settle := 0#8 } } (capturing .running [] (at' 5))
    (s.icu[(3 : Channel)].state = .settling ∧ s.icu[(3 : Channel)].settle = some { elapsed := 2000, length := 2000 } ∧
      s.icu[(3 : Channel)].stamp = some 100 ∧ s.oq.state = .running ∧ s.icu[(3 : Channel)].desc.chatterLimit = 0#8 ∧
      s.oq.queue.length < 32) ∧
    runOpen (withChannel (settlingAt 2000) State.reset) = false ∧
    ((!(z.icu[(3 : Channel)].line ^^ z.icu[(3 : Channel)].desc.invert)) ≠ z.icu[(3 : Channel)].accepted ∧
      z.icu[(3 : Channel)].state = .stable ∧ z.icu[(3 : Channel)].desc.settle = 0#8 ∧ z.oq.queue.length < 32) := by
  decide +kernel

/-- ChatterLimitSuppresses: chatter limit 2 with a count of 0 and of 1, at a settle expiry and at an edge with settle 0. -/
theorem witness_chatter :
    let c (n : Nat) : ChannelRec :=
      { settlingAt 2000 with desc := { (settlingAt 2000).desc with chatterLimit := 2#8 }, chatterCount := n }
    let s (n : Nat) := withChannel (c n) (capturing .running (List.replicate 30 (change 90)) (at' 2100))
    (s 0).icu[(3 : Channel)].state = .settling ∧ (s 0).icu[(3 : Channel)].stamp = some 100 ∧
      (s 0).icu[(3 : Channel)].chatterCount + 1 < (s 0).icu[(3 : Channel)].desc.chatterLimit.toNat ∧
      (s 1).icu[(3 : Channel)].chatterCount + 1 = (s 1).icu[(3 : Channel)].desc.chatterLimit.toNat ∧
      (s 1).oq.queue.length + 2 ≤ 32 ∧ (s 1).oq.state = .running ∧
      (let z : ChannelRec := { resting with desc := { (c 0).desc with settle := 0#8 }, chatterCount := 1 }
       z.state = .stable ∧ z.desc.settle = 0#8 ∧ z.chatterCount + 1 = z.desc.chatterLimit.toNat ∧
         (!(z.line ^^ z.desc.invert)) ≠ z.accepted) := by decide +kernel

/-- ChannelTimersEndSuppression: a window, a quiet time and a settling that have just come, in and outside a run. -/
theorem witness_channel_timers :
    let s := withChannel (suppressedAt 5000000) (capturing .running (List.replicate 31 (change 90)) (at' 2100))
    ({ resting with window := some { elapsed := 10000, length := 10000 } } : ChannelRec).window =
      some { elapsed := 10000, length := 10000 } ∧
    (s.icu[(3 : Channel)].state = .suppressed ∧
      s.icu[(3 : Channel)].quiet = some { elapsed := 5000000, length := 5000000 } ∧ s.oq.state = .running ∧
      s.oq.queue.length < 32) ∧
    runOpen (withChannel (suppressedAt 5000000) State.reset) = false ∧
    ((suppressedSettlingAt 2000).state = .suppressedSettling ∧
      (suppressedSettlingAt 2000).settle = some { elapsed := 2000, length := 2000 }) := by decide +kernel

/-- DrainJudgesEntriesByStamp: DRAINING, stamps of 100 against stop stamps of 101 and 100; each of the acceptances, with 31
and with 30 entries queued; a quiet expiry and an edge with settle 0 at 2,100 against a stop stamp of 2,101. -/
theorem witness_drain_judges :
    let limit (c : ChannelRec) (n : Nat) : ChannelRec :=
      { c with desc := { c.desc with chatterLimit := 2#8 }, chatterCount := n }
    let s (c : ChannelRec) (n : Nat) (stop : Time) : State := withChannel c { at' 2100 with
      oq := { State.reset.oq with state := .draining, stopStamp := stop, queue := List.replicate n (change 90) } }
    let a := s (settlingAt 2000) 31 101
    let z := s { resting with desc := { resting.desc with settle := 0#8 } } 31 2101
    let q := s (suppressedAt 5000000) 31 2101
    (a.oq.state = .draining ∧ a.oq.queue.length + 1 ≤ 32 ∧ a.icu[(3 : Channel)].state = .settling ∧
      a.icu[(3 : Channel)].stamp = some 100 ∧ a.icu[(3 : Channel)].settle = some { elapsed := 2000, length := 2000 } ∧
      a.icu[(3 : Channel)].desc.chatterLimit = 0#8 ∧ isBefore 100 a.oq.stopStamp = true ∧
      isBefore 100 (s (settlingAt 2000) 31 100).oq.stopStamp = false) ∧
    ((limit (settlingAt 2000) 0).chatterCount + 1 < (2#8).toNat ∧
      (limit (settlingAt 2000) 1).chatterCount + 1 = (2#8).toNat ∧
      (s (limit (settlingAt 2000) 1) 30 101).oq.queue.length + 2 ≤ 32) ∧
    (z.icu[(3 : Channel)].state = .stable ∧ z.icu[(3 : Channel)].desc.settle = 0#8 ∧
      (!(z.icu[(3 : Channel)].line ^^ z.icu[(3 : Channel)].desc.invert)) ≠ z.icu[(3 : Channel)].accepted ∧
      (limit z.icu[(3 : Channel)] 1).chatterCount + 1 = (limit z.icu[(3 : Channel)] 1).desc.chatterLimit.toNat ∧
      isBefore z.tb.counter z.oq.stopStamp = true) ∧
    (q.icu[(3 : Channel)].state = .suppressed ∧
      q.icu[(3 : Channel)].quiet = some { elapsed := 5000000, length := 5000000 }) := by decide +kernel

/-- A time base with PPS enabled, of the given quality and reference. -/
def disciplined (q : Quality) (r : Option Time) (now : Time) : State :=
  { State.reset with tb := { TimeBase.reset with
    counter := now, quality := q, reference := r, table := { TimeTable.reset with ppsEnable := true } } }

/-- PulseBeginsAcquisition: PPS disabled; UNSYNCED; a reject at the count 2 and at 1, 1,001 µs off the second; HOLDOVER
at the same offset; an interval one µs too short. -/
theorem witness_pulse_acquires :
    State.reset.tb.table.ppsEnable = false ∧
    (let s := disciplined .unsynced none 7
     s.tb.table.ppsEnable = true ∧ s.tb.table.ppsEdge = .rising ∧ s.tb.quality = .unsynced) ∧
    (let s := disciplined .locked (some 0) 1001001
     s.tb.table.lockWindow.toNat < offSecond s.tb.counter ∧
       ({ s.tb with rejects := 2 } : TimeBase).rejects = 2 ∧ ({ s.tb with rejects := 1 } : TimeBase).rejects < 2) ∧
    (let s := disciplined .holdover none 1998999
     s.tb.quality = .holdover ∧ s.tb.table.lockWindow.toNat < offSecond s.tb.counter) ∧
    (let s := disciplined .acquiring (some 0) 998999
     s.tb.reference = some 0 ∧ forward 0 s.tb.counter < 1000000 - s.tb.table.lockWindow.toNat) := by decide +kernel

/-- PulseLocksTimeBase: intervals of exactly 1,000,000 − W and 1,000,000 + W; a second met 1,000 µs early; a trim of 10 µs
in HOLDOVER, in RUNNING with 31 entries. -/
theorem witness_pulse_locks :
    let h := capturing .running (List.replicate 31 (change 90)) (disciplined .holdover none 1000010)
    PulseAligns (disciplined .acquiring (some 0) 999000).tb ∧ PulseAligns (disciplined .acquiring (some 0) 1001000).tb ∧
      PulseAligns (disciplined .locked (some 0) 999000).tb ∧ PulseAligns h.tb ∧ h.tb.table.ppsEnable = true ∧
      h.oq.state = .running ∧ h.tb.quality ≠ .locked ∧ h.oq.queue.length < 32 ∧ 0 < offSecond h.tb.counter ∧
      offSecond h.tb.counter ≤ h.tb.table.trimBand.toNat ∧ (disciplined .locked (some 0) 999000).oq.state ≠ .running :=
  ⟨.inl ⟨rfl, 0, rfl, by decide +kernel, by decide +kernel⟩, .inl ⟨rfl, 0, rfl, by decide +kernel, by decide +kernel⟩,
    .inr ⟨.inl rfl, by decide +kernel⟩, .inr ⟨.inr rfl, by decide +kernel⟩, by decide +kernel⟩

/-- TimeoutsLoseTheTime: the timeout met exactly, from each origin and with the holdover timer running and expired; the
holdover limit met exactly in each of the three states. -/
theorem witness_timeouts :
    (let s := disciplined .acquiring (some 0) 1001000
     s.tb.origin = .fromUnsynced ∧ s.tb.reference = some 0 ∧
       isBefore s.tb.counter (addMicros 0 (1000000 + s.tb.table.lockWindow.toNat)) = false) ∧
    (let s := disciplined .locked (some 0) 1001000
     s.tb.quality = .locked ∧ ({ s.tb with holdover := .running 5 } : TimeBase).holdover ≠ .expired ∧
       ({ s.tb with holdover := .expired } : TimeBase).holdover = .expired) ∧
    1000000 * TimeTable.reset.holdoverLimit.toNat ≤ 600000000 ∧
    (disciplined .holdover none 5).tb.quality = .holdover ∧ (disciplined .acquiring (some 0) 5).tb.quality = .acquiring ∧
    (disciplined .locked (some 0) 5).tb.quality = .locked := by decide +kernel

/-- The causes of one change of quality, each at its boundary: a first pulse; a pulse 1,001 µs off the second as the third
reject in LOCKED, and in HOLDOVER; a timeout just reached in ACQUIRING of either origin and in LOCKED; a holdover limit just
reached; PPS disabled in LOCKED; and a double change. -/
def changingQuality : List (State × Instr) :=
  let held (s : State) : State := { s with tb := { s.tb with origin := .fromHeld, holdover := .running 0 } }
  let l := disciplined .locked (some 0) 1001001
  let h := disciplined .holdover none 1001001
  [(disciplined .unsynced none 7, .pulse .rising), ({ l with tb := { l.tb with rejects := 2 } }, .pulse .rising),
    (h, .pulse .rising), (disciplined .acquiring (some 0) 1001000, .timeout),
    (held (disciplined .acquiring (some 0) 1001000), .timeout), (held (disciplined .locked (some 0) 1001000), .timeout),
    ({ h with tb := { h.tb with holdover := .running 600000000 } }, .holdoverExpiry)]

/-- In LOCKED, staged for a write of the time table that only disables PPS. -/
def disabling : State := staged 3#8 0#8 (encodeTime TimeTable.reset 0) (disciplined .locked (some 0) 5)

/-- A timeout in LOCKED with the holdover timer expired. -/
def doubleChange : State :=
  let s := disciplined .locked (some 0) 1001000
  { s with tb := { s.tb with holdover := .expired } }

theorem disabling_disables : DisablesPps disabling TimeTable.reset :=
  ⟨rfl, by decide, rfl, rfl, by decide +kernel, rfl, rfl, rfl, rfl, rfl, by decide⟩

theorem double_change_is_due : DoubleChangeDue doubleChange.tb :=
  ⟨.inl rfl, rfl, 0, rfl, by decide +kernel⟩

/-- Every cause of the list is a change of quality. -/
theorem changes_of_quality : ∀ p ∈ changingQuality, ∃ new, QualityChange p.1 p.2 new := by
  intro p hp
  simp only [changingQuality, List.mem_cons, List.not_mem_nil, or_false] at hp
  rcases hp with rfl | rfl | rfl | rfl | rfl | rfl | rfl
  · exact ⟨_, .inl ⟨rfl, rfl, .inl ⟨rfl, rfl⟩⟩⟩
  · exact ⟨_, .inl ⟨rfl, rfl, .inr (.inl ⟨rfl, by decide +kernel, rfl, rfl⟩)⟩⟩
  · exact ⟨_, .inl ⟨rfl, rfl, .inr (.inr ⟨rfl, by decide +kernel, rfl⟩)⟩⟩
  · exact ⟨_, .inr (.inl ⟨rfl, ⟨0, rfl, by decide +kernel⟩, .inl ⟨rfl, rfl, rfl⟩⟩)⟩
  · exact ⟨_, .inr (.inl ⟨rfl, ⟨0, rfl, by decide +kernel⟩, .inr ⟨.inr ⟨rfl, rfl⟩, by decide, rfl⟩⟩)⟩
  · exact ⟨_, .inr (.inl ⟨rfl, ⟨0, rfl, by decide +kernel⟩, .inr ⟨.inl rfl, by decide, rfl⟩⟩)⟩
  · exact ⟨_, .inr (.inr ⟨rfl, rfl, ⟨600000000, rfl, by decide +kernel⟩, rfl⟩)⟩

/-- QualityChangeOffersTimeq: each cause outside a run and in RUNNING with 31 entries, a double change with 30, and a lock. -/
theorem witness_quality_change :
    (∀ p ∈ changingQuality, ∃ new, QualityChange p.1 p.2 new) ∧ DoubleChangeDue doubleChange.tb ∧
      DisablesPps disabling TimeTable.reset ∧
      (let s := capturing .running (List.replicate 31 (change 90)) (disciplined .acquiring (some 0) 1000412)
       PulseAligns s.tb ∧ s.tb.table.ppsEnable = true ∧ s.tb.quality ≠ .locked ∧ s.oq.queue.length < 32) ∧
      disabling.oq.state ≠ .running ∧ (capturing .running (List.replicate 30 (change 90)) doubleChange).oq.state = .running ∧
      (capturing .running (List.replicate 30 (change 90)) doubleChange).oq.queue.length + 1 + 1 ≤ 32 :=
  ⟨changes_of_quality, double_change_is_due, disabling_disables,
    ⟨.inl ⟨rfl, 0, rfl, by decide +kernel, by decide +kernel⟩, by decide +kernel⟩, by decide, rfl, by decide⟩

/-- SetTimeMovesEveryStamp: 1,000,000 µs refused and 999,999 µs taken; the counter's own time; a new time in STOPPED, and in
DRAINING with nothing clamped and with the stop stamp clamped. -/
theorem witness_set_time :
    let bytes (lo mid hi : Byte) : Vector Byte 8 := #v[0#8, 0#8, 0#8, 0#8, lo, mid, hi, 0#8]
    let micros (v : Vector Byte 8) := v[4].toNat + 256 * v[5].toNat + 65536 * v[6].toNat
    let seven (s : State) := staged 0#8 0#8 (bytes 7#8 0#8 0#8) s
    micros (bytes 0x40#8 0x42#8 0x0F#8) = 1000000 ∧ micros (bytes 0x3F#8 0x42#8 0x0F#8) = 999999 ∧
    givenTime (seven (at' 7)) = (at' 7).tb.counter ∧ (at' 7).hw.inProgress = none ∧ (at' 7).oq.state = .stopped ∧
    givenTime (seven (at' 9)) ≠ (at' 9).tb.counter ∧
    clampedQueued (7 - 9) (capturing .draining [] (at' 9)) = 1 ∧
    clampedQueued (7 - 5) (capturing .draining [] (at' 5)) = 0 ∧
    clampedChannels (7 - 5) (capturing .draining [] (at' 5)) = [] := by decide +kernel

/-- JournaledStepIsWritten: RUNNING with exactly 64 bytes free; a time 7 µs for the counter's 5; a pulse that locks 412,290
µs off the second and one 11 µs off it in LOCKED, T being 10. -/
theorem witness_journaled_step :
    let full (s : State) : State := spanning 0#32 16320#32 (capturing .running [] s)
    let s := staged 0#8 0#8 #v[0#8, 0#8, 0#8, 0#8, 7#8, 0#8, 0#8, 0#8] (full (at' 5))
    let a := full (disciplined .acquiring (some 57412300) 58412290)
    let l := full (disciplined .locked (some 0) 1000011)
    (s.hw.inProgress = none ∧ s.oq.state = .running ∧ s.js.fill = .normal ∧ 64 ≤ freeSpace s.js ∧
      occupancy s.js ≤ 16384 ∧ s.js.index.length < 64 ∧ RamCanonical s ∧ givenTime s ≠ s.tb.counter) ∧
    (PulseAligns a.tb ∧ PulseAligns l.tb) ∧
    (a.tb.table.ppsEnable = true ∧ a.tb.table.trimBand.toNat < offSecond a.tb.counter ∧ a.oq.queue.length < 32 ∧
      l.tb.table.trimBand.toNat < offSecond l.tb.counter ∧ l.tb.quality = .locked) := by
  refine ⟨?_, ⟨.inl ⟨rfl, 57412300, rfl, by decide +kernel, by decide +kernel⟩, .inr ⟨.inl rfl, by decide +kernel⟩⟩, ?_⟩
  · unfold RamCanonical; decide +kernel
  · decide +kernel

/-- MarksJoinTheQueue: RUNNING with 31 entries, and an XMARK of FFFFh with its check byte 01h. -/
theorem witness_marks_join :
    let s := selected (capturing .running (List.replicate 31 (change 90)) (at' 100))
    s.oq.state = .running ∧ s.oq.queue.length < 32 ∧ s.hw.inProgress = none ∧ s.xl.phase = .selected 0x01#8 ∧
      (0x01#8).toNat = 255 - ((0xFF#8).toNat + (0xFF#8).toNat) % 256 := by decide +kernel

/-- FullQueueForcesRelease: 32 entries in RUNNING, and in DRAINING with a stamp before the stop stamp; an XMARK, a change of
quality of every cause, a settled channel with chatter off, below its limit and at it, a channel with settle 0, and a quiet
expiry. -/
theorem witness_full_queue :
    let full (s : State) : State := capturing .running (List.replicate 32 (change 90)) s
    let s := full (at' 100)
    let limit (n : Nat) : ChannelRec :=
      { settlingAt 2000 with desc := { (settlingAt 2000).desc with chatterLimit := 2#8 }, chatterCount := n }
    let d : State := { s with oq := { s.oq with state := .draining, stopStamp := 101 } }
    let a := full (disciplined .acquiring (some 0) 1000412)
    (s.hw.inProgress = none ∧ s.oq.state = .running ∧ s.oq.queue.length = 32 ∧
      (d.oq.state = .draining ∧ isBefore 100 d.oq.stopStamp = true ∧ d.tb.counter = 100) ∧
      (selected s).xl.phase = .selected 0x01#8 ∧
      ((settlingAt 2000).state = .settling ∧ (settlingAt 2000).stamp = some 100 ∧
        (settlingAt 2000).settle = some { elapsed := 2000, length := 2000 } ∧ (settlingAt 2000).desc.chatterLimit = 0#8) ∧
      (limit 0).chatterCount + 1 < (limit 0).desc.chatterLimit.toNat ∧
      (limit 1).chatterCount + 1 = (limit 1).desc.chatterLimit.toNat ∧
      (suppressedAt 5000000).quiet = some { elapsed := 5000000, length := 5000000 } ∧ resting.state = .stable ∧
      (!(resting.line ^^ resting.desc.invert)) ≠ resting.accepted) ∧
      (∀ p ∈ changingQuality, ∃ new, QualityChange (full p.1) p.2 new) ∧ DoubleChangeDue (full doubleChange).tb ∧
      DisablesPps (full disabling) TimeTable.reset ∧ (PulseAligns a.tb ∧ a.tb.quality ≠ .locked) := by
  refine ⟨by decide +kernel, changes_of_quality, double_change_is_due, ?_, ?_⟩
  · exact ⟨rfl, by decide, rfl, rfl, by decide +kernel, rfl, rfl, rfl, rfl, rfl, by decide⟩
  · exact ⟨.inl ⟨rfl, 0, rfl, by decide +kernel, by decide +kernel⟩, by decide⟩

theorem due_unwatched (e : Entry) : Unwatched (due e) e := by
  have h : ∀ i : Fin 8, (due e).tu.rules[i].enable = false := by
    intro i; simp [due, capturing, at', State.reset, TriggerUnit.reset, TriggerRule.reset]
  intro i ch level _ hi
  rw [h i] at hi; cases hi

/-- HeadEntryIsStored: the change stamped 1,000, due at 2,000, with its delta of 10 and an empty journal. -/
theorem witness_head_entry :
    HeadDue (due (change 1000)) (change 1000) [] ∧ Unwatched (due (change 1000)) (change 1000) ∧
      NoSyncDue (due (change 1000)) (change 1000) ∧ (due (change 1000)).tu.hold ≠ .collecting ∧
      (due (change 1000)).js.fill = .normal ∧ RamCanonical (due (change 1000)) ∧
      isBefore (change 1000).stamp (due (change 1000)).je.runningTime = false ∧
      (entryHead 0 (change 1000).body ++ varint (forward (due (change 1000)).je.runningTime 1000)).length + 32 ≤
        freeSpace (due (change 1000)).js := by
  refine ⟨⟨rfl, by decide +kernel, by decide +kernel⟩, due_unwatched _, ⟨by decide +kernel, by decide +kernel⟩, ?_⟩
  unfold RamCanonical; decide +kernel

/-- LateEntryIsWrittenBackward: an entry stamped 1,000 against a running time of 1,050, for a MARK and a TIMEQ. -/
theorem witness_late_entry :
    let late (e : Entry) : State := { due e with je := { (due e).je with runningTime := 1050 } }
    let q : Entry := { stamp := 1000, body := .timeq .locked .acquiring }
    HeadDue (late (mark 1000)) (mark 1000) [] ∧ HeadDue (late q) q [] ∧ NoSyncDue (late q) q ∧
      isBefore (mark 1000).stamp (late (mark 1000)).je.runningTime = true ∧ RamCanonical (late q) ∧
      (entryHead 1 (mark 1000).body ++ varint 50).length + 32 ≤ freeSpace (late (mark 1000)).js := by
  refine ⟨⟨rfl, by decide +kernel, by decide +kernel⟩, ⟨rfl, by decide +kernel, by decide +kernel⟩,
    ⟨by decide +kernel, by decide +kernel⟩, ?_⟩
  unfold RamCanonical; decide +kernel

/-- DueSyncPrecedesEntry: exactly 1,024 bytes since the last SYNC, for an entry in order and for a late one; and a delta one
above the largest. -/
theorem witness_due_sync :
    let at1024 (running : Time) : State :=
      { due (change 1000) with je := { (due (change 1000)).je with sinceSync := 1024, runningTime := running } }
    let far : State :=
      { due (change 34359740000) with
        je := { (due (change 34359740000)).je with runningTime := 1632 },
        tb := { (due (change 34359740000)).tb with counter := 34359741000 } }
    (HeadDue (at1024 990) (change 1000) [] ∧ HeadDue (at1024 1050) (change 1000) [] ∧ HeadDue far (change 34359740000) []) ∧
    256 * (at1024 990).js.table.syncInterval.toNat ≤ (at1024 990).je.sinceSync ∧ occupancy (at1024 990).js ≤ 16384 ∧
      (syncAs (at1024 990) 1000 0#24 ++ (entryHead 0 (change 1000).body ++ varint 0)).length + 32 ≤
        freeSpace (at1024 990).js ∧
      (at1024 990).js.index.length < 64 ∧ isBefore (change 1000).stamp (at1024 990).je.runningTime = false ∧
      isBefore (change 1000).stamp (at1024 1050).je.runningTime = true ∧
      isBefore (change 34359740000).stamp far.je.runningTime = false ∧
      forward far.je.runningTime 34359740000 = 34359738367 + 1 := by
  refine ⟨⟨⟨rfl, ?_, ?_⟩, ⟨rfl, ?_, ?_⟩, ⟨rfl, ?_, ?_⟩⟩, ?_⟩ <;> decide +kernel

/-- FullStoreLosesEntries: 34 bytes free for a packet of three; LOSING with one byte less than the resume room. -/
theorem witness_full_store :
    let s := spanning 0#32 16350#32 (due (change 1000))
    let l : State := { spanning 0#32 15361#32 (due (change 1000)) with
      js := { (spanning 0#32 15361#32 (due (change 1000))).js with fill := .losing } }
    HeadDue s (change 1000) [] ∧ HeadDue l (change 1000) [] ∧ s.js.table.policy = .keepOldest ∧
      freeSpace s.js < (entryHead 0 (change 1000).body ++ varint (forward s.je.runningTime 1000)).length + 32 ∧
      l.js.fill = .losing ∧ freeSpace l.js < 256 * l.js.table.resumeRoom.toNat := by
  refine ⟨⟨rfl, by decide +kernel, by decide +kernel⟩, ⟨rfl, by decide +kernel, by decide +kernel⟩, ?_⟩
  decide +kernel

/-- ResumptionReportsTheLoss: LOSING with exactly the resume room of 1,024 bytes free. -/
theorem witness_resumption :
    let d := spanning 0#32 15360#32 (due (change 1000))
    let s : State := { d with js := { d.js with fill := .losing }, je := { d.je with lossCount := 3 } }
    HeadDue s (change 1000) [] ∧ s.js.fill = .losing ∧ 256 * s.js.table.resumeRoom.toNat ≤ freeSpace s.js ∧
      1 ≤ s.js.table.resumeRoom.toNat ∧ occupancy s.js ≤ 16384 ∧ s.js.index.length < 64 ∧ s.je.lossCount ≤ 65535 ∧
      isBefore (change 1000).stamp s.je.runningTime = false := by
  refine ⟨⟨rfl, by decide +kernel, by decide +kernel⟩, ?_⟩
  decide +kernel

/-- Under KEEP-NEWEST, 34 bytes free for a packet of three, segments at 0, 1,040 and 2,090, HOST's release mark at 0 and
EXPORT's two frames in the oldest segment; the hold as given, its protected start at `start`. -/
def crowded (hold : HoldState) (start : Pos) : State :=
  let d := hostAt 0#32 16350#32 <| exportAt 0#32 74#32 twoFrames <| spanning 0#32 16350#32 (due (change 1000))
  { d with
    js := { d.js with index := [0#32, 1040#32, 2090#32], table := { d.js.table with policy := .keepNewest } },
    tu := { d.tu with hold := hold, start := start }, xl := { d.xl with nextSeq := 6#8 } }

theorem crowded_sound (hold : HoldState) (h : hold = .noHold ∨ hold = .closed) : JournalSound (crowded hold 1039#32) := by
  rcases h with rfl | rfl
  all_goals exact
    { occupied := by decide +kernel
      hostMarks := by unfold marksOrdered; decide +kernel
      exportMarks := by unfold marksOrdered; decide +kernel
      indexRising := by decide +kernel
      indexRetained := by
        show ∀ e ∈ [0#32, 1040#32, 2090#32], distFrom 0#32 e < 16350
        intro e he
        simp only [List.mem_cons, List.not_mem_nil, or_false] at he
        rcases he with rfl | rfl | rfl <;> decide
      indexBound := by decide +kernel
      holdRetained := by decide +kernel
      frames := by
        intro _
        refine ⟨rfl, ?_, ?_, rfl, ?_, ?_, rfl⟩ <;> decide +kernel
      noFrames := by decide +kernel
      frameBound := by decide +kernel
      numbered :=
        { consecutive := ⟨rfl, trivial⟩
          newest := fun _ f hf => by
            have : f = { seq := 5#8, start := 64#32, stop := 74#32 } := by
              simpa [crowded, due, exportAt, twoFrames, spanning, capturing, at', hostAt] using hf.symm
            subst this; decide
          flying := fun f hf => by cases hf
          served := fun h => by cases h }
      loadingEmpty := by decide +kernel
      loaderLoading := by decide +kernel }

/-- DiscardMovesReadersOn: with no hold the next segment, at 1,040, passes both readers' release marks and makes room; with
a protected start of 1,039 it lies beyond. -/
theorem witness_discard :
    let s := crowded .noHold 1039#32
    JournalSound s ∧ JournalSound (crowded .closed 1039#32) ∧ HeadDue s (change 1000) [] ∧
      HeadDue (crowded .closed 1039#32) (change 1000) [] ∧ NoSyncDue s (change 1000) ∧ NextSegment s.js 1040#32 ∧
      (s.js.table.policy = .keepNewest ∧ s.js.exportC.attached = true ∧ s.tu.hold = .noHold ∧
        freeSpace s.js < (entryHead 0 (change 1000).body ++ varint (forward s.je.runningTime 1000)).length + 32 ∧
        (entryHead 0 (change 1000).body ++ varint (forward s.je.runningTime 1000)).length + 32 ≤
          freeSpace (tailAt 1040#32 (discardedTo 1040#32 s).js) ∧
        (discardedTo 1040#32 s).xl.outstanding = [] ∧ (discardedTo 1040#32 s).js.exportC.release = 1040#32 ∧
        (crowded .closed 1039#32).tu.hold ≠ .noHold ∧ distFrom 0#32 1039#32 < distFrom 0#32 1040#32) := by
  have nearest : ∀ y ∈ [0#32, 1040#32, 2090#32], 0 < distFrom 0#32 y → distFrom 0#32 1040#32 ≤ distFrom 0#32 y := by
    intro y hy
    simp only [List.mem_cons, List.not_mem_nil, or_false] at hy
    rcases hy with rfl | rfl | rfl <;> decide
  refine ⟨crowded_sound _ (.inl rfl), crowded_sound _ (.inr rfl), ⟨rfl, ?_, ?_⟩, ⟨rfl, ?_, ?_⟩, ⟨?_, ?_⟩,
    ⟨?_, ?_, nearest⟩, ?_⟩ <;> decide +kernel

/-- MatchingRulesAct: rules 2, 4 and 6 match a rise of channel 7, by HOLD, HOLD-STOP and NOTE, with a qualifier on channel 7;
from NONE the first starts the hold and the second is busy, and from CLOSED both are. -/
theorem witness_matching_rules :
    let d := due (change 1000)
    let r (a : RuleAction) : TriggerRule :=
      { enable := true, channel := 7, edge := .rise, mask := 0x80#24, value := 0x80#24, action := a, interrupt := true }
    let rules := ((d.tu.rules.set 2 (r .hold)).set 4 (r .holdStop)).set 6 (r .note)
    let s (h : HoldState) : State := { d with tu := { d.tu with rules := rules, hold := h } }
    let image (c : Channel) : Bool := if c = 7 then true else d.je.image.getLsbD c
    let hits := (List.finRange 8).filter fun i => RuleFires rules[i] 7 true image
    (∀ h, HeadDue (s h) (change 1000) []) ∧ (s .closed).tu.hold ≠ .collecting ∧ hits = [2, 4, 6] ∧
      holdBusyList .noHold (hits.map fun i => rules[i]) = [false, true, false] ∧
      holdBusyList .closed (hits.map fun i => rules[i]) = [true, true, false] ∧
      (entryHead 0 (change 1000).body ++ varint (forward d.je.runningTime 1000)).length + 6 + 32 ≤ freeSpace d.js := by
  refine ⟨fun h => ⟨rfl, ?_, ?_⟩, ?_⟩
  · cases h <;> decide +kernel
  · cases h <;> decide +kernel
  · decide +kernel

/-- QuotaClosesHold: a count one short of the quota and two short; room for the entry's three bytes and the HOLD packet, and
for the entry's alone; and LOSING with one byte less than the resume room. -/
theorem witness_quota :
    let d := due (change 1000)
    let s (n : Nat) (a : HoldAction) : State :=
      { d with tu := { d.tu with hold := .collecting, quota := 3, count := n, action := a } }
    HeadDue (s 2 .holdStop) (change 1000) [] ∧ (s 2 .holdStop).tu.hold = .collecting ∧ (s 1 .hold).tu.count + 1 < 3 ∧
      (s 2 .holdStop).tu.count + 1 = (s 2 .holdStop).tu.quota ∧ (s 2 .holdStop).oq.state = .running ∧
      (s 2 .hold).tu.action = .hold ∧
      (let n := (entryHead 0 (change 1000).body ++ varint (forward d.je.runningTime 1000)).length
       n + 33 ≤ freeSpace (spanning 0#32 16348#32 d).js ∧ n + 32 = freeSpace (spanning 0#32 16349#32 d).js) ∧
      freeSpace (spanning 0#32 15361#32 d).js < 256 * d.js.table.resumeRoom.toNat := by
  refine ⟨⟨rfl, by decide +kernel, by decide +kernel⟩, ?_⟩
  decide +kernel

/-- StartOpensRun: STOPPED with exactly 49 bytes free and 63 index entries. -/
theorem witness_start :
    let d := spanning 0#32 16335#32 (at' 77)
    let s : State := { d with js := { d.js with index := List.replicate 63 0#32 } }
    s.hw.inProgress = none ∧ s.oq.state = .stopped ∧ s.js.fill = .normal ∧ 49 ≤ freeSpace s.js ∧
      s.js.index.length < 64 ∧ RamCanonical s := by
  unfold RamCanonical; decide +kernel

/-- RefusedCommandsChangeOnlyTheResult: BUSY, LOADING, RUNNING, STOPPED, a detached HOST, 48 bytes free, a full index, and
the codes 0 and 15. -/
theorem witness_refusals :
    let b : State := { State.reset with hw := { HostWindow.reset with inProgress := some .restart } }
    let d := spanning 0#32 16336#32 State.reset
    let f : State := { State.reset with js := { State.reset.js with index := List.replicate 64 0#32 } }
    isHostCommand .mark = true ∧ b.hw.inProgress = some .restart ∧
      (capturing .loading [] State.reset).oq.state = .loading ∧ (capturing .running [] State.reset).oq.state ≠ .stopped ∧
      State.reset.oq.state ≠ .running ∧ State.reset.oq.state ≠ .loading ∧ State.reset.js.hostC.attached = false ∧
      freeSpace d.js < 49 ∧ 64 ≤ f.js.index.length ∧ State.reset.js.table.policy = .keepOldest ∧
      14 < (15#8).toNat := by decide +kernel

/-- StopAndRestartHoldBusy: RUNNING, STOPPED with AVTH at 64, and a RESTART in progress. -/
theorem witness_stop_and_restart :
    (capturing .running [] State.reset).oq.state = .running ∧ State.reset.hw.inProgress = none ∧
      State.reset.oq.state = .stopped ∧ 1 ≤ State.reset.hw.avth.toNat ∧
      ({ HostWindow.reset with inProgress := some .restart } : HostWindow).inProgress = some .restart := by
  decide +kernel

/-- ReloadEntersLoading: LOCKED with PPS enabled and the holdover timer one microsecond short of the limit the write leaves;
and the clearing in progress. -/
theorem witness_reload :
    let s := disciplined .locked (some 0) 5
    let l : State := { s with tb := { s.tb with holdover := .running 599999999 } }
    let t := after .reload l
    l.hw.inProgress = none ∧ l.oq.state = .stopped ∧ l.tb.quality = .locked ∧ l.tb.table.ppsEnable = true ∧
      l.tb.holdover = .running 599999999 ∧ t.hw.inProgress = some .reload ∧ t.oq.state = .loading ∧ t.cl.state = .idle ∧
      t.tb.table = State.reset.tb.table := by decide +kernel

/-- DrainExpiryClosesRun: the part at work, DRAINING since 0 with the counter exactly at 0 plus H. -/
theorem witness_drain_expiry :
    let s : State := { working with
      oq := { working.oq with state := .draining, stopStamp := 0 }, tb := { working.tb with counter := 3000 },
      hw := { working.hw with inProgress := some .stop } }
    JournalSound s ∧ ReserveKept s ∧ RamCanonical s ∧ s.oq.state = .draining ∧
      isBefore s.tb.counter (addMicros s.oq.stopStamp s.oq.horizon) = false ∧ s.hw.inProgress = some .stop :=
  let w := working_journal_sound
  ⟨⟨w.occupied, w.hostMarks, w.exportMarks, w.indexRising, w.indexRetained, w.indexBound, w.holdRetained, w.frames,
      w.noFrames, w.frameBound, w.numbered, fun h => absurd h (by decide), fun h => absurd rfl h⟩,
    ⟨by decide +kernel, by decide +kernel⟩, working_is_sound.2.2.2.2.2.2.2.1, rfl, by decide +kernel, rfl⟩

/-- DrainExpiryClosesRun, its clauses of an empty queue and of a queued entry: a COLLECTING hold with 33 bytes free and with
32, a LOSING store, and a head due. -/
theorem witness_drain_close :
    let d := capturing .draining [] (at' 2000)
    let s (n : Pos) (f : FillState) : State :=
      { d with
        js := { (spanning 0#32 n d).js with fill := f }, tu := { d.tu with hold := .collecting },
        oq := { d.oq with stopStamp := 1000 } }
    JournalSound (s 16351#32 .normal) ∧ 33 ≤ freeSpace (s 16351#32 .normal).js ∧
      freeSpace (s 16352#32 .normal).js = 32 ∧ ReserveKept (s 16352#32 .losing) ∧
      (s 16352#32 .losing).js.table.policy = .keepOldest ∧
      isBefore d.tb.counter (addMicros (s 16352#32 .losing).oq.stopStamp d.oq.horizon) = false ∧
      HeadDue (capturing .draining [change 1000] d) (change 1000) [] := by
  refine ⟨?_, by decide +kernel, by decide +kernel, ⟨by decide +kernel, by decide +kernel⟩, rfl, by decide +kernel,
    ⟨rfl, by decide +kernel, by decide +kernel⟩⟩
  exact
    { occupied := by decide +kernel
      hostMarks := fun h => absurd h (by decide)
      exportMarks := fun h => absurd h (by decide)
      indexRising := .nil
      indexRetained := fun e he => absurd he (List.not_mem_nil)
      indexBound := by decide
      holdRetained := by decide +kernel
      frames := fun h => absurd h (by decide)
      noFrames := fun _ => rfl
      frameBound := by decide
      numbered := ⟨trivial, fun _ f hf => (by cases hf), fun f hf => (by cases hf), fun h => (by cases h)⟩
      loadingEmpty := fun h => absurd h (by decide)
      loaderLoading := fun h => absurd rfl h }

/-- ReaderCommandsMoveTheMarks: STOPPED with HOST attached, and detached. -/
theorem witness_reader_commands :
    (hostAt 0#32 50#32 State.reset).hw.inProgress = none ∧ (hostAt 0#32 50#32 State.reset).oq.state ≠ .loading ∧
      (hostAt 0#32 50#32 State.reset).js.hostC.attached = true ∧ State.reset.js.hostC.attached = false := by
  decide +kernel

/-- ReleaseHoldAndClearFaults: no hold; a closed hold outside RUNNING; one in RUNNING with exactly 33 bytes free. -/
theorem witness_release_hold :
    let d := spanning 0#32 16351#32 (capturing .running [] State.reset)
    let s : State := { d with tu := { d.tu with hold := .closed } }
    State.reset.tu.hold = .noHold ∧ State.reset.oq.state ≠ .running ∧ s.tu.hold ≠ .noHold ∧ s.oq.state = .running ∧
      s.hw.inProgress = none ∧ s.js.fill = .normal ∧ RamCanonical s ∧
      FreedTo { s with tu := { s.tu with hold := .noHold, count := 0 } } s.js.tail ∧
      33 ≤ freeSpace (tailAt s.js.tail s.js) := by
  refine ⟨rfl, by decide +kernel, by decide +kernel, rfl, rfl, rfl, ?_, rfl, by decide +kernel⟩
  unfold RamCanonical; decide +kernel

/-- WrittenEntriesReadBack: channel 24 and table 5 not found, channel 23 found; a locked journal entry; a settle entry that
passes and a chatter limit of 64 that fails; a time entry that passes in RUNNING. -/
theorem witness_written_entries :
    let good : Vector Byte 8 := #v[0x11#8, 0xFF#8, 63#8, 1#8, 1#8, 0#8, 0#8, 0#8]
    let bad : Vector Byte 8 := #v[0x11#8, 0xFF#8, 64#8, 1#8, 1#8, 0#8, 0#8, 0#8]
    State.reset.hw.inProgress = none ∧ State.reset.oq.state ≠ .loading ∧ (24#8).toNat = 24 ∧
      (staged 1#8 23#8 good State.reset).hw.tabidx.toNat < 24 ∧ (decodeChannel good).isSome = true ∧
      (decodeChannel bad).isSome = false ∧ (capturing .running [] State.reset).oq.state ≠ .stopped ∧
      (decodeTime #v[0#8, 10#8, 0#8, 0#8, 1#8, 0#8, 0#8, 0#8]).isSome = true ∧
      (after .writeEntry (staged 1#8 23#8 good State.reset)).hw.result = .ok ∧
      (after .writeEntry (staged 1#8 24#8 good State.reset)).hw.result = .badarg := by decide +kernel

/-- WrittenEntryTakesEffect: a descriptor of channel 23, a rule 7, a journal entry, a time entry that disables PPS in LOCKED
with W and the limit as they were, and one that lowers W to a timeout already reached. -/
theorem witness_written_entry_takes_effect :
    let s := disciplined .locked (some 0) 5
    let a := disciplined .acquiring (some 0) 1000500
    let x : TimeTable := { a.tb.table with lockWindow := 10#16 }
    (decodeChannel (encodeChannel { ChanDesc.reset with enable := true })).isSome = true ∧
      (decodeTrigger (encodeTrigger { TriggerRule.reset with enable := true, channel := 23 })).isSome = true ∧
      (decodeJournal (encodeJournal { JournalTable.reset with policy := .keepNewest })).isSome = true ∧
      decodeTime (encodeTime TimeTable.reset 0) = some TimeTable.reset ∧
      TimeTable.reset.lockWindow = s.tb.table.lockWindow ∧ TimeTable.reset.holdoverLimit = s.tb.table.holdoverLimit ∧
      s.tb.quality = .locked ∧ s.tb.table.ppsEnable = true ∧ TimeTable.reset.ppsEnable = false ∧
      s.tb.holdover ≠ .expired ∧ (23#8).toNat = (23 : Channel).val ∧ (7#8).toNat = (7 : Fin 8).val ∧
      decodeTime (encodeTime x 0) = some x ∧ a.tb.quality ≠ .locked ∧
      (after .timeout { a with tb := { a.tb with table := x } }).tb.quality = .unsynced := by decide +kernel

/-- EncodingsRoundTrip: entries at the limits of their ranges, and the counts where the lengths change. -/
theorem witness_encodings :
    chatterLimitOk 2#8 = true ∧ chatterLimitOk 63#8 = true ∧ chatterLimitOk 0#8 = true ∧
      TriggerRule.reset.value &&& ~~~TriggerRule.reset.mask = 0#24 ∧ 10 ≤ (10#16).toNat ∧ (50000#16).toNat ≤ 50000 ∧
      1 ≤ (4095#16).toNat ∧ (4095#16).toNat ≤ 4095 ∧
      readCount (varint 34359738367) = some 34359738367 ∧ (varint 127).length = 1 ∧ (varint 128).length = 2 ∧
      (varint 16384).length = 3 ∧ (varint 2097152).length = 4 ∧ (varint 268435456).length = 5 := by decide +kernel

/-- ReadsWithAnEffect: HOST attached one byte below the head, at it, and detached; the bus selected, not selected, and with
WR# low. -/
theorem witness_reads :
    let s := hostAt 0#32 99#32 (spanning 0#32 100#32 State.reset)
    let z := hostAt 0#32 100#32 (spanning 0#32 100#32 State.reset)
    let on := busEdge .csFalls State.reset
    s.js.hostC.attached = true ∧ s.js.hostC.read ≠ s.js.head ∧ z.js.hostC.read = z.js.head ∧
      State.reset.js.hostC.attached = false ∧ (on.hw.bus.cs = false ∧ on.hw.bus.rd = true ∧ on.hw.bus.wr = true) ∧
      State.reset.hw.bus.cs = true ∧ (busEdge .wrFalls on).hw.bus.wr = false ∧
      (busEdge (.rdFalls 0x14#6) on).hw.bus.rd = false ∧ rowOfRead 0x14#6 = some .jdataRead ∧ rowOfRead 0x3D#6 = none := by decide +kernel

/-- WindowRegisterWrites: a write strobe alone, one that has met a low RD#, and one with CS# high; the values 0, 1, 16,384 and 16,385 formed with AVTH's high byte, and addresses without a row. -/
theorem witness_window_writes :
    256 * (0#8).toNat + (0#8).toNat = 0 ∧ 1 ≤ 256 * (0#8).toNat + (1#8).toNat ∧
      256 * (0x40#8).toNat + (0#8).toNat ≤ 16384 ∧ 16384 < 256 * (0x40#8).toNat + (1#8).toNat ∧
      (Instr.registerWrite 0x03#6 0#8).wellFormed = true ∧ (Instr.registerWrite 0x14#6 0#8).wellFormed = true ∧
      (Instr.registerWrite 0x3F#6 0#8).wellFormed = true ∧
      (let w := busEdge .wrFalls (busEdge .csFalls State.reset)
       (w.hw.bus.wr = false ∧ w.hw.bus.cs = false ∧ w.hw.bus.spoiled = false) ∧
         (busEdge (.rdFalls 0#6) w).hw.bus.spoiled = true ∧ (busEdge .wrFalls State.reset).hw.bus.cs = true) := by
  decide +kernel

/-- StatusRegistersShowTheirOwners: a reject count of 2. -/
theorem witness_status_registers : ({ TimeBase.reset with rejects := 2 } : TimeBase).rejects ≤ 2 := by decide

/-- LinkTransactionsAndStatus: the port deselected, selected, and with its command taken. -/
theorem witness_link_phases :
    State.reset.xl.phase = .deselected ∧ (selected State.reset).xl.phase = .selected 0x01#8 ∧
      (after .xstat (selected State.reset)).xl.phase ≠ .deselected ∧
      (∀ v, (after .xstat (selected State.reset)).xl.phase ≠ .selected v) ∧ JournalSound working ∧
      working.xl.phase = .deselected := by
  refine ⟨rfl, rfl, by decide +kernel, fun v h => ?_, working_journal_sound, rfl⟩
  have taken : (match (after .xstat (selected State.reset)).xl.phase with
    | .selected _ => true
    | _ => false) = false := by decide +kernel
  rw [h] at taken
  cases taken

/-- LinkTransactionsAndStatus: the port outside a transaction and in one, XCLK low and high; no byte, one and three received;
six bits sampled and seven; byte 1's first and last bit presented, and byte 2's first. -/
theorem witness_link_bits :
    let on := selected State.reset
    let p := on.xl.port
    State.reset.xl.port.clock = false ∧ (linkEdge (.clkRises true) State.reset).xl.port.clock = true ∧
      (linkEdge (.clkRises true) State.reset).xl.phase = .deselected ∧
      (after (.deviceReset false) on).xl.phase = .endedByReset ∧
      ¬(on.xl.phase = .deselected ∨ on.xl.phase = .endedByReset) ∧ p.clock = false ∧ p.received = [] ∧
      (linkEdge (.clkRises true) on).xl.port.clock = true ∧
      (withLinkPort on { p with received := [0x60#8, 1#8, 2#8] }).xl.port.received = 0x60#8 :: [1#8, 2#8] ∧
      (leadingBits 0x11#8).dropLast.length < 7 ∧
      (withLinkPort on { p with sampled := leadingBits 0x11#8 }).xl.port.sampled = leadingBits 0x11#8 ∧
      on.xl.flight = none ∧ p.received ++ [0x11#8] = 0x11#8 :: [] ∧ p.presented = 8 * 0 + 0 ∧
      (withLinkPort on { p with presented := 7 }).xl.port.presented = 8 * 0 + 7 ∧
      (withLinkPort (after .xstat on) { p with presented := 8 }).xl.port.presented = 8 * 1 + 0 ∧
      (after .xstat on).xl.phase = .served 0x01#8 [0#8, 0#8, 0#8, 0#8, 0#8, 0#8] := by decide +kernel

/-- XfetchBuildsAFrame: n of 0, 1, 64 and 65. -/
theorem witness_xfetch :
    (selected working).xl.phase = .selected 0x01#8 ∧ 1 ≤ (1#8).toNat ∧ (64#8).toNat ≤ 64 ∧ 64 < (65#8).toNat := by
  decide +kernel

/-- A transaction whose XFETCH has built the frame `f`. -/
def fetching (f : FrameRec) (outstanding : List FrameRec) : State :=
  { State.reset with xl := { State.reset.xl with
    phase := .served 0x01#8 [], outstanding := outstanding, flight := some { frame := f, skip := true, bytes := [] } } }

/-- FramesAreDeliveredOrWithdrawn: a frame in flight with data, listed as the newest and already pruned, and one without
data; transactions in each phase. -/
theorem witness_frames :
    let f : FrameRec := { seq := 5#8, start := 64#32, stop := 74#32 }
    let e : FrameRec := { seq := 5#8, start := 64#32, stop := 64#32 }
    (fetching f twoFrames).xl.flight = some { frame := f, skip := true, bytes := [] } ∧
      (fetching f twoFrames).xl.phase = .served 0x01#8 [] ∧ f.start ≠ f.stop ∧ e.start = e.stop ∧
      (fetching f twoFrames).xl.outstanding = [{ seq := 4#8, start := 0#32, stop := 64#32 }] ++ [f] ∧
      f ∉ (fetching f []).xl.outstanding ∧
      (let g : Flight := { frame := f, skip := true, bytes := [] }
       let last := withLinkPort (fetching f []) { (fetching f []).xl.port with
         sampled := leadingBits 0x29#8, received := [0x20#8] }
       last.xl.flight = some g ∧ last.xl.port.received.length = 1 + g.bytes.length ∧ last.xl.port.clock = false ∧
         last.xl.port.sampled = leadingBits 0x29#8) ∧
      State.reset.xl.flight = none ∧ State.reset.xl.phase = .deselected ∧
      (selected State.reset).xl.phase = .selected 0x01#8 ∧
      (after .xstat (selected State.reset)).xl.flight = none := by decide +kernel

/-- LinkChecksAndAcknowledgement: a wrong check byte, a number not outstanding, and the second of two frames. -/
theorem witness_xack :
    let s := selected working
    s.xl.phase = .selected 0x01#8 ∧ (0xFA#8).toNat = 255 - (5#8).toNat ∧ (0xFB#8).toNat ≠ 255 - (5#8).toNat ∧
      (0xF8#8).toNat = 255 - (7#8).toNat ∧ (∀ f ∈ twoFrames, f.seq ≠ 7#8) ∧
      s.xl.outstanding = [{ seq := 4#8, start := 0#32, stop := 64#32 }] ++
        { seq := 5#8, start := 64#32, stop := 74#32 } :: [] ∧
      (∀ g ∈ [({ seq := 4#8, start := 0#32, stop := 64#32 } : FrameRec)], g.seq ≠ 5#8) ∧
      (0xFF#8).toNat = 255 - ((0x80#8).toNat + (0x80#8).toNat) % 256 ∧ (selected State.reset).oq.state ≠ .running := by
  refine ⟨rfl, by decide, by decide, by decide, ?_, rfl, ?_, by decide, by decide⟩ <;> simp [twoFrames]

/-- LinkAttachment: EXPORT attached and detached, in LOADING and outside it. -/
theorem witness_link_attachment :
    (selected working).js.exportC.attached = true ∧ (selected State.reset).js.exportC.attached = false ∧
      (selected working).oq.state ≠ .loading ∧ (selected (capturing .loading [] State.reset)).oq.state = .loading := by
  decide +kernel

/-- The part READING behind a header of the given record count. -/
def reading (count read : Nat) (headerSeen : Bool) : State :=
  { after (.deviceReset true) State.reset with
    cl := { Loader.reset true with count := count, read := read, headerSeen := headerSeen, crc := 0x1234#16 } }

/-- ImageIsCheckedInOrder: counts of 64 and 65, a record that passes and one that fails, a CRC that agrees and one that
does not. -/
theorem witness_image :
    (reading 0 0 false).cl.state = .reading ∧ (reading 0 0 false).cl.headerSeen = false ∧
      256 * (0#8).toNat + (64#8).toNat ≤ 64 ∧ 64 < 256 * (0#8).toNat + (65#8).toNat ∧
      (reading 2 1 true).cl.read < (reading 2 1 true).cl.count ∧ RamCanonical (reading 2 1 true) ∧
      (decodeTime (encodeTime TimeTable.reset 0)).isSome = true ∧ (decodeTime (encodeTime TimeTable.reset 1)).isSome = false ∧
      (reading 2 2 true).cl.read = (reading 2 2 true).cl.count ∧ 0x12#8 ++ 0x34#8 = (reading 2 2 true).cl.crc ∧
      0x12#8 ++ 0x35#8 ≠ (reading 2 2 true).cl.crc := by
  unfold RamCanonical; decide +kernel

/-- ImageIsCheckedInOrder: the memory port with MCLK low and high, six bits sampled and seven, a byte of the command, the
bytes that complete a header, fail one, complete a record and the CRC, and bytes short of each. -/
theorem witness_image_bits :
    let p := (reading 0 0 false).cl.port
    let sent : List Byte := [0xFF#8, 0xFF#8, 0xFF#8]
    let header : List Byte := [0xC3#8, 1#8, 64#8, 0#8]
    let entry := encodeTime TimeTable.reset 0
    p.clock = false ∧ (memoryEdge (.clkRises true) (reading 0 0 false)).cl.port.clock = true ∧
      (leadingBits 5#8).dropLast.length < 7 ∧
      (withMemoryPort (reading 0 0 false) { p with sampled := leadingBits 5#8 }).cl.port.sampled = leadingBits 5#8 ∧
      ([0xFF#8, 0xFF#8] : List Byte).length < 3 ∧ sent.length = 3 ∧ p.presented = 8 * 0 + 0 ∧
      (withMemoryPort (reading 0 0 false) { p with presented := 8 }).cl.port.presented = 8 * 1 + 0 ∧
      sent ++ [0xC2#8] = sent ++ [0xC2#8] ∧ 0xC2#8 ≠ 0xC3#8 ∧ (2#8 : Byte) ≠ 1#8 ∧
      64 < 256 * (0#8).toNat + (65#8).toNat ∧ (sent ++ header) ++ [5#8] = sent ++ [0xC3#8, 1#8, 64#8, 0#8, 5#8] ∧
      header <+: [0xC3#8, 1#8, 64#8, 0#8] ∧ 256 * (0#8).toNat + (64#8).toNat ≤ 64 ∧
      (reading 2 1 true).cl.headerSeen = true ∧
      (sent ++ (3#8 :: 0#8 :: entry.toList).dropLast) ++ [0#8] = sent ++ 3#8 :: 0#8 :: entry.toList ∧
      (3#8 :: 0#8 :: entry.toList).dropLast.length < 10 ∧ ([0x34#8] : List Byte).length < 2 ∧
      (sent ++ [0x34#8]) ++ [0x12#8] = sent ++ [0x34#8, 0x12#8] := by decide +kernel

/-- APPLYING with two records in the journal RAM, channel 0's enabled descriptor and the reset journal entry, and `count`
of them staged. -/
def applying (count : Nat) : State :=
  let s := reading 0 0 true
  let records := 1#8 :: 0#8 :: (encodeChannel { ChanDesc.reset with enable := true }).toList ++
    4#8 :: 0#8 :: (encodeJournal JournalTable.reset).toList
  { s with
    js := { s.js with ram := Memory.writeBytes [] 0 records },
    cl := { s.cl with state := .applying, staged := count, autoStart := true, attachExport := true } }

/-- ApplyingEndsTheLoad: no record staged outside LOADING, and two that pass in LOADING. -/
theorem witness_applying :
    (applying 0).cl.state = .applying ∧ (applying 0).cl.staged = 0 ∧ (applying 2).cl.staged = 2 ∧
      (applying 2).oq.state = .loading ∧
      ∀ i < 2, RecordPasses ((applying 2).js.ram.read (10 * i)) ((applying 2).js.ram.read (10 * i + 1))
        (Vector.ofFn fun k => (applying 2).js.ram.read (10 * i + 2 + k.val)) := by
  unfold RecordPasses
  decide +kernel

/-- AutoStartOpensRun: the START is due in STOPPED with an empty store; and a run is open already. -/
theorem witness_auto_start :
    let s : State := { State.reset with cl := { State.reset.cl with autoStartDue := true } }
    s.cl.autoStartDue = true ∧ s.oq.state = .stopped ∧ s.js.fill = .normal ∧ 49 ≤ freeSpace s.js ∧
      s.js.index.length < 64 ∧ RamCanonical s ∧ (capturing .running [] s).oq.state ≠ .stopped ∧
      (capturing .running [] s).cl.autoStartDue = true := by
  unfold RamCanonical; decide +kernel

end Sys2Proof.Tests
end

section
/-! The export link's acknowledgement and its checks: what a command without response leaves of the link, which records an
acknowledged number takes, and where freeing leaves the tail. -/

namespace Sys2Proof.Machine

/-! ### Freeing in the terms of the statements -/

/-- The index entries that stay when the tail moves are the same ones, written with `below` or with distances. -/
theorem moveTail_eq_tailAt (p : Pos) (j : Store) : moveTail p j = tailAt p j := by
  have kept : ∀ e, (!below j.tail e p) = decide (distFrom j.tail p ≤ distFrom j.tail e) := by
    intro e
    simp only [below, ← decide_not, Nat.not_lt]
  simp only [moveTail, tailAt, kept]

/-- Moving the tail to where it stands takes no index entry away. -/
theorem tailAt_tail (j : Store) : tailAt j.tail j = j := by simp [tailAt]

/-- Freeing has no target exactly while no reader is attached (R35). -/
theorem freeTarget_eq_none {s : State} :
    freeTarget s = none ↔ s.js.hostC.attached = false ∧ s.js.exportC.attached = false := by
  unfold freeTarget
  cases s.js.hostC.attached <;> cases s.js.exportC.attached <;> simp

/-- Freeing's target is where R35 leaves the tail. -/
theorem freedTo_of_freeTarget {s : State} {p : Pos} (h : freeTarget s = some p) : FreedTo s p := by
  obtain ⟨isBound, hostMark, exportMark, holdStart⟩ := freeTarget_spec h
  have attached : ¬ (s.js.hostC.attached = false ∧ s.js.exportC.attached = false) :=
    fun detached => by simp [freeTarget_eq_none.mpr detached] at h
  simp only [holdActive, bne_iff_ne] at isBound holdStart
  unfold FreedTo
  dsimp only
  rw [if_neg (by simpa using attached)]
  simp only [List.mem_append, List.mem_ite_nil_right, List.mem_ite_nil_left, List.mem_singleton, or_assoc]
  refine ⟨isBound, ?_⟩
  rintro m (⟨h, rfl⟩ | ⟨h, rfl⟩ | ⟨h, rfl⟩)
  · exact hostMark h
  · exact exportMark h
  · exact holdStart h

/-- Re-evaluating freeing moves the tail to the position R35 names, taking the index entries below it away. -/
theorem reevalFreeing_freedTo (s : State) :
    ∃ p, FreedTo s p ∧ reevalFreeing s = { s with js := tailAt p s.js } := by
  rcases reevalFreeing_cases s with ⟨noTarget, unchanged⟩ | ⟨p, target, moved⟩
  · obtain ⟨hostDetached, exportDetached⟩ := freeTarget_eq_none.mp noTarget
    exact ⟨s.js.tail, by simp [FreedTo, hostDetached, exportDetached], by rw [unchanged, tailAt_tail]⟩
  · exact ⟨p, freedTo_of_freeTarget target, by rw [moved, ← moveTail_eq_tailAt]; rfl⟩

/-! ### Check bytes -/

/-- A byte is the complement of another when the two add up to 255 (R140). -/
theorem eq_not_iff_toNat {check n : Byte} : check = ~~~n ↔ check.toNat = 255 - n.toNat := by
  rw [← BitVec.toNat_inj, BitVec.toNat_not]

/-! ### Commands without response -/

/-- The receipt of a command's byte 1 clears the link's error bit (R130). -/
def errorCleared (s : State) : State := s.onXl fun x => { x with error := false }

/-- A command's transaction is served without a response: every byte from byte 2 on is FFh (R128). -/
def linkServed (v : Byte) (s : State) : State := s.onXl fun x => { x with phase := .served v [] }

/-- The first command of a transaction acts on the state with its error bit cleared (R128, R130). -/
theorem linkCommand_noResponse {v : Byte} {s : State} (h : s.xl.phase = .selected v) (f : State → State) :
    linkCommand (noResponse f) s = linkServed v (f (errorCleared s)) := by
  simp only [linkCommand, h, noResponse, linkServed, errorCleared]

/-- XACK is `takeXack` between the clearing of the error bit and the end of the command (R128, R140). -/
theorem exec_xack {v : Byte} {s : State} (h : s.xl.phase = .selected v) (n check : Byte) :
    exec (.xack n check) s =
      .next (linkServed v (takeXack n check (errorCleared s))) := by
  rw [← linkCommand_noResponse h]; rfl

/-- XMARK is `takeXmark` between the clearing of the error bit and the end of the command (R128, R145). -/
theorem exec_xmark {v : Byte} {s : State} (h : s.xl.phase = .selected v) (high low check : Byte) :
    exec (.xmark high low check) s =
      .next (linkServed v (takeXmark high low check (errorCleared s))) := by
  rw [← linkCommand_noResponse h]; rfl

/-- Freeing looks at the store and the hold only, so closing the command first makes no difference. -/
theorem linkServed_reevalFreeing (v : Byte) (s : State) :
    linkServed v (reevalFreeing s) = reevalFreeing (linkServed v s) := by
  have target : freeTarget (linkServed v s) = freeTarget s := rfl
  unfold reevalFreeing
  rw [target]
  cases freeTarget s <;> rfl

/-! ### The outstanding list -/

/-- A number no record has is stale (R140). -/
theorem ackThrough_eq_none {n : Byte} {frames : List FrameRec} (h : ∀ f ∈ frames, f.seq ≠ n) :
    ackThrough n frames = none := by
  induction frames with
  | nil => rfl
  | cons f fs ih =>
    obtain ⟨hf, hfs⟩ := List.forall_mem_cons.mp h
    rw [ackThrough, if_neg hf, ih hfs]

/-- The oldest record with the number is the last to leave; the records behind it stay (R140). -/
theorem ackThrough_append {n : Byte} {older newer : List FrameRec} {f : FrameRec} (h : ∀ g ∈ older, g.seq ≠ n)
    (hf : f.seq = n) : ackThrough n (older ++ f :: newer) = some (f.stop, newer) := by
  induction older with
  | nil => rw [List.nil_append, ackThrough, if_pos hf]
  | cons g gs ih =>
    obtain ⟨hg, hgs⟩ := List.forall_mem_cons.mp h
    rw [List.cons_append, ackThrough, if_neg hg, ih hgs]

/-! ### XACK and XMARK, case by case -/

/-- An acknowledgement's own effect, before freeing: the records behind the acknowledged frame stay, and EXPORT's release
mark stands at the frame's end (R31, R140). -/
def acknowledged (stop : Pos) (newer : List FrameRec) (s : State) : State :=
  (s.onXl fun x => { x with outstanding := newer }).onJs fun j =>
    { j with exportC := { j.exportC with release := stop } }

/-- A check byte that is not the complement: the LINKCHECK fault and the error bit (R140). -/
theorem takeXack_badCheck {n check : Byte} (h : check.toNat ≠ 255 - n.toNat) (s : State) :
    takeXack n check s = linkError (logFault .linkcheck 0x30#8 s) :=
  if_neg (mt eq_not_iff_toNat.mp h)

/-- A number not outstanding is refused, and nothing else changes (R140). -/
theorem takeXack_stale {n check : Byte} {s : State} (h : check.toNat = 255 - n.toNat)
    (stale : ∀ f ∈ s.xl.outstanding, f.seq ≠ n) : takeXack n check s = linkError s := by
  simp only [takeXack, if_pos (eq_not_iff_toNat.mpr h), ackThrough_eq_none stale]

/-- A number outstanding is acknowledged and freeing re-evaluated (R35, R140). -/
theorem takeXack_release {n check : Byte} {s : State} {older newer : List FrameRec} {f : FrameRec}
    (h : check.toNat = 255 - n.toNat) (split : s.xl.outstanding = older ++ f :: newer)
    (first : ∀ g ∈ older, g.seq ≠ n) (hf : f.seq = n) :
    takeXack n check s = reevalFreeing (acknowledged f.stop newer s) := by
  simp only [takeXack, acknowledged, if_pos (eq_not_iff_toNat.mpr h), split, ackThrough_append first hf]

/-- The byte XMARK's check byte must complement is the tag bytes' sum modulo 256 (R145). -/
theorem xmark_check_iff {high low check : Byte} :
    check = ~~~(high + low) ↔ check.toNat = 255 - (high.toNat + low.toNat) % 256 := by
  rw [eq_not_iff_toNat, BitVec.toNat_add]

/-- A check byte that is not the complement: the LINKCHECK fault and the error bit (R145). -/
theorem takeXmark_badCheck {high low check : Byte} (h : check.toNat ≠ 255 - (high.toNat + low.toNat) % 256)
    (s : State) : takeXmark high low check s = linkError (logFault .linkcheck 0x60#8 s) :=
  if_neg (mt xmark_check_iff.mp h)

/-- Outside RUNNING a mark is refused, and nothing else changes (R67, R145). -/
theorem takeXmark_notRunning {high low check : Byte} {s : State}
    (h : check.toNat = 255 - (high.toNat + low.toNat) % 256) (state : s.oq.state ≠ .running) :
    takeXmark high low check s = linkError s := by
  rw [takeXmark, if_pos (xmark_check_iff.mpr h), if_neg state]

/-- A refused command that logs a fault, in the terms of the fault queue (R130, R174). -/
theorem linkServed_linkError_logFault (v : Byte) (kind : FaultKind) (detail : Byte) (s : State) :
    linkServed v (linkError (logFault kind detail (errorCleared s))) =
      { s with
        xl := { s.xl with error := true, phase := .served v [] },
        ifu := { s.ifu with
          irqf := s.ifu.irqf ||| 0x20#8, faults := faultsWith s kind detail,
          lost := if s.ifu.faults.length < 4 then s.ifu.lost else satInc 255 s.ifu.lost } } := by
  rw [logFault_cases]; rfl

/-- Settles O56: each clause is its case of XACK or XMARK, carried out on the state with the error bit cleared and closed
without a response. -/
theorem linkChecksAndAcknowledgement : Obligations.LinkChecksAndAcknowledgement := by
  intro v s selected
  refine ⟨?badAck, ?stale, ?release, ?badMark, ?notRunning⟩
  case badAck =>
    intro n check bad
    rw [exec_xack selected, takeXack_badCheck bad, linkServed_linkError_logFault]
  case stale =>
    intro n check good stale
    rw [exec_xack selected, takeXack_stale (s := errorCleared s) good stale]; rfl
  case release =>
    intro n check older f newer good split first hf
    obtain ⟨p, freed, moved⟩ := reevalFreeing_freedTo (linkServed v (acknowledged f.stop newer (errorCleared s)))
    refine ⟨p, freed, ?_⟩
    rw [exec_xack selected, takeXack_release (s := errorCleared s) good split first hf, linkServed_reevalFreeing, moved]
    rfl
  case badMark =>
    intro high low check bad
    rw [exec_xmark selected, takeXmark_badCheck bad, linkServed_linkError_logFault]
  case notRunning =>
    intro high low check good state
    rw [exec_xmark selected, takeXmark_notRunning (s := errorCleared s) good state]; rfl

end Sys2Proof.Machine
end

section
/-! The interrupt registers: what a write to IRQF, IRQE and FLTNEXT leaves, and IRQ# as a bit of the flags and their
enables. -/

namespace Sys2Proof.Machine

/-! ### Bytes, bit by bit -/

/-- A byte is not 00h exactly when one of its eight bits is set. -/
theorem byte_ne_zero_iff {b : Byte} : b ≠ 0#8 ↔ ∃ i < 8, b.getLsbD i = true := by
  rw [ne_eq, BitVec.zero_iff_eq_false, not_forall]
  constructor
  · rintro ⟨i, notClear⟩
    have isSet : b.getLsbD i = true := by simpa using notClear
    exact ⟨i, BitVec.lt_of_getLsbD isSet, isSet⟩
  · rintro ⟨i, -, isSet⟩
    exact ⟨i, by simp [isSet]⟩

/-! ### IRQ# -/

/-- IRQ# is low exactly when some flag and its enable are both set (R172). -/
theorem irqLow_iff (s : State) :
    irqLow s = true ↔ ∃ i < 8, s.ifu.irqf.getLsbD i = true ∧ s.ifu.irqe.getLsbD i = true := by
  simp [irqLow, byte_ne_zero_iff]

/-! ### The writes -/

/-- A write to IRQF leaves of each flag what was not written as 1 (R170). -/
theorem writeIrqf_getLsbD (v : Byte) (s : State) {i : Nat} (h : i < 8) :
    (writeIrqf v s).ifu.irqf.getLsbD i = (s.ifu.irqf.getLsbD i && !v.getLsbD i) := by
  simp [writeIrqf, h]

/-- A write to IRQE makes the byte written the enables (R172). -/
theorem writeIrqe_irqe (v : Byte) (s : State) : (writeIrqe v s).ifu.irqe = v := rfl

/-- A write to FLTNEXT takes the oldest record off the fault queue; an empty queue stays empty (R176). -/
theorem writeFltnext_faults (s : State) : (writeFltnext s).ifu.faults = s.ifu.faults.tail := rfl

/-- Settles O50: each command is its write, the write's effect is read off its one field, and IRQ# follows in every
state. -/
theorem interruptRegisterWrites : Obligations.InterruptRegisterWrites := by
  intro v s
  refine ⟨rfl, ⟨writeIrqf v s, rfl, rfl, ?flags, irqLow_iff _⟩, ⟨writeIrqe v s, rfl, rfl, ?enables, irqLow_iff _⟩,
    ⟨writeFltnext s, rfl, rfl, ?empty, ?oldest, irqLow_iff _⟩⟩
  case flags =>
    intro i h
    exact writeIrqf_getLsbD v s h
  case enables =>
    intro i _
    rw [writeIrqe_irqe]
  case empty =>
    intro noRecord
    rw [writeFltnext_faults, noRecord, List.tail_nil]
  case oldest =>
    intro f fs records
    rw [writeFltnext_faults, records, List.tail_cons]

end Sys2Proof.Machine
end

section
/-! Commands as functions of the state: what `exec` answers, and the row that a command of another row's operands stands
for. -/

namespace Sys2Proof.Machine

/-! ### The state a command leaves -/

/-- The state a command leaves: the one `exec` answers. -/
def act (c : Instr) (s : State) : State :=
  match exec c s with
  | .next t => t
  | _ => s

/-- Every command answers a next state. -/
theorem exec_eq_act (c : Instr) (s : State) : exec c s = .next (act c s) := by
  cases c <;> rfl

theorem eq_act_of_exec {c : Instr} {s t : State} (h : exec c s = .next t) : t = act c s := by
  rw [exec_eq_act] at h
  injection h with h
  exact h.symm

/-! ### Writes and the rows that carry them -/

/-- A code's command, carried out as a CMD write, is the row that names it (R156, R158). -/
theorem act_rowOfCode (code : Byte) (s : State) : act (rowOfCode code) s = request (commandOf code) s := by
  unfold rowOfCode
  split
  case h_15 => rfl
  all_goals rename_i h; simp only [commandOf, h]; rfl

/-- A write of a window address, with its address given by value. -/
theorem writeRegister_toNat (a : BitVec 6) (v : Byte) (s : State) :
    act (.registerWrite a v) s = writeRegister a.toNat v s := rfl

/-- A register write is the row that carries it (R148, R198). -/
theorem act_rowOfWrite (a : BitVec 6) (v : Byte) (s : State) : act (rowOfWrite a v) s = writeRegister a.toNat v s := by
  unfold rowOfWrite
  split
  case h_8 => rfl
  case h_1 h => rw [h, act_rowOfCode]; rfl
  all_goals rename_i h; rw [h]; rfl

end Sys2Proof.Machine
end

section
/-! The moves of the part: the changes of store, hold, link and loader that every command is made of, each with what its
place in the model guarantees. An invariant that each move keeps is kept by every command. -/

namespace Sys2Proof.Machine

/-! ### Changes no invariant of the journal looks at -/

/-- From `s` to `t` nothing moves but channels, times, queue, trigger rules, registers and flags raised: store, hold,
link, fault log, AVL comparison, capture state and loader's progress stay. -/
structure Quiet (s t : State) : Prop where
  js : t.js = s.js
  hold : t.tu.hold = s.tu.hold
  start : t.tu.start = s.tu.start
  quota : t.tu.quota = s.tu.quota
  count : t.tu.count = s.tu.count
  outstanding : t.xl.outstanding = s.xl.outstanding
  nextSeq : t.xl.nextSeq = s.xl.nextSeq
  aborts : t.xl.aborts = s.xl.aborts
  flight : t.xl.flight = s.xl.flight
  phase : t.xl.phase = s.xl.phase
  avth : t.hw.avth = s.hw.avth
  above : t.ifu.above = s.ifu.above
  faults : t.ifu.faults = s.ifu.faults
  lost : t.ifu.lost = s.ifu.lost
  sticky : s.ifu.irqf &&& t.ifu.irqf = s.ifu.irqf
  loader : t.cl.state = s.cl.state
  records : t.cl.read = s.cl.read ∧ t.cl.count = s.cl.count
  capture : t.oq.state = s.oq.state
  lossCount : s.je.lossCount ≤ 65535 → t.je.lossCount ≤ 65535
  sinceSync : s.je.sinceSync ≤ Config.ringSize → t.je.sinceSync ≤ Config.ringSize
  pending : t.pending = s.pending

@[refl] theorem Quiet.refl (s : State) : Quiet s s := by constructor <;> simp

/-! ### The moves -/

/-- The journal's ending, in DRAINING: the closing LOSS of a LOSING store, the END packet, and STOPPED (R20, R58). -/
def endRun (s : State) : State :=
  let s1 := closingLoss s
  (emitExempt (endPacket s1.je.stopReason s1.oq.stopStamp) s1).onOq fun q => { q with state := .stopped }

/-- One move of the part. -/
inductive Move : State → State → Prop
  | quiet {s t : State} (h : Quiet s t) : Move s t
  | fault {s : State} (kind : FaultKind) (detail : Byte) : Move s (logFault kind detail s)
  -- the store
  | free {s : State} : Move s (reevalFreeing s)
  | discard {s : State} {e : Pos} (possible : discardTarget s = some e) : Move s (discardTo e s)
  | store {s : State} {bytes : List Byte} {isSync : Bool} (capture : s.oq.state ≠ .loading)
      (fit : fits bytes.length isSync s = true) (header : isSync = true → bytes.head? = some 0x10#8) :
      Move s (storePacket bytes isSync s)
  | lose {s : State} (run : runOpen s = true) : Move s (enterLosing s)
  | resume {s : State} : Move s (s.onJs fun j => { j with fill := .normal })
  | journalTable {s : State} {x : JournalTable} (legal : 1 ≤ x.q.toNat ∧ x.q.toNat ≤ 4095) :
      Move s (s.onJs fun j => { j with table := x })
  | clear {s : State} (capture : s.oq.state = .stopped) : Move s (clearJournal s)
  -- the hold
  | startHold {s : State} (a : HoldAction) (none : s.tu.hold = .noHold) : Move s (startHold a s)
  | count {s : State} (collecting : s.tu.hold = .collecting) (more : s.tu.count + 1 < s.tu.quota) :
      Move s (s.onTu fun u => { u with count := u.count + 1 })
  | quota {s : State} (collecting : s.tu.hold = .collecting) :
      Move s (closeHold (s.onTu fun u => { u with count := u.count + 1 }))
  | closeHold {s : State} (collecting : s.tu.hold = .collecting) : Move s (closeHold s)
  | dropHold {s : State} : Move s (s.onTu fun u => { u with hold := .noHold, count := 0 })
  -- the capture state
  | drain {s : State} (running : s.oq.state = .running) :
      Move s (s.onOq fun q => { q with stopStamp := s.tb.counter, state := .draining })
  | beginRun {s : State} (stopped : s.oq.state = .stopped) (room : Config.reserve ≤ freeSpace s.js) :
      Move s (s.onOq fun q => { q with state := .running })
  | endRun {s : State} (draining : s.oq.state = .draining) : Move s (endRun s)
  | load {s : State} (stopped : s.oq.state = .stopped) (head : s.js.head = 0#32) (tail : s.js.tail = 0#32) :
      Move s ((s.onOq fun q => { q with state := .loading }).onCl Loader.forReload)
  | loaded {s : State} (loading : s.cl.state ≠ .idle) {f : Loader → Loader} (idle : (f s.cl).state = .idle)
      (records : (f s.cl).read = s.cl.read ∧ (f s.cl).count = s.cl.count) :
      Move s ((s.onCl f).onOq fun q => { q with state := .stopped })
  -- the loader
  | loader {s : State} {f : Loader → Loader}
      (state : (f s.cl).state ≠ .idle → s.cl.state ≠ .idle ∨ s.oq.state = .loading)
      (records : s.cl.read ≤ s.cl.count ∧ s.cl.count ≤ Config.recordMax →
        (f s.cl).read ≤ (f s.cl).count ∧ (f s.cl).count ≤ Config.recordMax) : Move s (s.onCl f)
  | stage {s : State} (loading : s.cl.state ≠ .idle) (pos : Nat) (bytes : List Byte) :
      Move s (s.onJs fun j => { j with ram := j.ram.writeBytes pos bytes })
  -- HOST
  | attachHost {s : State} : Move s (attachHostOp s)
  | detachHost {s : State} :
      Move s (evalAvl (reevalFreeing (s.onJs fun j => { j with hostC := { j.hostC with attached := false } })))
  | releaseHost {s : State} (attached : s.js.hostC.attached = true) :
      Move s (s.onJs fun j => { j with hostC := { j.hostC with release := j.hostC.read } })
  | rereadHost {s : State} (attached : s.js.hostC.attached = true) :
      Move s (evalAvl (s.onJs fun j => { j with hostC := { j.hostC with read := j.hostC.release } }))
  | readByte {s : State} (attached : s.js.hostC.attached = true) (unread : s.js.hostC.read ≠ s.js.head) :
      Move s (evalAvl (s.onJs fun j => { j with hostC := { j.hostC with read := j.hostC.read + 1#32 } }))
  | seeSkip {s : State} : Move s (s.onJs fun j => { j with hostC := { j.hostC with skipPending := false } })
  | threshold {s : State} {f : HostWindow → HostWindow}
      (legal : 1 ≤ s.hw.avth.toNat ∧ s.hw.avth.toNat ≤ Config.ringSize →
        1 ≤ (f s.hw).avth.toNat ∧ (f s.hw).avth.toNat ≤ Config.ringSize) : Move s (evalAvl (s.onHw f))
  -- the link
  | serve {s : State} (status : Byte) (response : List Byte) :
      Move s (s.onXl fun x => { x with phase := .served status response })
  | leave {s : State} {f : Link → Link} (grounded : s.xl.flight = none ∨ ∀ v r, s.xl.phase ≠ .served v r)
      (kept : (f s.xl).outstanding = s.xl.outstanding ∧ (f s.xl).nextSeq = s.xl.nextSeq ∧
        (f s.xl).aborts = s.xl.aborts ∧ (f s.xl).flight = s.xl.flight) : Move s (s.onXl f)
  | fetch {s : State} {status : Byte} (selected : s.xl.phase = .selected status) {n : Nat} (least : 1 ≤ n)
      (most : n ≤ Config.frameDataMax) (response : List Byte) :
      Move s ((buildFrame n s).2.onXl fun x => { x with phase := .served status response })
  | deliver {s : State} {f : Flight} (flying : s.xl.flight = some f) : Move s (deliverFrame f s)
  | withdraw {s : State} {f : Flight} (flying : s.xl.flight = some f) : Move s (withdrawFrame f s)
  | acknowledge {s : State} {seq : Byte} {stop : Pos} {rest : List FrameRec}
      (known : ackThrough seq s.xl.outstanding = some (stop, rest)) : Move s (acknowledged stop rest s)
  | rewind {s : State} (attached : s.js.exportC.attached = true) :
      Move s ((s.onXl fun x => { x with outstanding := [] }).onJs fun j =>
        { j with exportC := { j.exportC with read := j.exportC.release } })
  | attachExport {s : State} : Move s ((attachExportOp s).onXl fun x => { x with outstanding := [] })
  | attachLoaded {s : State} (loading : s.cl.state ≠ .idle) : Move s (attachExportOp s)
  | detachExport {s : State} :
      Move s ((s.onXl fun x => { x with outstanding := [] }).onJs fun j =>
        { j with exportC := { j.exportC with read := j.exportC.release, attached := false } })

/-- Any number of moves, one after another. -/
def Moves : State → State → Prop := Relation.ReflTransGen Move

theorem Moves.refl {s : State} : Moves s s := Relation.ReflTransGen.refl

theorem Moves.single {s t : State} (h : Move s t) : Moves s t := Relation.ReflTransGen.single h

theorem Moves.tail {s t u : State} (h : Moves s t) (g : Move t u) : Moves s u := Relation.ReflTransGen.tail h g

theorem Moves.head {s t u : State} (h : Move s t) (g : Moves t u) : Moves s u := Relation.ReflTransGen.head h g

theorem Moves.trans {s t u : State} (h : Moves s t) (g : Moves t u) : Moves s u := Relation.ReflTransGen.trans h g

/-- What every move keeps, any number of moves keeps. -/
theorem Moves.keep {P : State → Prop} (each : ∀ {s t}, Move s t → P s → P t) {s t : State} (h : Moves s t) (hs : P s) :
    P t := by
  induction h with
  | refl => exact hs
  | tail _ last ih => exact each last ih

theorem Quiet.moves {s t : State} (h : Quiet s t) : Moves s t := .single (.quiet h)

end Sys2Proof.Machine
end

section
/-! Every command but the few that write flags or the fault log, and the device reset, is made of moves. -/

namespace Sys2Proof.Machine

/-! ### Quiet updates -/

theorem setFlag_quiet (flag : BitVec 8) (s : State) : Quiet s (setFlag flag s) := by
  constructor <;> simp [setFlag, sticky_or]

theorem onIcu_quiet (f : Vector ChannelRec 24 → Vector ChannelRec 24) (s : State) : Quiet s (s.onIcu f) := by
  constructor <;> simp

theorem onTb_quiet (f : TimeBase → TimeBase) (s : State) : Quiet s (s.onTb f) := by
  constructor <;> simp

theorem onOq_quiet {f : Capture → Capture} {s : State} (h : (f s.oq).state = s.oq.state) : Quiet s (s.onOq f) := by
  constructor <;> simp [h]

theorem onJe_quiet {f : Encoder → Encoder} {s : State} (loss : s.je.lossCount ≤ 65535 → (f s.je).lossCount ≤ 65535)
    (since : s.je.sinceSync ≤ Config.ringSize → (f s.je).sinceSync ≤ Config.ringSize) : Quiet s (s.onJe f) := by
  constructor <;> simp <;> assumption

theorem onHw_quiet {f : HostWindow → HostWindow} {s : State} (h : (f s.hw).avth = s.hw.avth) : Quiet s (s.onHw f) := by
  constructor <;> simp [h]

theorem drawn_quiet (s : State) : Quiet s s.drawn := by constructor <;> simp

theorem linkError_quiet (s : State) : Quiet s (linkError s) := by constructor <;> simp [linkError]

theorem errorCleared_quiet (s : State) : Quiet s (errorCleared s) := by constructor <;> simp [errorCleared]

theorem complete_quiet (r : Result) (s : State) : Quiet s (complete r s) := by
  constructor <;> simp [complete, setFlag, sticky_or]

theorem keepBusy_quiet (c : LongCommand) (s : State) : Quiet s (keepBusy c s) := onHw_quiet rfl

/-- Moves followed by quiet changes are moves. -/
theorem Moves.then_quiet {s t u : State} (h : Moves s t) (q : Quiet t u) : Moves s u := h.tail (.quiet q)

/-- A quiet change followed by moves is moves. -/
theorem Quiet.then_moves {s t u : State} (q : Quiet s t) (h : Moves t u) : Moves s u := .head (.quiet q) h

/-! ### Runs stay open while entries are handled -/

/-- Handling an entry leaves an open run open (R55). -/
theorem EntryFrame.runOpen_eq {s t : State} (h : EntryFrame s t) : runOpen t = runOpen s := by
  rcases h.state with e | ⟨a, b⟩
  · simp [runOpen, e]
  · simp [runOpen, a, b]

theorem StoreFrame.runOpen_eq {s t : State} (h : StoreFrame s t) : runOpen t = runOpen s := h.entryFrame.runOpen_eq

/-- A run is open exactly in RUNNING and DRAINING. -/
theorem runOpen_iff {s : State} : runOpen s = true ↔ s.oq.state = .running ∨ s.oq.state = .draining := by
  simp [runOpen]

/-- In an open run the part is not LOADING. -/
theorem not_loading_of_runOpen {s : State} (h : runOpen s = true) : s.oq.state ≠ .loading := by
  rcases runOpen_iff.mp h with h | h <;> simp [h]

/-! ### The store -/

theorem makeRoom_moves (goal : State → Bool) (s : State) : Moves s (makeRoom goal s) :=
  makeRoom_induct (P := Moves s) goal (fun _ _ h _ possible => h.tail (.discard possible)) .refl

/-- An offer in a run is room made, then the packet stored or the store LOSING (R36). -/
theorem offer_moves {s : State} (run : runOpen s = true) {bytes : List Byte} {isSync : Bool}
    (header : isSync = true → bytes.head? = some 0x10#8) : Moves s (offer bytes isSync s).2 := by
  have room := makeRoom_moves (fits bytes.length isSync) s
  have run1 : runOpen (makeRoom (fits bytes.length isSync) s) = true := by
    rw [(makeRoom_frame _ s).runOpen_eq]; exact run
  rcases offer_cases bytes isSync s with ⟨-, h⟩ | ⟨-, fit, h⟩ | ⟨-, -, h⟩ <;> simp only [h]
  · exact .refl
  · exact room.tail (.store (not_loading_of_runOpen run1) fit header)
  · exact room.tail (.lose run1)

theorem sinceAfter_le (since n : Nat) (isSync : Bool) : sinceAfter since n isSync ≤ Config.ringSize := by
  unfold sinceAfter; split
  · exact Nat.zero_le _
  · exact Nat.min_le_left _ _

theorem countStored_quiet (n : Nat) (isSync : Bool) (s : State) : Quiet s (countStored n isSync s) :=
  onJe_quiet id fun _ => sinceAfter_le _ _ _

theorem beginLoss_quiet (failure : Time) (s : State) : Quiet s (beginLoss failure s) :=
  onJe_quiet (fun _ => Nat.zero_le _) id

/-- A saturating count stays within its limit. -/
theorem satInc_le (limit n : Nat) : satInc limit n ≤ limit := by unfold satInc; split <;> omega

theorem countLost_quiet (stamp : Time) (s : State) : Quiet s (countLost stamp s) :=
  onJe_quiet (fun _ => satInc_le _ _) id

theorem emit_moves {s : State} (run : runOpen s = true) {bytes : List Byte} {isSync : Bool}
    (header : isSync = true → bytes.head? = some 0x10#8) (failure : Time) : Moves s (emit bytes isSync failure s).2 := by
  have offered := offer_moves run header
  rcases emit_cases bytes isSync failure s with ⟨s1, o, e⟩ | ⟨s1, o, e⟩ | ⟨s1, o, e⟩ <;>
    (rw [o] at offered; rw [e])
  · exact offered.then_quiet (countStored_quiet _ _ _)
  · exact offered.then_quiet (beginLoss_quiet _ _)
  · exact offered

/-- A packet that is no SYNC needs no header of one. -/
theorem emit_plain_moves {s : State} (run : runOpen s = true) (bytes : List Byte) (failure : Time) :
    Moves s (emit bytes false failure s).2 := emit_moves run (by simp) failure

/-- A SYNC begins with its header byte (R194). -/
theorem syncPacket_head (s : State) (time : Time) (image : Image) : (syncPacket s time image).head? = some 0x10#8 := rfl

theorem emitSync_moves {s : State} (run : runOpen s = true) (time : Time) (image : Image) (failure : Time) :
    Moves s (emitSync time image failure s).2 := by
  have emitted := emit_moves run (fun _ => syncPacket_head s time image) (isSync := true) failure
  unfold emitSync
  rcases e : emit (syncPacket s time image) true failure s with ⟨a, s1⟩
  rw [e] at emitted
  cases a
  · exact emitted.then_quiet (u := s1.onJe fun e => { e with runningTime := time }) (onJe_quiet id id)
  · exact emitted
  · exact emitted

theorem emitAll_moves {s : State} (run : runOpen s = true) (failure : Time) (ps : List (List Byte)) :
    Moves s (emitAll failure ps s) := by
  induction ps generalizing s with
  | nil => exact .refl
  | cons p ps ih =>
    have run1 : runOpen (emit p false failure s).2 = true := by rw [(emit_frame p false failure s).runOpen_eq]; exact run
    exact (emit_plain_moves run p failure).trans (ih run1)

/-! ### A released entry -/

theorem emitEntry_moves {s : State} (run : runOpen s = true) (e : Entry) : Moves s (emitEntry e s) := by
  have emitted := emit_plain_moves run (entryPacket s.je.runningTime e) e.stamp
  unfold emitEntry
  rcases he : emit (entryPacket s.je.runningTime e) false e.stamp s with ⟨a, s1⟩
  rw [he] at emitted
  cases a
  · dsimp only
    split
    · exact emitted
    · exact emitted.then_quiet (onJe_quiet id id)
  · exact emitted.then_quiet (countLost_quiet _ _)
  · exact emitted.then_quiet (countLost_quiet _ _)

theorem emitSyncThenEntry_moves {s : State} (run : runOpen s = true) (e : Entry) (before : Image) :
    Moves s (emitSyncThenEntry e before s) := by
  have emitted := emitSync_moves run (entrySyncTime e s) before e.stamp
  have run1 := (emitSync_frame (entrySyncTime e s) before e.stamp s).runOpen_eq.trans run
  unfold emitSyncThenEntry
  rcases he : emitSync (entrySyncTime e s) before e.stamp s with ⟨a, s1⟩
  rw [he] at emitted run1
  cases a
  · exact emitted.trans (emitEntry_moves run1 e)
  · exact emitted.then_quiet (countLost_quiet _ _)
  · exact emitted.then_quiet (countLost_quiet _ _)

theorem resumePackets_moves {s : State} (run : runOpen s = true) (e : Entry) (before : Image) :
    Moves s (resumePackets e before s) := by
  have emitted := emit_plain_moves run (lossPacket s.je) e.stamp
  have run1 := (emit_frame (lossPacket s.je) false e.stamp s).runOpen_eq.trans run
  unfold resumePackets
  rcases he : emit (lossPacket s.je) false e.stamp s with ⟨a, s1⟩
  rw [he] at emitted run1
  cases a
  · refine emitted.trans ((onJe_quiet (fun _ => Nat.zero_le _) id).then_moves (emitSyncThenEntry_moves ?_ e before))
    exact run1
  · exact emitted.then_quiet (countLost_quiet _ _)
  · exact emitted.then_quiet (countLost_quiet _ _)

theorem entryPackets_moves {s : State} (run : runOpen s = true) (resumed : Bool) (e : Entry) (before : Image) :
    Moves s (entryPackets resumed e before s) := by
  unfold entryPackets normalPackets
  split
  · exact (countLost_quiet _ _).moves
  · split
    · exact resumePackets_moves run e before
    · split
      · exact emitSyncThenEntry_moves run e before
      · exact emitEntry_moves run e

theorem resumptionCheck_moves (s : State) : Moves s (resumptionCheck s).2 := by
  unfold resumptionCheck
  split
  · exact .refl
  · dsimp only
    split
    · exact (makeRoom_moves _ s).tail .resume
    · exact makeRoom_moves _ s

theorem takeRule_moves (r : TriggerRule) (s : State) : Moves s (takeRule r s).2 := by
  have flagged : Moves s (if r.interrupt then setFlag flagTrg s else s) := by
    split
    · exact (setFlag_quiet _ _).moves
    · exact .refl
  unfold takeRule
  generalize (if r.interrupt then setFlag flagTrg s else s) = s1 at flagged
  cases r.action.holdAction with
  | none => exact flagged
  | some a =>
    dsimp only
    split
    · exact flagged.tail (.startHold a ‹_›)
    · exact flagged

theorem evaluateRules_moves (ch : Channel) (level : Bool) (img : Image) (is : List (Fin 8)) (s : State) :
    Moves s (evaluateRules ch level img is s).2 := by
  induction is generalizing s with
  | nil => exact .refl
  | cons i is ih =>
    unfold evaluateRules
    split
    · exact (takeRule_moves _ _).trans (ih _)
    · exact ih s

theorem evaluateEntry_moves (e : Entry) (s : State) : Moves s (evaluateEntry e s).2 := by
  unfold evaluateEntry
  split
  · exact evaluateRules_moves _ _ _ _ _
  · exact .refl

/-- A rule taken while a hold is active leaves the trigger unit as it is (R113). -/
theorem takeRule_tu {s : State} (h : s.tu.hold ≠ .noHold) (r : TriggerRule) : (takeRule r s).2.tu = s.tu := by
  unfold takeRule
  cases hi : r.interrupt <;> cases r.action.holdAction <;> simp [setFlag, h]

theorem evaluateRules_tu {s : State} (h : s.tu.hold ≠ .noHold) (ch : Channel) (level : Bool) (img : Image)
    (is : List (Fin 8)) : (evaluateRules ch level img is s).2.tu = s.tu := by
  induction is generalizing s with
  | nil => rfl
  | cons i is ih =>
    have taken := takeRule_tu h s.tu.rules[i]
    unfold evaluateRules
    split
    · dsimp only
      rw [ih (by rw [taken]; exact h), taken]
    · exact ih h

/-- The evaluation of an entry leaves an active hold and the trigger table as they are (R113). -/
theorem evaluateEntry_tu {s : State} (h : s.tu.hold ≠ .noHold) (e : Entry) : (evaluateEntry e s).2.tu = s.tu := by
  unfold evaluateEntry
  split
  · exact evaluateRules_tu h _ _ _ _
  · rfl

theorem holdStopRequest_moves (s : State) : Moves s (holdStopRequest s) := by
  unfold holdStopRequest
  split
  · exact .head (.drain ‹_›) (onJe_quiet id id).moves
  · exact .refl

theorem reportEntry_moves {s : State} (run : runOpen s = true) {wasCollecting : Bool}
    (h : wasCollecting = true → s.tu.hold = .collecting) (stamp : Time) :
    Moves s (reportEntry wasCollecting stamp s) := by
  unfold reportEntry
  dsimp only
  split
  · have collecting := h ‹_›
    split
    · have run1 : runOpen (closeHold (s.onTu fun u => { u with count := u.count + 1 })) = true := run
      have closed : Moves s (emit (holdPacket .byQuota) false stamp
          (closeHold (s.onTu fun u => { u with count := u.count + 1 }))).2 :=
        .head (.quota collecting) (emit_plain_moves run1 _ _)
      split
      · exact closed
      · exact closed.trans (holdStopRequest_moves _)
    · rename_i more
      exact .single (.count collecting (by simpa using more))
  · exact .refl

theorem handleEntry_moves {s : State} (run : runOpen s = true) (e : Entry) : Moves s (handleEntry e s) := by
  unfold handleEntry
  dsimp only
  have resumed := resumptionCheck_moves s
  have run1 := (resumptionCheck_frame s).runOpen_eq.trans run
  generalize (resumptionCheck s).2 = s1 at *
  have evaluated := evaluateEntry_moves e (s1.onJe fun j => { j with image := imageAfter e j.image })
  have frame2 := evaluateEntry_frame e (s1.onJe fun j => { j with image := imageAfter e j.image })
  have hold2 : s1.tu.hold = .collecting → (evaluateEntry e
      (s1.onJe fun j => { j with image := imageAfter e j.image })).2.tu.hold = .collecting := by
    intro h
    rw [evaluateEntry_tu (by simp [h])]
    exact h
  have run2 := frame2.runOpen_eq.trans run1
  have moves2 : Moves s (evaluateEntry e (s1.onJe fun j => { j with image := imageAfter e j.image })).2 :=
    resumed.trans ((onJe_quiet id id).then_moves evaluated)
  generalize (evaluateEntry e (s1.onJe fun j => { j with image := imageAfter e j.image })).2 = s2 at *
  have moves3 : Moves s (if isLate s2.je.runningTime e then logFault .late (orderDetail e) s2 else s2) := by
    split
    · exact moves2.tail (.fault _ _)
    · exact moves2
  have hold3 : (if isLate s2.je.runningTime e then logFault .late (orderDetail e) s2 else s2).tu = s2.tu := by
    split <;> rfl
  have run3 : runOpen (if isLate s2.je.runningTime e then logFault .late (orderDetail e) s2 else s2) = true := by
    split <;> exact run2
  generalize (if isLate s2.je.runningTime e then logFault .late (orderDetail e) s2 else s2) = s3 at *
  have frame4 := entryPackets_frame (resumptionCheck s).1 e s1.je.image s3
  have moves4 := entryPackets_moves run3 (resumptionCheck s).1 e s1.je.image
  have run4 := frame4.runOpen_eq.trans run3
  generalize entryPackets (resumptionCheck s).1 e s1.je.image s3 = s4 at *
  have frame5 := emitAll_frame e.stamp
    (List.map (fun h => triggerPacket h.1 h.2)
      (evaluateEntry e (s1.onJe fun j => { j with image := imageAfter e j.image })).1) s4
  refine (moves3.trans moves4).trans ((emitAll_moves run4 _ _).trans (reportEntry_moves ?_ ?_ _))
  · exact frame5.runOpen_eq.trans run4
  · intro h
    rw [frame5.tu, frame4.tu, hold3]
    exact hold2 (by simpa using h)

/-! ### The queue -/

theorem takeEntry_moves {s : State} (run : runOpen s = true) (e : Entry) : Moves s (takeEntry e s) := by
  unfold takeEntry
  split
  · exact (onOq_quiet rfl).moves
  · split
    · exact .refl
    · rename_i first rest _
      have taken : Quiet s (s.onOq fun q => { q with queue := rest }) := onOq_quiet rfl
      refine taken.then_moves (.head (.fault _ _) (handleEntry_moves ?_ first))
      exact run

theorem offerEntry_moves (e : Entry) (s : State) : Moves s (offerEntry e s) := by
  unfold offerEntry
  split
  · exact takeEntry_moves (by simp [runOpen, *]) e
  · split
    · exact takeEntry_moves (by simp [runOpen, *]) e
    · exact .refl
  · exact .refl
  · exact .refl

theorem offerEntries_moves (es : List Entry) (s : State) : Moves s (offerEntries es s) := by
  induction es generalizing s with
  | nil => exact .refl
  | cons e es ih => exact (offerEntry_moves e s).trans (ih _)

theorem releaseHead_moves {s : State} (run : runOpen s = true) : Moves s (releaseHead s) := by
  unfold releaseHead
  split
  · exact .refl
  · rename_i e rest _
    have taken : Quiet s (s.onOq fun q => { q with queue := rest }) := onOq_quiet rfl
    refine taken.then_moves (handleEntry_moves ?_ e)
    exact run

/-- A released entry leaves an open run open. -/
theorem handleEntry_runOpen (e : Entry) (s : State) : runOpen (handleEntry e s) = runOpen s :=
  (handleEntry_frame e s).runOpen_eq

theorem releaseAll_moves {s : State} (run : runOpen s = true) (es : List Entry) : Moves s (releaseAll es s) := by
  induction es generalizing s with
  | nil => exact .refl
  | cons e es ih =>
    have taken : Quiet s (s.onOq fun q => { q with queue := es }) := onOq_quiet rfl
    refine taken.then_moves ((handleEntry_moves ?_ e).trans (ih ?_))
    · exact run
    · exact (handleEntry_runOpen _ _).trans run

/-! ### Channels -/

theorem setChannel_quiet (ch : Channel) (c : ChannelRec) (s : State) : Quiet s (setChannel ch c s) := onIcu_quiet _ _

theorem acceptChange_moves (ch : Channel) (stamp : Time) (s : State) : Moves s (acceptChange ch stamp s) := by
  unfold acceptChange
  dsimp only
  split
  · exact (setChannel_quiet _ _ _).then_moves (offerEntries_moves _ _)
  · exact (setChannel_quiet _ _ _).moves

theorem takeEdge_moves (ch : Channel) (s : State) : Moves s (takeEdge ch s) := by
  unfold takeEdge
  dsimp only
  split
  · exact .refl
  · split
    · split
      · exact acceptChange_moves _ _ _
      · exact (setChannel_quiet _ _ _).moves
    · exact .refl
  · split
    · exact .refl
    · exact (setChannel_quiet _ _ _).moves
  · split
    · split <;> exact (setChannel_quiet _ _ _).moves
    · exact (setChannel_quiet _ _ _).moves
  · exact (setChannel_quiet _ _ _).moves

theorem settleExpires_moves (ch : Channel) (s : State) : Moves s (settleExpires ch s) := by
  unfold settleExpires
  dsimp only
  split
  · exact acceptChange_moves _ _ _
  · exact (setChannel_quiet _ _ _).moves

theorem quietExpires_moves (ch : Channel) (s : State) : Moves s (quietExpires ch s) := by
  unfold quietExpires
  dsimp only
  split
  · exact (setChannel_quiet _ _ _).then_moves (offerEntry_moves _ _)
  · exact (setChannel_quiet _ _ _).moves

/-! ### The time base -/

theorem logFaults_moves (kind : FaultKind) (ds : List Byte) (s : State) : Moves s (logFaults kind ds s) := by
  induction ds generalizing s with
  | nil => exact .refl
  | cons d ds ih => exact .head (.fault kind d) (ih _)

theorem rebaseQueue_quiet (S : Int) (s : State) : Quiet s (rebaseQueue S s) := by
  unfold rebaseQueue
  split
  · exact onOq_quiet rfl
  · exact .refl s

/-- A step of the time leaves or draws one of the model's free values (log entry 6). -/
theorem clampDetails_state (S : Int) (s : State) : (clampDetails S s).2 = s ∨ (clampDetails S s).2 = s.drawn := by
  unfold clampDetails
  dsimp only
  split
  · dsimp only; split <;> simp
  · simp

theorem clampDetails_quiet (S : Int) (s : State) : Quiet s (clampDetails S s).2 := by
  rcases clampDetails_state S s with h | h <;> rw [h]
  exact drawn_quiet s

theorem emitStep_moves {s : State} (run : runOpen s = true) (cause : StepCause) (old new : Time) :
    Moves s (emitStep cause old new s) := by
  unfold emitStep
  refine (emit_plain_moves run _ _).trans (emitSync_moves ?_ _ _ _)
  exact (emit_frame _ _ _ s).runOpen_eq.trans run

theorem encoderStep_moves (S : Int) (cause : StepCause) (journaled : Bool) (s : State) :
    Moves s (encoderStep S cause journaled s) := by
  have moved : Quiet s (s.onJe fun e => { e with runningTime := rebase s.je.runningTime S }) := onJe_quiet id id
  unfold encoderStep
  dsimp only
  split
  · split
    · exact moved.then_moves (emitStep_moves (by simp [runOpen, *]) _ _ _)
    · exact moved.moves
  · exact moved.moves
  · exact .refl

theorem applyStep_moves (S : Int) (cause : StepCause) (journaled : Bool) (s : State) :
    Moves s (applyStep S cause journaled s) := by
  unfold applyStep
  dsimp only
  have drawn := (clampDetails_quiet S s).moves
  have stepped := ((drawn.then_quiet (onTb_quiet (stepTimeBase S) _)).then_quiet
    (onIcu_quiet (Vector.map (rebaseChannel S)) _)).then_quiet (rebaseQueue_quiet S _)
  exact (stepped.trans (logFaults_moves _ _ _)).trans (encoderStep_moves _ _ _ _)

theorem applyPulseStep_moves (e : Int) (s : State) : Moves s (applyPulseStep e s) := by
  unfold applyPulseStep
  dsimp only
  split
  · exact .refl
  · split
    · exact applyStep_moves _ _ _ _
    · exact (onTb_quiet _ _).then_moves (applyStep_moves _ _ _ _)

theorem changeQuality_moves (new : Quality) (s : State) : Moves s (changeQuality new s) := by
  have flagged : Moves s (setFlag flagTqc <| s.onTb fun t => { t with quality := new }) :=
    (onTb_quiet _ _).then_moves (setFlag_quiet _ _).moves
  unfold changeQuality
  dsimp only
  split
  · exact flagged.trans (offerEntry_moves _ _)
  · exact flagged

/-- A change of the time base followed by a change of quality. -/
theorem changeQuality_onTb_moves (new : Quality) (f : TimeBase → TimeBase) (s : State) :
    Moves s (changeQuality new (s.onTb f)) := (onTb_quiet f s).then_moves (changeQuality_moves new _)

theorem enterHoldover_moves (s : State) : Moves s (enterHoldover s) := by
  unfold enterHoldover
  dsimp only
  split
  · exact (changeQuality_onTb_moves _ _ _).trans (changeQuality_onTb_moves _ _ _)
  · exact changeQuality_onTb_moves _ _ _

theorem acceptPulse_moves (e : Int) (s : State) : Moves s (acceptPulse e s) :=
  (applyPulseStep_moves e s).then_quiet (onTb_quiet _ _)

theorem lockOnPulse_moves (e : Int) (s : State) : Moves s (lockOnPulse e s) :=
  (changeQuality_moves _ s).trans (acceptPulse_moves e _)

theorem takePulse_moves (s : State) : Moves s (takePulse s) := by
  unfold takePulse
  dsimp only
  split
  · exact changeQuality_onTb_moves _ _ _
  · split
    · exact lockOnPulse_moves _ _
    · exact (onTb_quiet _ _).moves
  · split
    · exact acceptPulse_moves _ _
    · split
      · exact (onTb_quiet _ _).moves
      · exact changeQuality_onTb_moves _ _ _
  · split
    · exact lockOnPulse_moves _ _
    · exact changeQuality_onTb_moves _ _ _

theorem takeTimeout_moves (s : State) : Moves s (takeTimeout s) := by
  unfold takeTimeout
  split
  · exact changeQuality_onTb_moves _ _ _
  · exact enterHoldover_moves s

theorem takeHoldoverExpiry_moves (s : State) : Moves s (takeHoldoverExpiry s) := by
  unfold takeHoldoverExpiry
  split
  · exact (onTb_quiet _ _).moves
  · exact (onTb_quiet _ _).moves
  · exact (onTb_quiet _ _).moves
  · exact changeQuality_onTb_moves _ _ _

/-- A conditional last step of moves. -/
theorem Moves.then_ite {s t u : State} (h : Moves s t) {p : Prop} [Decidable p] (g : p → Moves t u) :
    Moves s (if p then u else t) := by
  split
  · exact h.trans (g ‹_›)
  · exact h

theorem writeTimeTable_moves (x : TimeTable) (s : State) : Moves s (writeTimeTable x s) := by
  unfold writeTimeTable
  dsimp only
  refine Moves.then_ite (Moves.then_ite (Moves.then_ite (onTb_quiet _ _).moves ?_) ?_) ?_
  · exact fun _ => enterHoldover_moves _
  · exact fun _ => takeTimeout_moves _
  · exact fun _ => takeHoldoverExpiry_moves _

theorem stepToTime_moves (new : Time) (s : State) : Moves s (stepToTime new s) := by
  unfold stepToTime
  split
  · exact .refl
  · exact applyStep_moves _ _ _ _

end Sys2Proof.Machine
end

section
/-! The commands as moves: capture control's, the host's, the link's and the loader's, and so every command but the few
that write flags or the fault log, and the device reset. -/

namespace Sys2Proof.Machine

/-! ### Checked entries -/

/-- An entry that passes its table's check (R39, R72, R92, R110). -/
def EntryLegal : TableEntry → Prop
  | .channel _ d => chatterLimitOk d.chatterLimit = true ∧ d.chatterWindow ≠ 0#8 ∧ d.quietTime ≠ 0#8
  | .trigger _ r => r.value &&& ~~~r.mask = 0#24
  | .time x => (10 ≤ x.lockWindow.toNat ∧ x.lockWindow.toNat ≤ 50000) ∧ x.holdoverLimit ≠ 0#16
  | .journal j => (1 ≤ j.syncInterval.toNat ∧ j.syncInterval.toNat ≤ 16) ∧
      (1 ≤ j.resumeRoom.toNat ∧ j.resumeRoom.toNat ≤ 16) ∧ j.p.toNat ≤ 15 ∧ 1 ≤ j.q.toNat ∧ j.q.toNat ≤ 4095

theorem decodeChannel_legal {b : EntryBytes} {d : ChanDesc} (h : decodeChannel b = some d) (i : Channel) :
    EntryLegal (.channel i d) := by
  unfold decodeChannel at h
  split at h
  · split at h
    · injection h with h
      subst h
      simp_all [EntryLegal]
    · cases h
  · cases h

theorem decodeTrigger_legal {b : EntryBytes} {r : TriggerRule} (h : decodeTrigger b = some r) (i : Fin 8) :
    EntryLegal (.trigger i r) := by
  unfold decodeTrigger at h
  dsimp only at h
  split at h
  · split at h
    · split at h
      · injection h with h
        subst h
        simp_all [EntryLegal]
      · cases h
    · cases h
  · cases h

theorem decodeTime_legal {b : EntryBytes} {x : TimeTable} (h : decodeTime b = some x) : EntryLegal (.time x) := by
  unfold decodeTime at h
  dsimp only at h
  split at h
  · split at h
    · injection h with h
      subst h
      simp_all [EntryLegal]
    · cases h
  · cases h

theorem decodeJournal_legal {b : EntryBytes} {j : JournalTable} (h : decodeJournal b = some j) :
    EntryLegal (.journal j) := by
  unfold decodeJournal at h
  dsimp only at h
  split at h
  · split at h
    · injection h with h
      subst h
      simp_all [EntryLegal]
    · cases h
  · cases h

/-- What decodes has passed its table's check (R164, R182). -/
theorem decodeEntry_legal {slot : TableSlot} {b : EntryBytes} {e : TableEntry} (h : decodeEntry slot b = some e) :
    EntryLegal e := by
  cases slot <;> obtain ⟨x, hx, rfl⟩ := Option.map_eq_some_iff.mp h
  · exact decodeChannel_legal hx _
  · exact decodeTrigger_legal hx _
  · exact decodeTime_legal hx
  · exact decodeJournal_legal hx

theorem checkRecord_legal {table index : Byte} {b : EntryBytes} {e : TableEntry}
    (h : checkRecord table index b = some e) : EntryLegal e := by
  obtain ⟨slot, -, h⟩ := Option.bind_eq_some_iff.mp h
  exact decodeEntry_legal h

/-! ### Outside RUNNING the time base writes no packet -/

/-- From `s` to `t` nothing moves but the time base and the flags. -/
def TimeOnly (s t : State) : Prop := t = { s with tb := t.tb, ifu := { s.ifu with irqf := t.ifu.irqf } }

theorem TimeOnly.refl (s : State) : TimeOnly s s := rfl

theorem TimeOnly.trans {s t u : State} (h : TimeOnly s t) (g : TimeOnly t u) : TimeOnly s u := by
  unfold TimeOnly at *
  rw [g, h]

theorem onTb_timeOnly (f : TimeBase → TimeBase) (s : State) : TimeOnly s (s.onTb f) := rfl

theorem TimeOnly.oq {s t : State} (h : TimeOnly s t) : t.oq = s.oq := by rw [h]
theorem TimeOnly.js {s t : State} (h : TimeOnly s t) : t.js = s.js := by rw [h]

/-- Outside RUNNING a change of quality raises TQC and offers nothing (R101). -/
theorem changeQuality_idle {s : State} (h : s.oq.state ≠ .running) (new : Quality) :
    changeQuality new s = setFlag flagTqc (s.onTb fun t => { t with quality := new }) := by
  simp [changeQuality, h]

theorem changeQuality_timeOnly {s : State} (h : s.oq.state ≠ .running) (new : Quality) :
    TimeOnly s (changeQuality new s) := by rw [changeQuality_idle h]; rfl

theorem enterHoldover_timeOnly {s : State} (h : s.oq.state ≠ .running) : TimeOnly s (enterHoldover s) := by
  have first := changeQuality_timeOnly (s := s.onTb fun t => { t with reference := none, rejects := 0 }) h .holdover
  have first := (onTb_timeOnly (fun t => { t with reference := none, rejects := 0 }) s).trans first
  unfold enterHoldover
  dsimp only
  split
  · refine first.trans ((onTb_timeOnly _ _).trans (changeQuality_timeOnly ?_ _))
    show (changeQuality .holdover _).oq.state ≠ .running
    rw [first.oq]; exact h
  · exact first

theorem takeTimeout_timeOnly {s : State} (h : s.oq.state ≠ .running) : TimeOnly s (takeTimeout s) := by
  unfold takeTimeout
  split
  · exact (onTb_timeOnly _ _).trans (changeQuality_timeOnly (by exact h) _)
  · exact enterHoldover_timeOnly h

theorem takeHoldoverExpiry_timeOnly {s : State} (h : s.oq.state ≠ .running) : TimeOnly s (takeHoldoverExpiry s) := by
  unfold takeHoldoverExpiry
  split
  · exact onTb_timeOnly _ _
  · exact onTb_timeOnly _ _
  · exact onTb_timeOnly _ _
  · exact (onTb_timeOnly _ _).trans (changeQuality_timeOnly (by exact h) _)

/-- A conditional further change of the time base. -/
theorem TimeOnly.then_ite {s t u : State} (h : TimeOnly s t) {p : Prop} [Decidable p] (g : TimeOnly t u) :
    TimeOnly s (if p then u else t) := by
  split
  · exact h.trans g
  · exact h

/-- Outside RUNNING a written time table changes the time base and raises flags, nothing else (R93). -/
theorem writeTimeTable_timeOnly {s : State} (h : s.oq.state ≠ .running) (x : TimeTable) :
    TimeOnly s (writeTimeTable x s) := by
  unfold writeTimeTable
  dsimp only
  have t1 := onTb_timeOnly (fun t => { t with table := x }) s
  generalize s.onTb (fun t => { t with table := x }) = s1 at *
  have r1 : s1.oq.state ≠ .running := by rw [t1.oq]; exact h
  have t2 : TimeOnly s (if (s.tb.table.ppsEnable && !x.ppsEnable && s1.tb.quality == .locked) = true then
      enterHoldover s1 else s1) := t1.then_ite (enterHoldover_timeOnly r1)
  generalize (if (s.tb.table.ppsEnable && !x.ppsEnable && s1.tb.quality == .locked) = true then
      enterHoldover s1 else s1) = s2 at *
  have r2 : s2.oq.state ≠ .running := by rw [t2.oq]; exact h
  have t3 : TimeOnly s (if (s.tb.table.lockWindow != x.lockWindow && timeoutDue s2) = true then takeTimeout s2
      else s2) := t2.then_ite (takeTimeout_timeOnly r2)
  generalize (if (s.tb.table.lockWindow != x.lockWindow && timeoutDue s2) = true then takeTimeout s2
      else s2) = s3 at *
  exact t3.then_ite (takeHoldoverExpiry_timeOnly (by rw [t3.oq]; exact h))

/-! ### Capture control -/

/-- A stored packet takes its length off the free space (R25, R37). -/
theorem freeSpace_storePacket {s : State} {bytes : List Byte} (room : bytes.length ≤ freeSpace s.js) (isSync : Bool) :
    freeSpace (storePacket bytes isSync s).js = freeSpace s.js - bytes.length := by
  have ring : Config.ringSize = 16384 := rfl
  rcases Nat.eq_zero_or_pos bytes.length with none | some
  · simp only [storePacket_js, freeSpace, occupancy, none, BitVec.add_zero, Nat.sub_zero]
  · have moved : distFrom s.js.tail (s.js.head + BitVec.ofNat 32 bytes.length) = occupancy s.js + bytes.length := by
      apply distFrom_add
      simp only [freeSpace, occupancy] at *
      omega
    simp only [storePacket_js, freeSpace, occupancy] at *
    rw [moved]
    omega

/-- A SYNC is seventeen bytes (R1). -/
@[simp] theorem length_syncPacket (s : State) (time : Time) (image : Image) :
    (syncPacket s time image).length = syncLength := rfl

/-- A SYNC that fits outside a run is stored, or dropped by a LOSING store; the reserve stays free (R36, R47). -/
theorem emitSync_fit_moves {s : State} (capture : s.oq.state ≠ .loading) (fit : fits syncLength true s = true)
    (time : Time) (image : Image) (failure : Time) :
    Moves s (emitSync time image failure s).2 ∧ Config.reserve ≤ freeSpace (emitSync time image failure s).2.js := by
  obtain ⟨room, -⟩ := fits_iff.mp fit
  unfold emitSync emit
  cases fill : s.js.fill
  · have stored := offer_of_fits (bytes := syncPacket s time image) fill fit
    simp only [stored]
    have store : Move s (storePacket (syncPacket s time image) true s) := .store capture fit fun _ => rfl
    refine ⟨.head store ?_, ?_⟩
    · exact ((countStored_quiet _ _ _).moves).then_quiet (onJe_quiet id id)
    · show Config.reserve ≤ freeSpace (storePacket (syncPacket s time image) true s).js
      rw [freeSpace_storePacket (by rw [length_syncPacket]; omega), length_syncPacket]
      omega
  · have dropped : offer (syncPacket s time image) true s = (.dropped, s) := by simp [offer, fill]
    simp only [dropped]
    exact ⟨.refl, by omega⟩

theorem openRun_moves {s : State} (stopped : s.oq.state = .stopped) (fit : fits syncLength true s = true) :
    Moves s (openRun s) := by
  unfold openRun beginRun
  dsimp only
  have begun : Quiet s ((s.onOq fun q => { q with horizon := horizonOf s }).onJe fun e =>
      { e with
        runningTime := s.tb.counter, image := liveImage s &&& enabledImage s, mask := enabledImage s }) := by
    constructor <;> simp
  have synced := emitSync_fit_moves (s := (s.onOq fun q => { q with horizon := horizonOf s }).onJe fun e =>
      { e with
        runningTime := s.tb.counter, image := liveImage s &&& enabledImage s, mask := enabledImage s })
    (by simp [stopped]) fit s.tb.counter (liveImage s &&& enabledImage s) s.tb.counter
  have frame := emitSync_frame s.tb.counter (liveImage s &&& enabledImage s) s.tb.counter
    ((s.onOq fun q => { q with horizon := horizonOf s }).onJe fun e =>
      { e with runningTime := s.tb.counter, image := liveImage s &&& enabledImage s, mask := enabledImage s })
  refine ((begun.then_moves synced.1).then_quiet (onIcu_quiet _ _)).tail (.beginRun ?_ synced.2)
  exact (congrArg Capture.state frame.oq).trans stopped

theorem requestStart_moves (s : State) : Moves s (requestStart s).2 := by
  unfold requestStart
  split
  · dsimp only
    have room := makeRoom_moves (fits syncLength true) s
    split
    · refine room.trans (openRun_moves ?_ ‹_›)
      rw [(makeRoom_frame _ s).oq]; assumption
    · exact room
  · exact .refl

/-- A body carried out for a CMD write outside LOADING. -/
theorem request_moves {body : State → State} {s : State} (h : Moves s (body s)) : Moves s (request body s) := by
  unfold request
  split
  · exact (onHw_quiet rfl).moves
  · split
    · exact (complete_quiet _ _).moves
    · exact h

theorem Moves.complete {s t : State} (h : Moves s t) (r : Result) : Moves s (complete r t) :=
  h.then_quiet (complete_quiet r t)

theorem commandStart_moves (s : State) : Moves s (commandStart s) := (requestStart_moves s).complete _

theorem commandStop_moves (s : State) : Moves s (commandStop s) := by
  unfold commandStop
  split
  · exact .head (.drain ‹_›) (keepBusy_quiet _ _).moves
  · exact (complete_quiet _ _).moves

/-- Entries handled in DRAINING leave it in DRAINING (R55). -/
theorem EntryFrame.draining {s t : State} (h : EntryFrame s t) (d : s.oq.state = .draining) : t.oq.state = .draining := by
  rcases h.state with e | ⟨r, -⟩
  · exact e.trans d
  · rw [d] at r; cases r

theorem releaseAll_draining (es : List Entry) {s : State} (d : s.oq.state = .draining) :
    (releaseAll es s).oq.state = .draining := by
  induction es generalizing s with
  | nil => exact d
  | cons e es ih => exact ih ((handleEntry_frame e _).draining d)

/-- The close of a run in terms of its ending: the notices to the channels and the completion of a STOP follow it. -/
theorem closeDrain_eq (s : State) :
    ∃ u v, u = releaseAll s.oq.queue s ∧
      v = (if u.tu.hold = .collecting then (emit (holdPacket .byStop) false u.je.runningTime (closeHold u)).2 else u) ∧
      closeDrain s =
        (let w := setFlag flagStp (((endRun v).onJe fun e => { e with stopReason := .hostStop }).onIcu fun c =>
          c.map runEndNotice)
        if w.hw.inProgress = some .stop then complete .ok w else w) := by
  refine ⟨_, _, rfl, rfl, ?_⟩
  by_cases h : (releaseAll s.oq.queue s).tu.hold = .collecting
  · simp only [closeDrain, closeRun, h, beq_self_eq_true, if_true]; rfl
  · have h' : ((releaseAll s.oq.queue s).tu.hold == .collecting) = false := by simpa using h
    simp only [closeDrain, closeRun, h, h', Bool.false_eq_true, if_false]; rfl

theorem closeDrain_moves {s : State} (draining : s.oq.state = .draining) : Moves s (closeDrain s) := by
  obtain ⟨u, v, hu, hv, e⟩ := closeDrain_eq s
  have released : Moves s u := by rw [hu]; exact releaseAll_moves (by simp [runOpen, draining]) _
  have du : u.oq.state = .draining := by rw [hu]; exact releaseAll_draining _ draining
  have closed : Moves s v ∧ v.oq.state = .draining := by
    rw [hv]
    split
    · refine ⟨released.trans (.head (.closeHold ‹_›) (emit_plain_moves ?_ _ _)), ?_⟩
      · show runOpen u = true
        simp [runOpen, du]
      · rw [(emit_frame _ _ _ _).oq]; exact du
    · exact ⟨released, du⟩
  rw [e]
  have ended := closed.1.tail (.endRun closed.2)
  have noticed := ((ended.then_quiet (onJe_quiet (f := fun e => { e with stopReason := .hostStop }) id id)).then_quiet
    (onIcu_quiet (fun c => c.map runEndNotice) _)).then_quiet (setFlag_quiet flagStp _)
  exact noticed.then_ite fun _ => (complete_quiet _ _).moves

@[simp] theorem clearJournal_oq (s : State) : (clearJournal s).oq = s.oq := by simp [clearJournal]
@[simp] theorem clearJournal_js (s : State) : (clearJournal s).js = emptyStore s.js := by simp [clearJournal]

theorem commandRestart_moves (s : State) : Moves s (commandRestart s) := by
  unfold commandRestart
  split
  · exact .head (.clear ‹_›) (keepBusy_quiet _ _).moves
  · exact (complete_quiet _ _).moves

theorem resetTables_moves (s : State) : Moves s (resetTables s) := by
  unfold resetTables
  have channels : Quiet s ((s.onIcu fun v => v.map fun c => ChannelRec.reset c.line).onTu fun u =>
      { u with rules := Vector.replicate 8 TriggerRule.reset }) := by constructor <;> simp
  exact channels.then_moves (.head (.journalTable (by decide)) (writeTimeTable_moves _ _))

/-- Outside RUNNING the reset of the tables leaves capture control and the store's contents (R60). -/
theorem resetTables_idle {s : State} (h : s.oq.state ≠ .running) :
    TimeOnly (((s.onIcu fun v => v.map fun c => ChannelRec.reset c.line).onTu fun u =>
      { u with rules := Vector.replicate 8 TriggerRule.reset }).onJs fun j => { j with table := JournalTable.reset })
      (resetTables s) := writeTimeTable_timeOnly (by exact h) _

theorem commandReload_moves (s : State) : Moves s (commandReload s) := by
  unfold commandReload
  split
  · rename_i stopped
    have idle := resetTables_idle (s := clearJournal s) (by simp [stopped])
    have cleared : Moves s (resetTables (clearJournal s)) := .head (.clear stopped) (resetTables_moves _)
    refine (cleared.tail (.load ?_ ?_ ?_)).then_quiet (keepBusy_quiet _ _)
    · exact idle.oq ▸ (clearJournal_oq s).symm ▸ stopped
    · rw [idle.js]; exact congrArg Store.head (clearJournal_js s)
    · rw [idle.js]; exact congrArg Store.tail (clearJournal_js s)
  · exact (complete_quiet _ _).moves

theorem onCl_quiet {f : Loader → Loader} {s : State} (state : (f s.cl).state = s.cl.state)
    (records : (f s.cl).read = s.cl.read ∧ (f s.cl).count = s.cl.count) : Quiet s (s.onCl f) := by
  constructor <;> simp [state, records]

theorem reloadClearingDone_moves (s : State) : Moves s (act .reloadClearingDone s) := by
  show Moves s (if reloadClearing s then beginReading (resetTables s) else s)
  refine Moves.refl.then_ite fun clearing => ?_
  have loading : s.oq.state = .loading := by simp_all [reloadClearing]
  refine (resetTables_moves s).tail (.loader (fun _ => .inr ?_) id)
  rw [(resetTables_idle (by simp [loading])).oq]
  exact loading

/-! ### The host's other commands -/

theorem commandDetach_moves (s : State) : Moves s (commandDetach s) := by
  unfold commandDetach
  exact (Moves.refl.then_ite fun _ => .single .detachHost).complete _

theorem commandRelease_moves (s : State) : Moves s (commandRelease s) := by
  unfold commandRelease
  split
  · exact (Moves.head (.releaseHost ‹_›) (.single .free)).complete _
  · exact (complete_quiet _ _).moves

theorem commandReread_moves (s : State) : Moves s (commandReread s) := by
  unfold commandReread
  split
  · exact (Moves.refl.tail (.rereadHost ‹_›)).complete _
  · exact (complete_quiet _ _).moves

theorem commandMark_moves (s : State) : Moves s (commandMark s) := by
  unfold commandMark
  split
  · exact (takeEntry_moves (by simp [runOpen, *]) _).complete _
  · exact (complete_quiet _ _).moves

theorem commandSetTime_moves (s : State) : Moves s (commandSetTime s) := by
  unfold commandSetTime
  split
  · exact (stepToTime_moves _ _).complete _
  · exact (complete_quiet _ _).moves

theorem releaseHold_moves (s : State) : Moves s (releaseHold s) := by
  unfold releaseHold
  split
  · dsimp only
    have freed : Moves s (reevalFreeing (s.onTu fun u => { u with hold := .noHold, count := 0 })) :=
      .head .dropHold (.single .free)
    refine freed.then_ite fun running => emit_plain_moves ?_ _ _
    rw [(reevalFreeing_frame _).runOpen_eq]
    simp [runOpen, running]
  · exact .refl

theorem applyEntry_moves {e : TableEntry} (legal : EntryLegal e) (s : State) : Moves s (applyEntry e s) := by
  cases e with
  | channel i d => exact (setChannel_quiet _ _ _).moves
  | trigger i r => exact Quiet.moves (by constructor <;> simp [applyEntry])
  | time x => exact writeTimeTable_moves x s
  | journal j => exact .single (.journalTable legal.2.2.2)

theorem commandWriteEntry_moves (s : State) : Moves s (commandWriteEntry s) := by
  unfold commandWriteEntry
  split
  · exact (complete_quiet _ _).moves
  · split
    · exact (complete_quiet _ _).moves
    · split
      · exact (complete_quiet _ _).moves
      · exact (applyEntry_moves (decodeEntry_legal ‹_›) s).complete _

theorem commandReadEntry_moves (s : State) : Moves s (commandReadEntry s) := by
  unfold commandReadEntry
  split
  · exact (complete_quiet _ _).moves
  · exact (Quiet.moves (onHw_quiet rfl)).complete _

/-! ### Registers -/

/-- The accepted value of AVTH stays within 1 to 16,384 (R155). -/
theorem avthAfter_legal (v : Byte) (w : HostWindow) (h : 1 ≤ w.avth.toNat ∧ w.avth.toNat ≤ Config.ringSize) :
    1 ≤ (avthAfter v w).toNat ∧ (avthAfter v w).toNat ≤ Config.ringSize := by
  unfold avthAfter
  dsimp only
  split
  · assumption
  · exact h

theorem drive_quiet (b : Byte) (s : State) : Quiet s (drive b s) := onHw_quiet rfl

theorem readJdata_moves (s : State) : Moves s (readJdata s) := by
  unfold readJdata jdataByte
  by_cases h : s.js.hostC.attached = true ∧ s.js.hostC.read ≠ s.js.head
  · simp only [h, and_self, ne_eq, not_false_eq_true, if_true]
    exact (Moves.single (.readByte h.1 h.2)).then_quiet (drive_quiet _ _)
  · simp only [if_neg h]
    exact Quiet.moves (by constructor <;> simp [drive])

theorem readHskip_moves (s : State) : Moves s (readHskip s) := (Moves.single .seeSkip).then_quiet (drive_quiet _ _)

theorem readGroup_moves (g : Group) (s : State) : Moves s (readGroup g s) :=
  Quiet.moves (by constructor <;> simp [readGroup, drive])

/-! ### The link -/

theorem linkCommand_moves {body : State → List Byte × State} {s : State}
    (h : ∀ t, Moves t (body t).2) : Moves s (linkCommand body s) := by
  unfold linkCommand
  split
  · exact (errorCleared_quiet s).then_moves ((h _).tail (.serve _ _))
  · exact .refl

/-- A command without response (R128). -/
theorem plainCommand_moves {f : State → State} (h : ∀ t, Moves t (f t)) {s : State} :
    Moves s (linkCommand (noResponse f) s) := linkCommand_moves h

theorem takeXfetch_moves (n : Byte) (s : State) : Moves s (linkCommand (takeXfetch n) s) := by
  unfold linkCommand takeXfetch
  split
  · rename_i status selected
    refine (errorCleared_quiet s).then_moves ?_
    dsimp only
    split
    · exact (linkError_quiet _).then_moves (.single (.serve _ _))
    · rename_i legal
      simp only [not_or, Nat.not_lt] at legal
      have selected1 : (errorCleared s).xl.phase = .selected status := selected
      exact .single (.fetch selected1 (by omega) legal.2 _)
  · exact .refl

theorem takeXack_moves (seq check : Byte) (s : State) : Moves s (takeXack seq check s) := by
  unfold takeXack
  split
  · split
    · exact (linkError_quiet _).moves
    · rename_i stop rest known
      exact .head (.acknowledge known) (.single .free)
  · exact .head (.fault _ _) (linkError_quiet _).moves

theorem takeXrewind_moves (s : State) : Moves s (takeXrewind s) := by
  unfold takeXrewind
  split
  · exact .single (.rewind ‹_›)
  · exact (linkError_quiet _).moves

theorem takeXattach_moves (s : State) : Moves s (takeXattach s) := by
  unfold takeXattach
  split
  · exact (linkError_quiet _).moves
  · exact .single .attachExport

theorem takeXdetach_moves (s : State) : Moves s (takeXdetach s) := by
  unfold takeXdetach
  split
  · exact (linkError_quiet _).moves
  · exact Moves.refl.then_ite fun _ => .head .detachExport (.single .free)

theorem takeXmark_moves (high low check : Byte) (s : State) : Moves s (takeXmark high low check s) := by
  unfold takeXmark
  split
  · split
    · exact takeEntry_moves (by simp [runOpen, *]) _
    · exact (linkError_quiet _).moves
  · exact .head (.fault _ _) (linkError_quiet _).moves

/-- The bytes of a transaction take their command, or clear the error bit while its arguments are due (R128, R130). -/
theorem takeLinkBytes_moves (code : Byte) (args : List Byte) (s : State) : Moves s (takeLinkBytes code args s) := by
  have pending : Moves s (match s.xl.phase with
      | .selected _ => s.onXl fun x => { x with error := false }
      | _ => s) := by
    split
    · exact (errorCleared_quiet s).moves
    · exact .refl
  unfold takeLinkBytes linkBody
  split_ifs
  · exact linkCommand_moves fun t => .refl
  · cases args with
    | nil => exact pending
    | cons n _ => exact takeXfetch_moves n s
  · rcases args with - | ⟨seq, - | ⟨check, -⟩⟩
    · exact pending
    · exact pending
    · exact plainCommand_moves (takeXack_moves seq check)
  · exact plainCommand_moves takeXrewind_moves
  · exact plainCommand_moves takeXattach_moves
  · exact plainCommand_moves takeXdetach_moves
  · rcases args with - | ⟨high, - | ⟨low, - | ⟨check, -⟩⟩⟩
    · exact pending
    · exact pending
    · exact pending
    · exact plainCommand_moves (takeXmark_moves high low check)
  · exact plainCommand_moves fun t => (linkError_quiet t).moves

theorem beginTransaction_moves (s : State) : Moves s (beginTransaction s) := by
  unfold beginTransaction
  split
  · rename_i h
    exact .single (.leave (.inr (by simp [h])) ⟨rfl, rfl, rfl, rfl⟩)
  · exact .refl

/-- XSEL# rises with no frame in flight in the transaction (R127). -/
theorem closeTransaction_move {s : State} (h : s.xl.flight = none ∨ ∀ v r, s.xl.phase ≠ .served v r) :
    Move s (closeTransaction s) := .leave h ⟨rfl, rfl, rfl, rfl⟩

theorem withdrawFrame_flight (f : Flight) (s : State) : (withdrawFrame f s).xl.flight = none := rfl

theorem endTransaction_moves (decoded : Option ArgCommand) (s : State) : Moves s (endTransaction decoded s) := by
  unfold endTransaction
  split
  · exact .refl
  · rename_i h
    exact .single (closeTransaction_move (.inr (by simp [h])))
  · rename_i status h
    have ended : Quiet s (if decoded.isSome then linkError s else s) := by
      split
      · exact linkError_quiet s
      · exact .refl s
    refine ended.then_moves (.single (closeTransaction_move (.inr ?_)))
    rw [ended.phase]; simp [h]
  · rename_i status response h
    cases flying : s.xl.flight with
    | none => exact .single (closeTransaction_move (.inl flying))
    | some f => exact .head (.withdraw flying) (.single (closeTransaction_move (.inl (withdrawFrame_flight f s))))

theorem frameDelivered_moves (s : State) : Moves s (act .frameDelivered s) := by
  show Moves s (match s.xl.flight with | none => s | some f => deliverFrame f s)
  split
  · exact .refl
  · exact .single (.deliver ‹_›)

/-! ### The loader -/

theorem completeReload_moves {s t : State} (h : Moves s t) : Moves s (completeReload t) := by
  unfold completeReload
  exact h.then_ite fun _ => (complete_quiet _ _).moves

theorem failLoad_moves {s : State} (loading : s.cl.state ≠ .idle) (reason : Byte) : Moves s (failLoad reason s) := by
  unfold failLoad
  have discarded : Quiet s (s.onCl fun c => { c with staged := 0 }) := onCl_quiet rfl ⟨rfl, rfl⟩
  refine completeReload_moves (Moves.then_quiet ?_ (setFlag_quiet _ _))
  refine discarded.then_moves (.head (.fault _ _) (.single (.loaded ?_ rfl ⟨rfl, rfl⟩)))
  exact loading

theorem receive_quiet (bytes : List Byte) (s : State) : Quiet s (receive bytes s) := onCl_quiet rfl ⟨rfl, rfl⟩

theorem takeHeader_moves {s : State} (loading : s.cl.state ≠ .idle) (format version low high flags : Byte) :
    Moves s (takeHeader format version low high flags s) := by
  unfold takeHeader
  have fails (bytes : List Byte) (reason : Byte) : Moves s (failLoad reason (receive bytes s)) :=
    (receive_quiet bytes s).then_moves (failLoad_moves (s := receive bytes s) loading reason)
  split_ifs with badFormat badVersion badCount
  · exact fails _ _
  · exact fails _ _
  · exact fails _ _
  · exact (receive_quiet _ s).then_moves
      (.single (.loader (fun _ => .inl loading) fun _ => ⟨Nat.zero_le _, Nat.not_lt.mp badCount⟩))

theorem stageRecord_moves {s : State} (loading : s.cl.state ≠ .idle) (bytes : List Byte) :
    Moves s (stageRecord bytes s) := .head (.stage loading _ _) (Quiet.moves (onCl_quiet rfl ⟨rfl, rfl⟩))

theorem takeRecord_moves {s : State} (loading : s.cl.state ≠ .idle) (due : s.cl.read < s.cl.count)
    (table index : Byte) (entry : EntryBytes) : Moves s (takeRecord table index entry s) := by
  unfold takeRecord
  dsimp only
  have received := receive_quiet (recordBytes table index entry) s
  generalize receive (recordBytes table index entry) s = s1 at *
  rw [← received.loader] at loading
  rw [← received.records.1, ← received.records.2] at due
  have staged := received.then_moves (stageRecord_moves loading (recordBytes table index entry))
  split
  · exact staged.trans (failLoad_moves (s := stageRecord _ s1) loading _)
  · exact staged.tail (.loader (fun _ => .inl loading) fun h => ⟨due, h.2⟩)

theorem takeCrc_moves {s : State} (loading : s.cl.state ≠ .idle) (low high : Byte) : Moves s (takeCrc low high s) := by
  unfold takeCrc
  split
  · exact .single (.loader (fun _ => .inl loading) id)
  · exact failLoad_moves loading _

theorem applyRecords_moves (is : List Nat) (s : State) : Moves s (applyRecords is s) := by
  induction is generalizing s with
  | nil => exact .refl
  | cons i is ih =>
    refine Moves.trans ?_ (ih _)
    split
    · exact .refl
    · exact applyEntry_moves (checkRecord_legal ‹_›) s

/-- Offering an entry leaves the loader. -/
theorem offerEntry_cl (e : Entry) (s : State) : (offerEntry e s).cl = s.cl := by
  unfold offerEntry
  split
  · exact (takeEntry_frame e s).cl
  · split
    · exact (takeEntry_frame e s).cl
    · rfl
  · rfl
  · rfl

theorem changeQuality_cl (new : Quality) (s : State) : (changeQuality new s).cl = s.cl := by
  unfold changeQuality
  dsimp only
  split
  · rw [offerEntry_cl]; rfl
  · rfl

theorem enterHoldover_cl (s : State) : (enterHoldover s).cl = s.cl := by
  unfold enterHoldover
  dsimp only
  split <;> simp [changeQuality_cl]

theorem writeTimeTable_cl (x : TimeTable) (s : State) : (writeTimeTable x s).cl = s.cl := by
  have timeout (t : State) : (takeTimeout t).cl = t.cl := by
    unfold takeTimeout; split <;> simp [changeQuality_cl, enterHoldover_cl]
  have expiry (t : State) : (takeHoldoverExpiry t).cl = t.cl := by
    unfold takeHoldoverExpiry; split <;> simp [changeQuality_cl]
  unfold writeTimeTable
  dsimp only
  simp only [apply_ite State.cl, expiry, timeout, enterHoldover_cl, State.onTb_cl, ite_self]

/-- A written entry leaves the loader. -/
theorem applyEntry_cl (e : TableEntry) (s : State) : (applyEntry e s).cl = s.cl := by
  cases e
  case time x => exact writeTimeTable_cl x s
  all_goals rfl

theorem applyRecords_cl (is : List Nat) (s : State) : (applyRecords is s).cl = s.cl := by
  induction is generalizing s with
  | nil => rfl
  | cons i is ih =>
    rw [applyRecords, ih]
    split
    · rfl
    · exact applyEntry_cl _ s

theorem finishLoad_moves {s : State} (applying : s.cl.state = .applying) : Moves s (finishLoad s) := by
  unfold finishLoad
  dsimp only
  have applied := applyRecords_moves (List.range s.cl.staged) s
  have loader := applyRecords_cl (List.range s.cl.staged) s
  generalize applyRecords (List.range s.cl.staged) s = s1 at *
  have host := applied.then_ite (p := s1.cl.attachHost = true) fun _ => .single .attachHost
  have loader1 : (if s1.cl.attachHost = true then attachHostOp s1 else s1).cl = s.cl := by
    split <;> simp [attachHostOp, loader]
  generalize (if s1.cl.attachHost = true then attachHostOp s1 else s1) = s2 at *
  have both : Moves s (if s2.cl.attachExport = true then attachExportOp s2 else s2) ∧
      (if s2.cl.attachExport = true then attachExportOp s2 else s2).cl = s.cl := by
    split
    · exact ⟨host.tail (.attachLoaded (by rw [loader1, applying]; decide)), by simp [attachExportOp, loader1]⟩
    · exact ⟨host, loader1⟩
  obtain ⟨moved, loader2⟩ := both
  generalize (if s2.cl.attachExport = true then attachExportOp s2 else s2) = s3 at *
  have finished : Moves s ((s3.onCl fun c => { c with state := .idle, staged := 0, autoStartDue := c.autoStart }).onOq
      fun q => { q with state := .stopped }) :=
    moved.tail (.loaded (by rw [loader2, applying]; decide) rfl ⟨rfl, rfl⟩)
  split
  · exact finished
  · exact completeReload_moves finished

/-! ### Every command -/

/-- A row of a code is well formed (R158). -/
theorem rowOfCode_wellFormed (code : Byte) : (rowOfCode code).wellFormed = true := by
  unfold rowOfCode
  split
  case h_15 =>
    simp only [Instr.wellFormed, namesHostCommand, Bool.not_eq_true', Bool.and_eq_false_iff, decide_eq_false_iff_not]
    simp only [imp_false] at *
    omega
  all_goals rfl

/-- A row of a register write is well formed (R198). -/
theorem rowOfWrite_wellFormed (a : BitVec 6) (v : Byte) : (rowOfWrite a v).wellFormed = true := by
  unfold rowOfWrite
  split
  case h_1 => exact rowOfCode_wellFormed v
  case h_8 =>
    simp only [Instr.wellFormed, writeHasOwnRow, Bool.not_eq_true', Bool.or_eq_false_iff, beq_eq_false_iff_ne, ne_eq,
      ← BitVec.toNat_inj]
    refine ⟨⟨⟨⟨⟨⟨?_, ?_⟩, ?_⟩, ?_⟩, ?_⟩, ?_⟩, ?_⟩ <;> assumption
  all_goals rfl

/-- The row a command stands for: one whose operands belong to it, where the table has one (log entry 16). -/
def rowOf : Instr → Instr
  | .unknownCommand code => rowOfCode code
  | .registerWrite a v => rowOfWrite a v
  | c => c

theorem act_rowOf (c : Instr) (s : State) : act (rowOf c) s = act c s := by
  cases c
  case unknownCommand code => exact act_rowOfCode code s
  case registerWrite a v => exact act_rowOfWrite a v s
  all_goals rfl

/-- A row that is no device reset is none of another command's. -/
theorem rowOf_ne_deviceReset {c : Instr} (h : ∀ b, c ≠ .deviceReset b) (b : Bool) : rowOf c ≠ .deviceReset b := by
  cases c
  case deviceReset b' => exact absurd rfl (h b')
  case unknownCommand code =>
    show rowOfCode code ≠ .deviceReset b
    unfold rowOfCode
    split <;> nofun
  case registerWrite a v =>
    show rowOfWrite a v ≠ .deviceReset b
    unfold rowOfWrite rowOfCode
    split
    · split <;> nofun
    all_goals nofun
  all_goals nofun

/-- The operands of a command belong to its row, a link command's code apart. -/
def ownOperands (c : Instr) : Bool :=
  match c with
  | .linkUnknownCommand _ => true
  | c => c.wellFormed

theorem rowOf_ownOperands (c : Instr) : ownOperands (rowOf c) = true := by
  cases c
  case unknownCommand code =>
    have legal := rowOfCode_wellFormed code
    show ownOperands (rowOfCode code) = true
    unfold ownOperands
    split
    · rfl
    · exact legal
  case registerWrite a v =>
    have legal := rowOfWrite_wellFormed a v
    show ownOperands (rowOfWrite a v) = true
    unfold ownOperands
    split
    · rfl
    · exact legal
  all_goals rfl

/-- The commands that take flags or fault records away: all others are made of moves. -/
def clearsLog : Instr → Bool
  | .deviceReset _ => true
  | .clearFaults => true
  | .fltnextWrite _ => true
  | .irqfWrite _ => true
  | _ => false

/-- A register write without a row of its own holds its byte, or is ignored (R148, R160). -/
theorem registerWrite_moves {a : BitVec 6} {v : Byte} (h : (Instr.registerWrite a v).wellFormed = true) (s : State) :
    Moves s (writeRegister a.toNat v s) := by
  simp only [Instr.wellFormed, writeHasOwnRow, Bool.not_eq_true', Bool.or_eq_false_iff, beq_eq_false_iff_ne, ne_eq,
    ← BitVec.toNat_inj, BitVec.toNat_ofNat, Nat.reducePow, Nat.reduceMod] at h
  obtain ⟨⟨⟨⟨⟨⟨h4, h5⟩, h10⟩, h11⟩, h12⟩, h13⟩, h31⟩ := h
  unfold writeRegister
  split <;> first | contradiction | skip
  · exact (onHw_quiet rfl).moves
  · exact (onHw_quiet rfl).moves
  · split
    · exact (onHw_quiet rfl).moves
    · exact .refl

/-- A command that takes no flag and no fault record away is made of moves. -/
theorem act_moves {c : Instr} (own : ownOperands c = true) (keeps : clearsLog c = false) (s : State) :
    Moves s (act c s) := by
  cases c
  case deviceReset => cases keeps
  case clearFaults => cases keeps
  case fltnextWrite => cases keeps
  case irqfWrite => cases keeps
  case rawEdge ch => exact (setChannel_quiet _ _ _).then_moves (takeEdge_moves ch _)
  case settleExpiry ch => exact Moves.refl.then_ite fun _ => settleExpires_moves ch s
  case windowExpiry ch => exact Moves.refl.then_ite fun _ => (setChannel_quiet _ _ _).moves
  case quietExpiry ch => exact Moves.refl.then_ite fun _ => quietExpires_moves ch s
  case pulse edge => exact Moves.refl.then_ite fun _ => takePulse_moves s
  case timeout => exact Moves.refl.then_ite fun _ => takeTimeout_moves s
  case holdoverExpiry => exact Moves.refl.then_ite fun _ => takeHoldoverExpiry_moves s
  case horizonExpiry =>
    refine Moves.refl.then_ite fun due => releaseHead_moves ?_
    unfold horizonDue at due
    split at due
    · cases due
    · exact (Bool.and_eq_true_iff.mp due).1
  case drainExpiry =>
    refine Moves.refl.then_ite fun due => closeDrain_moves ?_
    simpa using (Bool.and_eq_true_iff.mp due).1
  case start => exact request_moves (commandStart_moves s)
  case stop => exact request_moves (commandStop_moves s)
  case restart => exact request_moves (commandRestart_moves s)
  case restartClearingDone => exact Moves.refl.then_ite fun _ => (complete_quiet _ _).moves
  case reload => exact request_moves (commandReload_moves s)
  case attach => exact request_moves ((Moves.single .attachHost).complete _)
  case detach => exact request_moves (commandDetach_moves s)
  case release => exact request_moves (commandRelease_moves s)
  case reread => exact request_moves (commandReread_moves s)
  case mark => exact request_moves (commandMark_moves s)
  case setTime => exact request_moves (commandSetTime_moves s)
  case releaseHold => exact request_moves ((releaseHold_moves s).complete _)
  case writeEntry => exact request_moves (commandWriteEntry_moves s)
  case readEntry => exact request_moves (commandReadEntry_moves s)
  case unknownCommand code =>
    refine request_moves ?_
    have unnamed : commandOf code = complete .unknown := by
      simp only [ownOperands, Instr.wellFormed, namesHostCommand, Bool.not_eq_true', Bool.and_eq_false_iff,
        decide_eq_false_iff_not] at own
      unfold commandOf
      split <;> first | rfl | omega
    rw [unnamed]
    exact (complete_quiet _ _).moves
  case jdataRead => exact readJdata_moves s
  case hskipRead => exact readHskip_moves s
  case groupLatch g => exact readGroup_moves g s
  case irqeWrite v => exact Quiet.moves (by constructor <;> simp [act, exec, execIrqeWrite, writeIrqe])
  case cmdflagWrite v => exact Quiet.moves (onHw_quiet (f := fun w => _) rfl)
  case avthLowWrite v => exact Quiet.moves (onHw_quiet (f := fun w => _) rfl)
  case avthHighWrite v => exact .single (.threshold (avthAfter_legal v _))
  case registerWrite a v => exact registerWrite_moves own s
  case transactionBegin => exact beginTransaction_moves s
  case xstat => exact linkCommand_moves (body := fun s => (xstatResponse s, s)) fun t => .refl
  case xfetch n => exact takeXfetch_moves n s
  case xack seq check => exact plainCommand_moves (takeXack_moves seq check)
  case xrewind => exact plainCommand_moves takeXrewind_moves
  case xattach => exact plainCommand_moves takeXattach_moves
  case xdetach => exact plainCommand_moves takeXdetach_moves
  case xmark high low check => exact plainCommand_moves (takeXmark_moves high low check)
  case linkUnknownCommand code => exact takeLinkBytes_moves code [] s
  case frameDelivered => exact frameDelivered_moves s
  case transactionEnd decoded => exact endTransaction_moves decoded s
  case loadHeaderReceived format version low high flags =>
    exact Moves.refl.then_ite fun h => takeHeader_moves (by simp [h.1]) _ _ _ _ _
  case loadRecordReceived table index entry =>
    exact Moves.refl.then_ite fun h => takeRecord_moves (by simp [h.1]) h.2.2 _ _ _
  case loadCrcReceived low high => exact Moves.refl.then_ite fun h => takeCrc_moves (by simp [h.1]) _ _
  case applyingDone => exact Moves.refl.then_ite fun h => finishLoad_moves h
  case autoStart =>
    refine Moves.refl.then_ite fun _ => completeReload_moves ?_
    have noted : Quiet s (s.onCl fun c => { c with autoStartDue := false }) := onCl_quiet rfl ⟨rfl, rfl⟩
    exact noted.then_moves (requestStart_moves _)
  case reloadClearingDone => exact reloadClearingDone_moves s

/-- What each move keeps, and the device reset, the writes to IRQF and FLTNEXT and CLEAR FAULTS, every command keeps. -/
theorem act_keeps {P : State → Prop} (move : ∀ {s t}, Move s t → P s → P t) (reset : ∀ b s, P s → P (deviceReset b s))
    (flags : ∀ v s, P s → P (writeIrqf v s)) (record : ∀ s, P s → P (writeFltnext s))
    (records : ∀ s, P s → P (s.onIfu fun u => { u with faults := [], lost := 0 })) (c : Instr) {s : State} (hs : P s) :
    P (act c s) := by
  rw [← act_rowOf]
  have own := rowOf_ownOperands c
  generalize rowOf c = d at own
  cases log : clearsLog d
  case false => exact (act_moves own log s).keep move hs
  case true =>
    cases d
    case deviceReset b => exact reset b s hs
    case irqfWrite v => exact flags v s hs
    case fltnextWrite v => exact record s hs
    case clearFaults =>
      show P (request commandClearFaults s)
      unfold request
      split
      · exact move (.quiet (onHw_quiet rfl)) hs
      · split
        · exact move (.quiet (complete_quiet _ _)) hs
        · exact move (.quiet (complete_quiet _ _)) (records s hs)
    all_goals cases log

/-! ### Every step -/

/-- A step takes a command of the queue or an expiry that has come, in a state that differs in the model's own queue and
count alone, or lets a microsecond pass. -/
theorem step_cases {s t : State} (h : step s = .next t) :
    (∃ c rest, s.pending = c :: rest ∧ t = act c { s with pending := rest }) ∨
      (s.pending = [] ∧ dueEvents s = [] ∧ t = tick s) ∨
      (s.pending = [] ∧ ∃ c ∈ dueEvents s, t = act c s ∨ t = act c s.drawn) := by
  unfold step at h
  split at h
  · rename_i none
    unfold idle at h
    split at h
    · rename_i due
      injection h with h
      exact .inr (.inl ⟨none, due, h.symm⟩)
    · rename_i c due
      exact .inr (.inr ⟨none, c, by simp [due], .inl (eq_act_of_exec h)⟩)
    · rename_i c cs _ due
      refine .inr (.inr ⟨none, _, ?_, .inr (eq_act_of_exec h)⟩)
      rw [due]
      have : Config.coincidenceOrder s.choices % (c :: cs).length < (c :: cs).length := Nat.mod_lt _ (by simp)
      rw [List.getD_eq_getElem _ _ this]
      exact List.getElem_mem _
  · rename_i c rest front
    exact .inl ⟨c, rest, front, eq_act_of_exec h⟩

/-- What every command and every idle microsecond keeps, and what does not look at the model's own queue and count, every
step keeps. -/
theorem step_keeps {P : State → Prop} (own : ∀ s pending choices, P s → P { s with pending, choices })
    (command : ∀ c s, P s → P (act c s)) (passes : ∀ s, dueEvents s = [] → P s → P (tick s)) {s t : State}
    (h : step s = .next t) (hs : P s) : P t := by
  rcases step_cases h with ⟨c, rest, -, rfl⟩ | ⟨-, due, rfl⟩ | ⟨-, c, -, rfl | rfl⟩
  · exact command c _ (own s rest s.choices hs)
  · exact passes s due hs
  · exact command c s hs
  · exact command c _ (own s s.pending (s.choices + 1) hs)

end Sys2Proof.Machine
end

section
/-! Flags, fault records, the lost count and the queue of waiting commands under every move and every command. -/

namespace Sys2Proof.Machine

/-- From `s` to `t` flags are only raised, fault records only appended, losses only counted, and the waiting commands
stay. -/
structure LogKept (s t : State) : Prop where
  pending : t.pending = s.pending
  faults : s.ifu.faults <+: t.ifu.faults
  lost : s.ifu.lost ≤ 255 → s.ifu.lost ≤ t.ifu.lost ∧ t.ifu.lost ≤ 255
  sticky : s.ifu.irqf &&& t.ifu.irqf = s.ifu.irqf

theorem EntryFrame.logKept {s t : State} (h : EntryFrame s t) : LogKept s t := ⟨h.pending, h.faults, h.lost, h.sticky⟩

theorem StoreFrame.logKept {s t : State} (h : StoreFrame s t) : LogKept s t := h.entryFrame.logKept

theorem LogKept.trans {s t u : State} (h : LogKept s t) (g : LogKept t u) : LogKept s u where
  pending := g.pending.trans h.pending
  faults := h.faults.trans g.faults
  lost := fun bound =>
    let first := h.lost bound
    ⟨first.1.trans (g.lost first.2).1, (g.lost first.2).2⟩
  sticky := by
    calc s.ifu.irqf &&& u.ifu.irqf = s.ifu.irqf &&& t.ifu.irqf &&& u.ifu.irqf := by rw [h.sticky]
      _ = s.ifu.irqf &&& (t.ifu.irqf &&& u.ifu.irqf) := by rw [BitVec.and_assoc]
      _ = s.ifu.irqf := by rw [g.sticky, h.sticky]

/-- Changes elsewhere leave the log. -/
theorem LogKept.of_ifu {s t : State} (pending : t.pending = s.pending) (ifu : t.ifu = s.ifu) : LogKept s t := by
  constructor <;> simp_all

theorem evalAvl_logKept {s t : State} (h : LogKept s t) : LogKept s (evalAvl t) := h.trans (evalAvl_frame t).logKept

theorem closingLoss_frame (s : State) : StoreFrame s (closingLoss s) := by
  unfold closingLoss
  split
  · exact .refl s
  · split
    · exact StoreFrame.trans (emitExempt_frame (lossPacket s.je) s) (by constructor <;> simp)
    · exact .refl s

/-- No move takes a flag, a fault record or a waiting command away (R169, R174). -/
theorem Move.logKept {s t : State} (h : Move s t) : LogKept s t := by
  cases h
  case quiet h => exact ⟨h.pending, by rw [h.faults], by rw [h.lost]; exact fun b => ⟨le_rfl, b⟩, h.sticky⟩
  case fault kind detail => exact (logFault_frame _ _ _).logKept
  case free => exact (reevalFreeing_frame s).logKept
  case discard => exact (discardTo_frame _ s).logKept
  case store => exact (storePacket_frame _ _ s).logKept
  case lose => exact (enterLosing_frame s).logKept
  case clear => exact evalAvl_logKept (.of_ifu rfl rfl)
  case quota =>
    refine LogKept.trans ?_ (closeHold_frame _).logKept
    exact .of_ifu rfl rfl
  case closeHold => exact (closeHold_frame s).logKept
  case endRun => exact ((closingLoss_frame s).trans (emitExempt_frame _ _)).logKept.trans (.of_ifu rfl rfl)
  case attachHost => exact evalAvl_logKept (.of_ifu rfl rfl)
  case detachHost =>
    refine evalAvl_logKept (LogKept.trans ?_ (reevalFreeing_frame _).logKept)
    exact .of_ifu rfl rfl
  case rereadHost => exact evalAvl_logKept (.of_ifu rfl rfl)
  case readByte => exact evalAvl_logKept (.of_ifu rfl rfl)
  case threshold => exact evalAvl_logKept (.of_ifu rfl rfl)
  case withdraw f _ =>
    refine .of_ifu ?_ ?_ <;> unfold withdrawFrame <;> dsimp only <;> split_ifs <;> rfl
  all_goals exact .of_ifu rfl rfl

/-- A command that takes no flag and no fault record away keeps them all. -/
theorem act_logKept {c : Instr} (own : ownOperands c = true) (keeps : clearsLog c = false) (s : State) :
    LogKept s (act c s) :=
  (act_moves own keeps s).keep (P := LogKept s) (fun m h => h.trans m.logKept) (.of_ifu rfl rfl)

/-- No command touches the queue of waiting commands. -/
theorem act_pending (c : Instr) (s : State) : (act c s).pending = s.pending :=
  act_keeps (P := fun t => t.pending = s.pending) (fun m h => m.logKept.pending.trans h) (fun _ _ h => h)
    (fun _ _ h => h) (fun _ h => h) (fun _ h => h) c rfl

/-- Settles O2: every arm of `exec` answers a next state, and so does every step, which runs one of them or lets a
microsecond pass. -/
theorem everyCommandAnswersNext : Obligations.EveryCommandAnswersNext := by
  refine ⟨fun c s => ⟨act c s, exec_eq_act c s, act_pending c s⟩, fun s => ?_⟩
  unfold step idle
  split
  · split
    · exact ⟨_, rfl⟩
    · exact ⟨_, exec_eq_act _ _⟩
    · exact ⟨_, exec_eq_act _ _⟩
  · exact ⟨_, exec_eq_act _ _⟩

end Sys2Proof.Machine
end

section
/-! The journal stays sound: each move keeps the marks, the sync index, the hold's start and the outstanding frames in
order. -/

namespace Sys2Proof.Machine

/-! ### Runs of frames and of their numbers -/

/-- A frame behind the last lengthens the run (R133). -/
theorem framesRun_concat {t a b : Pos} {fs : List FrameRec} (h : framesRun t a fs b) {f : FrameRec}
    (start : f.start = b) (some : distFrom t b < distFrom t f.stop)
    (most : distFrom t f.stop ≤ distFrom t b + Config.frameDataMax) : framesRun t a (fs ++ [f]) f.stop := by
  induction fs generalizing a with
  | nil =>
    have ab : a = b := h
    subst ab start
    exact ⟨rfl, some, most, rfl⟩
  | cons g gs ih =>
    obtain ⟨h1, h2, h3, h4⟩ := h
    exact ⟨h1, h2, h3, ih h4⟩

/-- A run of frames parts at any of them (R133). -/
theorem framesRun_append {t a b : Pos} {older : List FrameRec} {f : FrameRec} {newer : List FrameRec}
    (h : framesRun t a (older ++ f :: newer) b) :
    framesRun t a older f.start ∧ distFrom t f.start < distFrom t f.stop ∧ framesRun t f.stop newer b := by
  induction older generalizing a with
  | nil =>
    obtain ⟨h1, h2, -, h4⟩ := h
    exact ⟨h1.symm, h2, h4⟩
  | cons g gs ih =>
    obtain ⟨h1, h2, h3, h4⟩ := h
    obtain ⟨i1, i2, i3⟩ := ih h4
    exact ⟨⟨h1, h2, h3, i1⟩, i2, i3⟩

/-- The next number behind the last keeps the numbers consecutive (R133). -/
theorem seqsRun_concat {fs : List FrameRec} (h : seqsRun fs) {f : FrameRec}
    (next : ∀ g ∈ fs.getLast?, f.seq = g.seq + 1#8) : seqsRun (fs ++ [f]) := by
  induction fs with
  | nil => trivial
  | cons g gs ih =>
    cases gs with
    | nil => exact ⟨next g (by simp), trivial⟩
    | cons k ks => exact ⟨h.1, ih h.2 (by simpa using next)⟩

/-- Without its newest record the numbers are consecutive still, and the record before it has the number before (R133). -/
theorem seqsRun_of_concat {fs : List FrameRec} {f : FrameRec} (h : seqsRun (fs ++ [f])) :
    seqsRun fs ∧ ∀ g ∈ fs.getLast?, f.seq = g.seq + 1#8 := by
  induction fs with
  | nil => exact ⟨trivial, by simp⟩
  | cons g gs ih =>
    cases gs with
    | nil => exact ⟨trivial, by simpa using h.1⟩
    | cons k ks =>
      obtain ⟨i1, i2⟩ := ih h.2
      exact ⟨⟨h.1, i1⟩, by simpa using i2⟩

/-! ### The link's numbering -/

/-- Numbering rests on the records, the flight, the next number and the phase. -/
theorem LinkNumbered.congr {x y : Link} (h : LinkNumbered x) (outstanding : y.outstanding = x.outstanding)
    (nextSeq : y.nextSeq = x.nextSeq) (flight : y.flight = x.flight)
    (phase : x.flight.isSome → ∃ v r, y.phase = .served v r) : LinkNumbered y := by
  have data : dataInFlight y = dataInFlight x := by simp [dataInFlight, flight]
  constructor
  · rw [outstanding]; exact h.consecutive
  · rw [data, outstanding, nextSeq]; exact h.newest
  · rw [data, outstanding, nextSeq, flight]; exact h.flying
  · rw [flight]; exact phase

/-- With no record left, the numbering asks only for the frame in flight. -/
theorem LinkNumbered.emptied {x : Link} (h : LinkNumbered x) : LinkNumbered { x with outstanding := [] } :=
  h.suffix (List.nil_suffix)

/-- A link with no frame in flight has no data in flight. -/
theorem dataInFlight_none {x : Link} (h : x.flight = none) : dataInFlight x = false := by simp [dataInFlight, h]

/-- Outside a served command no frame is in flight (R137). -/
theorem LinkNumbered.grounded {x : Link} (h : LinkNumbered x) (p : ∀ v r, x.phase ≠ .served v r) : x.flight = none := by
  cases flying : x.flight with
  | none => rfl
  | some f =>
    obtain ⟨v, r, served⟩ := h.served (by simp [flying])
    exact absurd served (p v r)

/-! ### A journal whose positions stay -/

/-- EXPORT's marks and the outstanding frames against the store's positions (R28, R133). -/
structure ExportSound (j : Store) (c : Consumer) (x : Link) : Prop where
  marks : c.attached = true → marksOrdered j c
  frames : c.attached = true → framesRun j.tail c.release x.outstanding c.read
  noFrames : c.attached = false → x.outstanding = []
  bound : x.outstanding.length ≤ Config.frameCapacity
  numbered : LinkNumbered x

theorem JournalSound.link {s : State} (hs : JournalSound s) : ExportSound s.js s.js.exportC s.xl :=
  ⟨hs.exportMarks, hs.frames, hs.noFrames, hs.frameBound, hs.numbered⟩

/-- What keeps a journal sound while head, tail and sync index stay. -/
theorem JournalSound.rebuild {s t : State} (hs : JournalSound s)
    (positions : t.js.head = s.js.head ∧ t.js.tail = s.js.tail ∧ t.js.index = s.js.index)
    (host : t.js.hostC.attached = true → marksOrdered s.js t.js.hostC) (link : ExportSound s.js t.js.exportC t.xl)
    (hold : holdActive t = true → distFrom s.js.tail t.tu.start ≤ occupancy s.js)
    (loading : t.oq.state = .loading → s.js.head = 0#32 ∧ s.js.tail = 0#32)
    (loader : t.cl.state ≠ .idle → t.oq.state = .loading) : JournalSound t := by
  obtain ⟨head, tail, index⟩ := positions
  have occ : occupancy t.js = occupancy s.js := by simp only [occupancy, head, tail]
  have ordered : ∀ c, marksOrdered s.js c → marksOrdered t.js c := by
    intro c h; simpa only [marksOrdered, tail, occ] using h
  constructor
  case occupied => rw [occ]; exact hs.occupied
  case hostMarks => exact fun h => ordered _ (host h)
  case exportMarks => exact fun h => ordered _ (link.marks h)
  case indexRising => rw [index, tail]; exact hs.indexRising
  case indexRetained => rw [index, tail, occ]; exact hs.indexRetained
  case indexBound => rw [index]; exact hs.indexBound
  case holdRetained => rw [tail, occ]; exact hold
  case frames => rw [tail]; exact link.frames
  case noFrames => exact link.noFrames
  case frameBound => exact link.bound
  case numbered => exact link.numbered
  case loadingEmpty => rw [head, tail]; exact loading
  case loaderLoading => exact loader

/-- A change of HOST's record alone. -/
theorem JournalSound.withHost {s : State} (hs : JournalSound s) {c : Consumer}
    (host : c.attached = true → marksOrdered s.js c) : JournalSound (s.onJs fun j => { j with hostC := c }) :=
  hs.rebuild ⟨rfl, rfl, rfl⟩ host hs.link hs.holdRetained hs.loadingEmpty hs.loaderLoading

/-- A change of EXPORT's record and the link alone. -/
theorem JournalSound.withLink {s : State} (hs : JournalSound s) {c : Consumer} {x : Link} (link : ExportSound s.js c x) :
    JournalSound { s with js := { s.js with exportC := c }, xl := x } :=
  hs.rebuild ⟨rfl, rfl, rfl⟩ hs.hostMarks link hs.holdRetained hs.loadingEmpty hs.loaderLoading

/-- A change of the trigger unit alone. -/
theorem JournalSound.withHold {s : State} (hs : JournalSound s) {f : TriggerUnit → TriggerUnit}
    (hold : (f s.tu).hold ≠ .noHold → distFrom s.js.tail (f s.tu).start ≤ occupancy s.js) :
    JournalSound (s.onTu f) :=
  hs.rebuild ⟨rfl, rfl, rfl⟩ hs.hostMarks hs.link (fun h => hold (by simpa [holdActive] using h)) hs.loadingEmpty
    hs.loaderLoading

/-- A change of the store's bytes, fill state or table alone. -/
theorem JournalSound.withStore {s : State} (hs : JournalSound s) {f : Store → Store}
    (h : f s.js = { s.js with ram := (f s.js).ram, fill := (f s.js).fill, table := (f s.js).table }) :
    JournalSound (s.onJs f) := by
  have e : s.onJs f =
      { s with js := { s.js with ram := (f s.js).ram, fill := (f s.js).fill, table := (f s.js).table } } := by
    rw [← h]; rfl
  rw [e]
  exact hs.rebuild ⟨rfl, rfl, rfl⟩ hs.hostMarks hs.link hs.holdRetained hs.loadingEmpty hs.loaderLoading

/-- A change of the capture state and the loader. -/
theorem JournalSound.withStates {s t : State} (hs : JournalSound s) (js : t.js = s.js) (tu : t.tu = s.tu)
    (xl : t.xl = s.xl) (loading : t.oq.state = .loading → s.js.head = 0#32 ∧ s.js.tail = 0#32)
    (loader : t.cl.state ≠ .idle → t.oq.state = .loading) : JournalSound t := by
  refine hs.rebuild (by simp [js]) ?_ ?_ ?_ loading loader
  · rw [js]; exact hs.hostMarks
  · rw [js, xl]; exact hs.link
  · rw [tu]; intro h; exact hs.holdRetained (by simpa [holdActive, tu] using h)

theorem Quiet.sound {s t : State} (q : Quiet s t) (hs : JournalSound s) : JournalSound t := by
  refine hs.rebuild (by simp [q.js]) ?_ ?_ ?_ ?_ ?_
  · rw [q.js]; exact hs.hostMarks
  · have l := hs.link
    rw [q.js]
    refine ⟨l.marks, ?_, ?_, ?_, ?_⟩
    · rw [q.outstanding]; exact l.frames
    · rw [q.outstanding]; exact l.noFrames
    · rw [q.outstanding]; exact l.bound
    · refine l.numbered.congr q.outstanding q.nextSeq q.flight ?_
      rw [q.phase]; exact l.numbered.served
  · rw [q.start]; intro h; exact hs.holdRetained (by simpa [holdActive, q.hold] using h)
  · rw [q.capture]; exact hs.loadingEmpty
  · rw [q.loader, q.capture]; exact hs.loaderLoading

/-! ### Positions a mark or a hold takes -/

/-- The attach point lies between tail and head (R26, R29). -/
theorem attachPoint_le {s : State} (hs : JournalSound s) : distFrom s.js.tail (attachPoint s.js) ≤ occupancy s.js := by
  unfold attachPoint
  cases h : s.js.index.head? with
  | none => exact le_rfl
  | some e => exact (hs.indexRetained e (List.mem_of_mem_head? h)).le

/-- A consumer attached at the attach point has its marks in order (R29). -/
theorem attachConsumer_ordered {s : State} (hs : JournalSound s) (c : Consumer) :
    marksOrdered s.js (attachConsumer s.js c) := ⟨le_rfl, attachPoint_le hs⟩

/-- The protected start of a new hold lies between tail and head (R26, R116). -/
theorem syncBeforeNewest_le {s : State} (hs : JournalSound s) (p : Nat) :
    distFrom s.js.tail (syncBeforeNewest s.js p) ≤ occupancy s.js := by
  unfold syncBeforeNewest
  split
  · simp
  · rename_i more
    rw [List.getD_eq_getElem _ _ (by omega)]
    exact (hs.indexRetained _ (List.getElem_mem _)).le

/-! ### The link's commands -/

/-- The number of journal bytes of a frame is at most what is asked for and what is unread (R134). -/
theorem frameLength_le (n : Nat) (s : State) :
    frameLength n s ≤ n ∧ (0 < frameLength n s → s.js.exportC.attached = true ∧
      s.xl.outstanding.length < Config.frameCapacity ∧ frameLength n s ≤ (s.js.head - s.js.exportC.read).toNat) := by
  unfold frameLength
  split
  · rename_i attached
    split
    · simp
    · rename_i room
      refine ⟨Nat.min_le_left _ _, fun _ => ⟨attached, by simpa [windowFull] using room, ?_⟩⟩
      refine (Nat.min_le_right _ _).trans ?_
      simp [exportUnread, unreadOf, attached]
  · simp

/-- A frame built carries as many bytes as its length says (R133). -/
theorem frameData_frameRecord {n : Nat} (most : n ≤ Config.frameDataMax) (s : State) :
    frameData (frameRecord (frameLength n s) s) = frameLength n s := by
  have bound := (frameLength_le n s).1
  have : Config.frameDataMax = 64 := rfl
  simp only [frameData, frameRecord, add_sub_cancel_left, BitVec.toNat_ofNat]
  omega

/-- A frame built and its command served, in the fields of link and reader (R134, R135, R139). -/
theorem buildFrame_served (n : Nat) (s : State) (status : Byte) (response : List Byte) :
    (buildFrame n s).2.onXl (fun x => { x with phase := .served status response }) =
      { s with
        js := { s.js with
          exportC := { s.js.exportC with
            read := s.js.exportC.read + BitVec.ofNat 32 (frameLength n s), skipPending := false } }
        xl := { s.xl with
          outstanding := if 0 < frameLength n s then s.xl.outstanding ++ [frameRecord (frameLength n s) s]
            else s.xl.outstanding
          flight := some {
            frame := frameRecord (frameLength n s) s, skip := s.js.exportC.skipPending,
            bytes := frameBytes (frameLength n s) s }
          phase := .served status response } } := rfl

/-- A frame built outside any flight keeps the journal sound (R133, R134, R137). -/
theorem buildFrame_sound {s : State} (hs : JournalSound s) {status : Byte} (selected : s.xl.phase = .selected status)
    {n : Nat} (most : n ≤ Config.frameDataMax) (response : List Byte) :
    JournalSound ((buildFrame n s).2.onXl fun x => { x with phase := .served status response }) := by
  obtain ⟨least, some⟩ := frameLength_le n s
  have data := frameData_frameRecord most s
  have hmax : Config.frameDataMax = 64 := rfl
  have ring : Config.ringSize = 16384 := rfl
  have ground : s.xl.flight = none := hs.numbered.grounded (by simp [selected])
  have newest := hs.numbered.newest (dataInFlight_none ground)
  rw [buildFrame_served]
  generalize hf : frameRecord (frameLength n s) s = f at *
  have seq : f.seq = s.xl.nextSeq := by rw [← hf]; rfl
  have start : f.start = s.js.exportC.read := by rw [← hf]; rfl
  have stop : f.stop = s.js.exportC.read + BitVec.ofNat 32 (frameLength n s) := by rw [← hf]; rfl
  rcases Nat.eq_zero_or_pos (frameLength n s) with k0 | k0
  · simp only [k0, lt_irrefl, if_false, BitVec.add_zero]
    refine hs.withLink ⟨hs.exportMarks, hs.frames, hs.noFrames, hs.frameBound, hs.numbered.consecutive,
      fun _ => newest, ?_, fun _ => ⟨_, _, rfl⟩⟩
    intro g hg nonempty
    simp [dataInFlight, data, k0] at nonempty
  · obtain ⟨attached, room, unread⟩ := some k0
    obtain ⟨m1, m2⟩ := hs.exportMarks attached
    have occ := hs.occupied
    have toHead : (s.js.head - s.js.exportC.read).toNat = occupancy s.js - distFrom s.js.tail s.js.exportC.read :=
      sub_toNat m2
    have ends : distFrom s.js.tail f.stop = distFrom s.js.tail s.js.exportC.read + frameLength n s := by
      rw [stop]; exact distFrom_add (by omega)
    rw [← stop]
    simp only [k0, if_true]
    refine hs.withLink ⟨fun _ => ⟨?_, ?_⟩, fun _ => framesRun_concat (hs.frames attached) start ?_ ?_, ?_, ?_,
      seqsRun_concat hs.numbered.consecutive ?_, ?_, ?_, fun _ => ⟨_, _, rfl⟩⟩
    · show distFrom s.js.tail s.js.exportC.release ≤ distFrom s.js.tail f.stop; omega
    · show distFrom s.js.tail f.stop ≤ occupancy s.js; omega
    · omega
    · omega
    · intro detached
      rw [show s.js.exportC.attached = false from detached] at attached
      cases attached
    · simpa using room
    · intro g hg
      rw [seq, newest g hg]
    · intro nothing
      simp [dataInFlight, data, k0] at nothing
    · intro g hg _
      simp only [Option.mem_def, Option.some.injEq] at hg
      subst hg
      exact ⟨seq, .inr List.getLast?_concat⟩

/-- A delivered frame with data consumes its number (R137). -/
theorem deliverFrame_sound {s : State} (hs : JournalSound s) {f : Flight} (flying : s.xl.flight = some f) :
    JournalSound (deliverFrame f s) := by
  have l := hs.link
  have numbered : LinkNumbered { s.xl with
      flight := none, nextSeq := if 0 < frameData f.frame then s.xl.nextSeq + 1#8 else s.xl.nextSeq } := by
    refine ⟨l.numbered.consecutive, fun _ g hg => ?_, fun _ hg => (by cases hg), fun hg => (by cases hg)⟩
    dsimp only at hg ⊢
    by_cases data : 0 < frameData f.frame
    · obtain ⟨seq, none | last⟩ := l.numbered.flying f flying (by simp [dataInFlight, flying, data])
      · rw [none] at hg; cases hg
      · rw [last] at hg
        cases hg
        rw [if_pos data, seq]
    · rw [if_neg data]
      exact l.numbered.newest (by simp [dataInFlight, flying, data]) g hg
  exact hs.withLink (c := s.js.exportC) ⟨l.marks, l.frames, l.noFrames, l.bound, numbered⟩

/-- EXPORT's record after a frame has been withdrawn whose record is not listed (R138). -/
def skipRestored (f : Flight) (c : Consumer) : Consumer := { c with skipPending := c.skipPending || f.skip }

/-- A withdrawn frame without data only ends the flight (R138). -/
theorem withdrawFrame_empty {f : Flight} (h : ¬ 0 < frameData f.frame) (s : State) :
    withdrawFrame f s =
      { s with js := { s.js with exportC := skipRestored f s.js.exportC }, xl := { s.xl with flight := none } } := by
  simp only [withdrawFrame, h]; rfl

/-- A withdrawn frame whose record has left the list counts as an abort (R138). -/
theorem withdrawFrame_unlisted {f : Flight} (h : 0 < frameData f.frame) {s : State}
    (unlisted : s.xl.outstanding.getLast? ≠ some f.frame) :
    withdrawFrame f s =
      { s with
        js := { s.js with exportC := skipRestored f s.js.exportC }
        xl := { s.xl with flight := none, aborts := satInc 255 s.xl.aborts } } := by
  have e : (s.xl.outstanding.getLast? == some f.frame) = false := by simpa using unlisted
  simp only [withdrawFrame, h, e]; rfl

/-- A withdrawn frame takes its record and EXPORT's read mark back with it (R138). -/
theorem withdrawFrame_listed {f : Flight} (h : 0 < frameData f.frame) {s : State} {older : List FrameRec}
    (listed : s.xl.outstanding = older ++ [f.frame]) :
    withdrawFrame f s =
      { s with
        js := { s.js with exportC := { skipRestored f s.js.exportC with read := f.frame.start } }
        xl := { s.xl with flight := none, outstanding := older, aborts := satInc 255 s.xl.aborts } } := by
  have e : (s.xl.outstanding.getLast? == some f.frame) = true := by simp [listed]
  have d : s.xl.outstanding.dropLast = older := by rw [listed, List.dropLast_concat]
  simp only [withdrawFrame, h, e, if_true, State.onXl, State.onJs, skipRestored, d]

/-- A frame withdrawn keeps the journal sound (R138). -/
theorem withdrawFrame_sound {s : State} (hs : JournalSound s) {f : Flight} (flying : s.xl.flight = some f) :
    JournalSound (withdrawFrame f s) := by
  have l := hs.link
  by_cases data : 0 < frameData f.frame
  · obtain ⟨seq, none | last⟩ := l.numbered.flying f flying (by simp [dataInFlight, flying, data])
    · rw [withdrawFrame_unlisted data (by simp [none])]
      refine hs.withLink ⟨l.marks, l.frames, l.noFrames, l.bound, l.numbered.consecutive, ?_, fun _ hg => (by cases hg),
        fun hg => (by cases hg)⟩
      intro _ g hg
      rw [show s.xl.outstanding = [] from none] at hg
      cases hg
    · obtain ⟨older, split⟩ : ∃ older, s.xl.outstanding = older ++ [f.frame] :=
        List.getLast?_eq_some_iff.mp last
      have attached : s.js.exportC.attached = true := by
        by_contra detached
        have := l.noFrames (by simpa using detached)
        simp [split] at this
      obtain ⟨m1, m2⟩ := l.marks attached
      obtain ⟨run, nonempty, rest⟩ := framesRun_append (split ▸ l.frames attached)
      have stop : f.frame.stop = s.js.exportC.read := rest
      rw [stop] at nonempty
      obtain ⟨consecutive, before⟩ := seqsRun_of_concat (split ▸ l.numbered.consecutive)
      rw [withdrawFrame_listed data split]
      refine hs.withLink ⟨fun _ => ⟨framesRun_le run, nonempty.le.trans m2⟩, fun _ => run, ?_, ?_, consecutive, ?_,
        fun _ hg => (by cases hg), fun hg => (by cases hg)⟩
      · intro detached
        rw [show s.js.exportC.attached = false from detached] at attached
        cases attached
      · have bound := l.bound
        rw [split, List.length_append] at bound
        exact (Nat.le_add_right _ _).trans bound
      · intro _ g hg
        rw [← before g hg, seq]
  · rw [withdrawFrame_empty data]
    exact hs.withLink ⟨l.marks, l.frames, l.noFrames, l.bound, l.numbered.consecutive,
      fun _ => l.numbered.newest (by simp [dataInFlight, flying, data]), fun _ hg => (by cases hg), fun hg => (by cases hg)⟩

/-- An acknowledged number is that of an outstanding record; the records behind it stay (R140). -/
theorem ackThrough_split {seq : Byte} {fs : List FrameRec} {stop : Pos} {rest : List FrameRec}
    (h : ackThrough seq fs = some (stop, rest)) : ∃ older f, fs = older ++ f :: rest ∧ f.stop = stop := by
  induction fs with
  | nil => cases h
  | cons g gs ih =>
    unfold ackThrough at h
    split at h
    · injection h with h
      obtain ⟨rfl, rfl⟩ := Prod.mk.inj h
      exact ⟨[], g, rfl, rfl⟩
    · obtain ⟨older, f, rfl, stop⟩ := ih h
      exact ⟨g :: older, f, rfl, stop⟩

/-- An acknowledgement moves EXPORT's release mark to the end of a frame (R31, R140). -/
theorem acknowledged_sound {s : State} (hs : JournalSound s) {seq : Byte} {stop : Pos} {rest : List FrameRec}
    (known : ackThrough seq s.xl.outstanding = some (stop, rest)) : JournalSound (acknowledged stop rest s) := by
  obtain ⟨older, f, split, rfl⟩ := ackThrough_split known
  have l := hs.link
  have attached : s.js.exportC.attached = true := by
    by_contra detached
    have := l.noFrames (by simpa using detached)
    simp [split] at this
  obtain ⟨-, -, run⟩ := framesRun_append (split ▸ l.frames attached)
  have suffix : rest <:+ s.xl.outstanding := by rw [split]; exact ⟨older ++ [f], by simp⟩
  refine hs.withLink (c := { s.js.exportC with release := f.stop }) (x := { s.xl with outstanding := rest })
    ⟨fun _ => ⟨framesRun_le run, (l.marks attached).2⟩, fun _ => run, ?_, suffix.length_le.trans l.bound,
      l.numbered.suffix suffix⟩
  intro detached
  rw [show s.js.exportC.attached = false from detached] at attached
  cases attached

/-! ### The end and the clearing of the journal -/

/-- In LOADING the journal is empty, and so is the outstanding list (R49, R133). -/
theorem outstanding_of_empty {s : State} (hs : JournalSound s) (head : s.js.head = 0#32) (tail : s.js.tail = 0#32) :
    s.xl.outstanding = [] := by
  by_cases attached : s.js.exportC.attached = true
  · have empty : occupancy s.js = 0 := by simp [occupancy, head, tail]
    cases h : s.xl.outstanding with
    | nil => rfl
    | cons f fs =>
      obtain ⟨-, h2, -, h4⟩ := h ▸ hs.frames attached
      have := framesRun_le h4
      have := (hs.exportMarks attached).2
      omega
  · exact hs.noFrames (by simpa using attached)

/-- A packet exempt from the reserve keeps the journal sound (R38). -/
theorem emitExempt_sound {s : State} (hs : JournalSound s) (capture : s.oq.state ≠ .loading) (bytes : List Byte) :
    JournalSound (emitExempt bytes s) := by
  unfold emitExempt
  split
  · exact (countStored_quiet _ _ _).sound (storePacket_sound hs capture ‹_› (by simp))
  · exact hs

theorem closingLoss_sound {s : State} (hs : JournalSound s) (capture : s.oq.state ≠ .loading) :
    JournalSound (closingLoss s) := by
  unfold closingLoss
  split
  · exact hs
  · split
    · exact (onJe_quiet (fun _ => Nat.zero_le _) id).sound
        (JournalSound.withStore (f := fun j => { j with fill := .normal }) (emitExempt_sound hs capture _) rfl)
    · exact hs

theorem endRun_sound {s : State} (hs : JournalSound s) (draining : s.oq.state = .draining) : JournalSound (endRun s) := by
  have first := closingLoss_sound hs (by simp [draining])
  have capture : (closingLoss s).oq.state = .draining := by rw [(closingLoss_frame s).oq]; exact draining
  unfold endRun
  dsimp only
  generalize closingLoss s = u at *
  have second := emitExempt_sound first (by simp [capture]) (endPacket u.je.stopReason u.oq.stopStamp)
  have frame := emitExempt_frame (endPacket u.je.stopReason u.oq.stopStamp) u
  generalize emitExempt (endPacket u.je.stopReason u.oq.stopStamp) u = v at *
  refine second.withStates rfl rfl rfl (fun h => by cases h) fun loader => ?_
  have idle := second.loaderLoading loader
  rw [frame.oq, capture] at idle
  cases idle

/-- A cleared journal is empty, with every mark of an attached reader at its one position (R48). -/
theorem clearJournal_sound {s : State} (hs : JournalSound s) :
    JournalSound (clearJournal s) := by
  refine evalAvl_sound ?_
  have marks : ∀ c, marksOrdered (emptyStore s.js) (clearConsumer c) := fun c => ⟨le_rfl, le_rfl⟩
  have empty : occupancy (emptyStore s.js) = 0 := distFrom_self _
  constructor
  case occupied => exact empty.le.trans (Nat.zero_le _)
  case hostMarks => exact fun _ => marks _
  case exportMarks => exact fun _ => marks _
  case indexRising => exact .nil
  case indexRetained => exact fun e he => by cases he
  case indexBound => exact Nat.zero_le _
  case holdRetained => exact fun h => by cases h
  case frames => exact fun _ => rfl
  case noFrames => exact fun _ => rfl
  case frameBound => exact Nat.zero_le _
  case numbered => exact hs.numbered.emptied
  case loadingEmpty => exact fun _ => ⟨rfl, rfl⟩
  case loaderLoading => exact hs.loaderLoading

/-! ### Every move -/

theorem Move.sound {s t : State} (m : Move s t) (hs : JournalSound s) : JournalSound t := by
  have l := hs.link
  cases m
  case quiet q => exact q.sound hs
  case fault kind detail => exact logFault_sound kind detail hs
  case free => exact reevalFreeing_sound hs
  case discard possible => exact discardTo_sound hs possible
  case store bytes isSync capture fit header =>
    obtain ⟨room, index⟩ := fits_iff.mp fit
    refine storePacket_sound hs capture (by omega) fun sync => ⟨?_, index sync⟩
    have := header sync
    cases bytes with
    | nil => cases this
    | cons => simp
  case lose => exact setFlag_sound _ (hs.withStore rfl)
  case resume => exact hs.withStore rfl
  case journalTable => exact hs.withStore rfl
  case clear => exact clearJournal_sound hs
  case startHold => exact hs.withHold fun _ => syncBeforeNewest_le hs _
  case count collecting _ => exact hs.withHold fun _ => hs.holdRetained (by simp [holdActive, collecting])
  case quota collecting =>
    refine setFlag_sound _ (JournalSound.withHold (hs.withHold ?_) ?_) <;>
      exact fun _ => hs.holdRetained (by simp [holdActive, collecting])
  case closeHold collecting =>
    exact setFlag_sound _ (hs.withHold fun _ => hs.holdRetained (by simp [holdActive, collecting]))
  case dropHold => exact hs.withHold fun h => absurd rfl h
  case drain running =>
    refine hs.withStates rfl rfl rfl (fun h => by cases h) fun loader => ?_
    have := hs.loaderLoading loader
    rw [running] at this; cases this
  case beginRun stopped _ =>
    refine hs.withStates rfl rfl rfl (fun h => by cases h) fun loader => ?_
    have := hs.loaderLoading loader
    rw [stopped] at this; cases this
  case endRun draining => exact endRun_sound hs draining
  case load head tail => exact hs.withStates rfl rfl rfl (fun _ => ⟨head, tail⟩) fun _ => rfl
  case loaded loading f idle records =>
    exact hs.withStates rfl rfl rfl (fun h => by cases h) fun loader => absurd idle loader
  case loader f state records =>
    refine hs.withStates rfl rfl rfl hs.loadingEmpty fun loader => ?_
    exact (state loader).elim hs.loaderLoading id
  case stage => exact hs.withStore rfl
  case attachHost => exact evalAvl_sound (hs.withHost fun _ => attachConsumer_ordered hs _)
  case detachHost => exact evalAvl_sound (reevalFreeing_sound (hs.withHost fun h => by cases h))
  case releaseHost attached => exact hs.withHost fun _ => ⟨le_rfl, (hs.hostMarks attached).2⟩
  case rereadHost attached =>
    exact evalAvl_sound (hs.withHost fun _ => ⟨le_rfl, (hs.hostMarks attached).1.trans (hs.hostMarks attached).2⟩)
  case readByte attached unread =>
    obtain ⟨m1, m2⟩ := hs.hostMarks attached
    have occ := hs.occupied
    have ring : Config.ringSize = 16384 := rfl
    have short : distFrom s.js.tail s.js.hostC.read ≠ occupancy s.js := fun h => unread (distFrom_inj h)
    have moved : distFrom s.js.tail (s.js.hostC.read + 1#32) = distFrom s.js.tail s.js.hostC.read + 1 :=
      distFrom_add (n := 1) (by omega)
    refine evalAvl_sound (hs.withHost fun _ => ⟨?_, ?_⟩)
    · show distFrom s.js.tail s.js.hostC.release ≤ distFrom s.js.tail (s.js.hostC.read + 1#32); omega
    · show distFrom s.js.tail (s.js.hostC.read + 1#32) ≤ occupancy s.js; omega
  case seeSkip => exact hs.withHost hs.hostMarks
  case threshold => exact evalAvl_sound (hs.withStates rfl rfl rfl hs.loadingEmpty hs.loaderLoading)
  case serve =>
    exact hs.withLink (c := s.js.exportC)
      ⟨l.marks, l.frames, l.noFrames, l.bound, l.numbered.congr rfl rfl rfl fun _ => ⟨_, _, rfl⟩⟩
  case leave f grounded kept =>
    obtain ⟨outstanding, nextSeq, -, flight⟩ := kept
    have none : s.xl.flight = none := grounded.elim id l.numbered.grounded
    refine hs.withLink (c := s.js.exportC) (x := f s.xl) ⟨l.marks, ?_, ?_, ?_, ?_⟩
    · rw [outstanding]; exact l.frames
    · rw [outstanding]; exact l.noFrames
    · rw [outstanding]; exact l.bound
    · exact l.numbered.congr outstanding nextSeq flight (by simp [none])
  case fetch status selected n least most response => exact buildFrame_sound hs selected most response
  case deliver flying => exact deliverFrame_sound hs flying
  case withdraw flying => exact withdrawFrame_sound hs flying
  case acknowledge known => exact acknowledged_sound hs known
  case rewind attached =>
    exact hs.withLink (c := { s.js.exportC with read := s.js.exportC.release }) (x := { s.xl with outstanding := [] })
      ⟨fun _ => ⟨le_rfl, (l.marks attached).1.trans (l.marks attached).2⟩, fun _ => rfl, fun _ => rfl, Nat.zero_le _,
        l.numbered.emptied⟩
  case attachExport =>
    exact hs.withLink (c := attachConsumer s.js s.js.exportC) (x := { s.xl with outstanding := [] })
      ⟨fun _ => attachConsumer_ordered hs _, fun _ => rfl, fun _ => rfl, Nat.zero_le _, l.numbered.emptied⟩
  case attachLoaded loading =>
    obtain ⟨head, tail⟩ := hs.loadingEmpty (hs.loaderLoading loading)
    have none := outstanding_of_empty hs head tail
    refine hs.withLink (c := attachConsumer s.js s.js.exportC)
      ⟨fun _ => attachConsumer_ordered hs _, fun _ => ?_, fun _ => none, l.bound, l.numbered⟩
    rw [none]; rfl
  case detachExport =>
    exact hs.withLink (c := { s.js.exportC with read := s.js.exportC.release, attached := false })
      (x := { s.xl with outstanding := [] })
      ⟨fun h => (by cases h), fun h => (by cases h), fun _ => rfl, Nat.zero_le _, l.numbered.emptied⟩

/-- A device reset leaves an empty, sound journal (R178). -/
theorem deviceReset_sound (cfgld : Bool) (s : State) : JournalSound (deviceReset cfgld s) := by
  have numbered : LinkNumbered (Link.reset (phaseAfterReset s.xl.phase) s.xl.port.clock) :=
    ⟨trivial, by simp [Link.reset], by simp [Link.reset], by simp [Link.reset]⟩
  constructor
  case occupied => exact (distFrom_self _).le.trans (Nat.zero_le _)
  case hostMarks => exact fun h => by cases h
  case exportMarks => exact fun h => by cases h
  case indexRising => exact .nil
  case indexRetained => exact fun e he => by cases he
  case indexBound => exact Nat.zero_le _
  case holdRetained => exact fun h => by cases h
  case frames => exact fun h => by cases h
  case noFrames => exact fun _ => rfl
  case frameBound => exact Nat.zero_le _
  case numbered => exact numbered
  case loadingEmpty => exact fun _ => ⟨rfl, rfl⟩
  case loaderLoading => cases cfgld <;> simp [deviceReset, Loader.reset, Capture.reset]

/-- Every command keeps the journal sound. -/
theorem act_sound (c : Instr) {s : State} (hs : JournalSound s) : JournalSound (act c s) :=
  act_keeps (fun m => m.sound) (fun b t _ => deviceReset_sound b t)
    (fun _ _ h => h.withStates rfl rfl rfl h.loadingEmpty h.loaderLoading)
    (fun _ h => h.withStates rfl rfl rfl h.loadingEmpty h.loaderLoading)
    (fun _ h => h.withStates rfl rfl rfl h.loadingEmpty h.loaderLoading) c hs

/-- Settles O4: every move keeps the journal sound, so every command does; a microsecond leaves it as it is. -/
theorem stepKeepsJournalSound : Obligations.StepKeepsJournalSound := by
  intro s t hs h
  refine step_keeps (P := JournalSound) ?_ (fun c _ => act_sound c) ?_ h hs
  · exact fun s _ _ hs => hs.withStates rfl rfl rfl hs.loadingEmpty hs.loaderLoading
  · exact fun s _ hs => hs.withStates rfl rfl rfl hs.loadingEmpty hs.loaderLoading

end Sys2Proof.Machine
end

section
/-! The reserve under every move and every command: freeing and discard add free space, a stored packet leaves the reserve,
and a run closes with the fill state NORMAL. -/

namespace Sys2Proof.Machine

/-! ### Free space -/

/-- Moving the tail on, not past the head, adds free space (R24, R35). -/
theorem freeSpace_moveTail {p : Pos} {j : Store} (h : distFrom j.tail p ≤ occupancy j) :
    freeSpace j ≤ freeSpace (moveTail p j) := by
  have shifted : occupancy (moveTail p j) = occupancy j - distFrom j.tail p := distFrom_shift h
  unfold freeSpace
  omega

/-- Freeing adds free space, where no attached reader's release mark lies past the head (R35). -/
theorem freeSpace_reevalFreeing {s : State}
    (host : s.js.hostC.attached = true → distFrom s.js.tail s.js.hostC.release ≤ occupancy s.js)
    (export_ : s.js.exportC.attached = true → distFrom s.js.tail s.js.exportC.release ≤ occupancy s.js) :
    freeSpace s.js ≤ freeSpace (reevalFreeing s).js := by
  rcases reevalFreeing_cases s with ⟨-, h⟩ | ⟨p, target, h⟩ <;> rw [h]
  refine freeSpace_moveTail ?_
  obtain ⟨-, nearHost, nearExport, -⟩ := freeTarget_spec target
  by_cases ha : s.js.hostC.attached = true
  · exact (nearHost ha).trans (host ha)
  · by_cases he : s.js.exportC.attached = true
    · exact (nearExport he).trans (export_ he)
    · simp [freeTarget, ha, he] at target

/-- Freeing a sound journal adds free space (R35). -/
theorem freeSpace_reevalFreeing_sound {s : State} (hs : JournalSound s) :
    freeSpace s.js ≤ freeSpace (reevalFreeing s).js :=
  freeSpace_reevalFreeing (fun h => (hs.hostMarks h).1.trans (hs.hostMarks h).2)
    fun h => (hs.exportMarks h).1.trans (hs.exportMarks h).2

/-- A consumer's release mark after a discard step lies between the new tail and the head (R42). -/
theorem discardConsumer_release_le {t e : Pos} {c : Consumer} {occ : Nat} (step : distFrom t e ≤ occ)
    (mark : c.attached = true → distFrom t c.release ≤ occ) (attached : c.attached = true) :
    distFrom e (discardConsumer t e c).release ≤ occ - distFrom t e := by
  rcases discardConsumer_cases t e c with ⟨ahead, h⟩ | ⟨-, -, h⟩ <;> rw [h]
  · rw [distFrom_shift (ahead attached)]
    have := mark attached
    omega
  · simp

/-- A discard step adds free space (R41). -/
theorem freeSpace_discardTo {s : State} {e : Pos} (hs : JournalSound s) (possible : discardTarget s = some e) :
    freeSpace s.js ≤ freeSpace (discardTo e s).js := by
  have step : distFrom s.js.tail e ≤ occupancy s.js := (hs.indexRetained e (discardTarget_spec possible).1).le
  have moved := freeSpace_moveTail step
  cases attached : s.js.exportC.attached
  case false => rw [(discardTo_detached e attached).1]; exact moved
  case true =>
    obtain ⟨m1, m2⟩ := hs.exportMarks attached
    obtain ⟨k1, k2, k3, -⟩ := discardNotice_export attached m1 m2 step (hs.frames attached)
    obtain ⟨u, hu, -, -, -, -, ujs⟩ := discardTo_attached e attached
    have occ : occupancy u.js = occupancy s.js - distFrom s.js.tail e := by rw [ujs]; exact distFrom_shift step
    have space : freeSpace u.js = freeSpace (moveTail e s.js) := by rw [ujs]; rfl
    rw [hu]
    refine moved.trans (space ▸ freeSpace_reevalFreeing ?_ ?_) <;> rw [occ, ujs]
    · intro h
      refine discardConsumer_release_le step (fun a => (hs.hostMarks a).1.trans (hs.hostMarks a).2) ?_
      simpa [discardConsumer_attached] using h
    · intro _
      show distFrom e (firstStart _ _) ≤ _
      rw [distFrom_shift k1]
      omega

/-! ### The reserve -/

/-- A change that leaves open runs open, takes no free space and leaves the fill state keeps the reserve. -/
theorem ReserveKept.of {s t : State} (h : ReserveKept s) (run : runOpen t = runOpen s)
    (space : freeSpace s.js ≤ freeSpace t.js) (fill : t.js.fill = s.js.fill) : ReserveKept t where
  reserve := fun r => (h.reserve (run ▸ r)).trans space
  normal := fun r => fill.trans (h.normal (run ▸ r))

/-- A change that leaves the journal's positions and the fill state keeps the reserve. -/
theorem ReserveKept.congr {s t : State} (h : ReserveKept s) (run : runOpen t = runOpen s)
    (positions : t.js.head = s.js.head ∧ t.js.tail = s.js.tail) (fill : t.js.fill = s.js.fill) : ReserveKept t := by
  refine h.of run ?_ fill
  simp only [freeSpace, occupancy, positions.1, positions.2, le_refl]

/-- Outside a run the fill state alone counts. -/
theorem ReserveKept.of_closed {s : State} (closed : runOpen s = false) (normal : s.js.fill = .normal) : ReserveKept s :=
  ⟨fun r => (by rw [closed] at r; cases r), fun _ => normal⟩

/-- A loading part has no run open. -/
theorem closed_of_loader {s : State} (hs : JournalSound s) (loading : s.cl.state ≠ .idle) : runOpen s = false := by
  simp [runOpen, hs.loaderLoading loading]

/-- A LOSS is seventeen bytes (R1). -/
@[simp] theorem length_lossPacket (e : Encoder) : (lossPacket e).length = 17 := rfl

/-- With the reserve free a LOSING store's closing LOSS is stored, so that the run ends in NORMAL (R20, R38). -/
theorem closingLoss_normal {s : State} (reserve : Config.reserve ≤ freeSpace s.js) :
    (closingLoss s).js.fill = .normal := by
  have room : (lossPacket s.je).length ≤ freeSpace s.js := le_trans (by rw [length_lossPacket]; decide) reserve
  unfold closingLoss
  split
  · assumption
  · rw [if_pos room]; rfl

/-- A close-exempt packet leaves the fill state (R38). -/
theorem emitExempt_fill (bytes : List Byte) (s : State) : (emitExempt bytes s).js.fill = s.js.fill := by
  unfold emitExempt
  split
  · simp [countStored]
  · rfl

theorem endRun_reserve {s : State} (h : ReserveKept s) (draining : s.oq.state = .draining) : ReserveKept (endRun s) := by
  refine .of_closed rfl ?_
  have reserve := h.reserve (by simp [runOpen, draining])
  unfold endRun
  dsimp only [State.onOq_js]
  rw [emitExempt_fill, closingLoss_normal reserve]

/-- No move of a sound journal takes the reserve in a run, or leaves NORMAL outside one (R36, R37). -/
theorem Move.reserve {s t : State} (m : Move s t) (hs : JournalSound s) (h : ReserveKept s) : ReserveKept t := by
  cases m
  case quiet q => exact h.congr (by simp [runOpen, q.capture]) (by simp [q.js]) (by rw [q.js])
  case fault => exact h.congr rfl ⟨rfl, rfl⟩ rfl
  case free =>
    exact h.of (reevalFreeing_frame s).runOpen_eq (freeSpace_reevalFreeing_sound hs) (by simp)
  case discard e possible => exact h.of (discardTo_frame e s).runOpen_eq (freeSpace_discardTo hs possible) (by simp)
  case store bytes isSync capture fit header =>
    obtain ⟨room, -⟩ := fits_iff.mp fit
    refine ⟨fun _ => ?_, fun closed => ?_⟩
    · rw [freeSpace_storePacket (by omega)]; omega
    · rw [storePacket_js]
      exact h.normal ((storePacket_frame bytes isSync s).runOpen_eq ▸ closed)
  case lose run => exact ⟨fun _ => h.reserve run, fun closed => by rw [show runOpen s = false from closed] at run; cases run⟩
  case resume => exact ⟨h.reserve, fun _ => rfl⟩
  case journalTable => exact h.congr rfl ⟨rfl, rfl⟩ rfl
  case clear stopped => exact .of_closed (by simp [runOpen, stopped]) (by simp [emptyStore])
  case startHold => exact h.congr rfl ⟨rfl, rfl⟩ rfl
  case count => exact h.congr rfl ⟨rfl, rfl⟩ rfl
  case quota => exact h.congr rfl ⟨rfl, rfl⟩ rfl
  case closeHold => exact h.congr rfl ⟨rfl, rfl⟩ rfl
  case dropHold => exact h.congr rfl ⟨rfl, rfl⟩ rfl
  case drain running => exact h.congr (by simp [runOpen, running]) ⟨rfl, rfl⟩ rfl
  case beginRun room => exact ⟨fun _ => room, fun closed => by cases closed⟩
  case endRun draining => exact endRun_reserve h draining
  case load stopped _ _ => exact .of_closed rfl (h.normal (by simp [runOpen, stopped]))
  case loaded loading f _ _ => exact .of_closed rfl (h.normal (closed_of_loader hs loading))
  case loader => exact h.congr rfl ⟨rfl, rfl⟩ rfl
  case stage => exact h.congr rfl ⟨rfl, rfl⟩ rfl
  case attachHost => exact h.congr (evalAvl_frame _).runOpen_eq (by simp [attachHostOp]) (by simp [attachHostOp])
  case detachHost =>
    have detached : JournalSound (s.onJs fun j => { j with hostC := { j.hostC with attached := false } }) :=
      hs.withHost fun h => by cases h
    refine h.of ?_ ?_ (by simp)
    · exact (evalAvl_frame _).runOpen_eq.trans (reevalFreeing_frame _).runOpen_eq
    · rw [evalAvl_js]; exact freeSpace_reevalFreeing_sound detached
  case releaseHost => exact h.congr rfl ⟨rfl, rfl⟩ rfl
  case rereadHost => exact h.congr (evalAvl_frame _).runOpen_eq (by simp) (by simp)
  case readByte => exact h.congr (evalAvl_frame _).runOpen_eq (by simp) (by simp)
  case seeSkip => exact h.congr rfl ⟨rfl, rfl⟩ rfl
  case threshold => exact h.congr (evalAvl_frame _).runOpen_eq (by simp) (by simp)
  case withdraw f _ =>
    refine h.congr ?_ ?_ ?_ <;> unfold withdrawFrame <;> dsimp only <;> split_ifs <;> first | rfl | exact ⟨rfl, rfl⟩
  all_goals exact h.congr rfl ⟨rfl, rfl⟩ rfl

/-! ### What the moves of a sound journal keep, every step keeps -/

/-- A change of the flags and the fault log alone keeps the journal sound. -/
theorem onIfu_sound {s : State} (hs : JournalSound s) (f : FaultUnit → FaultUnit) : JournalSound (s.onIfu f) :=
  hs.withStates rfl rfl rfl hs.loadingEmpty hs.loaderLoading

/-- What the moves of a sound journal keep, and what neither the log nor the reset breaks, every command keeps. -/
theorem act_keeps_sound {P : State → Prop} (move : ∀ {s t}, Move s t → JournalSound s → P s → P t)
    (reset : ∀ b s, P s → P (deviceReset b s))
    (log : ∀ (s : State) (f : FaultUnit → FaultUnit), (f s.ifu).above = s.ifu.above → P s → P (s.onIfu f)) (c : Instr)
    {s : State} (hs : JournalSound s) (h : P s) : P (act c s) :=
  (act_keeps (P := fun t => JournalSound t ∧ P t) (fun m h => ⟨m.sound h.1, move m h.1 h.2⟩)
    (fun b s h => ⟨deviceReset_sound b s, reset b s h.2⟩) (fun _ s h => ⟨onIfu_sound h.1 _, log s _ rfl h.2⟩)
    (fun s h => ⟨onIfu_sound h.1 _, log s _ rfl h.2⟩) (fun s h => ⟨onIfu_sound h.1 _, log s _ rfl h.2⟩) c ⟨hs, h⟩).2

/-- What every command keeps in a sound journal, and what looks at neither the passing time nor the model's own queue and
count, every step keeps. -/
theorem step_keeps_sound {P : State → Prop} (own : ∀ s pending choices, P s → P { s with pending, choices })
    (command : ∀ (c : Instr) (s : State), JournalSound s → P s → P (act c s)) (passes : ∀ s, P s → P (tick s)) {s t : State}
    (h : step s = .next t) (hs : JournalSound s) (hp : P s) : P t := by
  have own_sound : ∀ s pending choices, JournalSound s → JournalSound { s with pending, choices } :=
    fun _ _ _ h => h.withStates rfl rfl rfl h.loadingEmpty h.loaderLoading
  rcases step_cases h with ⟨c, rest, -, rfl⟩ | ⟨-, due, rfl⟩ | ⟨-, c, -, rfl | rfl⟩
  · exact command c _ (own_sound s rest s.choices hs) (own s rest s.choices hp)
  · exact passes s hp
  · exact command c s hs hp
  · exact command c _ (own_sound s s.pending (s.choices + 1) hs) (own s s.pending (s.choices + 1) hp)

/-- Settles O5: every move of a sound journal keeps the reserve, so every command does; a microsecond leaves it. -/
theorem stepKeepsReserve : Obligations.StepKeepsReserve := by
  intro s t hs hr h
  refine step_keeps_sound (P := ReserveKept) ?_ (fun c s => ?_) ?_ h hs hr
  · exact fun s _ _ h => h.congr rfl ⟨rfl, rfl⟩ rfl
  · refine act_keeps_sound Move.reserve ?_ ?_ c
    · exact fun b s _ => .of_closed (by cases b <;> rfl) rfl
    · exact fun s f _ h => h.congr rfl ⟨rfl, rfl⟩ rfl
  · exact fun s h => h.congr rfl ⟨rfl, rfl⟩ rfl

end Sys2Proof.Machine
end

section
/-! The AVL comparison, the RAM's canonical form and the SYNC headers at the index, under every move and every command. -/

namespace Sys2Proof.Machine

/-! ### The AVL comparison -/

/-- Nothing the AVL comparison looks at has moved, nor the comparison (R171). -/
theorem AvlCurrent.congr {s t : State} (h : AvlCurrent s) (head : t.js.head = s.js.head) (host : t.js.hostC = s.js.hostC)
    (avth : t.hw.avth = s.hw.avth) (above : t.ifu.above = s.ifu.above) : AvlCurrent t := by
  simp only [AvlCurrent, hostUnread, head, host, avth, above] at *
  exact h

/-- An evaluated comparison is current (R171). -/
theorem evalAvl_current (s : State) : AvlCurrent (evalAvl s) := by
  rw [AvlCurrent, evalAvl_above]
  exact decide_eq_decide.mpr (by simp [hostUnread])

theorem storePacket_current (bytes : List Byte) (isSync : Bool) (s : State) : AvlCurrent (storePacket bytes isSync s) :=
  evalAvl_current _

theorem emitExempt_current {s : State} (h : AvlCurrent s) (bytes : List Byte) : AvlCurrent (emitExempt bytes s) := by
  unfold emitExempt
  split
  · exact (storePacket_current bytes false s).congr rfl rfl rfl rfl
  · exact h

theorem closingLoss_current {s : State} (h : AvlCurrent s) : AvlCurrent (closingLoss s) := by
  unfold closingLoss
  split
  · exact h
  · split
    · exact (emitExempt_current h (lossPacket s.je)).congr rfl rfl rfl rfl
    · exact h

/-- Freeing leaves what the comparison looks at (R35, R171). -/
theorem reevalFreeing_current {s : State} (h : AvlCurrent s) : AvlCurrent (reevalFreeing s) :=
  h.congr (by simp) (by simp) (by rw [(reevalFreeing_frame s).hw]) (by simp)

theorem discardTo_current (e : Pos) (s : State) : AvlCurrent (discardTo e s) := by
  let u := evalAvl <| s.onJs fun j =>
    { moveTail e j with hostC := discardConsumer s.js.tail e j.hostC, exportC := discardConsumer s.js.tail e j.exportC }
  show AvlCurrent (discardNotice s.js.tail e u)
  exact (evalAvl_current _ : AvlCurrent u).congr (discardNotice_head _ _ _) (discardNotice_hostC _ _ _)
    (by rw [(discardNotice_frame _ _ _).hw]) (by rw [discardNotice_ifu])

/-- Every move keeps the comparison current (R171). -/
theorem Move.current {s t : State} (m : Move s t) (h : AvlCurrent s) : AvlCurrent t := by
  cases m
  case quiet q => exact h.congr (by rw [q.js]) (by rw [q.js]) q.avth q.above
  case fault => exact h.congr rfl rfl rfl (by simp [logFault_cases])
  case free => exact reevalFreeing_current h
  case discard e _ => exact discardTo_current e s
  case store bytes isSync _ _ _ => exact storePacket_current bytes isSync s
  case clear => exact evalAvl_current _
  case endRun => exact (emitExempt_current (closingLoss_current h) _).congr rfl rfl rfl rfl
  case attachHost => exact evalAvl_current _
  case detachHost => exact evalAvl_current _
  case rereadHost => exact evalAvl_current _
  case readByte => exact evalAvl_current _
  case threshold => exact evalAvl_current _
  case releaseHost => exact h
  case seeSkip => exact h
  case withdraw f _ => refine h.congr ?_ ?_ ?_ ?_ <;> unfold withdrawFrame <;> dsimp only <;> split_ifs <;> rfl
  all_goals exact h.congr rfl rfl rfl rfl

theorem act_current (c : Instr) {s : State} (h : AvlCurrent s) : AvlCurrent (act c s) :=
  act_keeps (P := AvlCurrent) Move.current (fun _ _ _ => by simp [AvlCurrent, deviceReset, hostUnread, unreadOf,
    Store.reset, Consumer.reset, FaultUnit.reset, HostWindow.reset]) (fun _ _ h => h) (fun _ h => h) (fun _ h => h) c h

/-! ### The journal RAM -/

theorem emitExempt_canonical {s : State} (h : RamCanonical s) (bytes : List Byte) : RamCanonical (emitExempt bytes s) := by
  unfold emitExempt
  split
  · simp only [RamCanonical, countStored, State.onJe_js, storePacket_js]
    exact Memory.writeBytes_wf h _ _
  · exact h

theorem closingLoss_canonical {s : State} (h : RamCanonical s) : RamCanonical (closingLoss s) := by
  unfold closingLoss
  split
  · exact h
  · split
    · exact emitExempt_canonical h (lossPacket s.je)
    · exact h

/-- Every move keeps the RAM canonical. -/
theorem Move.canonical {s t : State} (m : Move s t) (h : RamCanonical s) : RamCanonical t := by
  cases m
  case quiet q => rw [RamCanonical, q.js]; exact h
  case free => simpa [RamCanonical] using h
  case discard => simpa [RamCanonical] using h
  case store => simpa [RamCanonical] using Memory.writeBytes_wf h _ _
  case clear => simpa [RamCanonical, emptyStore] using h
  case endRun => exact emitExempt_canonical (closingLoss_canonical h) _
  case stage => exact Memory.writeBytes_wf h _ _
  case attachHost => simpa [RamCanonical, attachHostOp] using h
  case detachHost => simpa [RamCanonical] using h
  case rereadHost => simpa [RamCanonical] using h
  case readByte => simpa [RamCanonical] using h
  case threshold => simpa [RamCanonical] using h
  case withdraw => unfold withdrawFrame; dsimp only; split_ifs <;> exact h
  all_goals exact h

theorem act_canonical (c : Instr) {s : State} (h : RamCanonical s) : RamCanonical (act c s) :=
  act_keeps (P := RamCanonical) Move.canonical (fun _ _ h => h) (fun _ _ h => h) (fun _ h => h) (fun _ h => h) c h

/-! ### The headers at the index -/

/-- The bytes stay, and the index keeps or loses entries. -/
theorem HeadersAtIndex.congr {s t : State} (h : HeadersAtIndex s) (ram : t.js.ram = s.js.ram)
    (index : ∀ e ∈ t.js.index, e ∈ s.js.index) : HeadersAtIndex t := by
  intro e he
  rw [ram]
  exact h e (index e he)

/-- An indexed position lies outside the bytes a stored packet takes (R25, R26). -/
theorem index_outside_packet {t p q : Pos} {n i : Nat} (before : distFrom t p < distFrom t q)
    (room : n ≤ Config.ringSize - distFrom t q) (hi : i < n) :
    p.toNat % Config.ringSize ≠ (q.toNat + i) % Config.ringSize := by
  simp only [distFrom, BitVec.toNat_sub, Config.ringSize] at *
  omega

theorem storePacket_headers {s : State} (hs : JournalSound s) (wf : RamCanonical s) (h : HeadersAtIndex s)
    {bytes : List Byte} {isSync : Bool} (room : bytes.length ≤ freeSpace s.js)
    (header : isSync = true → bytes.head? = some 0x10#8) : HeadersAtIndex (storePacket bytes isSync s) := by
  have old : ∀ e ∈ s.js.index,
      (s.js.ram.writeBytes s.js.head.toNat bytes).read (e.toNat % Config.ringSize) = 0x10#8 := by
    intro e he
    rw [Memory.read_writeBytes_outside _ _ _ fun i hi => index_outside_packet (hs.indexRetained e he) room hi]
    exact h e he
  intro e he
  rw [storePacket_js] at he ⊢
  cases isSync
  · exact old e he
  · rcases List.mem_append.mp he with he | he
    · exact old e he
    · obtain rfl := List.mem_singleton.mp he
      have first := header rfl
      cases bytes with
      | nil => cases first
      | cons b bs =>
        obtain rfl : b = 0x10#8 := by simpa using first
        exact Memory.read_writeBytes_inside wf s.js.head.toNat (0x10#8 :: bs) (room.trans (Nat.sub_le _ _))
          (Nat.succ_pos _)

theorem emitExempt_headers {s : State} (hs : JournalSound s) (wf : RamCanonical s) (h : HeadersAtIndex s)
    (bytes : List Byte) : HeadersAtIndex (emitExempt bytes s) := by
  unfold emitExempt
  split
  · exact (storePacket_headers hs wf h ‹_› (by simp)).congr rfl fun _ he => he
  · exact h

theorem closingLoss_headers {s : State} (hs : JournalSound s) (wf : RamCanonical s) (h : HeadersAtIndex s) :
    HeadersAtIndex (closingLoss s) := by
  unfold closingLoss
  split
  · exact h
  · split
    · exact (emitExempt_headers hs wf h (lossPacket s.je)).congr rfl fun _ he => he
    · exact h

/-- Freeing only takes entries away from the index (R26, R35). -/
theorem mem_index_of_reevalFreeing {s : State} {e : Pos} (h : e ∈ (reevalFreeing s).js.index) : e ∈ s.js.index := by
  rcases reevalFreeing_cases s with ⟨-, f⟩ | ⟨p, -, f⟩ <;> rw [f] at h
  · exact h
  · exact List.mem_of_mem_filter h

/-- A discard step only takes entries away from the index (R26, R41). -/
theorem mem_index_of_discardTo {s : State} {e p : Pos} (h : e ∈ (discardTo p s).js.index) : e ∈ s.js.index := by
  cases attached : s.js.exportC.attached
  case false =>
    rw [(discardTo_detached p attached).1] at h
    exact List.mem_of_mem_filter h
  case true =>
    obtain ⟨u, hu, -, -, -, -, ujs⟩ := discardTo_attached p attached
    rw [hu] at h
    have := mem_index_of_reevalFreeing h
    rw [ujs] at this
    exact List.mem_of_mem_filter this

/-- A journal being loaded has an empty index (R49). -/
theorem index_empty_of_loading {s : State} (hs : JournalSound s) (loading : s.oq.state = .loading) : s.js.index = [] := by
  obtain ⟨head, tail⟩ := hs.loadingEmpty loading
  refine List.eq_nil_iff_forall_not_mem.mpr fun e he => ?_
  have := hs.indexRetained e he
  rw [show occupancy s.js = 0 by simp [occupancy, head, tail]] at this
  omega

/-- Every move of a sound journal keeps a SYNC header at each index entry (R26). -/
theorem Move.headers {s t : State} (m : Move s t) (hs : JournalSound s) (wf : RamCanonical s) (h : HeadersAtIndex s) :
    HeadersAtIndex t := by
  cases m
  case quiet q => exact h.congr (by rw [q.js]) (by rw [q.js]; exact fun _ he => he)
  case free => exact h.congr (by simp) fun _ => mem_index_of_reevalFreeing
  case discard => exact h.congr (by simp) fun _ => mem_index_of_discardTo
  case store bytes isSync _ fit header =>
    exact storePacket_headers hs wf h (by have := (fits_iff.mp fit).1; omega) header
  case clear => intro e he; simp [emptyStore] at he
  case endRun draining =>
    have first := closingLoss_headers hs wf h
    have sound := closingLoss_sound hs (by simp [draining])
    exact (emitExempt_headers sound (closingLoss_canonical wf) first _).congr rfl fun _ he => he
  case stage loading pos bytes =>
    intro e (he : e ∈ s.js.index)
    rw [index_empty_of_loading hs (hs.loaderLoading loading)] at he
    cases he
  case attachHost => exact h.congr (by simp [attachHostOp]) (by simp [attachHostOp])
  case detachHost =>
    refine h.congr (by simp) fun e he => ?_
    rw [evalAvl_js] at he
    have kept := mem_index_of_reevalFreeing he
    exact kept
  case rereadHost => exact h.congr (by simp) (by simp)
  case readByte => exact h.congr (by simp) (by simp)
  case threshold => exact h.congr (by simp) (by simp)
  case withdraw =>
    unfold withdrawFrame; dsimp only; split_ifs <;> exact h.congr rfl fun _ he => he
  all_goals exact h.congr rfl fun _ he => he

/-- Every command of a sound part keeps the RAM canonical and the SYNC headers at the index. -/
theorem act_headers (c : Instr) {s : State} (hs : JournalSound s) (h : RamCanonical s ∧ HeadersAtIndex s) :
    RamCanonical (act c s) ∧ HeadersAtIndex (act c s) :=
  act_keeps_sound (P := fun t => RamCanonical t ∧ HeadersAtIndex t)
    (fun m hs h => ⟨m.canonical h.1, m.headers hs h.1 h.2⟩)
    (fun _ _ h => ⟨h.1, fun e he => by cases he⟩) (fun _ _ _ h => h) c hs h

end Sys2Proof.Machine
end

section
/-! The turns of the part: the changes of channels, time base, queue, capture state and tables that every command is made
of. What each turn keeps, every command but the device reset keeps. -/

namespace Sys2Proof.Machine

/-! ### What a command may turn -/

/-- The commands that step the time (R94, R105). -/
def stepsTime : Instr → Bool
  | .pulse _ => true
  | .setTime => true
  | _ => false

/-- The commands that write tables (R60, R164, R184). -/
def writesTables : Instr → Bool
  | .writeEntry => true
  | .reload => true
  | .reloadClearingDone => true
  | .applyingDone => true
  | _ => false

/-- The commands that change the time base's quality, reference or timer: those of the time base and those that write
tables (R93, R94, R97, R100). -/
def movesTime : Instr → Bool
  | .pulse _ => true
  | .timeout => true
  | .holdoverExpiry => true
  | c => writesTables c

/-- The commands that make or end a capture state by themselves (chapter 3). -/
def setsCapture : Instr → Bool
  | .start => true
  | .autoStart => true
  | .stop => true
  | .reload => true
  | .drainExpiry => true
  | .applyingDone => true
  | .loadHeaderReceived _ _ _ _ _ => true
  | .loadRecordReceived _ _ _ => true
  | .loadCrcReceived _ _ => true
  | _ => false

/-- From `s` to `t` channels, time base, capture control and tables stay, and the loader leaves IDLE only in LOADING. -/
structure Calm (s t : State) : Prop where
  icu : t.icu = s.icu
  tb : t.tb = s.tb
  oq : t.oq = s.oq
  rules : t.tu.rules = s.tu.rules
  table : t.js.table = s.js.table
  loader : t.cl.state ≠ .idle → s.cl.state ≠ .idle ∨ s.oq.state = .loading

@[refl] theorem Calm.refl (s : State) : Calm s s := ⟨rfl, rfl, rfl, rfl, rfl, .inl⟩

theorem Calm.trans {s t u : State} (h : Calm s t) (g : Calm t u) : Calm s u where
  icu := g.icu.trans h.icu
  tb := g.tb.trans h.tb
  oq := g.oq.trans h.oq
  rules := g.rules.trans h.rules
  table := g.table.trans h.table
  loader := fun l => (g.loader l).elim h.loader fun e => .inr (h.oq ▸ e)

/-- A calm change that leaves the hold too and only raises flags. -/
structure Still (s t : State) : Prop extends Calm s t where
  tu : t.tu = s.tu
  sticky : s.ifu.irqf &&& t.ifu.irqf = s.ifu.irqf

@[refl] theorem Still.refl (s : State) : Still s s := ⟨.refl s, rfl, BitVec.and_self⟩

/-- Flags that are only raised stay raised under further changes. -/
theorem sticky_trans {a b c : BitVec 8} (h : a &&& b = a) (g : b &&& c = b) : a &&& c = a := by
  calc a &&& c = a &&& b &&& c := by rw [h]
    _ = a &&& (b &&& c) := by rw [BitVec.and_assoc]
    _ = a := by rw [g, h]

theorem Still.trans {s t u : State} (h : Still s t) (g : Still t u) : Still s u :=
  ⟨h.toCalm.trans g.toCalm, g.tu.trans h.tu, sticky_trans h.sticky g.sticky⟩

theorem StoreFrame.still {s t : State} (h : StoreFrame s t) : Still s t :=
  ⟨⟨h.icu, h.tb, h.oq, by rw [h.tu], h.table, by rw [h.cl]; exact .inl⟩, h.tu, h.sticky⟩

/-- A conditional last still change. -/
theorem Still.then_ite {s t u : State} (h : Still s t) {p : Prop} [Decidable p] (g : p → Still t u) :
    Still s (if p then u else t) := by
  split
  · exact h.trans (g ‹_›)
  · exact h

/-- The commands that leave channels, time base, capture control and tables as they are. -/
def isCalm : Instr → Bool
  | .restart | .restartClearingDone | .attach | .detach | .release | .reread | .releaseHold | .readEntry | .clearFaults
  | .unknownCommand _ | .jdataRead | .hskipRead | .groupLatch _ | .fltnextWrite _ | .irqfWrite _ | .irqeWrite _
  | .cmdflagWrite _ | .avthLowWrite _ | .avthHighWrite _ | .registerWrite _ _ | .transactionBegin | .xstat | .xfetch _
  | .xack _ _ | .xrewind | .xattach | .xdetach | .linkUnknownCommand _ | .frameDelivered | .transactionEnd _ => true
  | _ => false

/-- A channel's step at the time `now`, from `c` to `d`, with a run open as `run` says: its descriptor stays, it stays
sound, and a settling that runs in `d` has begun now or ran in `c`. -/
structure ChannelTurn (run : Bool) (now : Time) (c d : ChannelRec) : Prop where
  desc : d.desc = c.desc
  sound : ChannelSound run c → ChannelSound run d
  settling : ∀ x stamp, d.settle = some x → d.stamp = some stamp →
    (stamp = now ∧ x = { elapsed := 0, length := 100 * c.desc.settle.toNat }) ∨ (c.settle = some x ∧ c.stamp = some stamp)

/-- A change of the time base that leaves counter and table, and keeps its counts within their limits. -/
structure TimeTurn (b b' : TimeBase) : Prop where
  counter : b'.counter = b.counter
  table : b'.table = b.table
  trims : b.trims ≤ 65535 → b'.trims ≤ 65535
  rejects : b.rejects ≤ 2 → b'.rejects ≤ 2

/-- The channel and the journal table can be written: no run is open, or a load is in progress (R39, R72, R184). -/
def Unlocked (s : State) : Prop := runOpen s = false ∨ s.cl.state ≠ .idle

/-- One turn of the part under the command `c`. -/
inductive Turn (c : Instr) : State → State → Prop
  | still {s t : State} (h : Still s t) : Turn c s t
  | calm {s t : State} (calm : isCalm c = true ∨ setsCapture c = true) (h : Calm s t) : Turn c s t
  | channel {s : State} {ch : Channel} {d : ChannelRec} {es : List Entry}
      (h : ChannelTurn (runOpen s) s.tb.counter s.icu[ch] d)
      (stamps : ∀ e ∈ es, e.stamp = s.tb.counter ∨
        (s.icu[ch].state = .settling ∧ e.stamp = s.icu[ch].stamp.getD s.tb.counter)) :
      Turn c s (offerEntries es (setChannel ch d s))
  | offer {s : State} {e : Entry} (now : e.stamp = s.tb.counter) : Turn c s (offerEntry e s)
  | time {s : State} {f : TimeBase → TimeBase} (times : movesTime c = true) (h : TimeTurn s.tb (f s.tb)) : Turn c s (s.onTb f)
  | step {s : State} {S : Int} {cause : StepCause} {journaled : Bool} (steps : stepsTime c = true)
      (counter : 0 ≤ (s.tb.counter.val : Int) + S) : Turn c s (applyStep S cause journaled s)
  | release {s : State} (run : runOpen s = true) : Turn c s (releaseHead s)
  | close {s : State} (sets : setsCapture c = true) (draining : s.oq.state = .draining) : Turn c s (closeDrain s)
  | openRun {s : State} (sets : setsCapture c = true) (stopped : s.oq.state = .stopped) : Turn c s (openRun s)
  | drain {s : State} (sets : setsCapture c = true) (running : s.oq.state = .running) :
      Turn c s (s.onOq fun q => { q with stopStamp := s.tb.counter, state := .draining })
  | load {s : State} (sets : setsCapture c = true) (stopped : s.oq.state = .stopped) :
      Turn c s ((s.onOq fun q => { q with state := .loading }).onCl Loader.forReload)
  | shut {s : State} {f : Loader → Loader} (sets : setsCapture c = true) (loading : s.cl.state ≠ .idle) (idle : (f s.cl).state = .idle) :
      Turn c s ((s.onCl f).onOq fun q => { q with state := .stopped })
  | setup {s : State} {v : Vector ChannelRec 24} (writes : writesTables c = true) (unlocked : Unlocked s)
      (set : ∀ ch : Channel, v[ch] = s.icu[ch] ∨
        ∃ d, EntryLegal (.channel ch d) ∧ v[ch] = setupChannel d s.icu[ch]) : Turn c s (s.onIcu fun _ => v)
  | rules {s : State} {v : Vector TriggerRule 8} (writes : writesTables c = true)
      (set : ∀ i : Fin 8, v[i] = s.tu.rules[i] ∨ EntryLegal (.trigger i v[i])) :
      Turn c s (s.onTu fun u => { u with rules := v })
  | timeTable {s : State} {x : TimeTable} (writes : writesTables c = true) (legal : EntryLegal (.time x)) :
      Turn c s (s.onTb fun t => { t with table := x })
  | journalTable {s : State} {x : JournalTable} (writes : writesTables c = true)
      (unlocked : Unlocked s) (legal : EntryLegal (.journal x)) :
      Turn c s (s.onJs fun j => { j with table := x })

/-- Any number of turns, one after another. -/
def Turns (c : Instr) : State → State → Prop := Relation.ReflTransGen (Turn c)

section
variable {c : Instr} {s t u : State}

theorem Turns.refl : Turns c s s := Relation.ReflTransGen.refl

theorem Turns.single (h : Turn c s t) : Turns c s t := Relation.ReflTransGen.single h

theorem Turns.tail (h : Turns c s t) (g : Turn c t u) : Turns c s u := Relation.ReflTransGen.tail h g

theorem Turns.head (h : Turn c s t) (g : Turns c t u) : Turns c s u := Relation.ReflTransGen.head h g

theorem Turns.trans (h : Turns c s t) (g : Turns c t u) : Turns c s u := Relation.ReflTransGen.trans h g

/-- What every turn keeps, any number of turns keeps. -/
theorem Turns.keep {P : State → Prop} (each : ∀ {s t}, Turn c s t → P s → P t) (h : Turns c s t) (hs : P s) : P t := by
  induction h with
  | refl => exact hs
  | tail _ last ih => exact each last ih

theorem Still.turns (h : Still s t) : Turns c s t := .single (.still h)

theorem Turns.then_still (h : Turns c s t) (g : Still t u) : Turns c s u := h.tail (.still g)

/-- A conditional last step of turns. -/
theorem Turns.then_ite (h : Turns c s t) {p : Prop} [Decidable p] (g : p → Turns c t u) :
    Turns c s (if p then u else t) := by
  split
  · exact h.trans (g ‹_›)
  · exact h

end

/-! ### Still changes -/

theorem complete_still (r : Result) (s : State) : Still s (complete r s) :=
  ⟨⟨rfl, rfl, rfl, rfl, rfl, .inl⟩, rfl, sticky_or _ _⟩

theorem Still.complete {s t : State} (h : Still s t) (r : Result) : Still s (complete r t) := h.trans (complete_still r t)

theorem Turns.complete {c : Instr} {s t : State} (h : Turns c s t) (r : Result) : Turns c s (complete r t) :=
  h.then_still (complete_still r t)

theorem keepBusy_still (l : LongCommand) (s : State) : Still s (keepBusy l s) := ⟨⟨rfl, rfl, rfl, rfl, rfl, .inl⟩, rfl, BitVec.and_self⟩

theorem setFlag_still (flag : BitVec 8) (s : State) : Still s (setFlag flag s) :=
  ⟨⟨rfl, rfl, rfl, rfl, rfl, .inl⟩, rfl, sticky_or _ _⟩

theorem logFault_still (kind : FaultKind) (detail : Byte) (s : State) : Still s (logFault kind detail s) :=
  ⟨⟨rfl, rfl, rfl, rfl, rfl, .inl⟩, rfl, (logFault_frame kind detail s).sticky⟩

theorem linkError_still (s : State) : Still s (linkError s) := ⟨⟨rfl, rfl, rfl, rfl, rfl, .inl⟩, rfl, BitVec.and_self⟩

theorem errorCleared_still (s : State) : Still s (errorCleared s) := ⟨⟨rfl, rfl, rfl, rfl, rfl, .inl⟩, rfl, BitVec.and_self⟩

theorem onXl_still (f : Link → Link) (s : State) : Still s (s.onXl f) := ⟨⟨rfl, rfl, rfl, rfl, rfl, .inl⟩, rfl, BitVec.and_self⟩

theorem onHw_still (f : HostWindow → HostWindow) (s : State) : Still s (s.onHw f) := ⟨⟨rfl, rfl, rfl, rfl, rfl, .inl⟩, rfl, BitVec.and_self⟩

theorem onJs_still {f : Store → Store} {s : State} (h : (f s.js).table = s.js.table) : Still s (s.onJs f) :=
  ⟨⟨rfl, rfl, rfl, rfl, h, .inl⟩, rfl, BitVec.and_self⟩

theorem clearJournal_calm (s : State) : Calm s (clearJournal s) := by
  refine Calm.trans ?_ (evalAvl_frame _).still.toCalm
  exact ⟨rfl, rfl, rfl, rfl, rfl, .inl⟩

theorem request_still {body : State → State} {s : State} (h : Still s (body s)) : Still s (request body s) := by
  unfold request
  split
  · exact onHw_still _ s
  · split
    · exact complete_still _ _
    · exact h

theorem request_calm {body : State → State} {s : State} (h : Calm s (body s)) : Calm s (request body s) := by
  unfold request
  split
  · exact (onHw_still _ s).toCalm
  · split
    · exact (complete_still _ _).toCalm
    · exact h

theorem linkCommand_still {body : State → List Byte × State} {s : State} (h : ∀ t, Still t (body t).2) :
    Still s (linkCommand body s) := by
  unfold linkCommand
  split
  · exact ((errorCleared_still s).trans (h _)).trans (onXl_still _ _)
  · exact .refl s

/-- A link command without response (R128). -/
theorem plainCommand_still {f : State → State} (h : ∀ t, Still t (f t)) {s : State} :
    Still s (linkCommand (noResponse f) s) := linkCommand_still h

theorem releaseHold_calm (s : State) : Calm s (releaseHold s) := by
  unfold releaseHold
  split
  · have dropped : Calm s (s.onTu fun u => { u with hold := .noHold, count := 0 }) := ⟨rfl, rfl, rfl, rfl, rfl, .inl⟩
    have freed := dropped.trans (reevalFreeing_frame _).still.toCalm
    split
    · exact freed.trans (emit_frame _ _ _ _).still.toCalm
    · exact freed
  · exact .refl s

theorem takeXfetch_still (n : Byte) (s : State) : Still s (takeXfetch n s).2 := by
  unfold takeXfetch
  split
  · exact linkError_still s
  · exact ⟨⟨rfl, rfl, rfl, rfl, rfl, .inl⟩, rfl, BitVec.and_self⟩

theorem takeXack_still (seq check : Byte) (s : State) : Still s (takeXack seq check s) := by
  unfold takeXack
  split
  · split
    · exact linkError_still s
    · refine Still.trans ?_ (reevalFreeing_frame _).still
      exact ⟨⟨rfl, rfl, rfl, rfl, rfl, .inl⟩, rfl, BitVec.and_self⟩
  · exact (logFault_still _ _ s).trans (linkError_still _)

theorem takeXrewind_still (s : State) : Still s (takeXrewind s) := by
  unfold takeXrewind
  split
  · exact ⟨⟨rfl, rfl, rfl, rfl, rfl, .inl⟩, rfl, BitVec.and_self⟩
  · exact linkError_still s

theorem takeXattach_still (s : State) : Still s (takeXattach s) := by
  unfold takeXattach
  split
  · exact linkError_still s
  · exact ⟨⟨rfl, rfl, rfl, rfl, rfl, .inl⟩, rfl, BitVec.and_self⟩

theorem takeXdetach_still (s : State) : Still s (takeXdetach s) := by
  unfold takeXdetach
  split
  · exact linkError_still s
  · refine (Still.refl s).then_ite fun _ => Still.trans ?_ (reevalFreeing_frame _).still
    exact ⟨⟨rfl, rfl, rfl, rfl, rfl, .inl⟩, rfl, BitVec.and_self⟩

theorem withdrawFrame_still (f : Flight) (s : State) : Still s (withdrawFrame f s) := by
  unfold withdrawFrame
  dsimp only
  split_ifs <;> exact ⟨⟨rfl, rfl, rfl, rfl, rfl, .inl⟩, rfl, BitVec.and_self⟩

theorem endTransaction_still (decoded : Option ArgCommand) (s : State) : Still s (endTransaction decoded s) := by
  unfold endTransaction
  split
  · exact .refl s
  · exact onXl_still _ s
  · exact ((Still.refl s).then_ite fun _ => linkError_still s).trans (onXl_still _ _)
  · refine Still.trans ?_ (onXl_still _ _)
    split
    · exact .refl s
    · exact withdrawFrame_still _ s

theorem readJdata_still (s : State) : Still s (readJdata s) := by
  unfold readJdata
  split
  · refine Still.trans ?_ (onHw_still _ _)
    refine Still.trans ?_ (evalAvl_frame _).still
    exact onJs_still rfl
  · exact ⟨⟨rfl, rfl, rfl, rfl, rfl, .inl⟩, rfl, BitVec.and_self⟩

/-- A calm command moves none of the blocks that turn. -/
theorem act_calm {c : Instr} (own : ownOperands c = true) (calm : isCalm c = true) (s : State) : Calm s (act c s) := by
  cases c
  case restart =>
    refine request_calm ?_
    unfold commandRestart
    split
    · exact (clearJournal_calm s).trans (keepBusy_still _ _).toCalm
    · exact (complete_still _ s).toCalm
  case releaseHold => exact request_calm ((releaseHold_calm s).trans (complete_still _ _).toCalm)
  case irqfWrite => exact ⟨rfl, rfl, rfl, rfl, rfl, .inl⟩
  all_goals refine Still.toCalm ?_
  case restartClearingDone => exact (Still.refl s).then_ite fun _ => complete_still _ s
  case attach =>
    refine request_still (Still.complete ?_ _)
    refine Still.trans ?_ (evalAvl_frame _).still
    exact onJs_still rfl
  case detach =>
    refine request_still (Still.complete ((Still.refl s).then_ite fun _ => ?_) _)
    refine Still.trans (Still.trans ?_ (reevalFreeing_frame _).still) (evalAvl_frame _).still
    exact onJs_still rfl
  case release =>
    refine request_still ?_
    unfold commandRelease
    split
    · refine Still.complete (Still.trans ?_ (reevalFreeing_frame _).still) _
      exact onJs_still rfl
    · exact complete_still _ s
  case reread =>
    refine request_still ?_
    unfold commandReread
    split
    · refine Still.complete (Still.trans ?_ (evalAvl_frame _).still) _
      exact onJs_still rfl
    · exact complete_still _ s
  case readEntry =>
    refine request_still ?_
    unfold commandReadEntry
    split
    · exact complete_still _ s
    · exact (onHw_still _ s).complete _
  case clearFaults =>
    refine request_still (Still.complete ?_ _)
    exact ⟨⟨rfl, rfl, rfl, rfl, rfl, .inl⟩, rfl, BitVec.and_self⟩
  case unknownCommand code =>
    refine request_still ?_
    have unnamed : commandOf code = complete .unknown := by
      simp only [ownOperands, Instr.wellFormed, namesHostCommand, Bool.not_eq_true', Bool.and_eq_false_iff,
        decide_eq_false_iff_not] at own
      unfold commandOf
      split <;> first | rfl | omega
    rw [unnamed]
    exact complete_still _ s
  case jdataRead => exact readJdata_still s
  case avthHighWrite v =>
    refine Still.trans ?_ (evalAvl_frame _).still
    exact onHw_still _ s
  case registerWrite a v =>
    show Still s (writeRegister a.toNat v s)
    simp only [ownOperands, Instr.wellFormed, writeHasOwnRow, Bool.not_eq_true', Bool.or_eq_false_iff, beq_eq_false_iff_ne, ne_eq,
      ← BitVec.toNat_inj, BitVec.toNat_ofNat, Nat.reducePow, Nat.reduceMod] at own
    obtain ⟨⟨⟨⟨⟨⟨h4, h5⟩, h10⟩, h11⟩, h12⟩, h13⟩, h31⟩ := own
    unfold writeRegister
    split <;> first | contradiction | skip
    · exact onHw_still _ s
    · exact onHw_still _ s
    · exact (Still.refl s).then_ite fun _ => onHw_still _ s
  case transactionBegin =>
    show Still s (beginTransaction s)
    unfold beginTransaction
    split
    · exact onXl_still _ s
    · exact .refl s
  case xstat => exact linkCommand_still (body := fun s => (xstatResponse s, s)) fun t => .refl t
  case xfetch n => exact linkCommand_still (takeXfetch_still n)
  case xack seq check => exact plainCommand_still (takeXack_still seq check)
  case xrewind => exact plainCommand_still takeXrewind_still
  case xattach => exact plainCommand_still takeXattach_still
  case xdetach => exact plainCommand_still takeXdetach_still
  case linkUnknownCommand code =>
    show Still s (takeLinkBytes code [] s)
    have waits : Still s (match s.xl.phase with
        | .selected _ => s.onXl fun x => { x with error := false }
        | _ => s) := by
      split
      · exact onXl_still _ s
      · exact .refl s
    unfold takeLinkBytes linkBody
    split_ifs
    · exact linkCommand_still (body := fun s => (xstatResponse s, s)) fun t => .refl t
    · exact waits
    · exact waits
    · exact plainCommand_still takeXrewind_still
    · exact plainCommand_still takeXattach_still
    · exact plainCommand_still takeXdetach_still
    · exact waits
    · exact plainCommand_still linkError_still
  case frameDelivered =>
    show Still s (match s.xl.flight with | none => s | some f => deliverFrame f s)
    split
    · exact .refl s
    · exact onXl_still _ s
  case transactionEnd decoded => exact endTransaction_still decoded s
  case hskipRead => exact ⟨⟨rfl, rfl, rfl, rfl, rfl, .inl⟩, rfl, BitVec.and_self⟩
  case groupLatch => exact ⟨⟨rfl, rfl, rfl, rfl, rfl, .inl⟩, rfl, BitVec.and_self⟩
  case fltnextWrite => exact ⟨⟨rfl, rfl, rfl, rfl, rfl, .inl⟩, rfl, BitVec.and_self⟩
  case irqeWrite => exact ⟨⟨rfl, rfl, rfl, rfl, rfl, .inl⟩, rfl, BitVec.and_self⟩
  case cmdflagWrite => exact ⟨⟨rfl, rfl, rfl, rfl, rfl, .inl⟩, rfl, BitVec.and_self⟩
  case avthLowWrite => exact ⟨⟨rfl, rfl, rfl, rfl, rfl, .inl⟩, rfl, BitVec.and_self⟩
  all_goals cases calm

end Sys2Proof.Machine
end

section
/-! The channels' commands: what an edge and each expiry make of a channel, and that a sound channel stays sound. -/

namespace Sys2Proof.Machine

/-! ### One channel in the state -/

theorem setChannel_setChannel (ch : Channel) (c d : ChannelRec) (s : State) :
    setChannel ch d (setChannel ch c s) = setChannel ch d s := by
  simp [setChannel, State.onIcu]

@[simp] theorem setChannel_self (ch : Channel) (s : State) : setChannel ch s.icu[ch.val] s = s := by
  simp [setChannel, State.onIcu]

@[simp] theorem setChannel_get (ch : Channel) (c : ChannelRec) (s : State) : (setChannel ch c s).icu[ch] = c := by
  simp [setChannel]

theorem setChannel_get_ne {ch k : Channel} (h : k ≠ ch) (c : ChannelRec) (s : State) :
    (setChannel ch c s).icu[k] = s.icu[k] := by
  simp [setChannel, Fin.val_ne_of_ne h.symm]

/-- A property of the new channel and of every other. -/
theorem setChannel_forall {P : Channel → ChannelRec → Prop} {ch : Channel} {c : ChannelRec} {s : State} (new : P ch c)
    (others : ∀ k, P k s.icu[k]) (k : Channel) : P k (setChannel ch c s).icu[k] := by
  by_cases h : k = ch
  · rw [h, setChannel_get]; exact new
  · rw [setChannel_get_ne h]; exact others k

@[simp] theorem setChannel_oq (ch : Channel) (c : ChannelRec) (s : State) : (setChannel ch c s).oq = s.oq := rfl
@[simp] theorem setChannel_tb (ch : Channel) (c : ChannelRec) (s : State) : (setChannel ch c s).tb = s.tb := rfl
@[simp] theorem setChannel_runOpen (ch : Channel) (c : ChannelRec) (s : State) :
    runOpen (setChannel ch c s) = runOpen s := rfl

/-! ### Acceptances -/

/-- Whether an acceptance of channel `c` is counted: a run is open and the chatter limit is not 0 (R80). -/
def countsChatter (run : Bool) (c : ChannelRec) : Bool := run && c.desc.chatterLimit != 0#8

/-- The entries an acceptance offers, none outside a run (R79, R80, R87). -/
def acceptedEntries (run : Bool) (ch : Channel) (stamp : Time) (c : ChannelRec) : List Entry :=
  if run then acceptanceEntries ch (lineLevel c) stamp (countAcceptance (countsChatter run c) c).1 else []

/-- An acceptance sets the channel and then offers its entries (R79, R80). -/
theorem acceptChange_eq (ch : Channel) (stamp : Time) (s : State) :
    acceptChange ch stamp s =
      offerEntries (acceptedEntries (runOpen s) ch stamp s.icu[ch])
        (setChannel ch (countAcceptance (countsChatter (runOpen s) s.icu[ch]) s.icu[ch]).2 s) := by
  unfold acceptChange acceptedEntries countsChatter
  dsimp only
  split <;> rfl

theorem stamp_of_mem_acceptedEntries {run : Bool} {ch : Channel} {stamp : Time} {c : ChannelRec} {e : Entry}
    (h : e ∈ acceptedEntries run ch stamp c) : e.stamp = stamp := by
  unfold acceptedEntries acceptanceEntries at h
  split at h
  · split at h <;> simp at h
    · rcases h with rfl | rfl <;> rfl
    · rw [h]
  · cases h

/-- An accepted channel is at rest at its line level, and neither settles nor waits. -/
theorem countAcceptance_settle (counting : Bool) (c : ChannelRec) :
    (countAcceptance counting c).2.settle = none ∧ (countAcceptance counting c).2.desc = c.desc := by
  unfold countAcceptance
  dsimp only
  split_ifs <;> exact ⟨rfl, rfl⟩

/-- An acceptance leaves a sound channel, whatever its line did (R79, R80). -/
theorem countAcceptance_sound {run : Bool} {c : ChannelRec} (enabled : c.desc.enable = true) (quiet : c.quiet = none)
    (windowed : c.window.isSome = decide (0 < c.chatterCount))
    (counted : c.chatterCount = 0 ∨ c.chatterCount < c.desc.chatterLimit.toNat)
    (closed : run = false → c.window = none) :
    ChannelSound run (countAcceptance (countsChatter run c) c).2 := by
  cases counts : countsChatter run c
  · constructor
    case windowed => exact windowed
    case counted => exact counted
    case unsuppressed => exact fun r => ⟨quiet, closed r⟩
    all_goals simp [countAcceptance, acceptLevel, lineLevel, enabled, quiet]
  · obtain ⟨rfl, limited⟩ : run = true ∧ c.desc.chatterLimit ≠ 0#8 := by simpa [countsChatter] using counts
    have positive : 0 < c.desc.chatterLimit.toNat :=
      Nat.pos_of_ne_zero fun h => limited (BitVec.eq_of_toNat_eq h)
    unfold countAcceptance
    simp only [if_true]
    split
    · constructor <;> simp [acceptLevel, lineLevel, startTimer, enabled]
    · constructor <;> simp [acceptLevel, lineLevel, enabled, quiet]
      case windowed =>
        by_cases first : c.chatterCount = 0
        · simp [first, startTimer]
        · simp [first, windowed, Nat.pos_of_ne_zero first]
      case counted => omega

/-! ### What a sound channel holds in each state -/

section
variable {run : Bool} {c : ChannelRec}

theorem ChannelSound.enabled (h : ChannelSound run c) (state : c.state ≠ .off) : c.desc.enable = true := by
  by_contra disabled
  exact state (h.off.mpr (by simpa using disabled))

theorem ChannelSound.noQuiet (h : ChannelSound run c) (state : c.state ≠ .suppressed)
    (state' : c.state ≠ .suppressedSettling) : c.quiet = none := by
  have waits := h.quiets
  rw [beq_eq_false_iff_ne.mpr state, beq_eq_false_iff_ne.mpr state'] at waits
  simpa using waits

/-- An acceptance of a sound channel outside suppression leaves it sound, its line taken at any sample. -/
theorem ChannelSound.accepted (h : ChannelSound run c) (state : c.state = .stable ∨ c.state = .settling) (line : Bool) :
    ChannelSound run (countAcceptance (countsChatter run { c with line }) { c with line }).2 := by
  refine countAcceptance_sound ?_ ?_ h.windowed h.counted fun closed => (h.unsuppressed closed).2
  · exact h.enabled (by rcases state with s | s <;> simp [s])
  · exact h.noQuiet (by rcases state with s | s <;> simp [s]) (by rcases state with s | s <;> simp [s])

end

/-! ### Turns of a channel -/

/-- An acceptance is a turn of its channel. -/
theorem accepted_turn {run : Bool} {now : Time} {c : ChannelRec} (state : c.state = .stable ∨ c.state = .settling)
    (line : Bool) :
    ChannelTurn run now c (countAcceptance (countsChatter run { c with line }) { c with line }).2 where
  desc := (countAcceptance_settle _ _).2
  sound := fun h => h.accepted state line
  settling := fun x stamp settle => by rw [(countAcceptance_settle _ _).1] at settle; cases settle

/-- The level of a line sampled at its other level. -/
theorem lineLevel_flip (c : ChannelRec) : lineLevel { c with line := !c.line } = !lineLevel c := by
  simp [lineLevel]

/-- A channel whose line has taken its new sample accepts the change at once: STABLE, with settle 0 (R77). -/
def acceptsAtEdge (c : ChannelRec) : Bool := c.state == .stable && lineLevel c != c.accepted && c.desc.settle == 0#8

/-- A channel after an edge at `now` that it does not accept at once, its line holding the new sample (R77, R78, R82). -/
def edgeChannel (now : Time) (c : ChannelRec) : ChannelRec :=
  let differs := lineLevel c != c.accepted
  let c1 := { c with quiet := startTimer (quietMicros c.desc) }
  match c.state with
  | .off => c
  | .stable => if differs then beginSettling now .settling c else c
  | .settling => if differs then c else abandonSettling .stable c
  | .suppressed =>
    if differs then
      if c.desc.settle = 0#8 then acceptLevel .suppressed c1 else beginSettling now .suppressedSettling c1
    else c1
  | .suppressedSettling => if differs then c1 else abandonSettling .suppressed c1

/-- A raw edge is accepted at once or sets its channel (R77, R78, R82). -/
theorem takeEdge_eq (ch : Channel) (s : State) :
    takeEdge ch s =
      if acceptsAtEdge s.icu[ch] then acceptChange ch s.tb.counter s
      else setChannel ch (edgeChannel s.tb.counter s.icu[ch]) s := by
  unfold takeEdge acceptsAtEdge edgeChannel
  dsimp only
  cases state : s.icu[ch].state <;> dsimp only
  case off => simp
  case stable => split <;> split_ifs <;> simp_all
  case settling => split <;> simp
  case suppressed => simp only [apply_ite (fun c => setChannel ch c s)]; rfl
  case suppressedSettling => rfl

section
variable {c : ChannelRec} (now : Time)

theorem edgeChannel_off (state : c.state = .off) : edgeChannel now c = c := by simp [edgeChannel, state]

theorem edgeChannel_stable (state : c.state = .stable) (differs : lineLevel c ≠ c.accepted) :
    edgeChannel now c = beginSettling now .settling c := by simp [edgeChannel, state, differs]

theorem edgeChannel_settling (state : c.state = .settling) (back : lineLevel c = c.accepted) :
    edgeChannel now c = abandonSettling .stable c := by simp [edgeChannel, state, back]

theorem edgeChannel_suppressed (state : c.state = .suppressed) (differs : lineLevel c ≠ c.accepted) :
    edgeChannel now c =
      if c.desc.settle = 0#8 then acceptLevel .suppressed { c with quiet := startTimer (quietMicros c.desc) }
      else beginSettling now .suppressedSettling { c with quiet := startTimer (quietMicros c.desc) } := by
  simp [edgeChannel, state, differs]

theorem edgeChannel_suppressedSettling (state : c.state = .suppressedSettling) (back : lineLevel c = c.accepted) :
    edgeChannel now c = abandonSettling .suppressed { c with quiet := startTimer (quietMicros c.desc) } := by
  simp [edgeChannel, state, back]

end

/-- A raw edge at `now` leaves a sound channel: `d` is the channel with its line at the new sample (R74, R77, R78,
R82). -/
theorem edgeChannel_sound {run : Bool} {d : ChannelRec} (h : ChannelSound run { d with line := !d.line }) (now : Time) :
    ChannelSound run (edgeChannel now d) := by
  have level : lineLevel { d with line := !d.line } = !lineLevel d := lineLevel_flip d
  have enabled (moving : d.state ≠ .off) : d.desc.enable = true := h.enabled moving
  have counted : d.chatterCount = 0 ∨ d.chatterCount < d.desc.chatterLimit.toNat := h.counted
  have windowed : d.window.isSome = decide (0 < d.chatterCount) := h.windowed
  have closed : run = false → d.quiet = none ∧ d.window = none := h.unsuppressed
  have quiets : d.quiet.isSome = (d.state == .suppressed || d.state == .suppressedSettling) := h.quiets
  have open_ (waits : d.quiet.isSome) (r : run = false) : startTimer (quietMicros d.desc) = none ∧ d.window = none := by
    rw [(closed r).1] at waits; cases waits
  have rest (state : d.state = .stable ∨ d.state = .suppressed) : lineLevel d ≠ d.accepted := by
    have before : (!lineLevel d) = d.accepted := level ▸ h.atRest state
    rw [← before]
    cases lineLevel d <;> simp
  have moved (state : d.state = .settling ∨ d.state = .suppressedSettling) : lineLevel d = d.accepted := by
    have before : (!lineLevel d) ≠ d.accepted := level ▸ h.moving state
    revert before
    cases lineLevel d <;> cases d.accepted <;> simp
  cases state : d.state
  case off =>
    rw [edgeChannel_off now state]
    exact ⟨h.off, h.offLevel, h.stamped, h.settles, h.quiets, by simp [state], by simp [state], windowed, counted, closed⟩
  case stable =>
    have differs := rest (.inl state)
    rw [edgeChannel_stable now state differs]
    constructor
    case windowed => exact windowed
    case counted => exact counted
    case unsuppressed => exact closed
    case quiets => rw [state] at quiets; exact quiets
    case moving => exact fun _ => differs
    all_goals simp [beginSettling, startTimer, enabled (by simp [state])]
  case settling =>
    have back := moved (.inl state)
    rw [edgeChannel_settling now state back]
    constructor
    case windowed => exact windowed
    case counted => exact counted
    case unsuppressed => exact closed
    case quiets => rw [state] at quiets; exact quiets
    case atRest => exact fun _ => back
    all_goals simp [abandonSettling, enabled (by simp [state])]
  case suppressed =>
    have differs := rest (.inr state)
    rw [edgeChannel_suppressed now state differs]
    split
    · constructor
      case windowed => exact windowed
      case counted => exact counted
      case unsuppressed => exact open_ (by simp [quiets, state])
      all_goals simp [acceptLevel, startTimer, enabled (by simp [state]), lineLevel]
    · constructor
      case windowed => exact windowed
      case counted => exact counted
      case unsuppressed => exact open_ (by simp [quiets, state])
      case moving => exact fun _ => differs
      all_goals simp [beginSettling, startTimer, enabled (by simp [state])]
  case suppressedSettling =>
    have back := moved (.inr state)
    rw [edgeChannel_suppressedSettling now state back]
    constructor
    case windowed => exact windowed
    case counted => exact counted
    case unsuppressed => exact open_ (by simp [quiets, state])
    case atRest => exact fun _ => back
    all_goals simp [abandonSettling, startTimer, enabled (by simp [state])]

/-! ### Turns of a channel by its commands -/

/-- An edge leaves the settling as it is, ends it or begins one (R77, R78, R82). -/
theorem edgeChannel_settle (now : Time) (c : ChannelRec) :
    (edgeChannel now c).desc = c.desc ∧
      (((edgeChannel now c).settle = c.settle ∧ (edgeChannel now c).stamp = c.stamp) ∨
        (edgeChannel now c).settle = none ∨
        ((edgeChannel now c).settle = startTimer (settleMicros c.desc) ∧ (edgeChannel now c).stamp = some now)) := by
  have begun (state : ChanState) (q : Option Timer) :
      (beginSettling now state { c with quiet := q }).settle = startTimer (settleMicros c.desc) ∧
        (beginSettling now state { c with quiet := q }).stamp = some now := ⟨rfl, rfl⟩
  unfold edgeChannel
  dsimp only
  split
  case h_1 => exact ⟨rfl, .inl ⟨rfl, rfl⟩⟩
  case h_2 => split; exacts [⟨rfl, .inr (.inr (begun _ c.quiet))⟩, ⟨rfl, .inl ⟨rfl, rfl⟩⟩]
  case h_3 => split; exacts [⟨rfl, .inl ⟨rfl, rfl⟩⟩, ⟨rfl, .inr (.inl rfl)⟩]
  case h_4 =>
    split
    · split; exacts [⟨rfl, .inr (.inl rfl)⟩, ⟨rfl, .inr (.inr (begun _ _))⟩]
    · exact ⟨rfl, .inl ⟨rfl, rfl⟩⟩
  case h_5 => split; exacts [⟨rfl, .inl ⟨rfl, rfl⟩⟩, ⟨rfl, .inr (.inl rfl)⟩]

/-- An edge is a turn of its channel: `c` is the channel with its line at the new sample. -/
theorem edge_turn {run : Bool} {now : Time} (c : ChannelRec) :
    ChannelTurn run now { c with line := !c.line } (edgeChannel now c) := by
  obtain ⟨desc, settling⟩ := edgeChannel_settle now c
  refine ⟨desc, fun h => edgeChannel_sound h now, fun x stamp settle hs => ?_⟩
  rcases settling with ⟨e1, e2⟩ | e | ⟨e1, e2⟩
  · exact .inr ⟨e1 ▸ settle, e2 ▸ hs⟩
  · rw [e] at settle; cases settle
  · rw [e1] at settle
    rw [e2] at hs
    injection settle with settle
    injection hs with hs
    exact .inl ⟨hs.symm, settle.symm⟩

/-- A raw edge sets the channel, and offers entries stamped now where it is accepted at once (R74, R77, R78, R82). -/
theorem rawEdge_turns {c : Instr} (ch : Channel) (s : State) : Turns c s (act (.rawEdge ch) s) := by
  show Turns c s (takeEdge ch (setChannel ch { s.icu[ch] with line := !s.icu[ch].line } s))
  rw [takeEdge_eq, setChannel_get]
  split
  case isTrue accepts =>
    have state : s.icu[ch].state = .stable := by simp_all [acceptsAtEdge]
    rw [acceptChange_eq, setChannel_get, setChannel_setChannel]
    exact .single (.channel (accepted_turn (.inl state) _) fun e he => .inl (stamp_of_mem_acceptedEntries he))
  case isFalse =>
    rw [setChannel_setChannel]
    have turn := edge_turn (run := runOpen s) (now := s.tb.counter) { s.icu[ch] with line := !s.icu[ch].line }
    simp only [Bool.not_not] at turn
    exact .single (.channel (es := []) turn fun e he => by cases he)

/-- A channel in suppression whose settling ends takes its line level, unrecorded (R82). -/
theorem acceptLevel_sound {run : Bool} {c : ChannelRec} (h : ChannelSound run c) (state : c.state = .suppressedSettling) :
    ChannelSound run (acceptLevel .suppressed c) := by
  have enabled := h.enabled (by simp [state])
  have quiets := h.quiets
  constructor
  case windowed => exact h.windowed
  case counted => exact h.counted
  case unsuppressed => exact h.unsuppressed
  case quiets => rw [state] at quiets; exact quiets
  all_goals simp [acceptLevel, lineLevel, enabled]

theorem settleExpires_turns {c : Instr} {ch : Channel} {s : State} (due : settleDue s.icu[ch] = true) :
    Turns c s (settleExpires ch s) := by
  unfold settleExpires
  dsimp only
  split
  case isTrue state =>
    rw [acceptChange_eq]
    refine .single (.channel (accepted_turn (.inr state) s.icu[ch].line) fun e he => .inr ⟨state, ?_⟩)
    exact stamp_of_mem_acceptedEntries he
  case isFalse other =>
    have state : s.icu[ch].state = .suppressedSettling := by
      simp only [settleDue, holdsStamp, Bool.and_eq_true, Bool.or_eq_true, beq_iff_eq] at due
      exact due.1.resolve_left other
    refine .single (.channel (es := []) ⟨rfl, fun h => acceptLevel_sound h state, fun x stamp settle _ => ?_⟩
      fun e he => by cases he)
    cases settle

/-- The end of the window clears the count (R81). -/
theorem windowExpiry_turns {c : Instr} (ch : Channel) (s : State) :
    Turns c s (setChannel ch { s.icu[ch] with chatterCount := 0, window := none } s) := by
  refine .single (.channel (es := []) ⟨rfl, fun h => ?_, fun x stamp settle hs => .inr ⟨settle, hs⟩⟩
    fun e he => by cases he)
  exact ⟨h.off, h.offLevel, h.stamped, h.settles, h.quiets, h.atRest, h.moving, rfl, .inl rfl,
    fun r => ⟨(h.unsuppressed r).1, rfl⟩⟩

/-- The end of the quiet time lifts the suppression (R83). -/
theorem quietLifted_turn {run : Bool} {now : Time} {c : ChannelRec} (state : c.state = .suppressed) :
    ChannelTurn run now c { c with state := .stable, quiet := none } := by
  refine ⟨rfl, fun h => ?_, fun x stamp settle hs => .inr ⟨settle, hs⟩⟩
  have enabled := h.enabled (by simp [state])
  have rest := h.atRest (.inr state)
  have stamped := h.stamped
  have settles := h.settles
  rw [state] at stamped settles
  exact ⟨by simp [enabled], by simp, stamped, settles, rfl, fun _ => rest, by simp, h.windowed, h.counted,
    fun r => ⟨rfl, (h.unsuppressed r).2⟩⟩

theorem quietExpires_turns {c : Instr} {ch : Channel} {s : State} (due : quietDue s.icu[ch] = true) :
    Turns c s (quietExpires ch s) := by
  have state : s.icu[ch].state = .suppressed := by simp_all [quietDue]
  unfold quietExpires
  dsimp only
  split
  · refine .single (.channel (es := [_]) (quietLifted_turn state) fun e he => .inl ?_)
    rw [List.mem_singleton.mp he]
  · exact .single (.channel (es := []) (quietLifted_turn state) fun e he => by cases he)

end Sys2Proof.Machine
end

section
/-! Every command but the device reset as turns: the time base's, capture control's, the tables' and the loader's. -/

namespace Sys2Proof.Machine

variable {c : Instr} {s : State}

/-! ### Offers -/

/-- An offer is the taking of an entry, or nothing (R56, R65). -/
theorem offerEntry_cases (e : Entry) (s : State) :
    (runOpen s = true ∧ offerEntry e s = takeEntry e s) ∨ offerEntry e s = s := by
  unfold offerEntry
  split
  · exact .inl ⟨by simp [runOpen, *], rfl⟩
  · split
    · exact .inl ⟨by simp [runOpen, *], rfl⟩
    · exact .inr rfl
  · exact .inr rfl
  · exact .inr rfl

/-- An offer in RUNNING is taken (R56). -/
theorem offerEntry_running (h : s.oq.state = .running) (e : Entry) : offerEntry e s = takeEntry e s := by
  simp [offerEntry, h]

/-- An offer leaves all but queue and journal (R62, R64). -/
theorem offerEntry_frame (e : Entry) (s : State) :
    EntryFrame (s.onOq fun q => { q with queue := (offerEntry e s).oq.queue }) (offerEntry e s) := by
  rcases offerEntry_cases e s with ⟨-, h⟩ | h <;> rw [h]
  · exact takeEntry_frame e s
  · exact .refl s

@[simp] theorem offerEntry_tb (e : Entry) (s : State) : (offerEntry e s).tb = s.tb := (offerEntry_frame e s).tb
@[simp] theorem offerEntry_icu (e : Entry) (s : State) : (offerEntry e s).icu = s.icu := (offerEntry_frame e s).icu
@[simp] theorem offerEntry_hw (e : Entry) (s : State) : (offerEntry e s).hw = s.hw := (offerEntry_frame e s).hw
@[simp] theorem offerEntry_rules (e : Entry) (s : State) : (offerEntry e s).tu.rules = s.tu.rules :=
  (offerEntry_frame e s).rules
@[simp] theorem offerEntry_table (e : Entry) (s : State) : (offerEntry e s).js.table = s.js.table :=
  (offerEntry_frame e s).table
@[simp] theorem offerEntry_horizon (e : Entry) (s : State) : (offerEntry e s).oq.horizon = s.oq.horizon :=
  (offerEntry_frame e s).horizon
@[simp] theorem offerEntry_runOpen (e : Entry) (s : State) : runOpen (offerEntry e s) = runOpen s :=
  (offerEntry_frame e s).runOpen_eq

theorem takeEntry_turns (run : s.oq.state = .running) {e : Entry} (now : e.stamp = s.tb.counter) :
    Turns c s (takeEntry e s) := by
  rw [← offerEntry_running run]
  exact .single (.offer now)

/-! ### The time base -/

@[simp] theorem changeQuality_tb (new : Quality) (s : State) :
    (changeQuality new s).tb = { s.tb with quality := new } := by
  unfold changeQuality
  dsimp only
  split
  · rw [offerEntry_tb]; rfl
  · rfl

/-- A change of the time base that leaves its counter, table and counts is a turn. -/
theorem TimeTurn.of {b b' : TimeBase} (counter : b'.counter = b.counter) (table : b'.table = b.table)
    (trims : b'.trims = b.trims) (rejects : b'.rejects = b.rejects ∨ b'.rejects ≤ 2) : TimeTurn b b' :=
  ⟨counter, table, fun h => trims ▸ h, fun h => rejects.elim (fun e => e ▸ h) id⟩

theorem changeQuality_turns (times : movesTime c = true) (new : Quality) (s : State) : Turns c s (changeQuality new s) := by
  have flagged : Turns c s (setFlag flagTqc <| s.onTb fun t => { t with quality := new }) :=
    .head (.time times (.of rfl rfl rfl (.inl rfl))) (setFlag_still _ _).turns
  unfold changeQuality
  dsimp only
  split
  · exact flagged.tail (.offer rfl)
  · exact flagged

/-- A change of the time base followed by a change of quality. -/
theorem changeQuality_onTb_turns (times : movesTime c = true) (new : Quality) {f : TimeBase → TimeBase} (h : TimeTurn s.tb (f s.tb)) :
    Turns c s (changeQuality new (s.onTb f)) := .head (.time times h) (changeQuality_turns times new _)

theorem enterHoldover_turns (times : movesTime c = true) (s : State) : Turns c s (enterHoldover s) := by
  have first : Turns c s (changeQuality .holdover <| s.onTb fun t => { t with reference := none, rejects := 0 }) :=
    changeQuality_onTb_turns times _ (.of rfl rfl rfl (.inr (Nat.zero_le _)))
  unfold enterHoldover
  dsimp only
  split
  · exact first.trans (changeQuality_onTb_turns times _ (.of rfl rfl rfl (.inl rfl)))
  · exact first

theorem takeTimeout_turns (times : movesTime c = true) (s : State) : Turns c s (takeTimeout s) := by
  unfold takeTimeout
  split
  · exact changeQuality_onTb_turns times _ (.of rfl rfl rfl (.inl rfl))
  · exact enterHoldover_turns times s

theorem takeHoldoverExpiry_turns (times : movesTime c = true) (s : State) : Turns c s (takeHoldoverExpiry s) := by
  unfold takeHoldoverExpiry
  split
  · exact .single (.time times (.of rfl rfl rfl (.inl rfl)))
  · exact .single (.time times (.of rfl rfl rfl (.inl rfl)))
  · exact .single (.time times (.of rfl rfl rfl (.inl rfl)))
  · exact changeQuality_onTb_turns times _ (.of rfl rfl rfl (.inl rfl))

/-- The commands that write tables may move the time base (R93). -/
theorem movesTime_of_writes (writes : writesTables c = true) : movesTime c = true := by
  unfold movesTime
  split
  exacts [rfl, rfl, rfl, writes]

theorem writeTimeTable_turns (writes : writesTables c = true) {x : TimeTable} (legal : EntryLegal (.time x)) (s : State) :
    Turns c s (writeTimeTable x s) := by
  have times := movesTime_of_writes writes
  unfold writeTimeTable
  dsimp only
  refine Turns.then_ite (Turns.then_ite (Turns.then_ite (.single (.timeTable writes legal)) ?_) ?_) ?_
  · exact fun _ => enterHoldover_turns times _
  · exact fun _ => takeTimeout_turns times _
  · exact fun _ => takeHoldoverExpiry_turns times _

/-- The step of a pulse does not take the counter below 0.000000 (R94, R103). -/
theorem offsetOf_le (t : Time) : 0 ≤ (t.val : Int) + -offsetOf t := by
  unfold offsetOf microsOf
  split <;> omega

theorem applyPulseStep_turns (times : movesTime c = true) (steps : stepsTime c = true) {e : Int} (counter : 0 ≤ (s.tb.counter.val : Int) + -e) :
    Turns c s (applyPulseStep e s) := by
  unfold applyPulseStep
  dsimp only
  split
  · exact .refl
  · split
    · exact .single (.step steps counter)
    · have trimmed : TimeTurn s.tb { s.tb with trims := satInc 65535 s.tb.trims } :=
        ⟨rfl, rfl, fun _ => satInc_le _ _, id⟩
      exact .head (.time times (f := fun t => { t with trims := satInc 65535 t.trims }) trimmed) (.single (.step steps counter))

theorem acceptPulse_turns (times : movesTime c = true) (steps : stepsTime c = true) {e : Int} (counter : 0 ≤ (s.tb.counter.val : Int) + -e) :
    Turns c s (acceptPulse e s) :=
  (applyPulseStep_turns times steps counter).tail (.time times (.of rfl rfl rfl (.inr (Nat.zero_le _))))

theorem lockOnPulse_turns (times : movesTime c = true) (steps : stepsTime c = true) {e : Int} (counter : 0 ≤ (s.tb.counter.val : Int) + -e) :
    Turns c s (lockOnPulse e s) :=
  (changeQuality_turns times _ s).trans (acceptPulse_turns times steps (by rw [changeQuality_tb]; exact counter))

theorem takePulse_turns (times : movesTime c = true) (steps : stepsTime c = true) (s : State) : Turns c s (takePulse s) := by
  have counter := offsetOf_le s.tb.counter
  have begins (o : Origin) : Turns c s (beginAcquiring o s) :=
    changeQuality_onTb_turns times _ (.of rfl rfl rfl (.inr (Nat.zero_le _)))
  unfold takePulse
  dsimp only
  split
  · exact begins _
  · split
    · exact lockOnPulse_turns times steps counter
    · exact .single (.time times (.of rfl rfl rfl (.inl rfl)))
  · split
    · exact acceptPulse_turns times steps counter
    · split
      · exact .single (.time times (.of rfl rfl rfl (.inr (Nat.le_of_lt_succ ‹_›))))
      · exact begins _
  · split
    · exact lockOnPulse_turns times steps counter
    · exact begins _

theorem stepToTime_turns (steps : stepsTime c = true) (new : Time) (s : State) : Turns c s (stepToTime new s) := by
  unfold stepToTime
  split
  · exact .refl
  · exact .single (.step steps (by omega))

/-! ### Capture control and the host's commands -/

/-- A body carried out for a CMD write outside LOADING. -/
theorem request_turns {body : State → State} (h : Turns c s (body s)) : Turns c s (request body s) := by
  unfold request
  split
  · exact (onHw_still _ s).turns
  · split
    · exact (complete_still _ _).turns
    · exact h

theorem requestStart_turns (sets : setsCapture c = true) (s : State) : Turns c s (requestStart s).2 := by
  unfold requestStart
  split
  · dsimp only
    have room := makeRoom_frame (fits syncLength true) s
    split
    · refine room.still.turns.tail (.openRun sets ?_)
      rw [room.oq]; assumption
    · exact room.still.turns
  · exact .refl

theorem commandStop_turns (sets : setsCapture c = true) (s : State) : Turns c s (commandStop s) := by
  unfold commandStop
  split
  · exact .head (.drain sets ‹_›) (keepBusy_still _ _).turns
  · exact (complete_still _ s).turns

theorem commandMark_turns (s : State) : Turns c s (commandMark s) := by
  unfold commandMark
  split
  · exact (takeEntry_turns ‹_› rfl).complete _
  · exact (complete_still _ s).turns

theorem commandSetTime_turns (steps : stepsTime c = true) (s : State) : Turns c s (commandSetTime s) := by
  unfold commandSetTime
  split
  · exact (stepToTime_turns steps _ s).complete _
  · exact (complete_still _ s).turns

theorem takeXmark_turns (high low check : Byte) (s : State) : Turns c s (takeXmark high low check s) := by
  unfold takeXmark
  split
  · split
    · exact takeEntry_turns ‹_› rfl
    · exact (linkError_still s).turns
  · exact ((logFault_still _ _ s).trans (linkError_still _)).turns

theorem xmark_turns (high low check : Byte) (s : State) : Turns c s (act (.xmark high low check) s) := by
  show Turns c s (linkCommand (noResponse (takeXmark high low check)) s)
  unfold linkCommand
  split
  · exact ((errorCleared_still s).turns.trans (takeXmark_turns high low check _)).then_still (onXl_still _ _)
  · exact .refl

/-! ### The tables -/

theorem applyEntry_turns (writes : writesTables c = true) {e : TableEntry} (legal : EntryLegal e)
    (unlocked : (∃ i d, e = .channel i d) ∨ (∃ j, e = .journal j) → Unlocked s) : Turns c s (applyEntry e s) := by
  cases e with
  | channel i d =>
    refine .single (.setup writes (unlocked (.inl ⟨i, d, rfl⟩)) fun ch => ?_)
    by_cases h : ch = i
    · subst h
      exact .inr ⟨d, legal, by simp⟩
    · exact .inl (by simp [Fin.val_ne_of_ne (Ne.symm h)])
  | trigger i r =>
    refine .single (.rules writes (v := s.tu.rules.set i r) fun k => ?_)
    by_cases h : k = i
    · subst h
      exact .inr (by simpa using legal)
    · exact .inl (by simp [Fin.val_ne_of_ne (Ne.symm h)])
  | time x => exact writeTimeTable_turns writes legal s
  | journal j => exact .single (.journalTable writes (unlocked (.inr ⟨j, rfl⟩)) legal)

/-- In STOPPED no run is open. -/
theorem closed_of_stopped (h : s.oq.state = .stopped) : runOpen s = false := by simp [runOpen, h]

/-- In LOADING no run is open. -/
theorem closed_of_loading (h : s.oq.state = .loading) : runOpen s = false := by simp [runOpen, h]

/-- A channel or journal entry that is not locked is written in STOPPED (R39, R72). -/
theorem unlocked_of_tableLocked {slot : TableSlot} {b : EntryBytes} {e : TableEntry}
    (free : ¬tableLocked slot s = true) (h : decodeEntry slot b = some e)
    (kind : (∃ i d, e = .channel i d) ∨ ∃ j, e = .journal j) : Unlocked s := by
  refine .inl (closed_of_stopped ?_)
  cases slot <;> obtain ⟨x, -, rfl⟩ := Option.map_eq_some_iff.mp h
  case channel => simpa [tableLocked] using free
  case journal => simpa [tableLocked] using free
  all_goals simp at kind

theorem commandWriteEntry_turns (writes : writesTables c = true) (s : State) : Turns c s (commandWriteEntry s) := by
  unfold commandWriteEntry
  split
  · exact (complete_still _ s).turns
  · split
    · exact (complete_still _ s).turns
    · split
      · exact (complete_still _ s).turns
      · exact (applyEntry_turns writes (decodeEntry_legal ‹_›) (unlocked_of_tableLocked ‹_› ‹_›)).complete _

theorem ChanDesc.reset_legal (ch : Channel) : EntryLegal (.channel ch ChanDesc.reset) :=
  ⟨by decide, by decide, by decide⟩

theorem TriggerRule.reset_legal (i : Fin 8) : EntryLegal (.trigger i TriggerRule.reset) := by
  show TriggerRule.reset.value &&& ~~~TriggerRule.reset.mask = 0#24
  decide

theorem TimeTable.reset_legal : EntryLegal (.time TimeTable.reset) := ⟨by decide, by decide⟩

theorem JournalTable.reset_legal : EntryLegal (.journal JournalTable.reset) :=
  ⟨by decide, by decide, by decide, by decide⟩

theorem resetTables_turns (writes : writesTables c = true) (closed : runOpen s = false) :
    Turns c s (resetTables s) := by
  refine .head (.setup writes (.inl closed) (v := s.icu.map fun c => ChannelRec.reset c.line) fun ch =>
    .inr ⟨ChanDesc.reset, ChanDesc.reset_legal ch, by simp [setupChannel, ChannelRec.reset, ChanDesc.reset]⟩) ?_
  refine .head (.rules writes (v := Vector.replicate 8 TriggerRule.reset) fun i => .inr ?_) ?_
  · simpa using TriggerRule.reset_legal i
  · exact .head (.journalTable writes (.inl closed) JournalTable.reset_legal)
      (writeTimeTable_turns writes TimeTable.reset_legal _)

theorem commandReload_turns (sets : setsCapture c = true) (writes : writesTables c = true) (s : State) : Turns c s (commandReload s) := by
  unfold commandReload
  split
  · rename_i stopped
    have cleared : Turns c s (clearJournal s) := .single (.calm (.inr sets) (clearJournal_calm s))
    have closed : runOpen (clearJournal s) = false := closed_of_stopped (by rw [clearJournal_oq]; exact stopped)
    have idle := resetTables_idle (s := clearJournal s) (by simp [stopped])
    refine ((cleared.trans (resetTables_turns writes closed)).tail (.load sets ?_)).then_still (keepBusy_still _ _)
    exact idle.oq ▸ (clearJournal_oq s).symm ▸ stopped
  · exact (complete_still _ s).turns

theorem reloadClearingDone_turns (writes : writesTables c = true) (s : State) :
    Turns c s (act .reloadClearingDone s) := by
  show Turns c s (if reloadClearing s then beginReading (resetTables s) else s)
  refine Turns.refl.then_ite fun clearing => ?_
  have loading : s.oq.state = .loading := by simp_all [reloadClearing]
  refine (resetTables_turns writes (closed_of_loading loading)).then_still
    ⟨⟨rfl, rfl, rfl, rfl, rfl, fun _ => .inr ?_⟩, rfl, BitVec.and_self⟩
  rw [(resetTables_idle (by simp [loading])).oq]
  exact loading

/-! ### The loader -/

theorem completeReload_turns {t : State} (h : Turns c s t) : Turns c s (completeReload t) :=
  h.then_ite fun _ => (complete_still _ _).turns

/-- A change of the loader that leaves its state. -/
theorem onCl_still {f : Loader → Loader} {s : State} (h : (f s.cl).state ≠ .idle → s.cl.state ≠ .idle) :
    Still s (s.onCl f) :=
  ⟨⟨rfl, rfl, rfl, rfl, rfl, fun l => .inl (h l)⟩, rfl, BitVec.and_self⟩

theorem failLoad_turns (sets : setsCapture c = true) (loading : s.cl.state ≠ .idle) (reason : Byte) : Turns c s (failLoad reason s) := by
  unfold failLoad
  have discarded : Still s (logFault .loadfail reason (s.onCl fun c => { c with staged := 0 })) :=
    (onCl_still fun h => h).trans (logFault_still _ _ _)
  refine completeReload_turns (Turns.then_still (discarded.turns.tail (.shut sets ?_ rfl)) (setFlag_still _ _))
  exact loading

theorem takeHeader_turns (sets : setsCapture c = true) (loading : s.cl.state ≠ .idle) (format version low high flags : Byte) :
    Turns c s (takeHeader format version low high flags s) := by
  unfold takeHeader
  have received (bytes : List Byte) : Turns c s (receive bytes s) := (onCl_still fun h => h).turns
  have fails (bytes : List Byte) (reason : Byte) : Turns c s (failLoad reason (receive bytes s)) :=
    (received bytes).trans (failLoad_turns sets (s := receive bytes s) loading reason)
  split_ifs
  · exact fails _ _
  · exact fails _ _
  · exact fails _ _
  · exact (received _).then_still (onCl_still fun h => h)

theorem takeRecord_turns (sets : setsCapture c = true) (loading : s.cl.state ≠ .idle) (table index : Byte) (entry : EntryBytes) :
    Turns c s (takeRecord table index entry s) := by
  unfold takeRecord
  dsimp only
  have staged : Turns c s (stageRecord (recordBytes table index entry) (receive (recordBytes table index entry) s)) :=
    Still.turns ⟨⟨rfl, rfl, rfl, rfl, rfl, .inl⟩, rfl, BitVec.and_self⟩
  have loading1 : (stageRecord (recordBytes table index entry) (receive (recordBytes table index entry) s)).cl.state ≠
      .idle := loading
  generalize stageRecord (recordBytes table index entry) (receive (recordBytes table index entry) s) = s1 at *
  split
  · exact staged.trans (failLoad_turns sets loading1 _)
  · exact staged.then_still (onCl_still fun h => h)

theorem takeCrc_turns (sets : setsCapture c = true) (loading : s.cl.state ≠ .idle) (low high : Byte) : Turns c s (takeCrc low high s) := by
  unfold takeCrc
  split
  · exact (onCl_still fun _ => loading).turns
  · exact failLoad_turns sets loading _

/-- Outside RUNNING a written entry leaves capture control (R93). -/
theorem applyEntry_oq (idle : s.oq.state ≠ .running) (e : TableEntry) : (applyEntry e s).oq = s.oq := by
  cases e with
  | time x => exact (writeTimeTable_timeOnly idle x).oq
  | _ => rfl

theorem applyRecords_oq (is : List Nat) {s : State} (idle : s.oq.state ≠ .running) : (applyRecords is s).oq = s.oq := by
  induction is generalizing s with
  | nil => rfl
  | cons i is ih =>
    unfold applyRecords
    split
    · exact ih idle
    · rename_i e _
      have same := applyEntry_oq idle e
      rw [ih (by rw [same]; exact idle), same]

theorem applyRecords_turns (writes : writesTables c = true) (is : List Nat) {s : State} (loading : s.cl.state ≠ .idle) :
    Turns c s (applyRecords is s) := by
  induction is generalizing s with
  | nil => exact .refl
  | cons i is ih =>
    unfold applyRecords
    split
    · exact ih loading
    · rename_i e checked
      refine (applyEntry_turns writes (checkRecord_legal checked) fun _ => .inr loading).trans (ih ?_)
      rw [applyEntry_cl]
      exact loading

theorem attachHostOp_still (s : State) : Still s (attachHostOp s) := by
  refine Still.trans ?_ (evalAvl_frame _).still
  exact onJs_still rfl

theorem attachExportOp_still (s : State) : Still s (attachExportOp s) := onJs_still rfl

/-- The state after a load's records and attach flags (R184, R185). -/
def recordsApplied (s : State) : State :=
  let s1 := applyRecords (List.range s.cl.staged) s
  let s2 := if s1.cl.attachHost then attachHostOp s1 else s1
  if s2.cl.attachExport then attachExportOp s2 else s2

/-- The end of a load: its records and attach flags, LOADING left, and the RELOAD completed (R184, R185, R188). -/
theorem finishLoad_eq (s : State) :
    finishLoad s =
      let s1 := ((recordsApplied s).onCl fun c => { c with state := .idle, staged := 0, autoStartDue := c.autoStart }).onOq
        fun q => { q with state := .stopped }
      if s1.cl.autoStartDue then s1 else completeReload s1 := rfl

theorem recordsApplied_cl (s : State) : (recordsApplied s).cl = s.cl := by
  have same := applyRecords_cl (List.range s.cl.staged) s
  unfold recordsApplied
  dsimp only
  generalize applyRecords (List.range s.cl.staged) s = s1 at *
  split_ifs <;> simp [attachHostOp, attachExportOp, same]

theorem finishLoad_turns (sets : setsCapture c = true) (writes : writesTables c = true) (applying : s.cl.state = .applying) :
    Turns c s (finishLoad s) := by
  have loading : s.cl.state ≠ .idle := by simp [applying]
  have applied : Turns c s (recordsApplied s) := by
    unfold recordsApplied
    refine Turns.then_ite (Turns.then_ite (applyRecords_turns writes _ loading) fun _ => ?_) fun _ => ?_
    · exact (attachHostOp_still _).turns
    · exact (attachExportOp_still _).turns
  have finished : Turns c s (((recordsApplied s).onCl fun c =>
      { c with state := .idle, staged := 0, autoStartDue := c.autoStart }).onOq fun q => { q with state := .stopped }) :=
    applied.tail (.shut sets (by rw [recordsApplied_cl]; exact loading) rfl)
  rw [finishLoad_eq]
  dsimp only
  split
  · exact finished
  · exact completeReload_turns finished

/-! ### Every command -/

/-- A command whose operands belong to it, the device reset apart, is made of turns. -/
theorem act_turns {c : Instr} (own : ownOperands c = true) (runs : ∀ b, c ≠ .deviceReset b) (s : State) :
    Turns c s (act c s) := by
  cases calm : isCalm c
  case true => exact .single (.calm (.inl calm) (act_calm own calm s))
  case false =>
    cases c
    case deviceReset b => exact absurd rfl (runs b)
    case rawEdge ch => exact rawEdge_turns ch s
    case settleExpiry ch => exact Turns.refl.then_ite fun due => settleExpires_turns due
    case windowExpiry ch => exact Turns.refl.then_ite fun _ => windowExpiry_turns ch s
    case quietExpiry ch => exact Turns.refl.then_ite fun due => quietExpires_turns due
    case pulse edge => exact Turns.refl.then_ite fun _ => takePulse_turns rfl rfl s
    case timeout => exact Turns.refl.then_ite fun _ => takeTimeout_turns rfl s
    case holdoverExpiry => exact Turns.refl.then_ite fun _ => takeHoldoverExpiry_turns rfl s
    case horizonExpiry =>
      refine Turns.refl.then_ite fun due => .single (.release ?_)
      unfold horizonDue at due
      split at due
      · cases due
      · exact (Bool.and_eq_true_iff.mp due).1
    case drainExpiry =>
      refine Turns.refl.then_ite fun due => .single (.close rfl ?_)
      simpa using (Bool.and_eq_true_iff.mp due).1
    case start => exact request_turns ((requestStart_turns rfl s).complete _)
    case stop => exact request_turns (commandStop_turns rfl s)
    case reload => exact request_turns (commandReload_turns rfl rfl s)
    case mark => exact request_turns (commandMark_turns s)
    case setTime => exact request_turns (commandSetTime_turns rfl s)
    case writeEntry => exact request_turns (commandWriteEntry_turns rfl s)
    case xmark high low check => exact xmark_turns high low check s
    case loadHeaderReceived format version low high flags =>
      exact Turns.refl.then_ite fun h => takeHeader_turns rfl (by simp [h.1]) _ _ _ _ _
    case loadRecordReceived table index entry =>
      exact Turns.refl.then_ite fun h => takeRecord_turns rfl (by simp [h.1]) _ _ _
    case loadCrcReceived low high => exact Turns.refl.then_ite fun h => takeCrc_turns rfl (by simp [h.1]) _ _
    case applyingDone => exact Turns.refl.then_ite fun h => finishLoad_turns rfl rfl h
    case autoStart =>
      refine Turns.refl.then_ite fun _ => completeReload_turns ?_
      have noted : Still s (s.onCl fun c => { c with autoStartDue := false }) := onCl_still fun h => h
      exact noted.turns.trans (requestStart_turns rfl _)
    case reloadClearingDone => exact reloadClearingDone_turns rfl s
    all_goals cases calm

/-- A well-formed command's operands belong to its row. -/
theorem ownOperands_of_wellFormed {c : Instr} (h : c.wellFormed = true) : ownOperands c = true := by
  unfold ownOperands
  split
  · rfl
  · exact h

/-- What every turn keeps, every command keeps, the device reset aside. -/
theorem act_turned {P : State → Prop} (turn : ∀ {c s t}, Turn c s t → P s → P t) (reset : ∀ b s, P (deviceReset b s))
    (c : Instr) {s : State} (hs : P s) : P (act c s) := by
  rw [← act_rowOf]
  have own := rowOf_ownOperands c
  generalize rowOf c = d at own
  by_cases resets : ∃ b, d = .deviceReset b
  · obtain ⟨b, rfl⟩ := resets
    exact reset b s
  · exact (act_turns own (fun b e => resets ⟨b, e⟩) s).keep turn hs

end Sys2Proof.Machine
end

section
/-! What the larger operations do to channels, time base, capture control and tables: a released entry, offers, a step of
the time, the opening and the close of a run. -/

namespace Sys2Proof.Machine

/-! ### A released entry and capture control -/

/-- A released entry up to its report: the resumption check, the evaluation, the LATE fault and the packets (R15 to
R18). -/
def entryWritten (e : Entry) (s : State) : State :=
  let (resumed, s1) := resumptionCheck s
  let (hits, s2) := evaluateEntry e (s1.onJe fun j => { j with image := imageAfter e j.image })
  let s3 := if isLate s2.je.runningTime e then logFault .late (orderDetail e) s2 else s2
  let s4 := entryPackets resumed e s1.je.image s3
  emitAll e.stamp (hits.map fun h => triggerPacket h.1 h.2) s4

/-- A released entry is written and then reported (R15). -/
theorem handleEntry_eq (e : Entry) (s : State) :
    handleEntry e s = reportEntry (s.tu.hold == .collecting) e.stamp (entryWritten e s) := by
  have tu := (resumptionCheck_frame s).tu
  rw [← tu]
  rfl

theorem entryWritten_frame (e : Entry) (s : State) : EntryFrame s (entryWritten e s) := by
  unfold entryWritten
  dsimp only
  refine EntryFrame.trans ?_ (emitAll_frame _ _ _).entryFrame
  refine EntryFrame.trans ?_ (entryPackets_frame _ _ _ _).entryFrame
  have h : EntryFrame s (evaluateEntry e
      ((resumptionCheck s).2.onJe fun j => { j with image := imageAfter e j.image })).2 :=
    ((resumptionCheck_frame s).trans (onJe_frame _ _)).entryFrame.trans (evaluateEntry_frame e _)
  refine EntryFrame.trans h ?_
  split
  · exact logFault_frame _ _ _
  · exact EntryFrame.refl _

/-- Writing an entry leaves capture control (R15). -/
theorem entryWritten_oq (e : Entry) (s : State) : (entryWritten e s).oq = s.oq := by
  unfold entryWritten
  dsimp only
  rw [(emitAll_frame _ _ _).oq, (entryPackets_frame _ _ _ _).oq, apply_ite State.oq, logFault_oq, ite_self,
    (evaluateEntry_journal _ _).2.2.1, State.onJe_oq, (resumptionCheck_frame s).oq]

/-- Writing an entry leaves an active hold (R113). -/
theorem entryWritten_tu {s : State} (h : s.tu.hold ≠ .noHold) (e : Entry) : (entryWritten e s).tu = s.tu := by
  have tu := (resumptionCheck_frame s).tu
  unfold entryWritten
  dsimp only
  rw [(emitAll_frame _ _ _).tu, (entryPackets_frame _ _ _ _).tu, apply_ite State.tu, logFault_tu, ite_self,
    evaluateEntry_tu (by rw [State.onJe_tu, tu]; exact h), State.onJe_tu, tu]

/-- A HOLD-STOP hold closed with its flag raised and a drain begun now, in RUNNING (R55, R118). -/
structure HoldStopped (s t : State) : Prop where
  running : s.oq.state = .running
  oq : t.oq = { s.oq with stopStamp := s.tb.counter, state := .draining }
  hold : t.tu.hold = .closed
  action : t.tu.action = .holdStop
  flag : t.ifu.irqf.getLsbD 2 = true
  reason : t.je.stopReason = .holdStop

/-- A flag that is set stays set under sticky changes. -/
theorem getLsbD_of_sticky {a b : BitVec 8} (sticky : a &&& b = a) {i : Nat} (h : a.getLsbD i = true) :
    b.getLsbD i = true := by
  rw [← sticky, BitVec.getLsbD_and] at h
  exact (Bool.and_eq_true_iff.mp h).2

theorem closeHold_flag (s : State) : (closeHold s).ifu.irqf.getLsbD 2 = true := by
  simp [closeHold, setFlag, flagHld]

/-- The report of an entry leaves capture control, or closes a HOLD-STOP hold in RUNNING (R55, R117, R118). -/
theorem reportEntry_oq (wasCollecting : Bool) (stamp : Time) (s : State) :
    (reportEntry wasCollecting stamp s).oq = s.oq ∨ HoldStopped s (reportEntry wasCollecting stamp s) := by
  unfold reportEntry
  dsimp only
  split
  · split
    · have frame := emit_frame (holdPacket .byQuota) false stamp (closeHold (s.onTu fun u => { u with count := u.count + 1 }))
      have raised := closeHold_flag (s.onTu fun u => { u with count := u.count + 1 })
      have closed : (closeHold (s.onTu fun u => { u with count := u.count + 1 })).tu.hold = .closed := rfl
      have oq : (closeHold (s.onTu fun u => { u with count := u.count + 1 })).oq = s.oq := rfl
      have tb : (closeHold (s.onTu fun u => { u with count := u.count + 1 })).tb = s.tb := rfl
      generalize closeHold (s.onTu fun u => { u with count := u.count + 1 }) = s2 at *
      generalize (emit (holdPacket .byQuota) false stamp s2).2 = s3 at *
      split
      · exact .inl (frame.oq.trans oq)
      · rename_i action
        unfold holdStopRequest
        split
        · rename_i running
          rw [frame.oq, oq] at running
          refine .inr ⟨running, ?_, ?_, action, ?_, rfl⟩
          · show { s3.oq with stopStamp := s3.tb.counter, state := .draining } = _
            rw [frame.oq, frame.tb, oq, tb]
          · show s3.tu.hold = _
            rw [frame.tu, closed]
          · exact getLsbD_of_sticky frame.sticky raised
        · exact .inl (frame.oq.trans oq)
    · exact .inl rfl
  · exact .inl rfl

/-- A released entry leaves capture control, or closes a HOLD-STOP hold in RUNNING (R55). -/
theorem handleEntry_oq (e : Entry) (s : State) : (handleEntry e s).oq = s.oq ∨ HoldStopped s (handleEntry e s) := by
  rw [handleEntry_eq]
  have oq := entryWritten_oq e s
  have tb := (entryWritten_frame e s).tb
  rcases reportEntry_oq (s.tu.hold == .collecting) e.stamp (entryWritten e s) with h | h
  · exact .inl (h.trans oq)
  · exact .inr ⟨oq ▸ h.running, by rw [h.oq, oq, tb], h.hold, h.action, h.flag, h.reason⟩

/-- Outside RUNNING a released entry leaves capture control (R55). -/
theorem handleEntry_oq_of_not_running {s : State} (h : s.oq.state ≠ .running) (e : Entry) : (handleEntry e s).oq = s.oq :=
  (handleEntry_oq e s).resolve_right fun g => h g.running

/-- A released entry leaves a closed hold (R113). -/
theorem handleEntry_closed {s : State} (h : s.tu.hold = .closed) (e : Entry) : (handleEntry e s).tu = s.tu := by
  rw [handleEntry_eq, h]
  exact entryWritten_tu (by simp [h]) e

/-! ### What taking entries leaves -/

/-- What no taking of entries changes: channels, time base, horizon, tables, loader and host window; the capture state can
only pass from RUNNING to DRAINING. -/
structure FrontKept (s t : State) : Prop where
  icu : t.icu = s.icu
  tb : t.tb = s.tb
  horizon : t.oq.horizon = s.oq.horizon
  rules : t.tu.rules = s.tu.rules
  table : t.js.table = s.js.table
  cl : t.cl = s.cl
  hw : t.hw = s.hw
  state : t.oq.state = s.oq.state ∨ (s.oq.state = .running ∧ t.oq.state = .draining)

@[refl] theorem FrontKept.refl (s : State) : FrontKept s s := ⟨rfl, rfl, rfl, rfl, rfl, rfl, rfl, .inl rfl⟩

theorem FrontKept.trans {s t u : State} (h : FrontKept s t) (g : FrontKept t u) : FrontKept s u where
  icu := g.icu.trans h.icu
  tb := g.tb.trans h.tb
  horizon := g.horizon.trans h.horizon
  rules := g.rules.trans h.rules
  table := g.table.trans h.table
  cl := g.cl.trans h.cl
  hw := g.hw.trans h.hw
  state := by
    rcases h.state with e | ⟨r, d⟩ <;> rcases g.state with e' | ⟨r', d'⟩
    · exact .inl (e'.trans e)
    · exact .inr ⟨e ▸ r', d'⟩
    · exact .inr ⟨r, e'.trans d⟩
    · rw [d] at r'; cases r'

/-- The taking of entries leaves a run open or closed. -/
theorem FrontKept.run {s t : State} (h : FrontKept s t) : runOpen t = runOpen s := by
  rcases h.state with e | ⟨r, d⟩
  · simp [runOpen, e]
  · simp [runOpen, r, d]

theorem EntryFrame.front {s t : State} (h : EntryFrame s t) : FrontKept s t :=
  ⟨h.icu, h.tb, h.horizon, h.rules, h.table, h.cl, h.hw, h.state⟩

/-- An entry frame behind a change of the queue. -/
theorem EntryFrame.front_of_queue {s t : State} {q : List Entry}
    (h : EntryFrame (s.onOq fun o => { o with queue := q }) t) : FrontKept s t := by
  have queued : FrontKept s (s.onOq fun o => { o with queue := q }) := ⟨rfl, rfl, rfl, rfl, rfl, rfl, rfl, .inl rfl⟩
  exact queued.trans h.front

theorem handleEntry_front (e : Entry) (s : State) : FrontKept s (handleEntry e s) := (handleEntry_frame e s).front

theorem offerEntry_front (e : Entry) (s : State) : FrontKept s (offerEntry e s) := (offerEntry_frame e s).front_of_queue

theorem offerEntries_front (es : List Entry) (s : State) : FrontKept s (offerEntries es s) := by
  induction es generalizing s with
  | nil => exact .refl s
  | cons e es ih => exact (offerEntry_front e s).trans (ih _)

theorem releaseHead_front (s : State) : FrontKept s (releaseHead s) := by
  unfold releaseHead
  split
  · exact .refl s
  · exact (handleEntry_frame _ _).front_of_queue

theorem releaseAll_front (es : List Entry) (s : State) : FrontKept s (releaseAll es s) := by
  induction es generalizing s with
  | nil => exact .refl s
  | cons e es ih => exact (handleEntry_frame _ _).front_of_queue.trans (ih _)

/-- Outside RUNNING entries are released one after another, capture control but for the queue as it was (R58). -/
theorem releaseAll_oq {s : State} (h : s.oq.state ≠ .running) (es : List Entry) (queue : s.oq.queue = es) :
    (releaseAll es s).oq = { s.oq with queue := [] } := by
  induction es generalizing s with
  | nil => exact (congrArg (fun q => { s.oq with queue := q }) queue).symm ▸ rfl
  | cons e es ih =>
    have step := handleEntry_oq_of_not_running (s := s.onOq fun q => { q with queue := es }) h e
    rw [releaseAll, ih (by rw [step]; exact h) (by rw [step]; rfl), step]
    rfl

/-! ### A step of the time -/

/-- Faults logged leave capture control. -/
@[simp] theorem logFaults_oq (kind : FaultKind) (ds : List Byte) (s : State) : (logFaults kind ds s).oq = s.oq := by
  induction ds generalizing s with
  | nil => rfl
  | cons d ds ih => rw [logFaults, ih]; rfl

theorem emitStep_frame (cause : StepCause) (old new : Time) (s : State) : StoreFrame s (emitStep cause old new s) :=
  (emit_frame _ _ _ s).trans (emitSync_frame _ _ _ _)

theorem encoderStep_frame (S : Int) (cause : StepCause) (journaled : Bool) (s : State) :
    StoreFrame s (encoderStep S cause journaled s) := by
  have moved := onJe_frame (fun e => { e with runningTime := rebase s.je.runningTime S }) s
  unfold encoderStep
  dsimp only
  split
  · split
    · exact moved.trans (emitStep_frame _ _ _ _)
    · exact moved
  · exact moved
  · exact .refl s

/-- The state of a step before the encoder takes its notice: counter, stamps and faults (R104). -/
def stampsMoved (S : Int) (s : State) : State :=
  let (details, s1) := clampDetails S s
  logFaults .clamp details <| rebaseQueue S ((s1.onTb (stepTimeBase S)).onIcu fun v => v.map (rebaseChannel S))

theorem applyStep_eq (S : Int) (cause : StepCause) (journaled : Bool) (s : State) :
    applyStep S cause journaled s = encoderStep S cause journaled (stampsMoved S s) := rfl

/-- The draw of a free value leaves every block. -/
theorem clampDetails_blocks (S : Int) (s : State) : ∃ n, (clampDetails S s).2 = { s with choices := n } := by
  rcases clampDetails_state S s with h | h <;> exact ⟨_, h⟩

/-- What a step leaves in channels, time base and capture control, with the rest of the front as it was (R104). -/
theorem stampsMoved_front (S : Int) (s : State) :
    (stampsMoved S s).icu = s.icu.map (rebaseChannel S) ∧ (stampsMoved S s).tb = stepTimeBase S s.tb ∧
      (stampsMoved S s).oq = (rebaseQueue S s).oq ∧ (stampsMoved S s).tu = s.tu ∧ (stampsMoved S s).js = s.js ∧
      (stampsMoved S s).cl = s.cl ∧ (stampsMoved S s).hw = s.hw ∧ (stampsMoved S s).xl = s.xl ∧
      (stampsMoved S s).je = s.je := by
  obtain ⟨n, hn⟩ := clampDetails_blocks S s
  have logged (ds : List Byte) (t : State) : (logFaults .clamp ds t).icu = t.icu ∧ (logFaults .clamp ds t).tb = t.tb ∧
      (logFaults .clamp ds t).tu = t.tu ∧ (logFaults .clamp ds t).js = t.js ∧ (logFaults .clamp ds t).cl = t.cl ∧
      (logFaults .clamp ds t).hw = t.hw ∧ (logFaults .clamp ds t).xl = t.xl ∧ (logFaults .clamp ds t).je = t.je := by
    induction ds generalizing t with
    | nil => exact ⟨rfl, rfl, rfl, rfl, rfl, rfl, rfl, rfl⟩
    | cons d ds ih => exact ih _
  unfold stampsMoved
  dsimp only
  obtain ⟨icu, tb, tu, js, cl, hw, xl, je⟩ := logged (clampDetails S s).1
    (rebaseQueue S (((clampDetails S s).2.onTb (stepTimeBase S)).onIcu fun v => v.map (rebaseChannel S)))
  rw [icu, tb, tu, js, cl, hw, xl, je, logFaults_oq, hn]
  unfold rebaseQueue
  by_cases run : runOpen s = true
  · have run1 : runOpen (({ s with choices := n }.onTb (stepTimeBase S)).onIcu fun v => v.map (rebaseChannel S)) = true := run
    rw [if_pos run, if_pos run1]
    exact ⟨rfl, rfl, rfl, rfl, rfl, rfl, rfl, rfl, rfl⟩
  · have run1 : ¬runOpen (({ s with choices := n }.onTb (stepTimeBase S)).onIcu fun v => v.map (rebaseChannel S)) = true := run
    rw [if_neg run, if_neg run1]
    exact ⟨rfl, rfl, rfl, rfl, rfl, rfl, rfl, rfl, rfl⟩

/-- The front after a step (R104): channels, time base and capture control moved, the rest as it was. -/
theorem applyStep_front (S : Int) (cause : StepCause) (journaled : Bool) (s : State) :
    (applyStep S cause journaled s).icu = s.icu.map (rebaseChannel S) ∧
      (applyStep S cause journaled s).tb = stepTimeBase S s.tb ∧
      (applyStep S cause journaled s).oq = (rebaseQueue S s).oq ∧ (applyStep S cause journaled s).tu = s.tu ∧
      (applyStep S cause journaled s).js.table = s.js.table ∧ (applyStep S cause journaled s).cl = s.cl ∧
      (applyStep S cause journaled s).hw = s.hw := by
  rw [applyStep_eq]
  have frame := encoderStep_frame S cause journaled (stampsMoved S s)
  obtain ⟨icu, tb, oq, tu, js, cl, hw, -, -⟩ := stampsMoved_front S s
  exact ⟨frame.icu.trans icu, frame.tb.trans tb, frame.oq.trans oq, frame.tu.trans tu, by rw [frame.table, js],
    frame.cl.trans cl, frame.hw.trans hw⟩

@[simp] theorem rebaseQueue_runOpen (S : Int) (s : State) : runOpen (rebaseQueue S s) = runOpen s := by
  unfold rebaseQueue
  split <;> rfl

theorem applyStep_runOpen (S : Int) (cause : StepCause) (journaled : Bool) (s : State) :
    runOpen (applyStep S cause journaled s) = runOpen s := by
  have oq := (applyStep_front S cause journaled s).2.2.1
  rw [show runOpen (applyStep S cause journaled s) = runOpen (rebaseQueue S s) by simp [runOpen, oq], rebaseQueue_runOpen]

/-! ### The opening and the close of a run -/

theorem beginRun_frame (s : State) : StoreFrame s (beginRun s) := by
  unfold beginRun
  exact (onJe_frame _ s).trans (emitSync_frame _ _ _ _)

/-- The front after the opening of a run (R52, R53, R85). -/
theorem openRun_front (s : State) :
    (openRun s).icu = s.icu.map (startNotice s.tb.counter) ∧ (openRun s).tb = s.tb ∧
      (openRun s).oq = { s.oq with horizon := horizonOf s, state := .running } ∧ (openRun s).tu = s.tu ∧
      (openRun s).js.table = s.js.table ∧ (openRun s).cl = s.cl ∧ (openRun s).hw = s.hw ∧ (openRun s).xl.phase = s.xl.phase := by
  have frame := beginRun_frame (s.onOq fun q => { q with horizon := horizonOf s })
  unfold openRun
  dsimp only
  generalize beginRun (s.onOq fun q => { q with horizon := horizonOf s }) = t at *
  refine ⟨?_, frame.tb, ?_, frame.tu, frame.table, frame.cl, frame.hw, frame.phase⟩
  · show t.icu.map _ = _
    rw [frame.icu]; rfl
  · show { t.oq with state := .running } = _
    rw [frame.oq]; rfl

theorem endRun_front (s : State) :
    (endRun s).icu = s.icu ∧ (endRun s).tb = s.tb ∧ (endRun s).oq = { s.oq with state := .stopped } ∧
      (endRun s).tu = s.tu ∧ (endRun s).js.table = s.js.table ∧ (endRun s).cl = s.cl ∧ (endRun s).hw = s.hw := by
  have frame := (closingLoss_frame s).trans
    (emitExempt_frame (endPacket (closingLoss s).je.stopReason (closingLoss s).oq.stopStamp) _)
  unfold endRun
  dsimp only
  refine ⟨frame.icu, frame.tb, ?_, frame.tu, frame.table, frame.cl, frame.hw⟩
  show { (emitExempt _ _).oq with state := CaptureState.stopped } = _
  rw [frame.oq]

/-- The state of a closing run whose entries have been released and whose hold has been closed (R58, R119). -/
def runReleased (s : State) : State :=
  let u := releaseAll s.oq.queue s
  if u.tu.hold = .collecting then (emit (holdPacket .byStop) false u.je.runningTime (closeHold u)).2 else u

/-- The notices and the flag at the end of a closed run, and the completion of a STOP (R58, R86). -/
def runEnded (s : State) : State :=
  let w := setFlag flagStp ((s.onJe fun e => { e with stopReason := .hostStop }).onIcu fun c => c.map runEndNotice)
  if w.hw.inProgress = some .stop then complete .ok w else w

theorem closeDrain_eq_ended (s : State) : closeDrain s = runEnded (endRun (runReleased s)) := by
  obtain ⟨u, v, rfl, rfl, e⟩ := closeDrain_eq s
  exact e

theorem runReleased_front (s : State) : FrontKept s (runReleased s) := by
  have released := releaseAll_front s.oq.queue s
  unfold runReleased
  dsimp only
  split
  · exact (released.trans (closeHold_frame _).front).trans (emit_frame _ _ _ _).entryFrame.front
  · exact released

theorem runReleased_oq {s : State} (draining : s.oq.state = .draining) : (runReleased s).oq = { s.oq with queue := [] } := by
  have released := releaseAll_oq (by simp [draining]) s.oq.queue rfl
  unfold runReleased
  dsimp only
  split
  · rw [(emit_frame _ _ _ _).oq]; exact released
  · exact released

/-- The front after the close of a run (R58, R86). -/
theorem closeDrain_front {s : State} (draining : s.oq.state = .draining) :
    (closeDrain s).icu = s.icu.map runEndNotice ∧ (closeDrain s).tb = s.tb ∧
      (closeDrain s).oq = { s.oq with state := .stopped, queue := [] } ∧ (closeDrain s).tu.rules = s.tu.rules ∧
      (closeDrain s).js.table = s.js.table ∧ (closeDrain s).cl = s.cl := by
  have released := runReleased_front s
  have oq := runReleased_oq draining
  rw [closeDrain_eq_ended]
  generalize runReleased s = u at *
  obtain ⟨icu1, tb1, oq1, tu1, table1, cl1, -⟩ := endRun_front u
  generalize endRun u = v at *
  have ended : (runEnded v).icu = v.icu.map runEndNotice ∧ (runEnded v).tb = v.tb ∧ (runEnded v).oq = v.oq ∧
      (runEnded v).tu = v.tu ∧ (runEnded v).js = v.js ∧ (runEnded v).cl = v.cl := by
    unfold runEnded
    dsimp only
    split <;> exact ⟨rfl, rfl, rfl, rfl, rfl, rfl⟩
  obtain ⟨icu2, tb2, oq2, tu2, js2, cl2⟩ := ended
  rw [icu2, tb2, oq2, tu2, js2, cl2, icu1, tb1, oq1, tu1, table1, cl1, oq]
  exact ⟨by rw [released.icu], released.tb, rfl, released.rules, released.table, released.cl⟩

end Sys2Proof.Machine
end

section
/-! The time base as its operations leave it, its soundness under every step, and the legality of the tables. -/

namespace Sys2Proof.Machine

variable {c : Instr} {s t : State}

/-! ### What the time base's operations leave -/

/-- What no change of the time base's quality or table touches: channels, horizon, tables but the time table, loader and
host window; an open run stays open. -/
structure TimeKept (s t : State) : Prop where
  icu : t.icu = s.icu
  horizon : t.oq.horizon = s.oq.horizon
  rules : t.tu.rules = s.tu.rules
  table : t.js.table = s.js.table
  cl : t.cl = s.cl
  hw : t.hw = s.hw
  run : runOpen t = runOpen s

@[refl] theorem TimeKept.refl (s : State) : TimeKept s s := ⟨rfl, rfl, rfl, rfl, rfl, rfl, rfl⟩

theorem TimeKept.trans {s t u : State} (h : TimeKept s t) (g : TimeKept t u) : TimeKept s u :=
  ⟨g.icu.trans h.icu, g.horizon.trans h.horizon, g.rules.trans h.rules, g.table.trans h.table, g.cl.trans h.cl,
    g.hw.trans h.hw, g.run.trans h.run⟩

theorem FrontKept.timeKept (h : FrontKept s t) : TimeKept s t :=
  ⟨h.icu, h.horizon, h.rules, h.table, h.cl, h.hw, h.run⟩

theorem onTb_timeKept (f : TimeBase → TimeBase) (s : State) : TimeKept s (s.onTb f) := ⟨rfl, rfl, rfl, rfl, rfl, rfl, rfl⟩

/-- A conditional last change. -/
theorem TimeKept.then_ite {u : State} (h : TimeKept s t) {p : Prop} [Decidable p] (g : TimeKept t u) :
    TimeKept s (if p then u else t) := by
  split
  · exact h.trans g
  · exact h

theorem changeQuality_timeKept (new : Quality) (s : State) : TimeKept s (changeQuality new s) := by
  have flagged : TimeKept s (setFlag flagTqc <| s.onTb fun t => { t with quality := new }) :=
    ⟨rfl, rfl, rfl, rfl, rfl, rfl, rfl⟩
  unfold changeQuality
  exact flagged.then_ite (offerEntry_front _ _).timeKept

/-- A change of the time base and then of the quality. -/
theorem changeQuality_onTb_timeKept (new : Quality) (f : TimeBase → TimeBase) (s : State) :
    TimeKept s (changeQuality new (s.onTb f)) := (onTb_timeKept f s).trans (changeQuality_timeKept new _)

theorem enterHoldover_timeKept (s : State) : TimeKept s (enterHoldover s) := by
  unfold enterHoldover
  dsimp only
  split
  · exact (changeQuality_onTb_timeKept _ _ _).trans (changeQuality_onTb_timeKept _ _ _)
  · exact changeQuality_onTb_timeKept _ _ _

theorem takeTimeout_timeKept (s : State) : TimeKept s (takeTimeout s) := by
  unfold takeTimeout
  split
  · exact changeQuality_onTb_timeKept _ _ _
  · exact enterHoldover_timeKept s

theorem takeHoldoverExpiry_timeKept (s : State) : TimeKept s (takeHoldoverExpiry s) := by
  unfold takeHoldoverExpiry
  split
  · exact onTb_timeKept _ s
  · exact onTb_timeKept _ s
  · exact onTb_timeKept _ s
  · exact changeQuality_onTb_timeKept _ _ _

theorem writeTimeTable_timeKept (x : TimeTable) (s : State) : TimeKept s (writeTimeTable x s) := by
  unfold writeTimeTable
  refine TimeKept.then_ite (TimeKept.then_ite (TimeKept.then_ite (onTb_timeKept _ s) ?_) ?_) ?_
  · exact enterHoldover_timeKept _
  · exact takeTimeout_timeKept _
  · exact takeHoldoverExpiry_timeKept _

/-! ### The time base itself -/

/-- The time base in the HOLDOVER just entered, or in UNSYNCED where the holdover timer had expired (R99, R100). -/
def heldOver (b : TimeBase) : TimeBase :=
  match b.holdover with
  | .expired => { b with quality := .unsynced, reference := none, rejects := 0, holdover := .stopped }
  | _ => { b with quality := .holdover, reference := none, rejects := 0 }

theorem enterHoldover_tb (s : State) : (enterHoldover s).tb = heldOver s.tb := by
  unfold enterHoldover heldOver
  simp only [changeQuality_tb, State.onTb_tb]
  cases timer : s.tb.holdover <;> simp [timer]

/-- The time base without a reference and a holdover timer, UNSYNCED (R97, R100). -/
def unsynced (b : TimeBase) : TimeBase := { b with quality := .unsynced, reference := none, holdover := .stopped }

/-- The time base after a timeout (R97, R99). -/
def timedOut (b : TimeBase) : TimeBase :=
  if b.quality = .acquiring ∧ b.origin = .fromUnsynced then unsynced b else heldOver b

theorem takeTimeout_tb (s : State) : (takeTimeout s).tb = timedOut s.tb := by
  unfold takeTimeout timedOut
  split
  · simp [unsynced]
  · exact enterHoldover_tb s

/-- The time base after the holdover expiry (R97, R99, R100). -/
def holdoverExpired (b : TimeBase) : TimeBase :=
  match b.quality with
  | .unsynced => { b with holdover := .stopped }
  | .acquiring => { b with origin := .fromUnsynced, holdover := .stopped }
  | .locked => { b with holdover := .expired }
  | .holdover => unsynced b

theorem takeHoldoverExpiry_tb (s : State) : (takeHoldoverExpiry s).tb = holdoverExpired s.tb := by
  unfold takeHoldoverExpiry holdoverExpired
  split <;> simp [unsynced, *]

/-- The time base at the first pulse of an acquisition (R95, R98, R100). -/
def acquiringFrom (o : Origin) (b : TimeBase) : TimeBase :=
  { b with quality := .acquiring, reference := some b.counter, origin := o, rejects := 0 }

theorem beginAcquiring_tb (o : Origin) (s : State) : (beginAcquiring o s).tb = acquiringFrom o s.tb := by
  simp [beginAcquiring, acquiringFrom]

/-- The step of a pulse and an accepted pulse keep the quality (R96, R98, R103). -/
theorem applyPulseStep_quality (e : Int) (s : State) : (applyPulseStep e s).tb.quality = s.tb.quality := by
  unfold applyPulseStep
  dsimp only
  split
  · rfl
  · rw [(applyStep_front _ _ _ _).2.1]
    split <;> rfl

/-! ### Soundness of the time base -/

section
variable {b : TimeBase}

/-- Any change of the counters and the table leaves the time base sound. -/
theorem TimeBaseSound.congr {d : TimeBase} (h : TimeBaseSound b) (quality : d.quality = b.quality)
    (reference : d.reference.isSome = b.reference.isSome) (origin : d.origin = b.origin)
    (rejects : d.quality ≠ .locked → d.rejects = b.rejects) (holdover : d.holdover = b.holdover) : TimeBaseSound d := by
  have absent : d.reference = none ↔ b.reference = none := by
    rw [← Option.isNone_iff_eq_none, ← Option.isNone_iff_eq_none, ← Option.not_isSome, ← Option.not_isSome, reference]
  constructor
  case unsynced => rw [quality, absent, holdover]; exact h.unsynced
  case acquiring => rw [quality, reference, holdover, origin]; exact h.acquiring
  case locked => rw [quality, reference, holdover]; exact h.locked
  case holdover => rw [quality, absent, holdover]; exact h.holdover
  case rejects => exact fun q => (rejects q).trans (h.rejects (quality ▸ q))

theorem unsynced_sound (rejects : b.rejects = 0) : TimeBaseSound (unsynced b) :=
  ⟨fun _ => ⟨rfl, rfl⟩, (fun h => by cases h), (fun h => by cases h), (fun h => by cases h), fun _ => rejects⟩

/-- HOLDOVER is entered with the holdover timer running, or passed on (R99, R100). -/
theorem heldOver_sound (held : b.holdover ≠ .stopped) : TimeBaseSound (heldOver b) := by
  unfold heldOver
  split
  · exact unsynced_sound (b := { b with rejects := 0 }) rfl
  · rename_i alive
    refine ⟨(fun h => by cases h), (fun h => by cases h), (fun h => by cases h), fun _ => ⟨rfl, ?_⟩, fun _ => rfl⟩
    cases timer : b.holdover with
    | stopped => exact absurd timer held
    | running n => exact ⟨n, rfl⟩
    | expired => exact absurd timer alive

/-- In LOCKED, or in an acquisition begun there or in HOLDOVER, the holdover timer is not stopped (R91). -/
theorem TimeBaseSound.held (h : TimeBaseSound b)
    (state : b.quality = .locked ∨ (b.quality = .acquiring ∧ b.origin ≠ .fromUnsynced)) : b.holdover ≠ .stopped := by
  rcases state with q | ⟨q, o⟩
  · exact (h.locked q).2
  · exact fun stopped => o ((h.acquiring q).2.mp stopped)

theorem TimeBaseSound.timedOut (h : TimeBaseSound b) (state : b.quality = .acquiring ∨ b.quality = .locked) :
    TimeBaseSound (timedOut b) := by
  unfold Machine.timedOut
  split
  · rename_i begun
    exact unsynced_sound (h.rejects (by simp [begun.1]))
  · rename_i held
    refine heldOver_sound (h.held ?_)
    rcases state with q | q
    · exact .inr ⟨q, fun o => held ⟨q, o⟩⟩
    · exact .inl q

theorem TimeBaseSound.holdoverExpired (h : TimeBaseSound b) : TimeBaseSound (holdoverExpired b) := by
  unfold Machine.holdoverExpired
  split
  case h_1 q =>
    exact ⟨fun _ => ⟨(h.unsynced q).1, rfl⟩, by simp [q], by simp [q], by simp [q], fun _ => h.rejects (by simp [q])⟩
  case h_2 q =>
    exact ⟨by simp [q], fun _ => ⟨(h.acquiring q).1, by simp⟩, by simp [q], by simp [q],
      fun _ => h.rejects (by simp [q])⟩
  case h_3 q => exact ⟨by simp [q], by simp [q], fun _ => ⟨(h.locked q).1, by simp⟩, by simp [q], fun n => absurd q n⟩
  case h_4 q => exact unsynced_sound (h.rejects (by simp [q]))

/-- An acquisition begins with its origin as the holdover timer says (R95, R98, R100). -/
theorem acquiringFrom_sound {o : Origin} (origin : b.holdover = .stopped ↔ o = .fromUnsynced) :
    TimeBaseSound (acquiringFrom o b) :=
  ⟨(fun h => by cases h), fun _ => ⟨rfl, origin⟩, (fun h => by cases h), (fun h => by cases h), fun _ => rfl⟩

/-- The time base with its reference set and the holdover timer from zero, LOCKED (R96, R98, R100). -/
theorem locked_sound (locked : b.quality = .locked) (reference : b.reference.isSome) (timer : b.holdover = .running 0) :
    TimeBaseSound b :=
  ⟨by simp [locked], by simp [locked], fun _ => ⟨reference, by simp [timer]⟩, by simp [locked], fun n => absurd locked n⟩

end

theorem enterHoldover_sound (h : TimeBaseSound s.tb) (locked : s.tb.quality = .locked) :
    TimeBaseSound (enterHoldover s).tb := by
  rw [enterHoldover_tb]
  exact heldOver_sound (h.held (.inl locked))

theorem takeTimeout_sound (h : TimeBaseSound s.tb) (due : timeoutDue s = true) : TimeBaseSound (takeTimeout s).tb := by
  rw [takeTimeout_tb]
  refine h.timedOut ?_
  unfold timeoutDue at due
  split at due
  · cases due
  · simp_all

theorem takeHoldoverExpiry_sound (h : TimeBaseSound s.tb) : TimeBaseSound (takeHoldoverExpiry s).tb := by
  rw [takeHoldoverExpiry_tb]
  exact h.holdoverExpired

theorem writeTimeTable_sound (h : TimeBaseSound s.tb) (x : TimeTable) : TimeBaseSound (writeTimeTable x s).tb := by
  have written : TimeBaseSound (s.onTb fun t => { t with table := x }).tb := h.congr rfl rfl rfl (fun _ => rfl) rfl
  unfold writeTimeTable
  dsimp only
  have then_ite {p : Prop} [Decidable p] {u v : State} (hu : TimeBaseSound u.tb) (hv : p → TimeBaseSound v.tb) :
      TimeBaseSound (if p then v else u).tb := by
    split
    · exact hv ‹_›
    · exact hu
  have entered : TimeBaseSound (if s.tb.table.ppsEnable && !x.ppsEnable &&
      (s.onTb fun t => { t with table := x }).tb.quality == .locked then
        enterHoldover (s.onTb fun t => { t with table := x }) else s.onTb fun t => { t with table := x }).tb :=
    then_ite written fun p => enterHoldover_sound written (by simp_all)
  generalize (if s.tb.table.ppsEnable && !x.ppsEnable &&
      (s.onTb fun t => { t with table := x }).tb.quality == .locked then
        enterHoldover (s.onTb fun t => { t with table := x }) else s.onTb fun t => { t with table := x }) = u at *
  have timed : TimeBaseSound (if s.tb.table.lockWindow != x.lockWindow && timeoutDue u then takeTimeout u else u).tb :=
    then_ite entered fun p => takeTimeout_sound entered (Bool.and_eq_true_iff.mp p).2
  generalize (if s.tb.table.lockWindow != x.lockWindow && timeoutDue u then takeTimeout u else u) = v at *
  exact then_ite timed fun _ => takeHoldoverExpiry_sound timed

theorem acceptPulse_sound (locked : s.tb.quality = .locked) (e : Int) : TimeBaseSound (acceptPulse e s).tb :=
  locked_sound (by rw [← locked, ← applyPulseStep_quality e s]; rfl) rfl rfl

theorem lockOnPulse_sound (e : Int) (s : State) : TimeBaseSound (lockOnPulse e s).tb :=
  acceptPulse_sound (by rw [changeQuality_tb]) e

theorem takePulse_sound (h : TimeBaseSound s.tb) : TimeBaseSound (takePulse s).tb := by
  have held (q : s.tb.quality = .locked ∨ s.tb.quality = .holdover) : s.tb.holdover ≠ .stopped := by
    rcases q with q | q
    · exact (h.locked q).2
    · obtain ⟨-, n, running⟩ := h.holdover q
      simp [running]
  have begins {o : Origin} (origin : s.tb.holdover = .stopped ↔ o = .fromUnsynced) :
      TimeBaseSound (beginAcquiring o s).tb := by
    rw [beginAcquiring_tb]
    exact acquiringFrom_sound origin
  unfold takePulse
  dsimp only
  split
  case h_1 q => exact begins (by simp [h.unsynced q])
  case h_2 q =>
    split
    · exact lockOnPulse_sound _ s
    · exact h.congr rfl (by simp [(h.acquiring q).1]) rfl (fun _ => rfl) rfl
  case h_3 q =>
    split
    · exact acceptPulse_sound q _
    · split
      · exact h.congr rfl rfl rfl (fun n => absurd q n) rfl
      · exact begins (by simp [held (.inl q)])
  case h_4 q =>
    split
    · exact lockOnPulse_sound _ s
    · exact begins (by simp [held (.inr q)])

theorem stepToTime_sound (h : TimeBaseSound s.tb) (new : Time) : TimeBaseSound (stepToTime new s).tb := by
  unfold stepToTime
  split
  · exact h
  · rw [(applyStep_front _ _ _ _).2.1]
    exact h.congr rfl (by simp [stepTimeBase]) rfl (fun _ => rfl) rfl

theorem applyEntry_tbSound (h : TimeBaseSound s.tb) (e : TableEntry) : TimeBaseSound (applyEntry e s).tb := by
  cases e
  case time x => exact writeTimeTable_sound h x
  all_goals exact h

theorem applyRecords_tbSound (is : List Nat) (h : TimeBaseSound s.tb) : TimeBaseSound (applyRecords is s).tb := by
  induction is generalizing s with
  | nil => exact h
  | cons i is ih =>
    refine ih ?_
    split
    · exact h
    · exact applyEntry_tbSound h _

/-- A turn of a command that does not move the time base leaves it. -/
theorem Turn.tb (steps : stepsTime c = false) (times : movesTime c = false) (m : Turn c s t) : t.tb = s.tb := by
  have never {p : Prop} (w : writesTables c = true) : p := by rw [movesTime_of_writes w] at times; cases times
  cases m
  case still h => exact h.tb
  case calm h => exact h.tb
  case channel => exact (offerEntries_front _ _).tb
  case offer => exact offerEntry_tb _ s
  case time moved _ => rw [moved] at times; cases times
  case step stepped _ => rw [stepped] at steps; cases steps
  case release => exact (releaseHead_front s).tb
  case close draining => exact (closeDrain_front draining).2.1
  case openRun => exact (openRun_front s).2.1
  case drain => rfl
  case load => rfl
  case shut => rfl
  case setup w _ _ => exact never w
  case rules w _ => exact never w
  case timeTable w _ => exact never w
  case journalTable w _ _ => exact never w

theorem request_tbSound {body : State → State} (h : TimeBaseSound s.tb) (g : TimeBaseSound (body s).tb) :
    TimeBaseSound (request body s).tb := by
  unfold request
  split_ifs
  · exact h
  · exact h
  · exact g

/-- Every command keeps the time base sound (section 5.4). -/
theorem act_tbSound (c : Instr) (h : TimeBaseSound s.tb) : TimeBaseSound (act c s).tb := by
  rw [← act_rowOf]
  have own := rowOf_ownOperands c
  generalize rowOf c = d at own
  have reset (u : State) (hu : TimeBaseSound u.tb) : TimeBaseSound (resetTables u).tb :=
    writeTimeTable_sound (s := ((u.onIcu _).onTu _).onJs _) hu _
  cases moves : stepsTime d || movesTime d
  case false =>
    by_cases resets : ∃ b, d = .deviceReset b
    · obtain ⟨b, rfl⟩ := resets
      exact ⟨fun _ => ⟨rfl, rfl⟩, (fun h => by cases h), (fun h => by cases h), (fun h => by cases h), fun _ => rfl⟩
    · have same : (act d s).tb = s.tb :=
        (act_turns own (fun b e => resets ⟨b, e⟩) s).keep (P := fun t => t.tb = s.tb)
          (fun m e => (m.tb (Bool.or_eq_false_iff.mp moves).1 (Bool.or_eq_false_iff.mp moves).2).trans e) rfl
      rw [same]
      exact h
  case true =>
    cases d <;> first | (cases moves; done) | skip
    case pulse edge =>
      show TimeBaseSound (if _ then _ else _ : State).tb
      split
      · exact takePulse_sound h
      · exact h
    case timeout =>
      show TimeBaseSound (if _ then _ else _ : State).tb
      split
      · exact takeTimeout_sound h ‹_›
      · exact h
    case holdoverExpiry =>
      show TimeBaseSound (if _ then _ else _ : State).tb
      split
      · exact takeHoldoverExpiry_sound h
      · exact h
    case setTime =>
      refine request_tbSound h ?_
      unfold commandSetTime
      split
      · exact stepToTime_sound h _
      · exact h
    case writeEntry =>
      refine request_tbSound h ?_
      unfold commandWriteEntry
      split
      · exact h
      · split
        · exact h
        · split
          · exact h
          · exact applyEntry_tbSound h _
    case reload =>
      refine request_tbSound h ?_
      unfold commandReload
      split
      · exact reset (clearJournal s) (by simpa [clearJournal] using h)
      · exact h
    case reloadClearingDone =>
      show TimeBaseSound (if reloadClearing s then beginReading (resetTables s) else s).tb
      split
      · exact reset s h
      · exact h
    case applyingDone =>
      show TimeBaseSound (if s.cl.state = .applying then finishLoad s else s).tb
      split
      · have applied : (recordsApplied s).tb = (applyRecords (List.range s.cl.staged) s).tb := by
          unfold recordsApplied
          dsimp only
          split_ifs <;> simp [attachHostOp, attachExportOp]
        have sound : TimeBaseSound (recordsApplied s).tb := applied ▸ applyRecords_tbSound _ h
        rw [finishLoad_eq]
        dsimp only
        split
        · exact sound
        · unfold completeReload
          split <;> exact sound
      · exact h

/-! ### The legality of the tables -/

/-- What leaves the tables leaves them legal. -/
theorem TablesLegal.congr (h : TablesLegal s) (icu : ∀ ch : Channel, t.icu[ch].desc = s.icu[ch].desc)
    (rules : t.tu.rules = s.tu.rules) (time : t.tb.table = s.tb.table) (journal : t.js.table = s.js.table) :
    TablesLegal t where
  channels := fun ch => by rw [icu]; exact h.channels ch
  triggers := fun i => by rw [rules]; exact h.triggers i
  window := by rw [time]; exact h.window
  limit := by rw [time]; exact h.limit
  interval := by rw [journal]; exact h.interval
  room := by rw [journal]; exact h.room
  p := by rw [journal]; exact h.p
  q := by rw [journal]; exact h.q

theorem FrontKept.legal (h : TablesLegal s) (k : FrontKept s t) : TablesLegal t :=
  h.congr (fun _ => by rw [k.icu]) k.rules (by rw [k.tb]) k.table

theorem Calm.legal (k : Calm s t) (h : TablesLegal s) : TablesLegal t :=
  h.congr (fun _ => by rw [k.icu]) k.rules (by rw [k.tb]) k.table

/-- Each notice to the channels leaves their descriptors. -/
theorem descs_map {f : ChannelRec → ChannelRec} (h : ∀ c, (f c).desc = c.desc) {v w : Vector ChannelRec 24}
    (map : w = v.map f) (ch : Channel) : w[ch].desc = v[ch].desc := by
  subst map
  simp [h]

theorem rebaseChannel_desc (S : Int) (c : ChannelRec) : (rebaseChannel S c).desc = c.desc := by
  unfold rebaseChannel
  split <;> rfl

theorem startNotice_desc (start : Time) (c : ChannelRec) : (startNotice start c).desc = c.desc := by
  unfold startNotice
  dsimp only
  split_ifs <;> rfl

theorem runEndNotice_desc (c : ChannelRec) : (runEndNotice c).desc = c.desc := rfl

/-- Every turn leaves every descriptor or writes legal ones, and so for the other tables. -/
theorem Turn.legal (m : Turn c s t) (h : TablesLegal s) : TablesLegal t := by
  cases m
  case still k => exact k.toCalm.legal h
  case calm k => exact k.legal h
  case channel ch d es turn _ =>
    refine (TablesLegal.congr h ?_ rfl rfl rfl : TablesLegal (setChannel ch d s)) |> (offerEntries_front es _).legal
    exact setChannel_forall (P := fun k e => e.desc = s.icu[k].desc) turn.desc fun _ => rfl
  case offer e _ => exact (offerEntry_front e s).legal h
  case time f _ turn => exact h.congr (fun _ => rfl) rfl turn.table rfl
  case step S cause journaled _ _ =>
    obtain ⟨icu, tb, -, tu, table, -, -⟩ := applyStep_front S cause journaled s
    exact h.congr (descs_map (rebaseChannel_desc S) icu) (by rw [tu]) (by rw [tb]; rfl) table
  case release => exact (releaseHead_front s).legal h
  case close draining =>
    obtain ⟨icu, tb, -, rules, table, -⟩ := closeDrain_front draining
    exact h.congr (descs_map runEndNotice_desc icu) rules (by rw [tb]) table
  case openRun =>
    obtain ⟨icu, tb, -, tu, table, -, -, -⟩ := openRun_front s
    exact h.congr (descs_map (startNotice_desc _) icu) (by rw [tu]) (by rw [tb]) table
  case drain => exact h.congr (fun _ => rfl) rfl rfl rfl
  case load => exact h.congr (fun _ => rfl) rfl rfl rfl
  case shut => exact h.congr (fun _ => rfl) rfl rfl rfl
  case setup v _ _ set =>
    refine ⟨fun ch => ?_, h.triggers, h.window, h.limit, h.interval, h.room, h.p, h.q⟩
    rcases set ch with same | ⟨d, legal, written⟩
    · simpa only [State.onIcu_icu, same] using h.channels ch
    · simp only [State.onIcu_icu, written]
      exact legal
  case rules v _ set =>
    refine ⟨h.channels, fun i => ?_, h.window, h.limit, h.interval, h.room, h.p, h.q⟩
    rcases set i with same | legal
    · show v[i].value &&& ~~~v[i].mask = 0#24
      rw [same]
      exact h.triggers i
    · exact legal
  case timeTable legal => exact ⟨h.channels, h.triggers, legal.1, legal.2, h.interval, h.room, h.p, h.q⟩
  case journalTable legal =>
    obtain ⟨interval, room, p, q⟩ := legal
    exact ⟨h.channels, h.triggers, h.window, h.limit, interval, room, p, q⟩

theorem deviceReset_legal (b : Bool) (s : State) : TablesLegal (deviceReset b s) where
  channels := fun ch => by
    have reset : (deviceReset b s).icu[ch].desc = ChanDesc.reset := by simp [deviceReset, ChannelRec.reset]
    rw [reset]
    exact ChanDesc.reset_legal ch
  triggers := fun i => by
    have reset : (deviceReset b s).tu.rules[i] = TriggerRule.reset := by simp [deviceReset, TriggerUnit.reset]
    rw [reset]
    exact TriggerRule.reset_legal i
  window := TimeTable.reset_legal.1
  limit := TimeTable.reset_legal.2
  interval := JournalTable.reset_legal.1
  room := JournalTable.reset_legal.2.1
  p := JournalTable.reset_legal.2.2.1
  q := JournalTable.reset_legal.2.2.2

theorem act_legal (c : Instr) (h : TablesLegal s) : TablesLegal (act c s) :=
  act_turned (P := TablesLegal) Turn.legal deviceReset_legal c h

/-! ### A microsecond -/

theorem tick_tbSound (h : TimeBaseSound s.tb) : TimeBaseSound (tick s).tb := by
  have stopped : tickHoldover s.tb.holdover = .stopped ↔ s.tb.holdover = .stopped := by
    cases s.tb.holdover <;> simp [tickHoldover]
  refine ⟨fun q => ⟨(h.unsynced q).1, stopped.mpr (h.unsynced q).2⟩,
    fun q => ⟨(h.acquiring q).1, stopped.trans (h.acquiring q).2⟩,
    fun q => ⟨(h.locked q).1, fun e => (h.locked q).2 (stopped.mp e)⟩, fun q => ?_, h.rejects⟩
  obtain ⟨absent, n, running⟩ := h.holdover q
  exact ⟨absent, n + 1, by simp [tick, running, tickHoldover]⟩

theorem tick_legal (h : TablesLegal s) : TablesLegal (tick s) :=
  h.congr (fun ch => by simp [tick, tickChannel]) rfl rfl rfl

/-- Settles O8: each operation of the time base keeps it sound and the others leave it; the tables take legal entries
only. -/
theorem stepKeepsTimeBaseAndTables : Obligations.StepKeepsTimeBaseAndTables := by
  intro s t h
  refine ⟨fun sound => ?_, fun legal => ?_⟩
  · exact step_keeps (P := fun s => TimeBaseSound s.tb) (fun _ _ _ h => h) (fun c _ h => act_tbSound c h)
      (fun _ _ h => tick_tbSound h) h sound
  · exact step_keeps (P := TablesLegal) (fun _ _ _ h => ⟨h.channels, h.triggers, h.window, h.limit, h.interval, h.room,
      h.p, h.q⟩) (fun c _ h => act_legal c h) (fun _ _ h => tick_legal h) h legal

end Sys2Proof.Machine
end

section
/-! The channels' soundness under every step, and the tables that stand fixed while a run is open. -/

namespace Sys2Proof.Machine

variable {c : Instr} {s t : State}

/-! ### Notices to the channels -/

/-- A channel set up from a descriptor is sound (R73). -/
theorem setupChannel_sound (run : Bool) (d : ChanDesc) (c : ChannelRec) : ChannelSound run (setupChannel d c) := by
  cases enabled : d.enable <;> constructor <;> simp [setupChannel, lineLevel, enabled]

/-- The START notice leaves a sound channel sound in the run that opens (R85). -/
theorem startNotice_sound {c : ChannelRec} (h : ChannelSound false c) (start : Time) :
    ChannelSound true (startNotice start c) := by
  obtain ⟨quiet, window⟩ := h.unsuppressed rfl
  let raised : ChannelRec :=
    if c.state = .settling then { c with stamp := c.stamp.map fun t => if isBefore t start then start else t } else c
  have raised_sound : ChannelSound true raised := by
    show ChannelSound true (if _ then _ else _)
    split
    · exact ⟨h.off, h.offLevel, by simpa using h.stamped, h.settles, h.quiets, h.atRest, h.moving, h.windowed, h.counted,
        fun r => (by cases r)⟩
    · exact ⟨h.off, h.offLevel, h.stamped, h.settles, h.quiets, h.atRest, h.moving, h.windowed, h.counted,
        fun r => (by cases r)⟩
  have same : raised.quiet = none := by
    show (if _ then _ else _ : ChannelRec).quiet = none
    split <;> exact quiet
  show ChannelSound true (if c.desc.enable then { raised with chatterCount := 0, window := none, quiet := none } else raised)
  split
  · exact ⟨raised_sound.off, raised_sound.offLevel, raised_sound.stamped, raised_sound.settles,
      by rw [← raised_sound.quiets, same], raised_sound.atRest, raised_sound.moving, rfl, .inl rfl, fun r => (by cases r)⟩
  · exact raised_sound

/-- The run-end notice lifts every suppression: what rests stays at rest, what settles settles on (R86). -/
theorem runEndNotice_state (c : ChannelRec) :
    ((runEndNotice c).state = .off ↔ c.state = .off) ∧
      ((runEndNotice c).state = .stable ↔ c.state = .stable ∨ c.state = .suppressed) ∧
      ((runEndNotice c).state = .settling ↔ c.state = .settling ∨ c.state = .suppressedSettling) ∧
      (runEndNotice c).state ≠ .suppressed ∧ (runEndNotice c).state ≠ .suppressedSettling := by
  cases state : c.state <;> simp [runEndNotice, state]

theorem runEndNotice_sound {run : Bool} {c : ChannelRec} (h : ChannelSound run c) : ChannelSound false (runEndNotice c) := by
  obtain ⟨off, stable, settling, noSuppressed, noSettling⟩ := runEndNotice_state c
  have settles : ((runEndNotice c).state == .settling || (runEndNotice c).state == .suppressedSettling) =
      (c.state == .settling || c.state == .suppressedSettling) := by
    rw [Bool.eq_iff_iff]
    simp [settling, noSettling]
  refine ⟨off.trans h.off, fun o => h.offLevel (off.mp o), by rw [settles]; exact h.stamped,
    by rw [settles]; exact h.settles, ?_, fun rest => ?_, fun moves => ?_, rfl, .inl rfl, fun _ => ⟨rfl, rfl⟩⟩
  · rw [beq_eq_false_iff_ne.mpr noSuppressed, beq_eq_false_iff_ne.mpr noSettling]
    rfl
  · exact h.atRest (stable.mp (rest.resolve_right noSuppressed))
  · exact h.moving (settling.mp (moves.resolve_right noSettling))

/-- A step moves a first-edge stamp and leaves the channel sound (R88). -/
theorem rebaseChannel_sound {run : Bool} {c : ChannelRec} (h : ChannelSound run c) (S : Int) :
    ChannelSound run (rebaseChannel S c) := by
  unfold rebaseChannel
  split
  · exact ⟨h.off, h.offLevel, by simpa using h.stamped, h.settles, h.quiets, h.atRest, h.moving, h.windowed, h.counted,
      h.unsuppressed⟩
  · exact h

/-- The notices reach every channel. -/
theorem channelsSound_map {run : Bool} {f : ChannelRec → ChannelRec} (h : ChannelsSound s)
    (each : ∀ {c}, ChannelSound (runOpen s) c → ChannelSound run (f c)) (icu : t.icu = s.icu.map f)
    (state : runOpen t = run) : ChannelsSound t := by
  intro ch
  rw [state, icu]
  simpa using each (h ch)

theorem ChannelsSound.congr (h : ChannelsSound s) (icu : t.icu = s.icu) (run : runOpen t = runOpen s) :
    ChannelsSound t := by
  intro ch
  rw [run, icu]
  exact h ch

/-! ### Turns -/

/-- The loader leaves IDLE in LOADING only (R49, R179). -/
def LoaderLoading (s : State) : Prop := s.cl.state ≠ .idle → s.oq.state = .loading

theorem FrontKept.loaderLoading (k : FrontKept s t) (h : LoaderLoading s) : LoaderLoading t := by
  intro busy
  have loading := h (k.cl ▸ busy)
  rcases k.state with e | ⟨running, -⟩
  · exact e.trans loading
  · rw [running] at loading; cases loading

/-- Where the loader is IDLE but in LOADING, unlocked tables mean that no run is open. -/
theorem closed_of_unlocked (h : LoaderLoading s) (unlocked : Unlocked s) : runOpen s = false :=
  unlocked.elim id fun busy => closed_of_loading (h busy)

theorem Calm.loaderLoading (k : Calm s t) (h : LoaderLoading s) : LoaderLoading t := by
  intro busy
  rw [k.oq]
  exact (k.loader busy).elim h id

theorem Calm.run (k : Calm s t) : runOpen t = runOpen s := by simp [runOpen, k.oq]

theorem Turn.loaderLoading (m : Turn c s t) (h : LoaderLoading s) : LoaderLoading t := by
  cases m
  case still k => exact k.toCalm.loaderLoading h
  case calm k => exact k.loaderLoading h
  case channel => exact (offerEntries_front _ _).loaderLoading h
  case offer => exact (offerEntry_front _ s).loaderLoading h
  case step S cause journaled _ _ =>
    obtain ⟨-, -, oq, -, -, cl, -⟩ := applyStep_front S cause journaled s
    intro busy
    rw [cl] at busy
    have loading := h busy
    rw [oq, rebaseQueue, if_neg (by simp [runOpen, loading])]
    exact loading
  case release => exact (releaseHead_front s).loaderLoading h
  case close draining =>
    intro busy
    rw [(closeDrain_front draining).2.2.2.2.2] at busy
    rw [h busy] at draining; cases draining
  case openRun stopped =>
    intro busy
    rw [(openRun_front s).2.2.2.2.2.1] at busy
    rw [h busy] at stopped; cases stopped
  case drain running =>
    intro busy
    rw [h busy] at running; cases running
  case load => exact fun _ => rfl
  case shut idle => exact fun busy => absurd idle busy
  all_goals exact h

/-- Every turn of a part whose loader leaves IDLE in LOADING only keeps the channels sound. -/
theorem Turn.channelsSound (m : Turn c s t) (loader : LoaderLoading s) (h : ChannelsSound s) : ChannelsSound t := by
  cases m
  case still k => exact h.congr k.icu k.run
  case calm k => exact h.congr k.icu k.run
  case channel ch d es turn _ =>
    have set : ChannelsSound (setChannel ch d s) :=
      setChannel_forall (P := fun _ => ChannelSound (runOpen s)) (turn.sound (h ch)) h
    have front := offerEntries_front es (setChannel ch d s)
    exact set.congr front.icu front.run
  case offer e _ => exact h.congr (offerEntry_front e s).icu (offerEntry_front e s).run
  case step S cause journaled _ _ =>
    exact channelsSound_map h (fun g => rebaseChannel_sound g S) (applyStep_front S cause journaled s).1
      (applyStep_runOpen S cause journaled s)
  case release => exact h.congr (releaseHead_front s).icu (releaseHead_front s).run
  case close draining =>
    obtain ⟨icu, -, oq, -⟩ := closeDrain_front draining
    exact channelsSound_map h runEndNotice_sound icu (closed_of_stopped (by rw [oq]))
  case openRun stopped =>
    obtain ⟨icu, -, oq, -⟩ := openRun_front s
    refine channelsSound_map h (fun g => startNotice_sound ?_ _) icu (by simp [runOpen, oq])
    rw [closed_of_stopped stopped] at g
    exact g
  case drain running => exact h.congr rfl (by simp [runOpen, running])
  case load stopped => exact h.congr rfl ((closed_of_loading rfl).trans (closed_of_stopped stopped).symm)
  case shut loading _ => exact h.congr rfl ((closed_of_stopped rfl).trans (closed_of_loading (loader loading)).symm)
  case setup v _ unlocked set =>
    have closed := closed_of_unlocked loader unlocked
    intro ch
    show ChannelSound (runOpen s) v[ch]
    rcases set ch with same | ⟨d, -, written⟩
    · rw [same]; exact h ch
    · rw [written]; exact setupChannel_sound _ d _
  all_goals exact h

theorem deviceReset_loaderLoading (b : Bool) (s : State) : LoaderLoading (deviceReset b s) := by
  cases b <;> simp [LoaderLoading, deviceReset, Loader.reset, Capture.reset]

theorem deviceReset_channelsSound (b : Bool) (s : State) : ChannelsSound (deviceReset b s) := by
  intro ch
  have reset : (deviceReset b s).icu[ch] = setupChannel ChanDesc.reset s.icu[ch] := by
    simp [deviceReset, ChannelRec.reset, setupChannel, ChanDesc.reset]
  rw [reset]
  exact setupChannel_sound _ _ _

/-- A microsecond leaves every channel sound: its timers run on (R76). -/
theorem tickChannel_sound {run : Bool} {c : ChannelRec} (h : ChannelSound run c) : ChannelSound run (tickChannel c) :=
  ⟨h.off, h.offLevel, h.stamped, by simpa [tickChannel, tickTimer] using h.settles,
    by simpa [tickChannel, tickTimer] using h.quiets, h.atRest, h.moving,
    by simp only [tickChannel, tickTimer, Option.isSome_map]; exact h.windowed, h.counted,
    fun r => by simpa [tickChannel, tickTimer] using h.unsuppressed r⟩

/-- Settles O7: every turn keeps the channels sound in a part whose loader leaves IDLE in LOADING only; a microsecond runs
their timers on. -/
theorem stepKeepsChannelsSound : Obligations.StepKeepsChannelsSound := by
  intro s t hs hc h
  refine step_keeps_sound (P := ChannelsSound) (fun _ _ _ h => h) (fun c s hs hc => ?_) (fun s hc => ?_) h hs hc
  · refine (act_turned (P := fun t => LoaderLoading t ∧ ChannelsSound t) (fun m h => ?_) (fun b s => ?_) c
      ⟨hs.loaderLoading, hc⟩).2
    · exact ⟨m.loaderLoading h.1, m.channelsSound h.1 h.2⟩
    · exact ⟨deviceReset_loaderLoading b s, deviceReset_channelsSound b s⟩
  · exact channelsSound_map hc tickChannel_sound rfl rfl

/-! ### The tables while a run is open -/

/-- The channel table and the journal table of `t` are those of `s`. -/
structure TablesKept (s t : State) : Prop where
  descs : ∀ ch : Channel, t.icu[ch].desc = s.icu[ch].desc
  journal : t.js.table = s.js.table

theorem TablesKept.trans {u : State} (h : TablesKept s t) (g : TablesKept t u) : TablesKept s u :=
  ⟨fun ch => (g.descs ch).trans (h.descs ch), g.journal.trans h.journal⟩

theorem FrontKept.tables (k : FrontKept s t) : TablesKept s t := ⟨fun _ => by rw [k.icu], k.table⟩

/-- A turn of a command that writes no table leaves the tables (R39, R72). -/
theorem Turn.tablesKept (writes : writesTables c = false) (m : Turn c s t) : TablesKept s t := by
  have never {p : Prop} (w : writesTables c = true) : p := by rw [w] at writes; cases writes
  cases m
  case still k => exact ⟨fun _ => by rw [k.icu], k.table⟩
  case calm k => exact ⟨fun _ => by rw [k.icu], k.table⟩
  case channel ch d es turn _ =>
    have set : TablesKept s (setChannel ch d s) :=
      ⟨setChannel_forall (P := fun k e => e.desc = s.icu[k].desc) turn.desc fun _ => rfl, rfl⟩
    exact set.trans (offerEntries_front es _).tables
  case offer e _ => exact (offerEntry_front e s).tables
  case time => exact ⟨fun _ => rfl, rfl⟩
  case step S cause journaled _ _ =>
    obtain ⟨icu, -, -, -, table, -⟩ := applyStep_front S cause journaled s
    exact ⟨descs_map (rebaseChannel_desc S) icu, table⟩
  case release => exact (releaseHead_front s).tables
  case close draining =>
    obtain ⟨icu, -, -, -, table, -⟩ := closeDrain_front draining
    exact ⟨descs_map runEndNotice_desc icu, table⟩
  case openRun =>
    obtain ⟨icu, -, -, -, table, -⟩ := openRun_front s
    exact ⟨descs_map (startNotice_desc _) icu, table⟩
  case drain => exact ⟨fun _ => rfl, rfl⟩
  case load => exact ⟨fun _ => rfl, rfl⟩
  case shut => exact ⟨fun _ => rfl, rfl⟩
  case setup w _ _ => exact never w
  case rules w _ => exact never w
  case timeTable w _ => exact never w
  case journalTable w _ _ => exact never w

/-- While a run is open the two tables are locked (R39, R72). -/
theorem commandWriteEntry_tablesKept (run : runOpen s = true) : TablesKept s (commandWriteEntry s) := by
  have moving : s.oq.state ≠ .stopped := fun stopped => by rw [closed_of_stopped stopped] at run; cases run
  unfold commandWriteEntry
  split
  · exact ⟨fun _ => rfl, rfl⟩
  · rename_i slot _
    split
    · exact ⟨fun _ => rfl, rfl⟩
    · rename_i free
      split
      · exact ⟨fun _ => rfl, rfl⟩
      · rename_i e decoded
        cases slot <;> obtain ⟨x, -, rfl⟩ := Option.map_eq_some_iff.mp decoded
        case channel => simp [tableLocked, moving] at free
        case trigger => exact ⟨fun _ => rfl, rfl⟩
        case time =>
          have kept := writeTimeTable_timeKept x s
          exact ⟨fun ch => congrArg (fun v : Vector ChannelRec 24 => v[ch].desc) kept.icu, kept.table⟩
        case journal => simp [tableLocked, moving] at free

/-- Settles O14: a command either writes no table, or is WRITE ENTRY, which the open run locks, or needs a load. -/
theorem tablesFixedDuringRun : Obligations.TablesFixedDuringRun := by
  intro c s t run idle reset h
  rw [eq_act_of_exec h, ← act_rowOf]
  have own := rowOf_ownOperands c
  have reset' : ∀ b, rowOf c ≠ .deviceReset b := rowOf_ne_deviceReset reset
  generalize rowOf c = d at own reset'
  suffices kept : TablesKept s (act d s) from ⟨kept.descs, kept.journal⟩
  cases writes : writesTables d
  case false =>
    exact (act_turns own reset' s).keep (P := TablesKept s) (fun m k => k.trans (m.tablesKept writes))
      ⟨fun _ => rfl, rfl⟩
  case true =>
    have taken {body : State → State} (h : TablesKept s (body s)) : TablesKept s (request body s) := by
      unfold request
      split_ifs
      · exact ⟨fun _ => rfl, rfl⟩
      · exact ⟨fun _ => rfl, rfl⟩
      · exact h
    cases d <;> first | (cases writes; done) | skip
    case writeEntry => exact taken (commandWriteEntry_tablesKept run)
    case reload =>
      refine taken ?_
      rw [commandReload, if_neg fun stopped => by rw [closed_of_stopped stopped] at run; cases run]
      exact ⟨fun _ => rfl, rfl⟩
    case reloadClearingDone =>
      show TablesKept s (if reloadClearing s then beginReading (resetTables s) else s)
      rw [if_neg fun clearing => ?_]
      · exact ⟨fun _ => rfl, rfl⟩
      · have loading : s.oq.state = .loading := by simp_all [reloadClearing]
        rw [closed_of_loading loading] at run; cases run
    case applyingDone =>
      show TablesKept s (if s.cl.state = .applying then finishLoad s else s)
      rw [if_neg (by simp [idle])]
      exact ⟨fun _ => rfl, rfl⟩

end Sys2Proof.Machine
end

section
/-! Time distances, the place of an arrival in the queue, and the queue's order and emptiness under every step. -/

namespace Sys2Proof.Machine

variable {c : Instr} {s t : State}

/-! ### Distances around the time cycle -/

/-- The forward distance in numbers (R7). -/
theorem forward_eq (a b : Time) : forward a b = (4294967296000000 - a.val + b.val) % 4294967296000000 := rfl

theorem forward_lt (a b : Time) : forward a b < 4294967296000000 := (b - a).isLt

@[simp] theorem forward_self (a : Time) : forward a a = 0 := by
  rw [forward_eq]
  omega

/-- Times equally far behind a third are the same. -/
theorem forward_inj {a b now : Time} (h : forward a now = forward b now) : a = b := by
  rw [forward_eq, forward_eq] at h
  apply Fin.ext
  omega

theorem isBefore_iff {a b : Time} : isBefore a b = true ↔ 0 < forward a b ∧ forward a b < 2147483648000000 := by
  rw [isBefore, Bool.and_eq_true, decide_eq_true_iff, decide_eq_true_iff]
  rfl

/-- Of two times not far behind the counter the earlier is the one further behind it (R7). -/
theorem isBefore_iff_forward {a b now : Time} (ha : forward a now ≤ 26500) (hb : forward b now ≤ 26500) :
    isBefore a b = true ↔ forward b now < forward a now := by
  rw [isBefore_iff]
  simp only [forward_eq] at *
  omega

/-- A deadline `H` behind a stamp that lies at most `H` back has not come exactly when the stamp lies less than `H`
back (R63). -/
theorem forward_lt_of_isBefore {stamp now : Time} {H : Nat} (h : isBefore now (addMicros stamp H) = true)
    (bound : H ≤ 26500) (recent : forward stamp now ≤ H) : forward stamp now < H := by
  rw [isBefore_iff] at h
  have sum : (addMicros stamp H).val = (stamp.val + H) % 4294967296000000 := by
    simp [addMicros, Fin.val_add]
  simp only [forward_eq, sum] at *
  omega

/-- One microsecond later everything not half a cycle back lies one microsecond further back (R90). -/
theorem forward_tick {stamp now : Time} (h : forward stamp now ≤ 26500) :
    forward stamp (addMicros now 1) = forward stamp now + 1 := by
  have sum : (addMicros now 1).val = (now.val + 1) % 4294967296000000 := by
    simp [addMicros, Fin.val_add]
  simp only [forward_eq, sum] at *
  omega

/-! ### A step of the time -/

theorem clampsAt_iff {x : Time} {S : Int} : clampsAt x S = true ↔ (x.val : Int) + S < 0 := by simp [clampsAt]

/-- A time that a step does not clamp moves by the step around the cycle (R104). -/
theorem rebase_val {x : Time} {S : Int} (h : clampsAt x S = false) :
    (rebase x S).val = ((x.val : Int) + S).toNat % 4294967296000000 := by
  simp [rebase, h]

/-- A step that does not take the counter below 0 moves stamp and counter alike; a clamped stamp lies as far back as the
counter is above 0 (R69, R88). -/
theorem forward_rebase {x now : Time} {S : Int} (counter : 0 ≤ (now.val : Int) + S) :
    (clampsAt x S = false ∧ forward (rebase x S) (rebase now S) = forward x now) ∨
      (clampsAt x S = true ∧ x.val < now.val ∧ (x.val : Int) + S < 0 ∧
        (forward (rebase x S) (rebase now S) : Int) = (now.val : Int) + S) := by
  have moved : clampsAt now S = false := by
    rw [← Bool.not_eq_true, clampsAt_iff]
    omega
  have now_val := rebase_val moved
  have now_lt := now.isLt
  have x_lt := x.isLt
  cases clamped : clampsAt x S
  case false =>
    have x_val := rebase_val clamped
    refine .inl ⟨rfl, ?_⟩
    have stays : 0 ≤ (x.val : Int) + S := by
      by_contra below
      rw [clampsAt_iff.mpr (by omega)] at clamped
      cases clamped
    rw [forward_eq, forward_eq, now_val, x_val]
    omega
  case true =>
    have below := clampsAt_iff.mp clamped
    have zero : (rebase x S).val = 0 := by simp [rebase, clamped]
    refine .inr ⟨rfl, by omega, below, ?_⟩
    rw [forward_eq, now_val, zero]
    omega

/-- No stamp lies further back after a step (R69, R88). -/
theorem forward_rebase_le {x now : Time} {S : Int} (counter : 0 ≤ (now.val : Int) + S) :
    forward (rebase x S) (rebase now S) ≤ forward x now := by
  rcases forward_rebase (x := x) counter with ⟨-, same⟩ | ⟨-, earlier, below, clamped⟩
  · exact same.le
  · have old : forward x now = now.val - x.val := by
      rw [forward_eq]
      omega
    omega

/-- A step keeps the order of two stamps not far behind the counter (R62, R69). -/
theorem rebase_order {a b now : Time} {S : Int} (counter : 0 ≤ (now.val : Int) + S) (ha : forward a now ≤ 26500)
    (hb : forward b now ≤ 26500) (order : isBefore b a = false) : isBefore (rebase b S) (rebase a S) = false := by
  have ages : forward b now ≤ forward a now := by
    by_contra further
    rw [(isBefore_iff_forward hb ha).mpr (by omega)] at order
    cases order
  rw [← Bool.not_eq_true, isBefore_iff_forward ((forward_rebase_le counter).trans hb) ((forward_rebase_le counter).trans ha)]
  have b_lt := b.isLt
  rcases forward_rebase (x := a) counter with ⟨-, sameA⟩ | ⟨-, earlier, below, clampedA⟩
  · have := forward_rebase_le (x := b) counter
    omega
  · have old : forward a now = now.val - a.val := by
      rw [forward_eq]
      omega
    rcases forward_rebase (x := b) counter with ⟨stays, sameB⟩ | ⟨-, -, -, clampedB⟩
    · have above : ¬((b.val : Int) + S < 0) := fun g => by rw [clampsAt_iff.mpr g] at stays; cases stays
      have oldB := forward_eq b now
      omega
    · omega

/-! ### The place of an arrival -/

/-- What stays ahead of an arrival, in the statements' words (R62). -/
theorem precedes_iff {e x : Entry} : precedes e x = true ↔ StaysAhead e x := by
  simp [precedes, StaysAhead]

/-- An arrival is placed behind the last entry that stays ahead of it (R62). -/
theorem placeEntry_split (e : Entry) (q : List Entry) :
    ∃ l m, q = l ++ m ∧ placeEntry e q = l ++ e :: m ∧ (∀ x ∈ l.getLast?, precedes e x = true) ∧
      ∀ x ∈ m, precedes e x = false := by
  induction q with
  | nil => exact ⟨[], [], rfl, rfl, by simp, by simp⟩
  | cons x xs ih =>
    unfold placeEntry
    split
    case isTrue some_ahead =>
      obtain ⟨l, m, rfl, placed, last, behind⟩ := ih
      refine ⟨x :: l, m, rfl, by rw [placed, List.cons_append], ?_, behind⟩
      cases l with
      | nil =>
        simp only [List.any_cons, Bool.or_eq_true, List.any_eq_true, List.nil_append] at some_ahead
        intro y hy
        obtain rfl : y = x := by simpa using hy.symm
        rcases some_ahead with h | ⟨z, hz, h⟩
        · exact h
        · rw [behind z hz] at h; cases h
      | cons y ys => simpa using last
    case isFalse none_ahead =>
      exact ⟨[], x :: xs, rfl, rfl, by simp, by simpa using none_ahead⟩

theorem placeEntry_joined (e : Entry) (q : List Entry) : JoinedQueue e [e] q (placeEntry e q) := by
  obtain ⟨l, m, split, placed, last, behind⟩ := placeEntry_split e q
  refine ⟨l, m, split, by simpa using placed, fun x hx => precedes_iff.mp (last x hx), fun x hx stays => ?_⟩
  have := behind x hx
  rw [precedes_iff.mpr stays] at this
  cases this

theorem length_placeEntry (e : Entry) (q : List Entry) : (placeEntry e q).length = q.length + 1 := by
  obtain ⟨l, m, rfl, placed, -, -⟩ := placeEntry_split e q
  rw [placed]
  simp [Nat.add_assoc]

theorem mem_placeEntry {e x : Entry} {q : List Entry} : x ∈ placeEntry e q ↔ x = e ∨ x ∈ q := by
  obtain ⟨l, m, rfl, placed, -, -⟩ := placeEntry_split e q
  rw [placed]
  simp only [List.mem_append, List.mem_cons]
  tauto

/-- The queue after an arrival: at a full queue the earliest of the 33 has left (R62, R64). -/
def queueWith (e : Entry) (q : List Entry) : List Entry :=
  if q.length < Config.queueCapacity then placeEntry e q else (placeEntry e q).tail

theorem takeEntry_queue (e : Entry) (s : State) : (takeEntry e s).oq.queue = queueWith e s.oq.queue := by
  unfold takeEntry queueWith
  split
  · rfl
  · have more := length_placeEntry e s.oq.queue
    split
    · rename_i empty
      rw [empty] at more; cases more
    · rename_i first rest placed
      rw [(handleEntry_frame _ _).queue, logFault_oq, placed]
      rfl

/-- An offer leaves the queue, or, in a run, is placed in it (R56, R62). -/
theorem offerEntry_queue (e : Entry) (s : State) :
    (offerEntry e s).oq.queue = s.oq.queue ∨
      (runOpen s = true ∧ (offerEntry e s).oq.queue = queueWith e s.oq.queue) := by
  rcases offerEntry_cases e s with ⟨run, taken⟩ | same
  · exact .inr ⟨run, taken ▸ takeEntry_queue e s⟩
  · rw [same]; exact .inl rfl

theorem length_queueWith {e : Entry} {q : List Entry} (h : q.length ≤ Config.queueCapacity) :
    (queueWith e q).length ≤ Config.queueCapacity := by
  have placed := length_placeEntry e q
  unfold queueWith
  split
  · omega
  · simp [placed, h]

/-! ### The order of the queue -/

/-- A list of entries in stamp order, none further back of `now` than `H` (R62, R63). -/
structure InOrder (H : Nat) (now : Time) (q : List Entry) : Prop where
  ordered : q.Pairwise fun a b => isBefore b.stamp a.stamp = false
  recent : ∀ e ∈ q, forward e.stamp now ≤ H

theorem InOrder.sublist {H : Nat} {now : Time} {q r : List Entry} (h : InOrder H now q) (sub : r.Sublist q) :
    InOrder H now r :=
  ⟨h.ordered.sublist sub, fun e he => h.recent e (sub.subset he)⟩

/-- Each entry of an ordered list is its last or stands before it. -/
theorem eq_or_isBefore_last {l : List Entry} (ordered : l.Pairwise fun a b => isBefore b.stamp a.stamp = false)
    {a x : Entry} (ha : a ∈ l) (hx : l.getLast? = some x) : a = x ∨ isBefore x.stamp a.stamp = false := by
  obtain ⟨front, rfl⟩ := List.getLast?_eq_some_iff.mp hx
  rcases List.mem_append.mp ha with early | same
  · exact .inr ((List.pairwise_append.mp ordered).2.2 a early x (List.mem_singleton_self x))
  · exact .inl (List.mem_singleton.mp same)

/-- An arrival not too far back keeps the order (R62). -/
theorem InOrder.place {H : Nat} {now : Time} {q : List Entry} (h : InOrder H now q) (bound : H ≤ 26500) {e : Entry}
    (recent : forward e.stamp now ≤ H) : InOrder H now (placeEntry e q) := by
  refine ⟨?_, fun x hx => ?_⟩
  · obtain ⟨l, m, rfl, placed, last, behind⟩ := placeEntry_split e q
    have back {x : Entry} (hx : x ∈ l ++ m) : forward x.stamp now ≤ 26500 := (h.recent x hx).trans bound
    have back_e : forward e.stamp now ≤ 26500 := recent.trans bound
    obtain ⟨ordered_l, ordered_m, across⟩ := List.pairwise_append.mp h.ordered
    have ahead : ∀ a ∈ l, isBefore e.stamp a.stamp = false := by
      intro a ha
      obtain ⟨x, hx⟩ := Option.isSome_iff_exists.mp (List.getLast?_isSome.mpr (List.ne_nil_of_mem ha))
      have in_l := List.mem_of_getLast? hx
      have last_ahead : forward e.stamp now ≤ forward x.stamp now := by
        rcases precedes_iff.mp (last x hx) with before | ⟨same, -⟩
        · exact ((isBefore_iff_forward (back (List.mem_append_left m in_l)) back_e).mp before).le
        · rw [same]
      have rising : forward x.stamp now ≤ forward a.stamp now := by
        rcases eq_or_isBefore_last ordered_l ha hx with rfl | order
        · exact le_rfl
        · rw [← Bool.not_eq_true, isBefore_iff_forward (back (List.mem_append_left m in_l))
            (back (List.mem_append_left m ha))] at order
          omega
      rw [← Bool.not_eq_true, isBefore_iff_forward back_e (back (List.mem_append_left m ha))]
      omega
    rw [placed]
    refine List.pairwise_append.mpr ⟨ordered_l, List.pairwise_cons.mpr ⟨fun x hx => ?_, ordered_m⟩, fun a ha b hb => ?_⟩
    · exact (Bool.or_eq_false_iff.mp (behind x hx)).1
    · rcases List.mem_cons.mp hb with rfl | hb
      · exact ahead a ha
      · exact across a ha b hb
  · rcases mem_placeEntry.mp hx with rfl | old
    · exact recent
    · exact h.recent x old

end Sys2Proof.Machine
end

section
/-! The ordering queue under every step: empty outside a run, and in stamp order; and the queue's and the time base's
counts. -/

namespace Sys2Proof.Machine

variable {c : Instr} {s t : State}

/-! ### The queue in order -/

theorem InOrder.with {H : Nat} {now : Time} {q : List Entry} (h : InOrder H now q) (bound : H ≤ 26500) {e : Entry}
    (recent : forward e.stamp now ≤ H) : InOrder H now (queueWith e q) := by
  unfold queueWith
  split
  · exact h.place bound recent
  · exact (h.place bound recent).sublist (List.tail_sublist _)

theorem offerEntry_inOrder {H : Nat} {now : Time} (bound : H ≤ 26500) {e : Entry}
    (recent : runOpen s = true → forward e.stamp now ≤ H) (h : InOrder H now s.oq.queue) :
    InOrder H now (offerEntry e s).oq.queue := by
  rcases offerEntry_queue e s with same | ⟨run, taken⟩
  · rw [same]; exact h
  · rw [taken]; exact h.with bound (recent run)

theorem offerEntries_inOrder {H : Nat} {now : Time} (bound : H ≤ 26500) {es : List Entry}
    (recent : runOpen s = true → ∀ e ∈ es, forward e.stamp now ≤ H) (h : InOrder H now s.oq.queue) :
    InOrder H now (offerEntries es s).oq.queue := by
  induction es generalizing s with
  | nil => exact h
  | cons e es ih =>
    refine ih (fun run x hx => recent ?_ x (List.mem_cons_of_mem e hx))
      (offerEntry_inOrder bound (fun run => recent run e List.mem_cons_self) h)
    rw [← run, offerEntry_runOpen]

/-- A step keeps the order (R69). -/
theorem InOrder.rebase {H : Nat} {now : Time} {q : List Entry} {S : Int} (h : InOrder H now q) (bound : H ≤ 26500)
    (counter : 0 ≤ (now.val : Int) + S) :
    InOrder H (rebase now S) (q.map fun e => { e with stamp := Machine.rebase e.stamp S }) := by
  refine ⟨?_, ?_⟩
  · rw [List.pairwise_map]
    refine h.ordered.imp_of_mem fun ha hb order => ?_
    exact rebase_order counter ((h.recent _ ha).trans bound) ((h.recent _ hb).trans bound) order
  · intro x hx
    obtain ⟨e, he, rfl⟩ := List.mem_map.mp hx
    exact (forward_rebase_le counter).trans (h.recent e he)

/-! ### Settlings -/

/-- A settling of the channel lies no further back than its timer has run (R76, R77, R88). -/
def SettlesInTime (now : Time) (d : ChannelRec) : Prop :=
  ∀ (x : Timer) (stamp : Time), d.settle = some x → d.stamp = some stamp →
    forward stamp now ≤ x.elapsed ∧ x.elapsed ≤ x.length ∧ x.length = 100 * d.desc.settle.toNat

theorem ChannelTurn.settlesInTime {run : Bool} {now : Time} {c d : ChannelRec} (turn : ChannelTurn run now c d)
    (h : SettlesInTime now c) : SettlesInTime now d := by
  intro x stamp settle hs
  rw [turn.desc]
  rcases turn.settling x stamp settle hs with ⟨rfl, rfl⟩ | ⟨old, old_stamp⟩
  · simp
  · exact h x stamp old old_stamp

theorem rebaseChannel_settlesInTime {run : Bool} {now : Time} {S : Int} {d : ChannelRec} (sound : ChannelSound run d)
    (counter : 0 ≤ (now.val : Int) + S) (h : SettlesInTime now d) : SettlesInTime (rebase now S) (rebaseChannel S d) := by
  intro x stamp settle hs
  rw [rebaseChannel_desc]
  have running : d.settle = some x := by
    unfold rebaseChannel at settle
    split at settle <;> exact settle
  have holds : holdsStamp d = true := by
    rw [holdsStamp, ← sound.settles, running]
    rfl
  rw [rebaseChannel, if_pos holds] at hs
  obtain ⟨old, hold, rfl⟩ := Option.map_eq_some_iff.mp hs
  obtain ⟨recent, rest⟩ := h x old running hold
  exact ⟨(forward_rebase_le counter).trans recent, rest⟩

/-- The START notice raises a stamp or leaves it (R85). -/
theorem startNotice_settlesInTime {now : Time} {d : ChannelRec} (h : SettlesInTime now d) :
    SettlesInTime now (startNotice now d) := by
  intro x stamp settle hs
  rw [startNotice_desc]
  have running : d.settle = some x := by
    unfold startNotice at settle
    dsimp only at settle
    split_ifs at settle <;> exact settle
  have raised : d.stamp = some stamp ∨ (stamp = now ∧ d.stamp.isSome) := by
    unfold startNotice at hs
    dsimp only at hs
    have one (hs : d.stamp.map (fun t => if isBefore t now then now else t) = some stamp) :
        d.stamp = some stamp ∨ (stamp = now ∧ d.stamp.isSome) := by
      obtain ⟨old, hold, rfl⟩ := Option.map_eq_some_iff.mp hs
      split
      · exact .inr ⟨rfl, by simp [hold]⟩
      · exact .inl hold
    split_ifs at hs
    · exact one hs
    · exact .inl hs
    · exact one hs
    · exact .inl hs
  rcases raised with same | ⟨rfl, was⟩
  · exact h x stamp running same
  · obtain ⟨old, hold⟩ := Option.isSome_iff_exists.mp was
    obtain ⟨recent, rest⟩ := h x old running hold
    simpa using rest

/-! ### The horizon -/

/-- The release horizon covers the settle time of every enabled channel and no more (R53). -/
theorem horizonOf_spec (s : State) :
    (∀ ch : Channel, s.icu[ch].desc.enable = true → settleMicros s.icu[ch].desc + 1000 ≤ horizonOf s) ∧
      (horizonOf s = 1000 ∨ ∃ ch : Channel, s.icu[ch].desc.enable = true ∧
        horizonOf s = settleMicros s.icu[ch].desc + 1000) := by
  have fold (l : List Channel) (h : Nat) :
      let m := l.foldl (fun h ch => if s.icu[ch].desc.enable then max h (settleMicros s.icu[ch].desc) else h) h
      h ≤ m ∧ (∀ ch ∈ l, s.icu[ch].desc.enable = true → settleMicros s.icu[ch].desc ≤ m) ∧
        (m = h ∨ ∃ ch ∈ l, s.icu[ch].desc.enable = true ∧ m = settleMicros s.icu[ch].desc) := by
    induction l generalizing h with
    | nil => simp
    | cons ch l ih =>
      obtain ⟨above, covers, reached⟩ := ih (if s.icu[ch].desc.enable then max h (settleMicros s.icu[ch].desc) else h)
      dsimp only [List.foldl_cons]
      generalize l.foldl _ _ = m at *
      cases enabled : s.icu[ch].desc.enable
      case false =>
        simp only [enabled, Bool.false_eq_true, if_false] at above reached
        refine ⟨above, fun k hk on => ?_, ?_⟩
        · rcases List.mem_cons.mp hk with rfl | hk
          · rw [enabled] at on; cases on
          · exact covers k hk on
        · rcases reached with rfl | ⟨k, hk, on, e⟩
          · exact .inl rfl
          · exact .inr ⟨k, List.mem_cons_of_mem ch hk, on, e⟩
      case true =>
        simp only [enabled, if_true] at above reached
        refine ⟨(le_max_left _ _).trans above, fun k hk on => ?_, ?_⟩
        · rcases List.mem_cons.mp hk with rfl | hk
          · exact (le_max_right _ _).trans above
          · exact covers k hk on
        · rcases reached with rfl | ⟨k, hk, on, e⟩
          · rcases max_choice h (settleMicros s.icu[ch].desc) with e | e
            · exact .inl e
            · exact .inr ⟨ch, List.mem_cons_self, enabled, e⟩
          · exact .inr ⟨k, List.mem_cons_of_mem ch hk, on, e⟩
  obtain ⟨-, covers, reached⟩ := fold (List.finRange 24) 0
  unfold horizonOf Config.horizonGuard
  refine ⟨fun ch on => Nat.add_le_add_right (covers ch (List.mem_finRange ch) on) _, ?_⟩
  rcases reached with e | ⟨ch, -, on, e⟩
  · exact .inl (by rw [e])
  · exact .inr ⟨ch, on, by rw [e]⟩

theorem horizonOf_le (s : State) : horizonOf s ≤ 26500 := by
  rcases (horizonOf_spec s).2 with e | ⟨ch, -, e⟩ <;> rw [e]
  · decide
  · have := (s.icu[ch].desc.settle).isLt
    unfold settleMicros
    omega

/-! ### The queue outside a run -/

theorem offerEntry_queue_closed (closed : runOpen s = false) (e : Entry) : (offerEntry e s).oq.queue = s.oq.queue := by
  rcases offerEntry_queue e s with same | ⟨run, -⟩
  · exact same
  · rw [closed] at run; cases run

theorem offerEntries_queue_closed (closed : runOpen s = false) (es : List Entry) :
    (offerEntries es s).oq.queue = s.oq.queue := by
  induction es generalizing s with
  | nil => rfl
  | cons e es ih => rw [offerEntries, ih (by rw [offerEntry_runOpen]; exact closed), offerEntry_queue_closed closed]

/-- Every turn keeps the queue empty outside a run (R50). -/
theorem Turn.queueEmpty (m : Turn c s t) (loader : LoaderLoading s) (h : QueueEmptyOutsideRun s) :
    QueueEmptyOutsideRun t := by
  intro closed
  cases m
  case still k => rw [k.oq]; exact h (k.run ▸ closed)
  case calm k => rw [k.oq]; exact h (k.run ▸ closed)
  case channel ch d es _ _ =>
    have closed : runOpen (setChannel ch d s) = false := (offerEntries_front es _).run ▸ closed
    rw [offerEntries_queue_closed closed]
    exact h closed
  case offer e _ =>
    rw [offerEntry_runOpen] at closed
    rw [offerEntry_queue_closed closed]
    exact h closed
  case time => exact h closed
  case step S cause journaled _ _ =>
    rw [applyStep_runOpen] at closed
    rw [(applyStep_front S cause journaled s).2.2.1, rebaseQueue, if_neg (by simp [closed])]
    exact h closed
  case release run => rw [(releaseHead_front s).run, run] at closed; cases closed
  case close draining => rw [(closeDrain_front draining).2.2.1]
  case openRun => simp [runOpen, (openRun_front s).2.2.1] at closed
  case drain => simp [runOpen] at closed
  case load stopped => exact h (closed_of_stopped stopped)
  case shut loading _ => exact h (closed_of_loading (loader loading))
  all_goals exact h closed

/-! ### The queue in order, under every turn -/

theorem QueueInOrder.inOrder (h : QueueInOrder s) : InOrder s.oq.horizon s.tb.counter s.oq.queue := ⟨h.ordered, h.recent⟩

theorem QueueInOrder.settlesInTime (h : QueueInOrder s) (ch : Channel) : SettlesInTime s.tb.counter s.icu[ch] :=
  h.settling ch

theorem QueueInOrder.of (queue : InOrder s.oq.horizon s.tb.counter s.oq.queue)
    (settling : ∀ ch : Channel, SettlesInTime s.tb.counter s.icu[ch]) (horizon : s.oq.horizon ≤ 26500)
    (covers : runOpen s = true → ∀ ch : Channel, s.icu[ch].desc.enable = true →
      100 * s.icu[ch].desc.settle.toNat + 1000 ≤ s.oq.horizon) : QueueInOrder s :=
  ⟨queue.ordered, queue.recent, settling, horizon, covers⟩

theorem inOrder_nil (H : Nat) (now : Time) : InOrder H now [] := ⟨List.Pairwise.nil, by simp⟩

/-- Nothing the order looks at has moved but the queue. -/
theorem QueueInOrder.front (h : QueueInOrder s) (k : FrontKept s t)
    (queue : InOrder s.oq.horizon s.tb.counter t.oq.queue) : QueueInOrder t := by
  refine .of ?_ (fun ch => ?_) ?_ fun run ch on => ?_
  · rw [k.horizon, k.tb]; exact queue
  · rw [k.tb, k.icu]; exact h.settling ch
  · rw [k.horizon]; exact h.horizon
  · rw [k.horizon, k.icu]
    rw [k.icu] at on
    exact h.covers (k.run ▸ run) ch on

theorem QueueInOrder.calm (h : QueueInOrder s) (k : Calm s t) : QueueInOrder t := by
  refine .of ?_ (fun ch => ?_) ?_ fun run ch on => ?_
  · rw [k.oq, k.tb]; exact h.inOrder
  · rw [k.tb, k.icu]; exact h.settling ch
  · rw [k.oq]; exact h.horizon
  · rw [k.oq, k.icu]
    rw [k.icu] at on
    exact h.covers (k.run ▸ run) ch on

/-- A settling channel of an open run holds a stamp within the horizon (R53, R76). -/
theorem QueueInOrder.recent_settling (h : QueueInOrder s) {ch : Channel} (sound : ChannelSound (runOpen s) s.icu[ch])
    (run : runOpen s = true) (state : s.icu[ch].state = .settling) :
    forward (s.icu[ch].stamp.getD s.tb.counter) s.tb.counter ≤ s.oq.horizon := by
  have stamped := sound.stamped
  have settles := sound.settles
  rw [state] at stamped settles
  obtain ⟨stamp, hs⟩ := Option.isSome_iff_exists.mp (stamped.trans rfl)
  obtain ⟨x, hx⟩ := Option.isSome_iff_exists.mp (settles.trans rfl)
  obtain ⟨recent, elapsed, length⟩ := h.settling ch x stamp hx hs
  have covered := h.covers run ch (sound.enabled fun off => by rw [state] at off; cases off)
  rw [hs, Option.getD_some]
  omega

/-- Every turn keeps the queue in order (R62). -/
theorem Turn.queueInOrder (m : Turn c s t) (loader : LoaderLoading s) (sound : ChannelsSound s)
    (empty : QueueEmptyOutsideRun s) (h : QueueInOrder s) : QueueInOrder t := by
  cases m
  case still k => exact h.calm k.toCalm
  case calm k => exact h.calm k
  case channel ch d es turn stamps =>
    have set : QueueInOrder (setChannel ch d s) := by
      refine .of h.inOrder ?_ h.horizon fun run => ?_
      · exact setChannel_forall (P := fun _ => SettlesInTime s.tb.counter) (turn.settlesInTime (h.settling ch)) h.settling
      · refine setChannel_forall (P := fun _ e => e.desc.enable = true → 100 * e.desc.settle.toNat + 1000 ≤ s.oq.horizon)
          (fun on => ?_) (h.covers run)
        rw [turn.desc] at on ⊢
        exact h.covers run ch on
    refine set.front (offerEntries_front es _) (offerEntries_inOrder h.horizon (fun run e he => ?_) h.inOrder)
    rcases stamps e he with now | ⟨state, held⟩
    · rw [now, setChannel_tb, forward_self]; exact Nat.zero_le _
    · rw [held]
      exact h.recent_settling (sound ch) run state
  case offer e now =>
    refine h.front (offerEntry_front e s) (offerEntry_inOrder h.horizon (fun _ => ?_) h.inOrder)
    rw [now, forward_self]
    exact Nat.zero_le _
  case time f _ turn =>
    refine .of ?_ (fun ch => ?_) h.horizon h.covers
    · rw [State.onTb_tb, turn.counter]; exact h.inOrder
    · rw [State.onTb_tb, turn.counter]; exact h.settling ch
  case step S cause journaled _ counter =>
    obtain ⟨icu, tb, oq, -⟩ := applyStep_front S cause journaled s
    have now : (applyStep S cause journaled s).tb.counter = rebase s.tb.counter S := by rw [tb]; rfl
    have same : (rebaseQueue S s).oq.horizon = s.oq.horizon := by
      unfold rebaseQueue
      split <;> rfl
    refine .of ?_ (fun ch => ?_) ?_ fun run ch on => ?_
    · rw [now, oq, same]
      unfold rebaseQueue
      split
      · exact h.inOrder.rebase h.horizon counter
      · rename_i closed
        rw [empty (by simpa using closed)]
        exact inOrder_nil _ _
    · rw [now, icu]
      simpa using rebaseChannel_settlesInTime (sound ch) counter (h.settling ch)
    · rw [oq, same]; exact h.horizon
    · rw [applyStep_runOpen] at run
      rw [oq, same]
      rw [icu] at on ⊢
      have desc := descs_map (rebaseChannel_desc S) (v := s.icu) rfl ch
      rw [desc] at on ⊢
      exact h.covers run ch on
  case release =>
    refine h.front (releaseHead_front s) ?_
    unfold releaseHead
    split
    · exact h.inOrder
    · rename_i e rest queue
      rw [(handleEntry_frame _ _).queue]
      exact h.inOrder.sublist (by rw [queue]; exact List.sublist_cons_self e rest)
  case close draining =>
    obtain ⟨icu, tb, oq, -⟩ := closeDrain_front draining
    refine .of ?_ (fun ch => ?_) ?_ fun run => ?_
    · rw [oq]; exact inOrder_nil _ _
    · have settling := h.settling ch
      rw [tb, icu]
      simpa [runEndNotice, SettlesInTime] using settling
    · rw [oq]; exact h.horizon
    · rw [closed_of_stopped (by rw [oq])] at run; cases run
  case openRun stopped =>
    obtain ⟨icu, tb, oq, -⟩ := openRun_front s
    refine .of ?_ (fun ch => ?_) ?_ fun _ ch on => ?_
    · rw [oq, empty (closed_of_stopped stopped)]; exact inOrder_nil _ _
    · rw [tb, icu]
      simpa using startNotice_settlesInTime (h.settling ch)
    · rw [oq]; exact horizonOf_le s
    · have desc := descs_map (startNotice_desc s.tb.counter) icu ch
      rw [desc] at on ⊢
      rw [oq]
      exact (horizonOf_spec s).1 ch on
  case drain running => exact .of h.inOrder h.settling h.horizon fun _ => h.covers (by simp [runOpen, running])
  case load stopped => exact .of h.inOrder h.settling h.horizon fun run => by cases run
  case shut => exact .of h.inOrder h.settling h.horizon fun run => by cases run
  case setup v _ unlocked set =>
    have closed := closed_of_unlocked loader unlocked
    refine .of h.inOrder (fun ch => ?_) h.horizon fun run => ?_
    · show SettlesInTime s.tb.counter v[ch]
      rcases set ch with same | ⟨d, -, written⟩
      · rw [same]; exact h.settling ch
      · rw [written]; exact fun x stamp settle _ => by cases settle
    · rw [show runOpen (s.onIcu fun _ => v) = runOpen s from rfl, closed] at run; cases run
  case rules => exact .of h.inOrder h.settling h.horizon h.covers
  case timeTable => exact .of h.inOrder h.settling h.horizon h.covers
  case journalTable => exact .of h.inOrder h.settling h.horizon h.covers

/-! ### A microsecond -/

/-- With no horizon expiry come, every queued stamp lies less than H back (R63). -/
theorem not_due_recent (empty : QueueEmptyOutsideRun s) (h : QueueInOrder s) (due : horizonDue s = false) {e : Entry}
    (he : e ∈ s.oq.queue) : forward e.stamp s.tb.counter < s.oq.horizon := by
  obtain ⟨first, rest, queue⟩ := List.exists_cons_of_ne_nil (List.ne_nil_of_mem he)
  have run : runOpen s = true := by
    by_contra closed
    rw [empty (by simpa using closed)] at he
    cases he
  have early : isBefore s.tb.counter (addMicros first.stamp s.oq.horizon) = true := by
    simpa [horizonDue, queue, run, reached] using due
  have head := forward_lt_of_isBefore early h.horizon (h.recent first (by simp [queue]))
  rw [queue] at he
  rcases List.mem_cons.mp he with rfl | later
  · exact head
  · have order := h.ordered
    rw [queue] at order
    have after := (List.pairwise_cons.mp order).1 e later
    have bound := h.horizon
    rw [← Bool.not_eq_true, isBefore_iff_forward ((h.recent e (by simp [queue, later])).trans bound) (by omega)] at after
    omega

/-- A microsecond with no expiry due keeps the order. -/
theorem tick_queueInOrder (sound : ChannelsSound s) (empty : QueueEmptyOutsideRun s) (due : dueEvents s = [])
    (h : QueueInOrder s) : QueueInOrder (tick s) := by
  have settled (ch : Channel) : settleDue s.icu[ch] = false := by
    cases come : settleDue s.icu[ch]
    case false => rfl
    case true =>
      have event : Instr.settleExpiry ch ∈ channelEvents ch s.icu[ch] := by
        rw [channelEvents, if_pos come]
        simp
      have member : Instr.settleExpiry ch ∈ dueEvents s := by
        simp only [dueEvents, List.mem_append, List.mem_flatMap]
        exact .inl (.inl (.inl (.inl ⟨ch, List.mem_finRange ch, event⟩)))
      rw [due] at member
      cases member
  have queued : horizonDue s = false := by
    cases come : horizonDue s
    case false => rfl
    case true =>
      have member : Instr.horizonExpiry ∈ dueEvents s := by
        rw [dueEvents, if_pos come]
        simp
      rw [due] at member
      cases member
  have bound := h.horizon
  refine .of ⟨h.ordered, fun e he => ?_⟩ (fun ch x stamp settle hs => ?_) h.horizon fun run ch on => ?_
  · have := not_due_recent empty h queued he
    show forward e.stamp (addMicros s.tb.counter 1) ≤ s.oq.horizon
    rw [forward_tick (by omega)]
    omega
  · have ticked : (tick s).icu[ch] = tickChannel s.icu[ch] := by simp [tick]
    rw [ticked] at settle hs ⊢
    obtain ⟨y, running, rfl⟩ := Option.map_eq_some_iff.mp settle
    have holds : holdsStamp s.icu[ch] = true := by
      rw [holdsStamp, ← (sound ch).settles, running]
      rfl
    have early : y.elapsed < y.length := by
      have late := settled ch
      rw [settleDue, holds, running] at late
      simpa [timerDue] using late
    obtain ⟨recent, elapsed, length⟩ := h.settling ch y stamp running hs
    have short := (s.icu[ch].desc.settle).isLt
    show forward stamp (addMicros s.tb.counter 1) ≤ y.elapsed + 1 ∧ y.elapsed + 1 ≤ y.length ∧ _
    rw [forward_tick (by omega)]
    exact ⟨by omega, early, length⟩
  · have ticked : (tick s).icu[ch] = tickChannel s.icu[ch] := by simp [tick]
    rw [ticked] at on ⊢
    exact h.covers run ch on

/-- A part in which the laws of the queue can be kept. -/
structure QueueLaws (s : State) : Prop where
  loader : LoaderLoading s
  empty : QueueEmptyOutsideRun s

theorem deviceReset_queueInOrder (b : Bool) (s : State) : QueueInOrder (deviceReset b s) := by
  refine .of (inOrder_nil _ _) (fun ch x stamp settle _ => ?_) (by simp [deviceReset, Capture.reset]) fun run => ?_
  · simp [deviceReset, ChannelRec.reset] at settle
  · cases b <;> cases run

theorem act_queueLaws (c : Instr) (h : QueueLaws s) : QueueLaws (act c s) :=
  act_turned (P := QueueLaws) (fun m h => ⟨m.loaderLoading h.loader, m.queueEmpty h.loader h.empty⟩)
    (fun b s => ⟨deviceReset_loaderLoading b s, fun _ => rfl⟩) c h

/-- A part in which the queue stays in order. -/
structure QueueSound (s : State) : Prop where
  laws : QueueLaws s
  channels : ChannelsSound s
  order : QueueInOrder s

theorem Turn.queueSound (m : Turn c s t) (h : QueueSound s) : QueueSound t where
  laws := ⟨m.loaderLoading h.laws.loader, m.queueEmpty h.laws.loader h.laws.empty⟩
  channels := m.channelsSound h.laws.loader h.channels
  order := m.queueInOrder h.laws.loader h.channels h.laws.empty h.order

theorem deviceReset_queueSound (b : Bool) (s : State) : QueueSound (deviceReset b s) :=
  ⟨⟨deviceReset_loaderLoading b s, fun _ => rfl⟩, deviceReset_channelsSound b s, deviceReset_queueInOrder b s⟩

theorem QueueSound.own (h : QueueSound s) (pending : List Instr) (choices : Nat) :
    QueueSound { s with pending, choices } :=
  ⟨⟨h.laws.loader, h.laws.empty⟩, h.channels, h.order.ordered, h.order.recent, h.order.settling, h.order.horizon,
    h.order.covers⟩

theorem tick_queueSound (due : dueEvents s = []) (h : QueueSound s) : QueueSound (tick s) where
  laws := ⟨h.laws.loader, h.laws.empty⟩
  channels := channelsSound_map h.channels tickChannel_sound rfl rfl
  order := tick_queueInOrder h.channels h.laws.empty due h.order

/-- Settles O9: the moves keep the AVL comparison, the RAM and the SYNC headers, the turns the queue's emptiness and order;
a microsecond moves none of the first, and no queued stamp out of the horizon. -/
theorem stepKeepsAvlRamQueueAndHeaders : Obligations.StepKeepsAvlRamQueueAndHeaders := by
  intro s t h
  refine ⟨fun avl => ?_, fun ram => ?_, fun hs empty => ?_, fun hs sound empty order => ?_, fun hs ram headers => ?_⟩
  · exact step_keeps (P := AvlCurrent) (fun _ _ _ h => h) (fun c _ h => act_current c h) (fun _ _ h => h) h avl
  · exact step_keeps (P := RamCanonical) (fun _ _ _ h => h) (fun c _ h => act_canonical c h) (fun _ _ h => h) h ram
  · exact (step_keeps (P := QueueLaws) (fun _ _ _ h => ⟨h.loader, h.empty⟩) (fun c _ h => act_queueLaws c h)
      (fun _ _ h => ⟨h.loader, h.empty⟩) h ⟨hs.loaderLoading, empty⟩).empty
  · exact (step_keeps (P := QueueSound) (fun _ pending choices h => h.own pending choices)
      (fun c _ h => act_turned (P := QueueSound) Turn.queueSound deviceReset_queueSound c h)
      (fun _ due h => tick_queueSound due h) h ⟨⟨hs.loaderLoading, empty⟩, sound, order⟩).order
  · refine (step_keeps_sound (P := fun t => RamCanonical t ∧ HeadersAtIndex t) (fun _ _ _ h => h)
      (fun c s hs h => act_headers c hs h) (fun _ h => h) h hs ⟨ram, headers⟩).2

end Sys2Proof.Machine
end

section
/-! The limits of counts and queues under every step; what the reset gives; the counter and the flags under commands; and
the ways of the capture state. -/

namespace Sys2Proof.Machine

variable {c : Instr} {s t : State}

/-! ### The limits, block by block -/

/-- The store's limits: the skip counts (R28), and the table's quota (R39). -/
structure StoreLimits (j : Store) : Prop where
  hostSkips : j.hostC.skips ≤ 255
  exportSkips : j.exportC.skips ≤ 255
  quota : 1 ≤ j.table.q.toNat ∧ j.table.q.toNat ≤ 4095

/-- The hold's limits (R115, R117, R118). -/
structure HoldLimits (u : TriggerUnit) : Prop where
  quota : 1 ≤ u.quota ∧ u.quota ≤ 4095
  count : u.count ≤ 4095
  collecting : u.hold = .collecting → u.count < u.quota

/-- The limits of what every command is made of moves of. -/
structure MoveLimits (s : State) : Prop where
  faults : s.ifu.faults.length ≤ Config.faultCapacity
  lost : s.ifu.lost ≤ 255
  threshold : 1 ≤ s.hw.avth.toNat ∧ s.hw.avth.toNat ≤ Config.ringSize
  store : StoreLimits s.js
  aborts : s.xl.aborts ≤ 255
  lossCount : s.je.lossCount ≤ 65535
  sinceSync : s.je.sinceSync ≤ Config.ringSize
  hold : HoldLimits s.tu
  records : s.cl.read ≤ s.cl.count ∧ s.cl.count ≤ Config.recordMax

/-- A consumer after a discard step has counted one skip at most (R42). -/
theorem discardConsumer_skips (old new : Pos) {c : Consumer} (h : c.skips ≤ 255) :
    (discardConsumer old new c).skips ≤ 255 := by
  unfold discardConsumer
  split
  · exact satInc_le _ _
  · exact h

theorem StoreLimits.free (h : StoreLimits s.js) : StoreLimits (reevalFreeing s).js :=
  ⟨by rw [reevalFreeing_hostC]; exact h.hostSkips, by rw [reevalFreeing_exportC]; exact h.exportSkips,
    by rw [(reevalFreeing_frame s).table]; exact h.quota⟩

theorem StoreLimits.discard (h : StoreLimits s.js) (e : Pos) : StoreLimits (discardTo e s).js := by
  have host := discardConsumer_skips s.js.tail e h.hostSkips
  have exported := discardConsumer_skips s.js.tail e h.exportSkips
  cases attached : s.js.exportC.attached
  case false =>
    rw [(discardTo_detached e attached).1]
    exact ⟨host, h.exportSkips, h.quota⟩
  case true =>
    obtain ⟨u, eq, -, -, -, -, ujs⟩ := discardTo_attached e attached
    rw [eq]
    refine StoreLimits.free ?_
    rw [ujs]
    exact ⟨host, exported, h.quota⟩

/-- A packet stored within the close-exempt room counts into the bytes since SYNC (R14, R38). -/
theorem emitExempt_je (bytes : List Byte) (s : State) :
    (emitExempt bytes s).je = s.je ∨
      (emitExempt bytes s).je = { s.je with sinceSync := min Config.ringSize (s.je.sinceSync + bytes.length) } := by
  unfold emitExempt
  split
  · exact .inr (by simp [countStored, sinceAfter])
  · exact .inl rfl

theorem emitExempt_encoder {bytes : List Byte} {s : State} (loss : s.je.lossCount ≤ 65535)
    (since : s.je.sinceSync ≤ Config.ringSize) :
    (emitExempt bytes s).je.lossCount ≤ 65535 ∧ (emitExempt bytes s).je.sinceSync ≤ Config.ringSize := by
  rcases emitExempt_je bytes s with e | e <;> rw [e]
  · exact ⟨loss, since⟩
  · exact ⟨loss, min_le_left _ _⟩

theorem closingLoss_encoder (loss : s.je.lossCount ≤ 65535) (since : s.je.sinceSync ≤ Config.ringSize) :
    (closingLoss s).je.lossCount ≤ 65535 ∧ (closingLoss s).je.sinceSync ≤ Config.ringSize := by
  unfold closingLoss
  split
  · exact ⟨loss, since⟩
  · split
    · exact ⟨Nat.zero_le _, (emitExempt_encoder loss since).2⟩
    · exact ⟨loss, since⟩

/-- A close-exempt packet leaves the readers' records (R38). -/
theorem emitExempt_store (bytes : List Byte) (h : StoreLimits s.js) : StoreLimits (emitExempt bytes s).js := by
  unfold emitExempt
  split
  · exact ⟨by simpa [countStored] using h.hostSkips, by simpa [countStored] using h.exportSkips,
      by simpa [countStored] using h.quota⟩
  · exact h

theorem closingLoss_store (h : StoreLimits s.js) : StoreLimits (closingLoss s).js := by
  unfold closingLoss
  split
  · exact h
  · split
    · have kept := emitExempt_store (lossPacket s.je) h
      exact ⟨kept.hostSkips, kept.exportSkips, kept.quota⟩
    · exact h

/-- Nothing but the readers' and the link's records moves. -/
theorem MoveLimits.store_frame (h : MoveLimits s) (frame : StoreFrame s t) (je : t.je = s.je) (store : StoreLimits t.js) :
    MoveLimits t where
  faults := by rw [frame.faults]; exact h.faults
  lost := by rw [frame.lost]; exact h.lost
  threshold := by rw [frame.hw]; exact h.threshold
  store := store
  aborts := by rw [frame.aborts]; exact h.aborts
  lossCount := by rw [je]; exact h.lossCount
  sinceSync := by rw [je]; exact h.sinceSync
  hold := by rw [frame.tu]; exact h.hold
  records := by rw [frame.cl]; exact h.records

theorem MoveLimits.evalAvl (h : MoveLimits s) : MoveLimits (evalAvl s) :=
  h.store_frame (evalAvl_frame s) (evalAvl_je s) (by rw [evalAvl_js]; exact h.store)

theorem MoveLimits.free (h : MoveLimits s) : MoveLimits (reevalFreeing s) :=
  h.store_frame (reevalFreeing_frame s) (reevalFreeing_je s) h.store.free

/-- A change of the readers' marks. -/
theorem MoveLimits.onJs (h : MoveLimits s) {f : Store → Store} (store : StoreLimits (f s.js)) : MoveLimits (s.onJs f) :=
  ⟨h.faults, h.lost, h.threshold, store, h.aborts, h.lossCount, h.sinceSync, h.hold, h.records⟩

theorem MoveLimits.onTu (h : MoveLimits s) {f : TriggerUnit → TriggerUnit} (hold : HoldLimits (f s.tu)) :
    MoveLimits (s.onTu f) :=
  ⟨h.faults, h.lost, h.threshold, h.store, h.aborts, h.lossCount, h.sinceSync, hold, h.records⟩

theorem MoveLimits.onXl (h : MoveLimits s) {f : Link → Link} (aborts : (f s.xl).aborts ≤ 255) : MoveLimits (s.onXl f) :=
  ⟨h.faults, h.lost, h.threshold, h.store, aborts, h.lossCount, h.sinceSync, h.hold, h.records⟩

theorem MoveLimits.onCl (h : MoveLimits s) {f : Loader → Loader}
    (records : (f s.cl).read ≤ (f s.cl).count ∧ (f s.cl).count ≤ Config.recordMax) : MoveLimits (s.onCl f) :=
  ⟨h.faults, h.lost, h.threshold, h.store, h.aborts, h.lossCount, h.sinceSync, h.hold, records⟩

theorem MoveLimits.onOq (h : MoveLimits s) (f : Capture → Capture) : MoveLimits (s.onOq f) :=
  ⟨h.faults, h.lost, h.threshold, h.store, h.aborts, h.lossCount, h.sinceSync, h.hold, h.records⟩

theorem MoveLimits.setFlag (h : MoveLimits s) (flag : BitVec 8) : MoveLimits (setFlag flag s) :=
  ⟨h.faults, h.lost, h.threshold, h.store, h.aborts, h.lossCount, h.sinceSync, h.hold, h.records⟩

/-- Every move keeps the limits. -/
theorem Move.limits (m : Move s t) (h : MoveLimits s) : MoveLimits t := by
  obtain ⟨hostSkips, exportSkips, tableQuota⟩ := h.store
  obtain ⟨quota, count, collecting⟩ := h.hold
  cases m
  case quiet q =>
    exact ⟨by rw [q.faults]; exact h.faults, by rw [q.lost]; exact h.lost, by rw [q.avth]; exact h.threshold,
      by rw [q.js]; exact h.store, by rw [q.aborts]; exact h.aborts, q.lossCount h.lossCount, q.sinceSync h.sinceSync,
      ⟨by rw [q.quota]; exact quota, by rw [q.count]; exact count,
        by rw [q.hold, q.count, q.quota]; exact collecting⟩, by rw [q.records.1, q.records.2]; exact h.records⟩
  case fault kind detail =>
    refine ⟨?_, ((logFault_frame kind detail s).lost h.lost).2, h.threshold, h.store, h.aborts, h.lossCount, h.sinceSync,
      h.hold, h.records⟩
    rw [logFault_cases]
    show (faultsWith s kind detail).length ≤ 4
    unfold faultsWith
    split
    · rename_i room
      rw [List.length_append]
      exact room
    · exact h.faults
  case free => exact h.free
  case discard e _ => exact h.store_frame (discardTo_frame e s) (discardTo_je e s) (h.store.discard e)
  case store bytes isSync _ _ _ =>
    exact h.store_frame (storePacket_frame bytes isSync s) (storePacket_je bytes isSync s)
      ⟨by simpa using hostSkips, by simpa using exportSkips, by simpa using tableQuota⟩
  case lose => exact (h.onJs ⟨hostSkips, exportSkips, tableQuota⟩).setFlag flagLss
  case resume => exact h.onJs ⟨hostSkips, exportSkips, tableQuota⟩
  case journalTable legal => exact h.onJs ⟨hostSkips, exportSkips, legal⟩
  case clear =>
    refine MoveLimits.evalAvl ?_
    exact ⟨h.faults, h.lost, h.threshold, ⟨Nat.zero_le _, Nat.zero_le _, tableQuota⟩, h.aborts, Nat.zero_le _,
      Nat.zero_le _, ⟨by simp [clearHold], Nat.zero_le _, fun e => by cases e⟩, h.records⟩
  case startHold => exact h.onTu ⟨tableQuota, Nat.zero_le _, fun _ => tableQuota.1⟩
  case count collects more => exact h.onTu ⟨quota, (more.trans_le quota.2).le, fun _ => more⟩
  case quota collects =>
    exact ⟨h.faults, h.lost, h.threshold, h.store, h.aborts, h.lossCount, h.sinceSync,
      ⟨quota, (collecting collects).trans_le quota.2, fun e => by cases e⟩, h.records⟩
  case closeHold => exact (h.onTu ⟨quota, count, fun e => by cases e⟩).setFlag flagHld
  case dropHold => exact h.onTu ⟨quota, Nat.zero_le _, fun e => by cases e⟩
  case drain => exact h.onOq _
  case beginRun => exact h.onOq _
  case endRun =>
    have lossFrame := closingLoss_frame s
    obtain ⟨loss, since⟩ := closingLoss_encoder h.lossCount h.sinceSync
    have first : MoveLimits (closingLoss s) :=
      ⟨by rw [lossFrame.faults]; exact h.faults, by rw [lossFrame.lost]; exact h.lost,
        by rw [lossFrame.hw]; exact h.threshold, closingLoss_store h.store, by rw [lossFrame.aborts]; exact h.aborts,
        loss, since, by rw [lossFrame.tu]; exact h.hold, by rw [lossFrame.cl]; exact h.records⟩
    unfold Machine.endRun
    dsimp only
    generalize endPacket (closingLoss s).je.stopReason (closingLoss s).oq.stopStamp = bytes
    generalize closingLoss s = u at *
    have frame := emitExempt_frame bytes u
    obtain ⟨loss, since⟩ := emitExempt_encoder (bytes := bytes) first.lossCount first.sinceSync
    refine MoveLimits.onOq ?_ _
    exact ⟨by rw [frame.faults]; exact first.faults, by rw [frame.lost]; exact first.lost,
      by rw [frame.hw]; exact first.threshold, emitExempt_store bytes first.store,
      by rw [frame.aborts]; exact first.aborts, loss, since, by rw [frame.tu]; exact first.hold,
      by rw [frame.cl]; exact first.records⟩
  case load => exact (h.onOq _).onCl ⟨Nat.zero_le _, Nat.zero_le _⟩
  case loaded records =>
    refine MoveLimits.onOq (h.onCl ?_) _
    rw [records.1, records.2]
    exact h.records
  case loader records => exact h.onCl (records h.records)
  case stage => exact h.onJs ⟨hostSkips, exportSkips, tableQuota⟩
  case attachHost => exact (h.onJs ⟨hostSkips, exportSkips, tableQuota⟩).evalAvl
  case detachHost =>
    refine MoveLimits.evalAvl (MoveLimits.free ?_)
    exact h.onJs ⟨hostSkips, exportSkips, tableQuota⟩
  case releaseHost => exact h.onJs ⟨hostSkips, exportSkips, tableQuota⟩
  case rereadHost => exact (h.onJs ⟨hostSkips, exportSkips, tableQuota⟩).evalAvl
  case readByte => exact (h.onJs ⟨hostSkips, exportSkips, tableQuota⟩).evalAvl
  case seeSkip => exact h.onJs ⟨hostSkips, exportSkips, tableQuota⟩
  case threshold legal =>
    refine MoveLimits.evalAvl ?_
    exact ⟨h.faults, h.lost, legal h.threshold, h.store, h.aborts, h.lossCount, h.sinceSync, h.hold, h.records⟩
  case serve => exact h.onXl h.aborts
  case leave f _ kept => exact h.onXl (by rw [kept.2.2.1]; exact h.aborts)
  case fetch =>
    exact ⟨h.faults, h.lost, h.threshold, ⟨hostSkips, exportSkips, tableQuota⟩, h.aborts, h.lossCount, h.sinceSync,
      h.hold, h.records⟩
  case deliver => exact h.onXl h.aborts
  case withdraw f _ =>
    by_cases data : 0 < frameData f.frame
    · by_cases listed : s.xl.outstanding.getLast? = some f.frame
      · obtain ⟨older, split⟩ := List.getLast?_eq_some_iff.mp listed
        rw [withdrawFrame_listed data split]
        exact ⟨h.faults, h.lost, h.threshold, ⟨hostSkips, exportSkips, tableQuota⟩, satInc_le _ _, h.lossCount,
          h.sinceSync, h.hold, h.records⟩
      · rw [withdrawFrame_unlisted data listed]
        exact ⟨h.faults, h.lost, h.threshold, ⟨hostSkips, exportSkips, tableQuota⟩, satInc_le _ _, h.lossCount,
          h.sinceSync, h.hold, h.records⟩
    · rw [withdrawFrame_empty data]
      exact ⟨h.faults, h.lost, h.threshold, ⟨hostSkips, exportSkips, tableQuota⟩, h.aborts, h.lossCount, h.sinceSync,
        h.hold, h.records⟩
  case acknowledge => exact (h.onXl h.aborts).onJs ⟨hostSkips, exportSkips, tableQuota⟩
  case rewind => exact (h.onXl h.aborts).onJs ⟨hostSkips, exportSkips, tableQuota⟩
  case attachExport => exact (h.onJs ⟨hostSkips, exportSkips, tableQuota⟩).onXl h.aborts
  case attachLoaded => exact h.onJs ⟨hostSkips, exportSkips, tableQuota⟩
  case detachExport => exact (h.onXl h.aborts).onJs ⟨hostSkips, exportSkips, tableQuota⟩

theorem deviceReset_limits (b : Bool) (s : State) : MoveLimits (deviceReset b s) where
  faults := Nat.zero_le _
  lost := Nat.zero_le _
  threshold := ⟨by simp [deviceReset, HostWindow.reset], by simp [deviceReset, HostWindow.reset, Config.ringSize]⟩
  store := ⟨Nat.zero_le _, Nat.zero_le _, JournalTable.reset_legal.2.2.2⟩
  aborts := Nat.zero_le _
  lossCount := Nat.zero_le _
  sinceSync := Nat.zero_le _
  hold := ⟨by simp [deviceReset, TriggerUnit.reset], Nat.zero_le _, fun e => by cases e⟩
  records := ⟨Nat.zero_le _, Nat.zero_le _⟩

theorem act_limits (c : Instr) (h : MoveLimits s) : MoveLimits (act c s) := by
  refine act_keeps (P := MoveLimits) Move.limits (fun b s _ => deviceReset_limits b s) (fun v s h => ?_) (fun s h => ?_)
    (fun s h => ?_) c h
  · exact ⟨h.faults, h.lost, h.threshold, h.store, h.aborts, h.lossCount, h.sinceSync, h.hold, h.records⟩
  · exact ⟨by rw [writeFltnext_faults, List.length_tail]; exact (Nat.sub_le _ _).trans h.faults, h.lost, h.threshold,
      h.store, h.aborts, h.lossCount, h.sinceSync, h.hold, h.records⟩
  · exact ⟨Nat.zero_le _, Nat.zero_le _, h.threshold, h.store, h.aborts, h.lossCount, h.sinceSync, h.hold, h.records⟩

/-! ### The counts that turn -/

/-- The limits of the queue and of the time base's counts (R61, R91). -/
structure TurnLimits (s : State) : Prop where
  queue : s.oq.queue.length ≤ Config.queueCapacity
  trims : s.tb.trims ≤ 65535
  rejects : s.tb.rejects ≤ 2

theorem TurnLimits.of (h : TurnLimits s) (queue : t.oq.queue.length ≤ Config.queueCapacity) (tb : t.tb = s.tb) :
    TurnLimits t := ⟨queue, by rw [tb]; exact h.trims, by rw [tb]; exact h.rejects⟩

theorem offerEntry_length (e : Entry) (h : s.oq.queue.length ≤ Config.queueCapacity) :
    (offerEntry e s).oq.queue.length ≤ Config.queueCapacity := by
  rcases offerEntry_queue e s with same | ⟨-, taken⟩
  · rw [same]; exact h
  · rw [taken]; exact length_queueWith h

theorem offerEntries_length (es : List Entry) (h : s.oq.queue.length ≤ Config.queueCapacity) :
    (offerEntries es s).oq.queue.length ≤ Config.queueCapacity := by
  induction es generalizing s with
  | nil => exact h
  | cons e es ih => exact ih (offerEntry_length e h)

theorem Turn.limits (m : Turn c s t) (h : TurnLimits s) : TurnLimits t := by
  cases m
  case still k => exact h.of (by rw [k.oq]; exact h.queue) k.tb
  case calm k => exact h.of (by rw [k.oq]; exact h.queue) k.tb
  case channel ch d es _ _ => exact h.of (offerEntries_length es h.queue) (offerEntries_front es _).tb
  case offer e _ => exact h.of (offerEntry_length e h.queue) (offerEntry_front e s).tb
  case time turn => exact ⟨h.queue, turn.trims h.trims, turn.rejects h.rejects⟩
  case step S cause journaled _ _ =>
    obtain ⟨-, tb, oq, -⟩ := applyStep_front S cause journaled s
    refine ⟨?_, by rw [tb]; exact h.trims, by rw [tb]; exact h.rejects⟩
    rw [oq, rebaseQueue]
    split
    · simpa using h.queue
    · exact h.queue
  case release =>
    refine h.of ?_ (releaseHead_front s).tb
    unfold releaseHead
    split
    · exact h.queue
    · rename_i e rest queue
      rw [(handleEntry_frame _ _).queue]
      have := h.queue
      rw [queue] at this
      exact (Nat.le_succ _).trans this
  case close draining =>
    obtain ⟨-, tb, oq, -⟩ := closeDrain_front draining
    exact h.of (by rw [oq]; exact Nat.zero_le _) tb
  case openRun =>
    obtain ⟨-, tb, oq, -⟩ := openRun_front s
    exact h.of (by rw [oq]; exact h.queue) tb
  all_goals exact ⟨h.queue, h.trims, h.rejects⟩

/-- Settles O6: the moves keep the journal's, the hold's, the link's and the loader's limits, given a legal quota in the
journal table; the turns keep the queue's and the time base's. -/
theorem stepKeepsLimits : Obligations.StepKeepsLimits := by
  intro s t tables h step
  have moves : MoveLimits t := by
    refine step_keeps (P := MoveLimits) (fun _ _ _ h => ?_) (fun c _ h => act_limits c h) (fun _ _ h => ?_) step ?_
    · exact ⟨h.faults, h.lost, h.threshold, h.store, h.aborts, h.lossCount, h.sinceSync, h.hold, h.records⟩
    · exact ⟨h.faults, h.lost, h.threshold, h.store, h.aborts, h.lossCount, h.sinceSync, h.hold, h.records⟩
    · exact ⟨h.faults, h.lost, h.threshold, ⟨h.hostSkips, h.exportSkips, tables.q⟩, h.aborts, h.lossCount, h.sinceSync,
        ⟨h.quota, h.postTrigger, h.collecting⟩, h.records⟩
  have turns : TurnLimits t := by
    refine step_keeps (P := TurnLimits) (fun _ _ _ h => ⟨h.queue, h.trims, h.rejects⟩) (fun c _ h => ?_)
      (fun _ _ h => ⟨h.queue, h.trims, h.rejects⟩) step ⟨h.queue, h.trims, h.rejects⟩
    exact act_turned (P := TurnLimits) Turn.limits (fun _ _ => ⟨Nat.zero_le _, Nat.zero_le _, Nat.zero_le _⟩) c h
  exact ⟨turns.queue, moves.faults, moves.lost, moves.threshold, moves.store.hostSkips, moves.store.exportSkips,
    moves.aborts, moves.lossCount, moves.sinceSync, turns.trims, turns.rejects, moves.hold.quota, moves.hold.count,
    moves.hold.collecting, moves.records⟩

end Sys2Proof.Machine
end

section
/-! What the reset gives; the flags, the fault records and the counter under commands; the ways of the capture state; and
what happens when nothing does. -/

namespace Sys2Proof.Machine

variable {c : Instr} {s t : State}

/-! ### The reset -/

/-- The reset state is what a device reset makes of it (log entries 1 to 4). -/
theorem deviceReset_reset : deviceReset false State.reset = State.reset := by
  have channels : State.reset.icu.map (fun c => ChannelRec.reset c.line) = State.reset.icu := by
    simp [State.reset, ChannelRec.reset]
  unfold deviceReset
  rw [channels]
  rfl

theorem deviceReset_current (b : Bool) (s : State) : AvlCurrent (deviceReset b s) := by
  simp [AvlCurrent, deviceReset, hostUnread, unreadOf, Store.reset, Consumer.reset, FaultUnit.reset, HostWindow.reset]

/-- Settles O10: the reset state is itself what a device reset leaves, and every law holds of that. -/
theorem resetMeetsInvariants : Obligations.ResetMeetsInvariants := by
  intro t h
  obtain ⟨b, s, ram, rfl⟩ : ∃ b s, RamCanonical s ∧ t = deviceReset b s := by
    rcases h with rfl | ⟨b, s, ram, step⟩
    · exact ⟨false, State.reset, reset_ram_canonical, deviceReset_reset.symm⟩
    · exact ⟨b, s, ram, eq_act_of_exec step⟩
  have limits := deviceReset_limits b s
  have closed : runOpen (deviceReset b s) = false := by cases b <;> rfl
  refine ⟨deviceReset_sound b s, .of_closed closed rfl, (fun e he => by cases he), ?_, deviceReset_channelsSound b s,
    act_tbSound (.deviceReset b) (s := State.reset) ?_, deviceReset_legal b s, deviceReset_current b s, ram, fun _ => rfl,
    deviceReset_queueInOrder b s⟩
  · exact ⟨Nat.zero_le _, limits.faults, limits.lost, limits.threshold, limits.store.hostSkips, limits.store.exportSkips,
      limits.aborts, limits.lossCount, limits.sinceSync, Nat.zero_le _, Nat.zero_le _, limits.hold.quota,
      limits.hold.count, limits.hold.collecting, limits.records⟩
  · exact unsynced_sound (b := TimeBase.reset) rfl

/-- Settles O15: every block of a device reset is its reset value, field by field. -/
theorem deviceResetGivesResetValues : Obligations.DeviceResetGivesResetValues := by
  intro cfgld s
  refine ⟨deviceReset cfgld s, rfl, rfl, rfl, rfl, rfl, ⟨rfl, rfl, rfl, rfl, rfl, rfl, rfl, rfl⟩,
    ⟨rfl, rfl, rfl, rfl, rfl, ?rules⟩, ⟨rfl, rfl, rfl, rfl, rfl, ?phase, rfl⟩, rfl, rfl, ?channels⟩
  case rules =>
    intro i
    simp [deviceReset, TriggerUnit.reset, TriggerRule.reset]
  case phase =>
    show phaseAfterReset s.xl.phase = _
    cases s.xl.phase <;> rfl
  case channels =>
    intro ch
    simp [deviceReset, ChannelRec.reset, ChanDesc.reset]

/-! ### Flags, fault records and the counter -/

/-- A turn of a command that does not step the time leaves the counter (R90). -/
theorem Turn.counter (steps : stepsTime c = false) (m : Turn c s t) : t.tb.counter = s.tb.counter := by
  cases m
  case still h => rw [h.tb]
  case calm h => rw [h.tb]
  case channel ch d es _ _ => rw [(offerEntries_front es _).tb]; rfl
  case offer e _ => rw [(offerEntry_front e s).tb]
  case time turn => exact turn.counter
  case step stepped _ => rw [stepped] at steps; cases steps
  case release => rw [(releaseHead_front s).tb]
  case close draining => rw [(closeDrain_front draining).2.1]
  case openRun => rw [(openRun_front s).2.1]
  all_goals rfl

/-- A flag stays set under changes that only raise flags. -/
theorem flags_of_sticky {a b : BitVec 8} (sticky : a &&& b = a) : ∀ i < 8, a.getLsbD i = true → b.getLsbD i = true :=
  fun _ _ h => getLsbD_of_sticky sticky h

/-- Settles O12: the moves only raise flags, append records and count losses, and the four commands that clear them clear
what they name; no turn but a step moves the counter. -/
theorem flagsFaultsAndCounterHold : Obligations.FlagsFaultsAndCounterHold := by
  intro c s t wellFormed reset h
  rw [eq_act_of_exec h]
  have own := ownOperands_of_wellFormed wellFormed
  refine ⟨fun notIrqf => ?flags, fun notNext notClear => ?records, fun notPulse notSet => ?counter⟩
  case flags =>
    refine flags_of_sticky ?_
    cases log : clearsLog c
    case false => exact (act_logKept own log s).sticky
    case true =>
      cases c <;> first | (cases log; done) | skip
      case deviceReset b => exact absurd rfl (reset b)
      case clearFaults =>
        show s.ifu.irqf &&& (request commandClearFaults s).ifu.irqf = s.ifu.irqf
        unfold request
        split_ifs
        · exact BitVec.and_self
        · exact sticky_or _ _
        · exact sticky_or _ _
      case fltnextWrite v => exact BitVec.and_self
      case irqfWrite v => exact absurd rfl (notIrqf v)
  case records =>
    cases log : clearsLog c
    case false => exact ⟨(act_logKept own log s).faults, (act_logKept own log s).lost⟩
    case true =>
      cases c <;> first | (cases log; done) | skip
      case deviceReset b => exact absurd rfl (reset b)
      case clearFaults => exact absurd rfl notClear
      case fltnextWrite v => exact absurd rfl (notNext v)
      case irqfWrite v => exact ⟨List.prefix_rfl, fun bound => ⟨le_rfl, bound⟩⟩
  case counter =>
    refine (act_turns own reset s).keep (P := fun t => t.tb.counter = s.tb.counter) (fun m e => (m.counter ?_).trans e) rfl
    unfold stepsTime
    split
    · exact absurd rfl (notPulse _)
    · exact absurd rfl notSet
    · rfl

/-! ### The ways of the capture state -/

/-- From `s` to `t` the capture state stays, or a HOLD-STOP hold has closed in RUNNING and begun a drain (R55); a closed
hold stays, and flags are only raised. -/
structure StopOnly (s t : State) : Prop where
  state : t.oq.state = s.oq.state ∨ (s.oq.state = .running ∧ t.oq.state = .draining ∧ t.tu.hold = .closed ∧
    t.tu.action = .holdStop ∧ t.ifu.irqf.getLsbD 2 = true)
  closed : s.tu.hold = .closed → t.tu.hold = .closed ∧ t.tu.action = s.tu.action
  sticky : s.ifu.irqf &&& t.ifu.irqf = s.ifu.irqf

theorem StopOnly.trans {u : State} (h : StopOnly s t) (g : StopOnly t u) : StopOnly s u where
  state := by
    rcases h.state with same | ⟨run, drains, hold, action, flag⟩
    · rw [← same]
      exact g.state
    · obtain ⟨hold', action'⟩ := g.closed hold
      rcases g.state with same' | ⟨run', -⟩
      · exact .inr ⟨run, same'.trans drains, hold', action'.trans action, getLsbD_of_sticky g.sticky flag⟩
      · rw [drains] at run'; cases run'
  closed := fun hold =>
    have first := h.closed hold
    have last := g.closed first.1
    ⟨last.1, last.2.trans first.2⟩
  sticky := sticky_trans h.sticky g.sticky

/-- Changes elsewhere. -/
theorem StopOnly.of_blocks (oq : t.oq.state = s.oq.state) (tu : t.tu.hold = s.tu.hold ∧ t.tu.action = s.tu.action)
    (ifu : t.ifu = s.ifu) : StopOnly s t :=
  ⟨.inl oq, fun h => ⟨tu.1.trans h, tu.2⟩, by rw [ifu]; exact BitVec.and_self⟩

theorem Still.stopOnly (h : Still s t) : StopOnly s t :=
  ⟨.inl (by rw [h.oq]), fun closed => ⟨by rw [h.tu]; exact closed, by rw [h.tu]⟩, h.sticky⟩

theorem handleEntry_stopOnly (e : Entry) (s : State) : StopOnly s (handleEntry e s) where
  state := by
    rcases handleEntry_oq e s with same | stopped
    · exact .inl (by rw [same])
    · exact .inr ⟨stopped.running, by rw [stopped.oq], stopped.hold, stopped.action, stopped.flag⟩
  closed := fun closed => by rw [handleEntry_closed closed]; exact ⟨closed, rfl⟩
  sticky := (handleEntry_frame e s).sticky

/-- An entry handled behind a change of the queue. -/
theorem handleEntry_onOq_stopOnly (e : Entry) (q : List Entry) (s : State) :
    StopOnly s (handleEntry e (s.onOq fun o => { o with queue := q })) := by
  have queued : StopOnly s (s.onOq fun o => { o with queue := q }) := .of_blocks rfl ⟨rfl, rfl⟩ rfl
  exact queued.trans (handleEntry_stopOnly e _)

theorem takeEntry_stopOnly (e : Entry) (s : State) : StopOnly s (takeEntry e s) := by
  unfold takeEntry
  split
  · exact .of_blocks rfl ⟨rfl, rfl⟩ rfl
  · split
    · exact .of_blocks rfl ⟨rfl, rfl⟩ rfl
    · rename_i first rest _
      have queued : StopOnly s (s.onOq fun o => { o with queue := rest }) := .of_blocks rfl ⟨rfl, rfl⟩ rfl
      exact (queued.trans (logFault_still _ _ _).stopOnly).trans (handleEntry_stopOnly first _)

theorem offerEntry_stopOnly (e : Entry) (s : State) : StopOnly s (offerEntry e s) := by
  rcases offerEntry_cases e s with ⟨-, h⟩ | h <;> rw [h]
  · exact takeEntry_stopOnly e s
  · exact .of_blocks rfl ⟨rfl, rfl⟩ rfl

theorem offerEntries_stopOnly (es : List Entry) (s : State) : StopOnly s (offerEntries es s) := by
  induction es generalizing s with
  | nil => exact .of_blocks rfl ⟨rfl, rfl⟩ rfl
  | cons e es ih => exact (offerEntry_stopOnly e s).trans (ih _)

theorem applyStep_stopOnly (S : Int) (cause : StepCause) (journaled : Bool) (s : State) :
    StopOnly s (applyStep S cause journaled s) := by
  obtain ⟨-, -, oq, tu, -⟩ := applyStep_front S cause journaled s
  refine ⟨.inl ?_, fun closed => ⟨by rw [tu]; exact closed, by rw [tu]⟩, ?_⟩
  · rw [oq]
    unfold rebaseQueue
    split <;> rfl
  · rw [applyStep_eq]
    refine sticky_trans ?_ (encoderStep_frame S cause journaled (stampsMoved S s)).sticky
    obtain ⟨n, hn⟩ := clampDetails_blocks S s
    have logged := (logFaults_frame .clamp (clampDetails S s).1
      (rebaseQueue S (((clampDetails S s).2.onTb (stepTimeBase S)).onIcu fun v => v.map (rebaseChannel S)))).sticky
    have same : (rebaseQueue S (((clampDetails S s).2.onTb (stepTimeBase S)).onIcu fun v =>
        v.map (rebaseChannel S))).ifu = s.ifu := by
      rw [hn]
      unfold rebaseQueue
      split <;> rfl
    rw [same] at logged
    exact logged

/-- A turn of a command that sets no capture state by itself. -/
theorem Turn.stopOnly (sets : setsCapture c = false) (calm : isCalm c = false) (m : Turn c s t) : StopOnly s t := by
  have never {p : Prop} (w : setsCapture c = true) : p := by rw [w] at sets; cases sets
  cases m
  case still h => exact h.stopOnly
  case calm is _ =>
    rcases is with w | w
    · rw [w] at calm; cases calm
    · exact never w
  case channel ch d es _ _ =>
    have set : StopOnly s (setChannel ch d s) := .of_blocks rfl ⟨rfl, rfl⟩ rfl
    exact set.trans (offerEntries_stopOnly es _)
  case offer e _ => exact offerEntry_stopOnly e s
  case step S cause journaled _ _ => exact applyStep_stopOnly S cause journaled s
  case release =>
    unfold releaseHead
    split
    · exact .of_blocks rfl ⟨rfl, rfl⟩ rfl
    · exact handleEntry_onOq_stopOnly _ _ s
  case close w _ => exact never w
  case openRun w _ => exact never w
  case drain w _ => exact never w
  case load w _ => exact never w
  case shut w _ _ => exact never w
  all_goals exact .of_blocks rfl ⟨rfl, rfl⟩ rfl

/-- A CMD write that is refused leaves capture control. -/
theorem request_oq {body : State → State} (h : t.oq = (request body s).oq) :
    t.oq = s.oq ∨ (s.oq.state ≠ .loading ∧ t.oq = (body s).oq) := by
  unfold request at h
  split_ifs at h with busy loading
  · exact .inl h
  · exact .inl h
  · exact .inr ⟨loading, h⟩

theorem requestStart_oq (s : State) :
    (requestStart s).2.oq = s.oq ∨ (s.oq.state = .stopped ∧ (requestStart s).2.oq.state = .running) := by
  unfold requestStart
  split
  · rename_i stopped
    dsimp only
    have room := makeRoom_frame (fits syncLength true) s
    split
    · exact .inr ⟨stopped, by rw [(openRun_front _).2.2.1]⟩
    · exact .inl room.oq
  · exact .inl rfl

/-- A failed check ends the load with STP (R187). -/
theorem failLoad_end (reason : Byte) (s : State) :
    (failLoad reason s).oq.state = .stopped ∧ (failLoad reason s).ifu.irqf.getLsbD 6 = true := by
  unfold failLoad completeReload
  dsimp only
  split <;> refine ⟨rfl, ?_⟩ <;> simp [setFlag, complete, flagStp, flagCmd]

theorem takeHeader_end (format version low high flags : Byte) (s : State) :
    (takeHeader format version low high flags s).oq = s.oq ∨
      ((takeHeader format version low high flags s).oq.state = .stopped ∧
        (takeHeader format version low high flags s).ifu.irqf.getLsbD 6 = true) := by
  unfold takeHeader
  split_ifs
  · exact .inr (failLoad_end _ _)
  · exact .inr (failLoad_end _ _)
  · exact .inr (failLoad_end _ _)
  · exact .inl rfl

theorem takeRecord_end (table index : Byte) (entry : EntryBytes) (s : State) :
    (takeRecord table index entry s).oq = s.oq ∨
      ((takeRecord table index entry s).oq.state = .stopped ∧
        (takeRecord table index entry s).ifu.irqf.getLsbD 6 = true) := by
  unfold takeRecord
  dsimp only
  split
  · exact .inr (failLoad_end _ _)
  · exact .inl rfl

theorem takeCrc_end (low high : Byte) (s : State) :
    (takeCrc low high s).oq = s.oq ∨
      ((takeCrc low high s).oq.state = .stopped ∧ (takeCrc low high s).ifu.irqf.getLsbD 6 = true) := by
  unfold takeCrc
  split
  · exact .inl rfl
  · exact .inr (failLoad_end _ _)

theorem completeReload_oq (s : State) : (completeReload s).oq = s.oq := by
  unfold completeReload
  split <;> rfl

/-- A row of the loader that is taken only while the loader is at work, and that ends a load only with STP. -/
theorem load_ends {p : Prop} [Decidable p] {u : State} (loader : s.cl.state ≠ .idle → s.oq.state = .loading)
    (taken : p → s.cl.state ≠ .idle) (ends : u.oq = s.oq ∨ (u.oq.state = .stopped ∧ u.ifu.irqf.getLsbD 6 = true))
    (e : t = if p then u else s) (moved : t.oq.state ≠ s.oq.state) :
    s.oq.state = .loading ∧ t.oq.state = .stopped ∧ s.cl.state ≠ .idle ∧ t.ifu.irqf.getLsbD 6 = true := by
  split at e
  · subst e
    obtain ⟨stopped, flag⟩ := ends.resolve_left fun same => moved (by rw [same])
    exact ⟨loader (taken ‹_›), stopped, taken ‹_›, flag⟩
  · exact absurd (by rw [e]) moved

/-- A load that ended with STP, as the last of the ways of the capture state (R187). -/
theorem transition_of_load {c : Instr} (h : s.oq.state = .loading ∧ t.oq.state = .stopped ∧ s.cl.state ≠ .idle ∧
    t.ifu.irqf.getLsbD 6 = true) : s.oq.state = .loading ∧ t.oq.state = .stopped ∧ s.cl.state ≠ .idle ∧
      (c = .applyingDone ∨ t.ifu.irqf.getLsbD 6 = true) := by
  obtain ⟨loading, stopped, working, flag⟩ := h
  exact ⟨loading, stopped, working, .inr flag⟩

/-- Settles O13: a command that sets no capture state can only close a HOLD-STOP hold; the others are taken one by one. -/
theorem captureStateTransitions : Obligations.CaptureStateTransitions := by
  intro c s t wellFormed reset loader h moved
  obtain rfl := eq_act_of_exec h
  have own := ownOperands_of_wellFormed wellFormed
  cases sets : setsCapture c
  case false =>
    cases calm : isCalm c
    case true => exact absurd (by rw [(act_calm own calm s).oq]) moved
    case false =>
      have stop : StopOnly s (act c s) :=
        (act_turns own reset s).keep (P := StopOnly s) (fun m k => k.trans (m.stopOnly sets calm))
          (.of_blocks rfl ⟨rfl, rfl⟩ rfl)
      obtain ⟨run, drains, closed⟩ := stop.state.resolve_left moved
      exact .inr (.inr (.inl ⟨run, drains, .inr closed⟩))
  case true =>
    have unmoved {p : Prop} (same : (act c s).oq = s.oq) : p := absurd (congrArg Capture.state same) moved
    cases c <;> first | (cases sets; done) | skip
    case start =>
      rcases request_oq (body := commandStart) (s := s) rfl with same | ⟨-, body⟩
      · exact unmoved same
      · rcases requestStart_oq s with same | ⟨stopped, running⟩
        · exact unmoved (body.trans same)
        · exact .inl ⟨stopped, (congrArg Capture.state body).trans running, .inl rfl⟩
    case stop =>
      rcases request_oq (body := commandStop) (s := s) rfl with same | ⟨-, body⟩
      · exact unmoved same
      · unfold commandStop at body
        split at body
        · exact .inr (.inr (.inl ⟨‹_›, congrArg Capture.state body, .inl rfl⟩))
        · exact unmoved body
    case reload =>
      rcases request_oq (body := commandReload) (s := s) rfl with same | ⟨-, body⟩
      · exact unmoved same
      · unfold commandReload at body
        split at body
        · exact .inr (.inl ⟨‹_›, congrArg Capture.state body, rfl⟩)
        · exact unmoved body
    case drainExpiry =>
      have e : act .drainExpiry s = if drainDue s then closeDrain s else s := rfl
      rw [e] at moved ⊢
      split at moved
      · rename_i due
        have draining : s.oq.state = .draining := by
          simp only [drainDue, Bool.and_eq_true, beq_iff_eq] at due
          exact due.1
        rw [if_pos due]
        refine .inr (.inr (.inr (.inl ⟨draining, ?_, rfl⟩)))
        rw [(closeDrain_front draining).2.2.1]
      · exact absurd rfl moved
    case applyingDone =>
      have e : act .applyingDone s = if s.cl.state = .applying then finishLoad s else s := rfl
      rw [e] at moved ⊢
      split at moved
      · rename_i applying
        have working : s.cl.state ≠ .idle := by simp [applying]
        rw [if_pos applying]
        refine .inr (.inr (.inr (.inr ⟨loader working, ?_, working, .inl rfl⟩)))
        rw [finishLoad_eq]
        dsimp only
        split
        · rfl
        · rw [completeReload_oq]; rfl
      · exact absurd rfl moved
    case autoStart =>
      have e : act .autoStart s = if s.cl.autoStartDue then takeAutoStart s else s := rfl
      rw [e] at moved ⊢
      split at moved
      · rename_i due
        rw [if_pos due]
        unfold takeAutoStart at moved ⊢
        rw [completeReload_oq] at moved ⊢
        rcases requestStart_oq (s.onCl fun c => { c with autoStartDue := false }) with same | ⟨stopped, running⟩
        · exact absurd (congrArg Capture.state same) moved
        · exact .inl ⟨stopped, running, .inr rfl⟩
      · exact absurd rfl moved
    case loadHeaderReceived format version low high flags =>
      exact .inr (.inr (.inr (.inr (transition_of_load
        (load_ends loader (fun h => by simp [h.1]) (takeHeader_end _ _ _ _ _ s) rfl moved)))))
    case loadRecordReceived table index entry =>
      exact .inr (.inr (.inr (.inr (transition_of_load
        (load_ends loader (fun h => by simp [h.1]) (takeRecord_end _ _ _ s) rfl moved)))))
    case loadCrcReceived low high =>
      exact .inr (.inr (.inr (.inr (transition_of_load
        (load_ends loader (fun h => by simp [h.1]) (takeCrc_end _ _ s) rfl moved)))))

end Sys2Proof.Machine
end

section
/-! The step itself, the idle microsecond, expiries that have not come, and what a raw edge does to a channel. -/

namespace Sys2Proof.Machine

/-- Settles O1: `step` is `exec` on the front command. -/
theorem stepTakesFrontCommand : Obligations.StepTakesFrontCommand := fun _ _ _ => rfl

/-- Settles O3: with nothing waiting and nothing due, a step is `tick`. -/
theorem idlePartCountsOneMicrosecond : Obligations.IdlePartCountsOneMicrosecond := by
  intro s none due
  have step_eq : step s = .next (tick s) := by
    unfold step idle
    rw [none, due]
  refine ⟨tick s, step_eq, rfl, ?_, fun ch => ?_, rfl⟩
  · unfold tick
    simp only [State.onIcu_tb, State.onTb_tb]
    cases s.tb.holdover <;> rfl
  · show (s.icu.map tickChannel)[ch.val] = _
    rw [Vector.getElem_map]
    rfl

/-! ### Expiries that have not come -/

theorem timerDue_some {x : Timer} : timerDue (some x) = decide (x.length ≤ x.elapsed) := rfl

/-- Settles O16: an expiry's row is guarded by its timer, or by the counter having reached its time. -/
theorem earlyExpiryChangesNothing : Obligations.EarlyExpiryChangesNothing := by
  intro s ch
  have early {c : Instr} {due : Bool} {f : State → State} (h : due = false)
      (e : exec c s = .next (if due then f s else s)) : exec c s = .next s := by
    rw [e, h]; rfl
  refine ⟨fun h => early ?_ rfl, fun x h short => early ?_ rfl, fun x h short => early ?_ rfl,
    fun x h short => early ?_ rfl, fun r h before => early ?_ rfl, fun n h short => early ?_ rfl,
    fun e rest h before => early ?_ rfl, fun before => early ?_ rfl⟩
  · rw [settleDue, h]; simp [timerDue]
  · rw [settleDue, h, timerDue_some]; simp [short]
  · rw [windowDue, h, timerDue_some]; simp [short]
  · rw [quietDue, h, timerDue_some]; simp [short]
  · unfold timeoutDue
    rw [h]
    simp [reached, lockMicros, before]
  · unfold holdoverDue
    rw [h]
    simp [short]
  · unfold horizonDue
    rw [h]
    simp [reached, before]
  · unfold drainDue
    simp [reached, before]

/-! ### Raw edges -/

/-- A raw edge of a channel that does not accept it at once (R74, R77, R78, R82). -/
theorem exec_rawEdge_set {ch : Channel} {s : State} {d : ChannelRec}
    (waits : acceptsAtEdge { s.icu[ch] with line := !s.icu[ch].line } = false)
    (h : edgeChannel s.tb.counter { s.icu[ch] with line := !s.icu[ch].line } = d) :
    exec (.rawEdge ch) s = .next { s with icu := s.icu.set ch d } := by
  show Host.Outcome.next (takeEdge ch (setChannel ch { s.icu[ch] with line := !s.icu[ch].line } s)) = _
  rw [takeEdge_eq, setChannel_get, waits, if_neg (by simp), setChannel_setChannel, setChannel_tb, h]
  rfl

/-- A raw edge accepted at once (R77). -/
theorem exec_rawEdge_accept {ch : Channel} {s : State}
    (accepts : acceptsAtEdge { s.icu[ch] with line := !s.icu[ch].line } = true) :
    exec (.rawEdge ch) s =
      .next (acceptChange ch s.tb.counter (setChannel ch { s.icu[ch] with line := !s.icu[ch].line } s)) := by
  show Host.Outcome.next (takeEdge ch (setChannel ch { s.icu[ch] with line := !s.icu[ch].line } s)) = _
  rw [takeEdge_eq, setChannel_get, accepts, if_pos rfl, setChannel_tb]

/-- Acceptance of a channel in the state it has. -/
theorem acceptLevel_of_state {c : ChannelRec} {st : ChanState} (h : c.state = st) :
    acceptLevel st c = { c with accepted := lineLevel c, stamp := none, settle := none } := by
  cases h; rfl

/-- Settles O17: one clause of the edge table for each channel state. -/
theorem rawEdgeDrivesDebouncing : Obligations.RawEdgeDrivesDebouncing := by
  intro ch s c level seen settle quiet becomes
  have seenLevel : lineLevel seen = level := lineLevel_flip c
  have waits (h : seen.state ≠ .stable ∨ seen.desc.settle ≠ 0#8) : acceptsAtEdge seen = false := by
    rcases h with h | h <;> simp [acceptsAtEdge, h]
  have moved (differs : level ≠ c.accepted) : lineLevel seen ≠ seen.accepted := seenLevel.trans_ne differs
  have set {d : ChannelRec} (waits : acceptsAtEdge seen = false) (h : edgeChannel s.tb.counter seen = d) : becomes d :=
    exec_rawEdge_set waits h
  refine ⟨fun h => ?_, fun h differs later => ?_, fun h differs now closed => ?_, fun h back => ?_,
    fun h differs later => ?_, fun h differs now => ?_, fun h back => ?_⟩ <;> replace h : seen.state = _ := h
  · exact set (waits (.inl (by simp [h]))) (edgeChannel_off _ h)
  · exact set (waits (.inr later)) (edgeChannel_stable _ h (moved differs))
  · have accepts : acceptsAtEdge seen = true := by
      have instant : seen.desc.settle = 0#8 := now
      simp [acceptsAtEdge, h, instant, moved differs]
    refine (exec_rawEdge_accept accepts).trans ?_
    rw [acceptChange_eq, setChannel_get, setChannel_runOpen, closed, setChannel_setChannel]
    refine congrArg (fun d => Host.Outcome.next (setChannel ch d s)) ((acceptLevel_of_state h).trans ?_)
    rw [seenLevel]
  · exact set (waits (.inl (by simp [h]))) (edgeChannel_settling _ h (seenLevel.trans back))
  · exact set (waits (.inr later)) ((edgeChannel_suppressed _ h (moved differs)).trans (if_neg later))
  · refine set (waits (.inl (by simp [h]))) ((edgeChannel_suppressed _ h (moved differs)).trans ((if_pos now).trans ?_))
    refine (acceptLevel_of_state (c := { seen with quiet }) h).trans ?_
    rw [← seenLevel]
    rfl
  · exact set (waits (.inl (by simp [h]))) (edgeChannel_suppressedSettling _ h (seenLevel.trans back))

end Sys2Proof.Machine
end

section
/-! Entries that join the queue: which are taken, where several of one rank stand, and what an acceptance of a channel
offers. -/

namespace Sys2Proof.Machine

/-! ### Arrivals of one rank -/

/-- Two entries that the queue cannot tell apart: the same stamp and the same order key (R62). -/
def SameRank (e f : Entry) : Prop := f.stamp = e.stamp ∧ orderKey f = orderKey e

theorem SameRank.precedes_eq {e f : Entry} (h : SameRank e f) : precedes f = precedes e := by
  obtain ⟨stamp, key⟩ := h
  funext x
  simp only [precedes, stamp, key]

theorem precedes_self (e : Entry) : precedes e e = true := by simp [precedes]

/-- An arrival stands behind the last entry that stays ahead of it (R62). -/
theorem placeEntry_behind {e x : Entry} {m : List Entry} (ahead : precedes e x = true)
    (behind : ∀ y ∈ m, precedes e y = false) (l : List Entry) : placeEntry e (l ++ x :: m) = l ++ x :: e :: m := by
  induction l with
  | nil =>
    have last : placeEntry e m = e :: m := by
      cases m with
      | nil => rfl
      | cons y ys =>
        unfold placeEntry
        rw [if_neg]
        simpa using behind
    show placeEntry e (x :: m) = x :: e :: m
    unfold placeEntry
    rw [if_pos (by simp [ahead]), last]
  | cons y ys ih =>
    show placeEntry e (y :: (ys ++ x :: m)) = _
    unfold placeEntry
    rw [if_pos (by simp [ahead]), ih]
    rfl

/-- The queue with entries placed one after another. -/
def placeAll (es q : List Entry) : List Entry := es.foldl (fun r e => placeEntry e r) q

theorem length_placeAll (es q : List Entry) : (placeAll es q).length = q.length + es.length := by
  induction es generalizing q with
  | nil => rfl
  | cons e es ih => rw [placeAll, List.foldl_cons]; exact (ih _).trans (by rw [length_placeEntry]; simp; omega)

theorem placeAll_behind {e : Entry} {more m : List Entry} (rank : ∀ f ∈ more, SameRank e f)
    (behind : ∀ y ∈ m, precedes e y = false) (l : List Entry) :
    placeAll more (l ++ e :: m) = l ++ e :: more ++ m := by
  induction more generalizing e l with
  | nil => simp [placeAll]
  | cons f more ih =>
    have same := rank f List.mem_cons_self
    have placed : placeEntry f (l ++ e :: m) = (l ++ [e]) ++ f :: m := by
      rw [placeEntry_behind (by rw [same.precedes_eq]; exact precedes_self e) (by rwa [same.precedes_eq])]
      simp
    have rest : ∀ g ∈ more, SameRank f g := fun g hg =>
      have other := rank g (List.mem_cons_of_mem f hg)
      ⟨other.1.trans same.1.symm, other.2.trans same.2.symm⟩
    rw [placeAll, List.foldl_cons, placed]
    refine (ih rest (by rwa [same.precedes_eq]) (l ++ [e])).trans ?_
    simp

/-- Arrivals of one rank stand together (R62). -/
theorem placeAll_joined {e : Entry} {more : List Entry} (rank : ∀ f ∈ more, SameRank e f) (q : List Entry) :
    JoinedQueue e (e :: more) q (placeAll (e :: more) q) := by
  obtain ⟨l, m, split, placed, last, behind⟩ := placeEntry_split e q
  refine ⟨l, m, split, ?_, fun x hx => precedes_iff.mp (last x hx), fun x hx stays => ?_⟩
  · rw [placeAll, List.foldl_cons, placed]
    exact placeAll_behind rank behind l
  · have := behind x hx
    rw [precedes_iff.mpr stays] at this
    cases this

/-! ### Offers with room -/

/-- Whether capture control takes an offered entry (R56, R65). -/
def takesOffer (e : Entry) (q : Capture) : Bool :=
  match q.state with
  | .running => true
  | .draining => isChannelEntry e && isBefore e.stamp q.stopStamp
  | .stopped => false
  | .loading => false

theorem offerEntry_eq (e : Entry) (s : State) : offerEntry e s = if takesOffer e s.oq then takeEntry e s else s := by
  unfold offerEntry takesOffer
  cases s.oq.state <;> rfl

theorem takeEntry_room {s : State} (room : s.oq.queue.length < 32) (e : Entry) :
    takeEntry e s = s.onOq fun q => { q with queue := placeEntry e q.queue } := if_pos room

theorem offerEntries_taken {es : List Entry} {s : State} (taken : ∀ e ∈ es, takesOffer e s.oq = true)
    (room : s.oq.queue.length + es.length ≤ 32) :
    offerEntries es s = s.onOq fun q => { q with queue := placeAll es q.queue } := by
  induction es generalizing s with
  | nil => rfl
  | cons e es ih =>
    simp only [List.length_cons] at room
    have first : offerEntry e s = s.onOq fun q => { q with queue := placeEntry e q.queue } := by
      rw [offerEntry_eq, if_pos (taken e List.mem_cons_self), takeEntry_room (by omega)]
    show offerEntries es (offerEntry e s) = _
    rw [first]
    exact ih (fun f hf => taken f (List.mem_cons_of_mem e hf)) (by simp only [State.onOq_oq, length_placeEntry]; omega)

theorem offerEntries_refused {es : List Entry} {s : State} (refused : ∀ e ∈ es, takesOffer e s.oq = false) :
    offerEntries es s = s := by
  induction es with
  | nil => rfl
  | cons e es ih =>
    have first : offerEntry e s = s := by
      rw [offerEntry_eq, refused e List.mem_cons_self, if_neg (by simp)]
    show offerEntries es (offerEntry e s) = s
    rw [first]
    exact ih fun f hf => refused f (List.mem_cons_of_mem e hf)

/-- The state of a channel set and a queue changed, as the obligations write it. -/
def withQueue (q : List Entry) (s : State) : State := { s with oq := { s.oq with queue := q } }

/-- Offered entries of one rank that are taken with room stand together in the queue (R62). -/
theorem offerEntries_joined {e : Entry} {more : List Entry} {s : State}
    (taken : ∀ x ∈ e :: more, takesOffer x s.oq = true) (rank : ∀ f ∈ more, SameRank e f)
    (room : s.oq.queue.length + (e :: more).length ≤ 32) :
    ∃ q, JoinedQueue e (e :: more) s.oq.queue q ∧ offerEntries (e :: more) s = withQueue q s :=
  ⟨_, placeAll_joined rank _, offerEntries_taken taken room⟩

theorem takesOffer_running {s : State} (running : s.oq.state = .running) (e : Entry) : takesOffer e s.oq = true := by
  simp [takesOffer, running]

theorem takesOffer_draining {s : State} (draining : s.oq.state = .draining) {e : Entry} (channel : isChannelEntry e = true) :
    takesOffer e s.oq = isBefore e.stamp s.oq.stopStamp := by
  simp [takesOffer, draining, channel]

/-- Outside RUNNING and DRAINING nothing is offered (R65). -/
theorem takesOffer_closed {s : State} (closed : runOpen s = false) (e : Entry) : takesOffer e s.oq = false := by
  unfold takesOffer
  cases state : s.oq.state <;> simp [runOpen, state] at closed ⊢

/-! ### Acceptances -/

theorem countAcceptance_uncounted {c : ChannelRec} (off : c.desc.chatterLimit = 0#8) (run : Bool) :
    countAcceptance (countsChatter run c) c = (false, acceptLevel .stable c) := by
  simp [countAcceptance, countsChatter, off]

theorem countAcceptance_below {c : ChannelRec} (below : c.chatterCount + 1 < c.desc.chatterLimit.toNat) :
    countAcceptance (countsChatter true c) c =
      (false, { acceptLevel .stable c with
        chatterCount := c.chatterCount + 1,
        window := if c.chatterCount = 0 then startTimer (windowMicros c.desc) else c.window }) := by
  have counts : countsChatter true c = true := by
    have : c.desc.chatterLimit ≠ 0#8 := fun h => by rw [h] at below; simp at below
    simp [countsChatter, this]
  simp [countAcceptance, counts, below.ne]

theorem countAcceptance_reached {c : ChannelRec} (reached : c.chatterCount + 1 = c.desc.chatterLimit.toNat) :
    countAcceptance (countsChatter true c) c =
      (true, { acceptLevel .stable c with
        state := .suppressed, chatterCount := 0, window := none, quiet := startTimer (quietMicros c.desc) }) := by
  have counts : countsChatter true c = true := by
    have : c.desc.chatterLimit ≠ 0#8 := fun h => by rw [h] at reached; simp at reached
    simp [countsChatter, this]
  simp [countAcceptance, counts, reached]

/-- Command `i` accepts a change of channel `ch`, which stands as `c` before it, with the given stamp (R77, R79). -/
def Accepts (i : Instr) (ch : Channel) (c : ChannelRec) (stamp : Time) (s : State) : Prop :=
  exec i s = .next (acceptChange ch stamp (setChannel ch c s))

/-- A settle expiry accepts with the first-edge stamp, which a settling channel holds (R79). -/
theorem accepts_settleDue {ch : Channel} {s : State} {x : Timer} (state : s.icu[ch].state = .settling)
    (settle : s.icu[ch].settle = some x) (due : x.length ≤ x.elapsed) :
    Accepts (.settleExpiry ch) ch s.icu[ch] (s.icu[ch].stamp.getD s.tb.counter) s := by
  have come : settleDue s.icu[ch] = true := by
    rw [settleDue, holdsStamp, state, settle, timerDue_some]
    simp [due]
  show Host.Outcome.next (if settleDue s.icu[ch] then settleExpires ch s else s) = _
  rw [if_pos come]
  unfold settleExpires
  dsimp only
  rw [if_pos state]
  exact congrArg (fun t => Host.Outcome.next (acceptChange ch _ t)) (setChannel_self ch s).symm

theorem accepts_settleExpiry {ch : Channel} {s : State} {x : Timer} {stamp : Time} (state : s.icu[ch].state = .settling)
    (settle : s.icu[ch].settle = some x) (due : x.length ≤ x.elapsed) (stamped : s.icu[ch].stamp = some stamp) :
    Accepts (.settleExpiry ch) ch s.icu[ch] stamp s := by
  have accepts := accepts_settleDue state settle due
  rwa [stamped] at accepts

theorem accepts_rawEdge {ch : Channel} {s : State} (state : s.icu[ch].state = .stable)
    (differs : (!(s.icu[ch].line ^^ s.icu[ch].desc.invert)) ≠ s.icu[ch].accepted) (now : s.icu[ch].desc.settle = 0#8) :
    Accepts (.rawEdge ch) ch { s.icu[ch] with line := !s.icu[ch].line } s.tb.counter s := by
  refine exec_rawEdge_accept ?_
  rw [acceptsAtEdge, lineLevel_flip]
  simp only [state, now, lineLevel, bne_iff_ne.mpr differs, beq_self_eq_true, Bool.and_self]

section
variable {i : Instr} {ch : Channel} {c d : ChannelRec} {stamp : Time} {s : State} {suppressed : Bool}

/-- An acceptance with its count settled. -/
theorem Accepts.offers (h : Accepts i ch c stamp s) (run : runOpen s = true)
    (counted : countAcceptance (countsChatter true c) c = (suppressed, d)) :
    exec i s = .next (offerEntries (acceptanceEntries ch (lineLevel c) stamp suppressed) (setChannel ch d s)) := by
  refine h.trans ?_
  rw [acceptChange_eq, setChannel_get, setChannel_runOpen, run, setChannel_setChannel, acceptedEntries, counted]
  rfl

/-- An acceptance outside a run sets the channel alone (R87). -/
theorem Accepts.closed (h : Accepts i ch c stamp s) (closed : runOpen s = false) :
    exec i s = .next (setChannel ch (acceptLevel .stable c) s) := by
  refine h.trans ?_
  rw [acceptChange_eq, setChannel_get, setChannel_runOpen, closed, setChannel_setChannel]
  rfl

/-- The entries behind the CHANGE of an acceptance (R80). -/
def suppressBehind (ch : Channel) (level : Bool) (stamp : Time) (suppressed : Bool) : List Entry :=
  if suppressed then [{ stamp := stamp, body := .suppress ch level }] else []

theorem suppressBehind_rank (ch : Channel) (level : Bool) (stamp : Time) (suppressed : Bool) :
    ∀ f ∈ suppressBehind ch level stamp suppressed, SameRank { stamp := stamp, body := .change ch level } f := by
  intro f hf
  cases suppressed
  · cases hf
  · rw [List.mem_singleton.mp hf]
    exact ⟨rfl, rfl⟩

theorem mem_acceptanceEntries {level : Bool} {e : Entry} (h : e ∈ acceptanceEntries ch level stamp suppressed) :
    e.stamp = stamp ∧ isChannelEntry e = true := by
  cases suppressed <;> simp [acceptanceEntries] at h
  · rw [h]; exact ⟨rfl, rfl⟩
  · rcases h with rfl | rfl <;> exact ⟨rfl, rfl⟩

/-- An acceptance whose entries are all taken, with room for them, puts them in the queue together (R62, R79, R80). -/
theorem Accepts.joins (h : Accepts i ch c stamp s) (run : runOpen s = true)
    (counted : countAcceptance (countsChatter true c) c = (suppressed, d))
    (taken : ∀ e ∈ acceptanceEntries ch (lineLevel c) stamp suppressed, takesOffer e s.oq = true)
    (room : s.oq.queue.length + (acceptanceEntries ch (lineLevel c) stamp suppressed).length ≤ 32) :
    ∃ q, JoinedQueue { stamp := stamp, body := .change ch (lineLevel c) }
        (acceptanceEntries ch (lineLevel c) stamp suppressed) s.oq.queue q ∧
      exec i s = .next (withQueue q (setChannel ch d s)) := by
  obtain ⟨q, joined, offered⟩ := offerEntries_joined (s := setChannel ch d s) taken
    (suppressBehind_rank ch (lineLevel c) stamp suppressed) room
  exact ⟨q, joined, (h.offers run counted).trans (congrArg _ offered)⟩

/-- An acceptance whose entries are all refused sets the channel alone (R56). -/
theorem Accepts.leaves_no_trace (h : Accepts i ch c stamp s) (run : runOpen s = true)
    (counted : countAcceptance (countsChatter true c) c = (suppressed, d))
    (refused : ∀ e ∈ acceptanceEntries ch (lineLevel c) stamp suppressed, takesOffer e s.oq = false) :
    exec i s = .next (setChannel ch d s) :=
  (h.offers run counted).trans (congrArg _ (offerEntries_refused refused))

end

theorem runOpen_of_running {s : State} (running : s.oq.state = .running) : runOpen s = true :=
  runOpen_iff.mpr (.inl running)

theorem runOpen_of_draining {s : State} (draining : s.oq.state = .draining) : runOpen s = true :=
  runOpen_iff.mpr (.inr draining)

/-- Settles O18: an acceptance with chatter off offers its CHANGE alone. -/
theorem acceptedChangeIsOffered : Obligations.AcceptedChangeIsOffered := by
  intro ch s c
  refine ⟨?_, ?_⟩
  · intro x state settle due level d
    refine ⟨fun closed => (accepts_settleDue state settle due).closed closed, ?_⟩
    intro stamp stamped running off room e
    exact (accepts_settleExpiry state settle due stamped).joins (runOpen_of_running running)
      (countAcceptance_uncounted off true) (fun e _ => takesOffer_running running e) room
  · intro differs state now running off room level e d
    obtain ⟨q, joined, taken⟩ := (accepts_rawEdge state differs now).joins (runOpen_of_running running)
      (countAcceptance_uncounted (c := { c with line := !c.line }) off true)
      (fun e _ => takesOffer_running running e) room
    rw [lineLevel_flip] at joined
    have settled := acceptLevel_of_state (c := { c with line := !c.line }) state
    rw [lineLevel_flip] at settled
    exact ⟨q, joined, taken.trans (congrArg (fun d => Host.Outcome.next (withQueue q (setChannel ch d s))) settled)⟩

/-- Settles O19: one lemma on counted acceptances, for the settle expiry and for the edge. -/
theorem chatterLimitSuppresses : Obligations.ChatterLimitSuppresses := by
  intro ch s c counted
  have accepts_counted {i : Instr} {seen : ChannelRec} {stamp : Time} (h : Accepts i ch seen stamp s)
      (desc : seen.desc = c.desc) (count : seen.chatterCount = c.chatterCount) (window : seen.window = c.window) :
      counted i seen (lineLevel seen) stamp := by
    refine ⟨fun running below room => ?_, fun running reached room => ?_, fun closed => h.closed closed⟩
    · rw [← desc, ← count] at below
      rw [← desc, ← count, ← window]
      exact h.joins (runOpen_of_running running) (countAcceptance_below below)
        (fun e _ => takesOffer_running running e) room
    · rw [← desc, ← count] at reached
      rw [← desc]
      exact h.joins (runOpen_of_running running) (countAcceptance_reached reached)
        (fun e _ => takesOffer_running running e) room
  refine ⟨fun x stamp state settle due stamped => ?_, fun state differs now => ?_⟩
  · exact accepts_counted (accepts_settleExpiry state settle due stamped) rfl rfl rfl
  · have level : lineLevel { c with line := !c.line } = !(c.line ^^ c.desc.invert) := lineLevel_flip c
    exact level ▸ accepts_counted (accepts_rawEdge state differs now) rfl rfl rfl

/-! ### The timers -/

theorem windowDue_some {c : ChannelRec} {x : Timer} (window : c.window = some x) (due : x.length ≤ x.elapsed) :
    windowDue c = true := by simp [windowDue, window, timerDue_some, due]

theorem quietDue_some {c : ChannelRec} {x : Timer} (state : c.state = .suppressed) (quiet : c.quiet = some x)
    (due : x.length ≤ x.elapsed) : quietDue c = true := by simp [quietDue, state, quiet, timerDue_some, due]

/-- A quiet expiry lifts the suppression, and in a run offers its RELEASE (R83). -/
theorem exec_quietExpiry {ch : Channel} {s : State} {x : Timer} (state : s.icu[ch].state = .suppressed)
    (quiet : s.icu[ch].quiet = some x) (due : x.length ≤ x.elapsed) :
    exec (.quietExpiry ch) s = .next
      (offerEntries (if runOpen s then [{ stamp := s.tb.counter, body := .release ch s.icu[ch].accepted }] else [])
        (setChannel ch { s.icu[ch] with state := .stable, quiet := none } s)) := by
  show Host.Outcome.next (if quietDue s.icu[ch] then quietExpires ch s else s) = _
  rw [if_pos (quietDue_some state quiet due)]
  unfold quietExpires
  cases runOpen s <;> rfl

/-- Settles O20: each expiry is due, and does what its row says. -/
theorem channelTimersEndSuppression : Obligations.ChannelTimersEndSuppression := by
  intro ch s x c due
  refine ⟨fun window => ?_, fun state quiet closed => ?_, ?_, fun state settle => ?_⟩
  · exact congrArg Host.Outcome.next (if_pos (windowDue_some window due))
  · refine (exec_quietExpiry state quiet due).trans ?_
    rw [closed]
    rfl
  · intro state quiet running room e
    obtain ⟨q, joined, offered⟩ := offerEntries_joined (e := e) (more := []) (s := setChannel ch
      { s.icu[ch] with state := .stable, quiet := none } s) (fun x _ => takesOffer_running running x)
      (fun f hf => by cases hf) room
    refine ⟨q, joined, (exec_quietExpiry state quiet due).trans ?_⟩
    rw [runOpen_of_running running]
    exact congrArg Host.Outcome.next offered
  · have come : settleDue c = true := by
      rw [settleDue, holdsStamp, state, settle, timerDue_some]
      simp [due]
    refine (congrArg Host.Outcome.next (if_pos come)).trans ?_
    unfold settleExpires
    dsimp only
    rw [if_neg (fun h => by rw [state] at h; cases h)]
    rfl

/-- Settles O21: in DRAINING all entries of one acceptance have one stamp, and are taken or refused together. -/
theorem drainJudgesEntriesByStamp : Obligations.DrainJudgesEntriesByStamp := by
  intro ch s draining c judged accepted
  have run := runOpen_of_draining draining
  have judge {i : Instr} {seen d : ChannelRec} {stamp : Time} {b : Bool} (h : Accepts i ch seen stamp s)
      (counted : countAcceptance (countsChatter true seen) seen = (b, d)) :
      judged i stamp d { stamp := stamp, body := .change ch (lineLevel seen) }
        (acceptanceEntries ch (lineLevel seen) stamp b) := by
    have decides : ∀ e ∈ acceptanceEntries ch (lineLevel seen) stamp b,
        takesOffer e s.oq = isBefore stamp s.oq.stopStamp := fun e he => by
      obtain ⟨stamped, channel⟩ := mem_acceptanceEntries he
      rw [takesOffer_draining draining channel, stamped]
    exact fun room => ⟨fun before => h.joins run counted (fun e he => (decides e he).trans before) room,
      fun later => h.leaves_no_trace run counted fun e he => (decides e he).trans later⟩
  have accepts_judged {i : Instr} {seen : ChannelRec} {stamp : Time} (h : Accepts i ch seen stamp s)
      (desc : seen.desc = c.desc) (count : seen.chatterCount = c.chatterCount) (window : seen.window = c.window) :
      accepted i seen (lineLevel seen) stamp := by
    refine ⟨fun off => ?_, fun below => ?_, fun reached => ?_⟩
    · rw [← desc] at off
      exact judge h (countAcceptance_uncounted off true)
    · rw [← desc, ← count] at below
      rw [← desc, ← count, ← window]
      exact judge h (countAcceptance_below below)
    · rw [← desc, ← count] at reached
      rw [← desc]
      exact judge h (countAcceptance_reached reached)
  refine ⟨fun x stamp state settle due stamped => ?_, fun state differs now => ?_, ?_⟩
  · exact accepts_judged (accepts_settleExpiry state settle due stamped) rfl rfl rfl
  · have level : lineLevel { c with line := !c.line } = !(c.line ^^ c.desc.invert) := lineLevel_flip c
    exact level ▸ accepts_judged (accepts_rawEdge state differs now) rfl rfl rfl
  · intro x state quiet due e room
    have released := exec_quietExpiry state quiet due
    rw [run] at released
    have decides : ∀ x ∈ [e], takesOffer x s.oq = isBefore s.tb.counter s.oq.stopStamp := fun x hx => by
      rw [List.mem_singleton.mp hx]
      exact takesOffer_draining draining rfl
    refine ⟨fun before => ?_, fun later => ?_⟩
    · obtain ⟨q, joined, offered⟩ := offerEntries_joined (e := e) (more := []) (s := setChannel ch
        { s.icu[ch] with state := .stable, quiet := none } s) (fun x hx => (decides x hx).trans before)
        (fun f hf => by cases hf) room
      exact ⟨q, joined, released.trans (congrArg Host.Outcome.next offered)⟩
    · exact released.trans (congrArg Host.Outcome.next
        (offerEntries_refused (es := [e]) (s := setChannel ch { s.icu[ch] with state := .stable, quiet := none } s)
          fun x hx => (decides x hx).trans later))

end Sys2Proof.Machine
end

section
/-! Pulses, timeouts and the changes of quality they make, with the TIMEQ entries offered. -/

namespace Sys2Proof.Machine

variable {s : State}

/-! ### The whole second nearest a time -/

theorem natAbs_offsetOf (t : Time) : (offsetOf t).natAbs = offSecond t := by
  unfold offsetOf offSecond microsOf
  split <;> omega

theorem neg_offsetOf (t : Time) : -offsetOf t = stepToSecond t := by
  unfold offsetOf stepToSecond microsOf
  split <;> omega

theorem offsetOf_eq_zero {t : Time} : offsetOf t = 0 ↔ offSecond t = 0 := by
  rw [← natAbs_offsetOf, Int.natAbs_eq_zero]

/-- The step to the second takes a time to the whole second nearest it, around the cycle (R94, R96). -/
theorem rebase_stepToSecond (t : Time) : rebase t (stepToSecond t) = wholeSecond t := by
  have below : ¬(t.val : Int) + stepToSecond t < 0 := by
    unfold stepToSecond
    split <;> omega
  have lands : ((t.val : Int) + stepToSecond t).toNat = (t.val + 500000) / 1000000 * 1000000 := by
    unfold stepToSecond
    split <;> omega
  simp only [rebase, clampsAt, decide_eq_true_eq, if_neg below, lands]
  rfl

theorem clampsAt_zero (t : Time) : clampsAt t 0 = false := by simp [clampsAt]

/-- A step of nothing. -/
@[simp] theorem rebase_zero (t : Time) : rebase t 0 = t := by
  simp [rebase, clampsAt_zero]

/-! ### A change of quality -/

/-- The state with another time base, another queue and TQC set. -/
def afterChange (new : TimeBase) (q : List Entry) (s : State) : State :=
  { s with tb := new, oq := { s.oq with queue := q }, ifu := { s.ifu with irqf := s.ifu.irqf ||| 0x10#8 } }

/-- The TIMEQ entry of a change of quality now (R101). -/
def timeqEntry (now : Time) (new previous : Quality) : Entry := { stamp := now, body := .timeq new previous }

/-- Outside RUNNING a change of quality offers nothing (R101). -/
theorem changeQuality_closed (closed : s.oq.state ≠ .running) (new : Quality) :
    changeQuality new s = afterChange { s.tb with quality := new } s.oq.queue s := if_neg closed

/-- In RUNNING with room the TIMEQ joins the queue (R62, R101). -/
theorem changeQuality_room (running : s.oq.state = .running) (room : s.oq.queue.length < 32) (new : Quality) :
    changeQuality new s = afterChange { s.tb with quality := new }
      (placeEntry (timeqEntry s.tb.counter new s.tb.quality) s.oq.queue) s := by
  have taken := takeEntry_room (s := setFlag flagTqc <| s.onTb fun t => { t with quality := new }) room
    (timeqEntry s.tb.counter new s.tb.quality)
  have offered := offerEntry_running (s := setFlag flagTqc <| s.onTb fun t => { t with quality := new }) running
    (timeqEntry s.tb.counter new s.tb.quality)
  exact (if_pos running).trans (offered.trans taken)

/-- What a command leaves that changes the quality once from `s` and is otherwise done. -/
def ReportsChange (s u : State) (new : TimeBase) : Prop :=
  (s.oq.state ≠ .running → u = afterChange new s.oq.queue s) ∧
    (s.oq.state = .running → s.oq.queue.length < 32 →
      u = afterChange new (placeEntry (timeqEntry s.tb.counter new.quality s.tb.quality) s.oq.queue) s)

/-- A change of the time base that leaves counter and quality, then of the quality (R101). -/
theorem changeQuality_reports {f : TimeBase → TimeBase} (counter : (f s.tb).counter = s.tb.counter)
    (quality : (f s.tb).quality = s.tb.quality) (new : Quality) :
    ReportsChange s (changeQuality new (s.onTb f)) { f s.tb with quality := new } := by
  refine ⟨fun closed => changeQuality_closed (s := s.onTb f) closed new, fun running room => ?_⟩
  refine (changeQuality_room (s := s.onTb f) running room new).trans ?_
  simp only [State.onTb_tb, counter, quality]
  rfl

/-- Every change of quality sets TQC (R101). -/
theorem changeQuality_flag (new : Quality) (s : State) : (changeQuality new s).ifu.irqf.getLsbD 4 = true := by
  have set : (setFlag flagTqc <| s.onTb fun t => { t with quality := new }).ifu.irqf.getLsbD 4 = true := by
    simp [setFlag, flagTqc]
  unfold changeQuality
  dsimp only
  split
  · exact getLsbD_of_sticky (offerEntry_frame _ _).sticky set
  · exact set

/-! ### The operations that change it -/

theorem beginAcquiring_flag (o : Origin) (s : State) : (beginAcquiring o s).ifu.irqf.getLsbD 4 = true :=
  changeQuality_flag _ _

/-- With a timer not expired HOLDOVER is entered and kept (R99). -/
theorem enterHoldover_alive (alive : s.tb.holdover ≠ .expired) :
    enterHoldover s = changeQuality .holdover (s.onTb fun t => { t with reference := none, rejects := 0 }) := by
  unfold enterHoldover
  simp only [changeQuality_tb, State.onTb_tb]

/-- With an expired timer HOLDOVER is passed on to UNSYNCED (R99, R100). -/
theorem enterHoldover_expired (expired : s.tb.holdover = .expired) :
    enterHoldover s = changeQuality .unsynced
      ((changeQuality .holdover (s.onTb fun t => { t with reference := none, rejects := 0 })).onTb fun t =>
        { t with holdover := .stopped }) := by
  unfold enterHoldover
  simp only [changeQuality_tb, State.onTb_tb, expired]

theorem enterHoldover_flag (s : State) : (enterHoldover s).ifu.irqf.getLsbD 4 = true := by
  unfold enterHoldover
  dsimp only
  split
  · exact changeQuality_flag _ _
  · exact changeQuality_flag _ _

theorem takeTimeout_flag (s : State) : (takeTimeout s).ifu.irqf.getLsbD 4 = true := by
  unfold takeTimeout
  split
  · exact changeQuality_flag _ _
  · exact enterHoldover_flag s

theorem takeHoldoverExpiry_acquiring (quality : s.tb.quality = .acquiring) :
    takeHoldoverExpiry s = s.onTb fun t => { t with origin := .fromUnsynced, holdover := .stopped } := by
  simp [takeHoldoverExpiry, quality]

theorem takeHoldoverExpiry_locked (quality : s.tb.quality = .locked) :
    takeHoldoverExpiry s = s.onTb fun t => { t with holdover := .expired } := by
  simp [takeHoldoverExpiry, quality]

theorem takeHoldoverExpiry_holdover (quality : s.tb.quality = .holdover) :
    takeHoldoverExpiry s =
      changeQuality .unsynced (s.onTb fun t => { t with reference := none, holdover := .stopped }) := by
  simp [takeHoldoverExpiry, quality]

/-! ### When they are due -/

/-- The timeout's row, once it is due (R97, R99). -/
theorem exec_timeout {r : Time} (reference : s.tb.reference = some r)
    (quality : s.tb.quality = .acquiring ∨ s.tb.quality = .locked)
    (come : isBefore s.tb.counter (addMicros r (1000000 + s.tb.table.lockWindow.toNat)) = false) :
    exec .timeout s = .next (takeTimeout s) := by
  refine congrArg Host.Outcome.next (if_pos ?_)
  unfold timeoutDue
  rw [reference]
  rcases quality with q | q <;> simp [q, reached, lockMicros, come]

/-- The holdover expiry's row, once it is due (R100). -/
theorem exec_holdoverExpiry {n : Nat} (timer : s.tb.holdover = .running n)
    (come : 1000000 * s.tb.table.holdoverLimit.toNat ≤ n) :
    exec .holdoverExpiry s = .next (takeHoldoverExpiry s) := by
  refine congrArg Host.Outcome.next (if_pos ?_)
  unfold holdoverDue
  rw [timer]
  exact decide_eq_true come

/-- A pulse on the selected edge while PPS is enabled (R94). -/
theorem exec_pulse {edge : PpsEdge} (enabled : s.tb.table.ppsEnable = true) (selected : edge = s.tb.table.ppsEdge) :
    exec (.pulse edge) s = .next (takePulse s) := by
  refine congrArg Host.Outcome.next (if_pos ?_)
  simp [enabled, selected]

/-! ### Pulses by quality -/

theorem takePulse_unsynced (quality : s.tb.quality = .unsynced) : takePulse s = beginAcquiring .fromUnsynced s := by
  simp [takePulse, quality]

theorem near_eq (s : State) :
    decide ((offsetOf s.tb.counter).natAbs ≤ lockMicros s) =
      decide (offSecond s.tb.counter ≤ s.tb.table.lockWindow.toNat) := by rw [natAbs_offsetOf]; rfl

/-- A pulse off the second in LOCKED (R98). -/
theorem takePulse_locked_off (quality : s.tb.quality = .locked)
    (off : s.tb.table.lockWindow.toNat < offSecond s.tb.counter) :
    takePulse s = if s.tb.rejects + 1 < 3 then s.onTb fun t => { t with rejects := t.rejects + 1 }
      else beginAcquiring .fromHeld s := by
  simp [takePulse, quality, near_eq, Nat.not_le.mpr off]

/-- A pulse off the second in HOLDOVER (R100). -/
theorem takePulse_holdover_off (quality : s.tb.quality = .holdover)
    (off : s.tb.table.lockWindow.toNat < offSecond s.tb.counter) : takePulse s = beginAcquiring .fromHeld s := by
  simp [takePulse, quality, near_eq, Nat.not_le.mpr off]

/-- A pulse too early in ACQUIRING (R96). -/
theorem takePulse_acquiring_early {r : Time} (quality : s.tb.quality = .acquiring) (reference : s.tb.reference = some r)
    (early : forward r s.tb.counter < 1000000 - s.tb.table.lockWindow.toNat) :
    takePulse s = s.onTb fun t => { t with reference := some t.counter } := by
  have misses : intervalLocks s = false := by
    simp [intervalLocks, reference, lockMicros, Nat.not_le.mpr early]
  simp [takePulse, quality, misses]

/-- Settles O22: pulse by pulse, in each quality. -/
theorem pulseBeginsAcquisition : Obligations.PulseBeginsAcquisition := by
  intro edge s b W acquiring
  refine ⟨fun off => ?_, fun enabled selected => ⟨takePulse s, exec_pulse enabled selected, fun quality => ?_,
    fun quality far third => ?_, fun quality far below => ?_, fun quality far => ?_, fun r quality reference early => ?_⟩⟩
  · refine congrArg Host.Outcome.next (if_neg ?_)
    rcases off with off | off
    · have : s.tb.table.ppsEnable = false := off
      simp [this]
    · simp [b] at off
      simp [off]
  · rw [takePulse_unsynced quality]
    exact ⟨beginAcquiring_tb _ s, beginAcquiring_flag _ s⟩
  · rw [takePulse_locked_off quality far, if_neg (show ¬b.rejects + 1 < 3 by omega)]
    exact ⟨beginAcquiring_tb _ s, beginAcquiring_flag _ s⟩
  · rw [takePulse_locked_off quality far, if_pos (show b.rejects + 1 < 3 by omega)]
    rfl
  · rw [takePulse_holdover_off quality far]
    exact ⟨beginAcquiring_tb _ s, beginAcquiring_flag _ s⟩
  · rw [takePulse_acquiring_early quality reference early]
    rfl

/-- Settles O24: the timeout and the holdover expiry as the time base's operations. -/
theorem timeoutsLoseTheTime : Obligations.TimeoutsLoseTheTime := by
  intro s b
  refine ⟨fun r quality reference come => ?_, fun n timer come => ?_⟩
  · refine ⟨takeTimeout s, exec_timeout reference quality come, takeTimeout_flag s, fun q o => ?_, fun held alive => ?_,
      fun held expired => ?_⟩ <;> rw [takeTimeout_tb, timedOut]
    · exact if_pos ⟨q, o⟩
    all_goals
      rw [if_neg (fun begun => by
        rcases held with q | o
        · exact absurd (q.symm.trans begun.1) (by decide)
        · exact absurd (o.symm.trans begun.2) (by decide)), heldOver]
    · split
      · exact absurd ‹_› alive
      · rfl
    · split
      · rfl
      · exact absurd expired ‹_›
  · refine ⟨takeHoldoverExpiry s, exec_holdoverExpiry timer come, fun q => ⟨?_, ?_⟩, fun q => ?_, fun q => ?_⟩
    · rw [takeHoldoverExpiry_tb, holdoverExpired, q]
      rfl
    · rw [takeHoldoverExpiry_holdover q]
      exact changeQuality_flag _ _
    · rw [takeHoldoverExpiry_acquiring q]
      rfl
    · rw [takeHoldoverExpiry_locked q]
      rfl

end Sys2Proof.Machine
end

section
/-! The TIMEQ entries of every change of quality, a pulse that locks and the disabling of PPS among them. -/

namespace Sys2Proof.Machine

variable {s : State}

/-! ### One change, and two -/

/-- A change that is reported, with the entry placed in the queue (R62, R101). -/
theorem ReportsChange.joined {u : State} {new : TimeBase} (h : ReportsChange s u new) (running : s.oq.state = .running)
    (room : s.oq.queue.length < 32) :
    ∃ q, JoinedQueue (timeqEntry s.tb.counter new.quality s.tb.quality)
        [timeqEntry s.tb.counter new.quality s.tb.quality] s.oq.queue q ∧ u = afterChange new q s :=
  ⟨_, placeEntry_joined _ _, h.2 running room⟩

/-- The double change of an expired holdover timer (R99, R100). -/
theorem enterHoldover_expired_closed (expired : s.tb.holdover = .expired) (closed : s.oq.state ≠ .running) :
    enterHoldover s = afterChange { s.tb with quality := .unsynced, reference := none, rejects := 0, holdover := .stopped }
      s.oq.queue s := by
  rw [enterHoldover_expired expired, changeQuality_closed (s := s.onTb _) closed]
  refine (changeQuality_closed (s := State.onTb _ (afterChange _ _ _)) closed _).trans ?_
  simp only [afterChange, State.onTb, BitVec.or_assoc, BitVec.or_self]

theorem enterHoldover_expired_room (expired : s.tb.holdover = .expired) (running : s.oq.state = .running)
    (room : s.oq.queue.length + 2 ≤ 32) :
    enterHoldover s = afterChange { s.tb with quality := .unsynced, reference := none, rejects := 0, holdover := .stopped }
      (placeAll [timeqEntry s.tb.counter .holdover s.tb.quality, timeqEntry s.tb.counter .unsynced .holdover] s.oq.queue)
      s := by
  have first := changeQuality_room (s := s.onTb fun t => { t with reference := none, rejects := 0 }) running
    (show s.oq.queue.length < 32 by omega) .holdover
  have second := changeQuality_room (s := (afterChange { s.tb with quality := .holdover, reference := none, rejects := 0 }
      (placeEntry (timeqEntry s.tb.counter .holdover s.tb.quality) s.oq.queue) s).onTb fun t =>
        { t with holdover := .stopped }) running (by
      show (placeEntry _ s.oq.queue).length < 32
      rw [length_placeEntry]
      omega) .unsynced
  rw [enterHoldover_expired expired, first]
  refine second.trans ?_
  simp only [afterChange, State.onTb, BitVec.or_assoc, BitVec.or_self]
  rfl

/-- `u` is `s` with the time base prepared, its counter and quality left, and then changed in quality to `new` (R101). -/
def ChangesTo (s u : State) (new : TimeBase) : Prop :=
  ∃ (f : TimeBase → TimeBase) (q : Quality), u = changeQuality q (s.onTb f) ∧ new = { f s.tb with quality := q } ∧
    (f s.tb).counter = s.tb.counter ∧ (f s.tb).quality = s.tb.quality

theorem beginAcquiring_changes (o : Origin) (s : State) : ChangesTo s (beginAcquiring o s) (acquiringFrom o s.tb) :=
  ⟨fun t => { t with reference := some t.counter, origin := o, rejects := 0 }, _, rfl, rfl, rfl, rfl⟩

theorem enterHoldover_changes (alive : s.tb.holdover ≠ .expired) :
    ChangesTo s (enterHoldover s) { s.tb with quality := .holdover, reference := none, rejects := 0 } :=
  ⟨fun t => { t with reference := none, rejects := 0 }, _, enterHoldover_alive alive, rfl, rfl, rfl⟩

theorem changeQuality_unsynced_changes (s : State) :
    ChangesTo s (changeQuality .unsynced (s.onTb fun t => { t with reference := none, holdover := .stopped }))
      (unsynced s.tb) :=
  ⟨fun t => { t with reference := none, holdover := .stopped }, _, rfl, rfl, rfl, rfl⟩

/-- Each single change of the quality, as the command's row makes it (R95, R97 to R100). -/
theorem QualityChange.changes {i : Instr} {new : TimeBase} (h : QualityChange s i new) :
    ∃ u, exec i s = .next u ∧ ChangesTo s u new := by
  rcases h with ⟨rfl, enabled, pulses⟩ | ⟨rfl, ⟨r, reference, come⟩, kinds⟩ | ⟨rfl, quality, ⟨n, timer, come⟩, rfl⟩
  · refine ⟨_, exec_pulse enabled rfl, ?_⟩
    rcases pulses with ⟨quality, rfl⟩ | ⟨quality, far, third, rfl⟩ | ⟨quality, far, rfl⟩
    · rw [takePulse_unsynced quality]
      exact beginAcquiring_changes _ s
    · rw [takePulse_locked_off quality far, if_neg (by omega)]
      exact beginAcquiring_changes _ s
    · rw [takePulse_holdover_off quality far]
      exact beginAcquiring_changes _ s
  · rcases kinds with ⟨quality, origin, rfl⟩ | ⟨held, alive, rfl⟩
    · refine ⟨_, exec_timeout reference (.inl quality) come, ?_⟩
      rw [takeTimeout, if_pos ⟨quality, origin⟩]
      exact changeQuality_unsynced_changes s
    · have kind : s.tb.quality = .acquiring ∨ s.tb.quality = .locked := held.symm.imp_left And.left
      refine ⟨_, exec_timeout reference kind come, ?_⟩
      rw [takeTimeout, if_neg (by rcases held with q | ⟨q, o⟩ <;> simp [*])]
      exact enterHoldover_changes alive
  · refine ⟨_, exec_holdoverExpiry timer come, ?_⟩
    rw [takeHoldoverExpiry_holdover quality]
    exact changeQuality_unsynced_changes s

theorem ChangesTo.reports {u : State} {new : TimeBase} (h : ChangesTo s u new) : ReportsChange s u new := by
  obtain ⟨f, q, rfl, rfl, counter, quality⟩ := h
  exact changeQuality_reports counter quality q

/-- The timeout of an expired holdover timer enters HOLDOVER and leaves it (R99, R100). -/
theorem DoubleChangeDue.timeout (due : DoubleChangeDue s.tb) :
    exec .timeout s = .next (enterHoldover s) ∧ s.tb.holdover = .expired := by
  obtain ⟨held, expired, r, reference, come⟩ := due
  have kind : s.tb.quality = .acquiring ∨ s.tb.quality = .locked := held.symm.imp_left And.left
  refine ⟨?_, expired⟩
  rw [exec_timeout reference kind come, takeTimeout, if_neg (by rcases held with q | ⟨q, o⟩ <;> simp [*])]

/-! ### WRITE ENTRY -/

/-- A CMD write outside LOADING while no command is in progress is carried out (R156). -/
theorem request_taken (free : s.hw.inProgress = none) (unlocked : s.oq.state ≠ .loading) (body : State → State) :
    request body s = body s := by
  simp [request, busy, free, unlocked]

/-- A written entry that passes every check (R164). -/
theorem commandWriteEntry_written {slot : TableSlot} {e : TableEntry} (named : slotOf s.hw.tabsel s.hw.tabidx = some slot)
    (unlocked : tableLocked slot s = false) (decoded : decodeEntry slot s.hw.entry = some e) :
    commandWriteEntry s = complete .ok (applyEntry e s) := by
  simp [commandWriteEntry, named, unlocked, decoded]

/-- A time entry written (R164). -/
theorem exec_writeEntry_time {x : TimeTable} (free : s.hw.inProgress = none) (unlocked : s.oq.state ≠ .loading)
    (table : s.hw.tabsel = 3#8) (index : s.hw.tabidx = 0#8) (decoded : decodeTime s.hw.entry = some x) :
    exec .writeEntry s = .next (complete .ok (writeTimeTable x s)) := by
  refine congrArg Host.Outcome.next ((request_taken free unlocked _).trans ?_)
  refine (commandWriteEntry_written (slot := .time) (e := .time x) ?_ rfl ?_).trans rfl
  · rw [table, index]; rfl
  · simp [decodeEntry, decoded]

theorem complete_eq (r : Result) (s : State) : complete r s = completedWith r s := rfl

/-- A time entry that only disables PPS, in LOCKED (R93). -/
theorem DisablesPps.writes {x : TimeTable} (h : DisablesPps s x) :
    exec .writeEntry s = .next (complete .ok (enterHoldover (s.onTb fun t => { t with table := x }))) := by
  obtain ⟨free, unlocked, table, index, decoded, window, limit, locked, enabled, disabled, -⟩ := h
  rw [exec_writeEntry_time free unlocked table index decoded]
  have entered : writeTimeTable x s = enterHoldover (s.onTb fun t => { t with table := x }) := by
    unfold writeTimeTable
    simp [window, limit, locked, enabled, disabled]
  rw [entered]

/-! ### Pulses that lock -/

/-- Capture control after a step: queued stamps moved in a run, the stop stamp while DRAINING (R69, R70). -/
def movedCapture (S : Int) (q : Capture) : Capture :=
  { q with
    queue := if q.state = .running ∨ q.state = .draining then q.queue.map fun e => { e with stamp := rebase e.stamp S }
      else q.queue,
    stopStamp := if q.state = .draining then rebase q.stopStamp S else q.stopStamp }

theorem rebaseQueue_oq (S : Int) (s : State) : (rebaseQueue S s).oq = movedCapture S s.oq := by
  unfold rebaseQueue movedCapture
  cases h : s.oq.state <;> simp [runOpen, h]
  all_goals rw [← h]

/-- A step of nothing leaves capture control. -/
@[simp] theorem movedCapture_zero (q : Capture) : movedCapture 0 q = q := by simp [movedCapture]

/-- The step of a pulse in capture control, with the counter off by `e` or not at all (R103). -/
theorem applyPulseStep_oq (e : Int) (s : State) : (applyPulseStep e s).oq = movedCapture (-e) s.oq := by
  unfold applyPulseStep
  dsimp only
  split
  · rename_i none
    simp [none]
  · rw [(applyStep_front _ _ _ _).2.2.1, rebaseQueue_oq]
    split <;> rfl

theorem applyPulseStep_sticky (e : Int) (s : State) : s.ifu.irqf &&& (applyPulseStep e s).ifu.irqf = s.ifu.irqf := by
  unfold applyPulseStep
  dsimp only
  split
  · exact BitVec.and_self
  · have same : (if decide (s.tb.table.trimBand.toNat < e.natAbs) = true then s
        else s.onTb fun t => { t with trims := satInc 65535 t.trims }).ifu = s.ifu := by split <;> rfl
    generalize (if decide (s.tb.table.trimBand.toNat < e.natAbs) = true then s
        else s.onTb fun t => { t with trims := satInc 65535 t.trims }) = u at *
    have sticky := (applyStep_stopOnly (-e) .pulse (decide (s.tb.table.trimBand.toNat < e.natAbs)) u).sticky
    rwa [same] at sticky

theorem lockOnPulse_oq (s : State) :
    (lockOnPulse (offsetOf s.tb.counter) s).oq =
      movedCapture (stepToSecond s.tb.counter) (changeQuality .locked s).oq := by
  rw [← neg_offsetOf]
  exact applyPulseStep_oq _ _

theorem lockOnPulse_flag (e : Int) (s : State) : (lockOnPulse e s).ifu.irqf.getLsbD 4 = true :=
  getLsbD_of_sticky (applyPulseStep_sticky e (changeQuality .locked s)) (changeQuality_flag _ s)

/-- A pulse that aligns is accepted in LOCKED, and locks in the other qualities (R96, R98, R100). -/
theorem takePulse_aligned (aligned : PulseAligns s.tb) :
    takePulse s = if s.tb.quality = .locked then acceptPulse (offsetOf s.tb.counter) s
      else lockOnPulse (offsetOf s.tb.counter) s := by
  rcases aligned with ⟨quality, r, reference, low, high⟩ | ⟨quality | quality, near⟩
  · have locks : intervalLocks s = true := by simp [intervalLocks, reference, lockMicros, low, high]
    simp [takePulse, quality, locks]
  · simp [takePulse, quality, near_eq, near]
  · simp [takePulse, quality, near_eq, near]

theorem takePulse_locks (aligned : PulseAligns s.tb) (other : s.tb.quality ≠ .locked) :
    takePulse s = lockOnPulse (offsetOf s.tb.counter) s := by
  rw [takePulse_aligned aligned, if_neg other]

/-- Settles O25: each change reported once, the double change twice, and the pulse that locks before its step. -/
theorem qualityChangeOffersTimeq : Obligations.QualityChangeOffersTimeq := by
  intro s b e after reported
  refine ⟨fun i new change => ?_, fun due => ?_, fun x disables => ?_, fun enabled aligned other room => ?_⟩
  · obtain ⟨u, run, changes⟩ := change.changes
    refine ⟨fun closed => run.trans (congrArg _ (changes.reports.1 closed)), fun running room => ?_⟩
    obtain ⟨q, joined, rfl⟩ := changes.reports.joined running room
    exact ⟨q, joined, run⟩
  · obtain ⟨run, expired⟩ := DoubleChangeDue.timeout due
    refine ⟨fun closed => run.trans (congrArg _ (enterHoldover_expired_closed expired closed)), fun running room => ?_⟩
    refine ⟨_, placeAll_joined (fun f hf => ?_) _, run.trans (congrArg _ (enterHoldover_expired_room expired running room))⟩
    rw [List.mem_singleton.mp hf]
    exact ⟨rfl, rfl⟩
  · have run := disables.writes
    obtain ⟨-, -, -, -, -, -, -, locked, -, -, alive⟩ := disables
    have reports := (enterHoldover_changes (s := s.onTb fun t => { t with table := x }) alive).reports
    refine ⟨fun closed => ?_, fun running room => ?_⟩
    · rw [run, reports.1 closed]
      rfl
    · obtain ⟨q, joined, entered⟩ := reports.joined running room
      rw [State.onTb_tb, show (s.tb.quality) = .locked from locked] at joined
      refine ⟨q, joined, ?_⟩
      rw [run, entered]
      rfl
  · refine ⟨takePulse s, exec_pulse enabled rfl, ?_, fun closed => ?_, fun draining => ?_, fun running => ?_⟩ <;>
      rw [takePulse_locks aligned other]
    · exact lockOnPulse_flag _ s
    all_goals rw [lockOnPulse_oq]
    · rw [changeQuality_closed (fun r => by simp [runOpen, r] at closed)]
      have ended : s.oq.state ≠ .running ∧ s.oq.state ≠ .draining := by simpa [runOpen] using closed
      simp [movedCapture, afterChange, ended]
    · rw [changeQuality_closed (by simp [draining])]
      simp [movedCapture, afterChange, draining, b]
    · refine ⟨_, placeEntry_joined _ _, ?_⟩
      rw [changeQuality_room running room]
      simp only [movedCapture, afterChange, running, true_or, if_true, reduceCtorEq, if_false]
      rfl

end Sys2Proof.Machine
end

section
/-! What a step of the time leaves in every holder of a stamp, by a pulse and by SET TIME. -/

namespace Sys2Proof.Machine

variable {s t : State} {S : Int}

/-! ### The faults of a step -/

theorem channelClampDetails_eq (S : Int) (s : State) : channelClampDetails S s = clampedChannels S s := by
  have same (c : ChannelRec) : channelClamps S c = (stampHeld c && c.stamp.any fun x => clampsAt x S) := by
    unfold channelClamps
    cases c.stamp <;> rfl
  simp only [channelClampDetails, clampedChannels, same]

theorem queueClamps_eq (S : Int) (s : State) : queueClamps S s = List.replicate (clampedQueued S s) 0xFF#8 := by
  unfold queueClamps clampedQueued
  split
  · simp
  · rfl

/-- The CLAMP details of a step: the channels' numbers in some order, and FFh for each of capture control's (R88, R174). -/
theorem clampDetails_spec (S : Int) (s : State) :
    ∃ numbers : List Byte, numbers.Perm (clampedChannels S s) ∧
      ((clampDetails S s).1 = numbers ++ List.replicate (clampedQueued S s) 0xFF#8 ∨
        (clampDetails S s).1 = List.replicate (clampedQueued S s) 0xFF#8 ++ numbers) := by
  refine ⟨inOrderOf (Config.channelClampPlace s.choices) (channelClampDetails S s), ?_, ?_⟩
  · rw [← channelClampDetails_eq]
    exact inOrderOf_perm _ _
  · rw [← queueClamps_eq]
    unfold clampDetails
    dsimp only
    split
    · exact .inl rfl
    · cases Config.queueClampsFirst s.choices
      · exact .inl rfl
      · exact .inr rfl

theorem satInc_eq (limit n : Nat) : satInc limit n = min limit (n + 1) := by
  unfold satInc
  split <;> omega

/-- Faults logged one after another (R174). -/
theorem logFaults_logged (kind : FaultKind) (details : List Byte) (s : State) :
    LoggedAll kind details s.tb.counter s.ifu (logFaults kind details s).ifu := by
  induction details generalizing s with
  | nil => simp [LoggedAll, logFaults]
  | cons d ds ih =>
    obtain ⟨faults, lost, flag⟩ := ih (logFault kind d s)
    have first := logFault_cases kind d s
    have sticky := (logFaults_frame kind ds (logFault kind d s)).sticky
    refine ⟨?_, ?_, fun _ => ?_⟩
    · refine faults.trans ?_
      rw [logFault_tb, first]
      by_cases room : s.ifu.faults.length < 4
      · simp only [room, if_true, List.length_append, List.length_singleton, List.append_assoc, List.map_cons,
          List.singleton_append]
        congr 1
        omega
      · simp only [room, if_false, List.map_cons]
        rw [List.take_append_of_le_length (by omega), List.take_append_of_le_length (by omega)]
    · refine lost.trans ?_
      rw [first]
      by_cases room : s.ifu.faults.length < 4
      · simp only [room, if_true, List.length_append, List.length_cons, List.length_nil, Nat.zero_add]
        have same : ds.length - (4 - (s.ifu.faults.length + 1)) = ds.length + 1 - (4 - s.ifu.faults.length) := by omega
        rw [same]
      · simp only [room, if_false, List.length_cons, satInc_eq]
        have none : 4 - s.ifu.faults.length = 0 := by omega
        rw [none, Nat.sub_zero, Nat.sub_zero, if_neg (Nat.succ_ne_zero _)]
        clear faults lost
        split <;> omega
    · refine getLsbD_of_sticky sticky ?_
      rw [first]
      simp [flagFlt]

/-! ### The encoder's part -/

/-- The running time after a step: moved in a run (R22). -/
theorem encoderStep_runningTime (S : Int) (cause : StepCause) (journaled : Bool) (s : State) :
    (encoderStep S cause journaled s).je.runningTime =
      if runOpen s then rebase s.je.runningTime S else s.je.runningTime := by
  unfold encoderStep
  dsimp only
  cases state : s.oq.state <;> dsimp only
  case running =>
    rw [if_pos (runOpen_of_running state)]
    split
    · unfold emitStep
      dsimp only
      have stored := (emit_je (stepPacket cause s.je.runningTime (rebase s.je.runningTime S)) false
        (rebase s.je.runningTime S) (s.onJe fun e => { e with runningTime := rebase s.je.runningTime S })).2.2.1
      rcases (emitSync_je (rebase s.je.runningTime S) _ (rebase s.je.runningTime S) _).2.2.2 with h | h
      · exact h
      · exact h.trans stored
    · rfl
  case draining => rw [if_pos (runOpen_of_draining state)]; rfl
  all_goals rw [if_neg (by simp [runOpen, state])]

/-- What a step leaves that writes nothing: the journal but for the running time, hold, link, host window and loader. -/
structure Unwritten (s t : State) : Prop where
  je : t.je = { s.je with runningTime := t.je.runningTime }
  js : t.js = s.js
  tu : t.tu = s.tu
  xl : t.xl = s.xl
  hw : t.hw = s.hw
  cl : t.cl = s.cl

/-- A step that is not journaled or does not meet RUNNING moves the running time alone (R22, R23). -/
theorem encoderStep_unwritten (cause : StepCause) {journaled : Bool} (h : s.oq.state ≠ .running ∨ journaled = false) :
    ∃ r, encoderStep S cause journaled s = s.onJe fun e => { e with runningTime := r } := by
  unfold encoderStep
  dsimp only
  cases state : s.oq.state <;> dsimp only
  case running =>
    have silent : journaled = false := h.resolve_left fun n => n state
    rw [silent, if_neg (by simp)]
    exact ⟨_, rfl⟩
  case draining => exact ⟨_, rfl⟩
  all_goals exact ⟨s.je.runningTime, rfl⟩

/-! ### The whole step -/

theorem stampsMoved_faults (S : Int) (s : State) :
    (stampsMoved S s).ifu = (logFaults .clamp (clampDetails S s).1
      { s with tb := stepTimeBase S s.tb }).ifu := by
  obtain ⟨n, hn⟩ := clampDetails_blocks S s
  have same (u v : State) (ifu : u.ifu = v.ifu) (tb : u.tb = v.tb) (ds : List Byte) :
      (logFaults .clamp ds u).ifu = (logFaults .clamp ds v).ifu := by
    induction ds generalizing u v with
    | nil => exact ifu
    | cons d ds ih => exact ih _ _ (by rw [logFault_cases, logFault_cases, ifu, tb]) tb
  unfold stampsMoved
  dsimp only
  rw [hn]
  refine same _ _ ?_ ?_ _ <;> (unfold rebaseQueue; split <;> rfl)

theorem rebaseChannel_eq (S : Int) (c : ChannelRec) :
    rebaseChannel S c = { c with stamp := if stampHeld c then c.stamp.map fun x => rebase x S else c.stamp } := by
  have held : stampHeld c = holdsStamp c := rfl
  unfold rebaseChannel
  rw [held]
  cases holdsStamp c <;> rfl

/-- A step moves every stamp held, with its faults (R69, R70, R88, R104). -/
theorem applyStep_taken (S : Int) (cause : StepCause) (journaled : Bool) (s : State) :
    StepTaken S s (applyStep S cause journaled s) := by
  obtain ⟨icu, tb, oq, -⟩ := applyStep_front S cause journaled s
  obtain ⟨-, -, oq1, -, -, -, -, -, je⟩ := stampsMoved_front S s
  have frame := encoderStep_frame S cause journaled (stampsMoved S s)
  refine ⟨fun ch => ?_, ?_, ?_, ?_⟩
  · rw [icu]
    simp only [Fin.getElem_fin, Vector.getElem_map, rebaseChannel_eq]
  · rw [oq, rebaseQueue_oq, movedCapture]
    simp [runOpen]
  · rw [applyStep_eq, encoderStep_runningTime, je]
    have run : runOpen (stampsMoved S s) = runOpen s := by
      rw [← rebaseQueue_runOpen S s]
      simp only [runOpen, oq1]
    rw [run]
  · obtain ⟨numbers, perm, details⟩ := clampDetails_spec S s
    refine ⟨numbers, (clampDetails S s).1, perm, details, ?_⟩
    have logged := logFaults_logged .clamp (clampDetails S s).1 { s with tb := stepTimeBase S s.tb }
    rw [← stampsMoved_faults] at logged
    obtain ⟨faults, lost, flag⟩ := logged
    rw [applyStep_eq, LoggedAll, frame.faults, frame.lost, frame.tb, (stampsMoved_front S s).2.1]
    exact ⟨faults, lost, fun some => getLsbD_of_sticky frame.sticky (flag some)⟩

/-- A step that is not journaled or does not meet RUNNING writes nothing (R22, R23). -/
theorem applyStep_unwritten (cause : StepCause) {journaled : Bool} (h : s.oq.state ≠ .running ∨ journaled = false) :
    Unwritten s (applyStep S cause journaled s) ∧ (applyStep S cause journaled s).ifu = (stampsMoved S s).ifu := by
  obtain ⟨-, -, oq, tu, js, cl, hw, xl, je⟩ := stampsMoved_front S s
  have state : (stampsMoved S s).oq.state = s.oq.state := by rw [oq, rebaseQueue_oq]; rfl
  obtain ⟨r, silent⟩ := encoderStep_unwritten (S := S) (s := stampsMoved S s) cause (state ▸ h)
  rw [applyStep_eq, silent]
  exact ⟨⟨by simp [je], js, tu, xl, hw, cl⟩, rfl⟩

/-- What a step leaves is left from and in states that agree on the holders of stamps and the fault log. -/
theorem StepTaken.congr {u v : State} (h : StepTaken S s t) (icu : u.icu = s.icu) (oq : u.oq = s.oq)
    (je : u.je.runningTime = s.je.runningTime) (faults : u.ifu.faults = s.ifu.faults) (lost : u.ifu.lost = s.ifu.lost)
    (icu' : v.icu = t.icu) (oq' : v.oq = t.oq) (je' : v.je = t.je) (ifu' : v.ifu = t.ifu)
    (counter : v.tb.counter = t.tb.counter) : StepTaken S u v := by
  have run : runOpen u = runOpen s := by simp [runOpen, oq]
  have channels : clampedChannels S u = clampedChannels S s := by simp only [clampedChannels, icu]
  have queued : clampedQueued S u = clampedQueued S s := by simp only [clampedQueued, run, oq]
  constructor
  case channels => rw [icu, icu']; exact h.channels
  case capture => rw [oq, oq', run]; exact h.capture
  case running => rw [je, je', run]; exact h.running
  case faults =>
    obtain ⟨numbers, details, perm, order, logged⟩ := h.faults
    rw [channels, queued, ifu', counter]
    refine ⟨numbers, details, perm, order, ?_⟩
    simpa only [LoggedAll, faults, lost] using logged

/-- A step of nothing. -/
theorem StepTaken.zero (s : State) : StepTaken 0 s s := by
  have channels : clampedChannels 0 s = [] := by
    simp only [clampedChannels, clampsAt_zero, List.map_eq_nil_iff, List.filter_eq_nil_iff]
    intro ch _
    cases s.icu[ch].stamp <;> simp
  have queued : clampedQueued 0 s = 0 := by simp [clampedQueued, clampsAt_zero]
  refine ⟨fun ch => ?_, ?_, ?_, ⟨[], [], ?_, .inl ?_, ?_⟩⟩
  · simp
  · simp
  · simp
  · rw [channels]
  · simp [queued]
  · simp [LoggedAll]

end Sys2Proof.Machine
end

section
/-! A pulse that aligns, and SET TIME. -/

namespace Sys2Proof.Machine

variable {s : State}

/-! ### The step of a pulse -/

theorem applyPulseStep_zero (none : offSecond s.tb.counter = 0) : applyPulseStep (offsetOf s.tb.counter) s = s :=
  if_pos (offsetOf_eq_zero.mpr none)

/-- The state in which a pulse's step is applied: a silent trim has been counted (R103). -/
def trimmed (s : State) : State :=
  if offSecond s.tb.counter ≤ s.tb.table.trimBand.toNat then s.onTb fun t => { t with trims := satInc 65535 t.trims }
  else s

/-- A step that is not nothing (R103). -/
theorem applyPulseStep_off (off : offSecond s.tb.counter ≠ 0) :
    applyPulseStep (offsetOf s.tb.counter) s =
      applyStep (stepToSecond s.tb.counter) .pulse (decide (s.tb.table.trimBand.toNat < offSecond s.tb.counter))
        (trimmed s) := by
  unfold applyPulseStep trimmed
  rw [if_neg (fun zero => off (offsetOf_eq_zero.mp zero)), natAbs_offsetOf, neg_offsetOf]
  dsimp only
  by_cases silent : offSecond s.tb.counter ≤ s.tb.table.trimBand.toNat
  · rw [if_pos silent, if_neg (by simpa using silent)]
  · rw [if_neg silent, if_pos (by simpa using silent)]

theorem trimmed_eq (s : State) : ∃ n, trimmed s = s.onTb fun t => { t with trims := n } := by
  unfold trimmed
  split
  · exact ⟨_, rfl⟩
  · exact ⟨s.tb.trims, rfl⟩

theorem applyPulseStep_taken (s : State) :
    StepTaken (stepToSecond s.tb.counter) s (applyPulseStep (offsetOf s.tb.counter) s) := by
  by_cases off : offSecond s.tb.counter = 0
  · have step : stepToSecond s.tb.counter = 0 := by rw [← neg_offsetOf, offsetOf_eq_zero.mpr off]; rfl
    rw [applyPulseStep_zero off, step]
    exact .zero s
  · rw [applyPulseStep_off off]
    obtain ⟨n, e⟩ := trimmed_eq s
    rw [e]
    exact (applyStep_taken _ _ _ (s.onTb fun t => { t with trims := n })).congr rfl rfl rfl rfl rfl rfl rfl rfl rfl rfl

/-- The counts of trims: one for a silent step (R103). -/
def trimsAfter (b : TimeBase) : Nat :=
  if 0 < offSecond b.counter ∧ offSecond b.counter ≤ b.table.trimBand.toNat then min 65535 (b.trims + 1) else b.trims

theorem applyPulseStep_tb (s : State) :
    ∃ r, (applyPulseStep (offsetOf s.tb.counter) s).tb =
      { s.tb with counter := wholeSecond s.tb.counter, reference := r, trims := trimsAfter s.tb } := by
  by_cases off : offSecond s.tb.counter = 0
  · have there : wholeSecond s.tb.counter = s.tb.counter := by
      have step : stepToSecond s.tb.counter = 0 := by rw [← neg_offsetOf, offsetOf_eq_zero.mpr off]; rfl
      rw [← rebase_stepToSecond, step, rebase_zero]
    rw [applyPulseStep_zero off, there, trimsAfter, if_neg (by omega)]
    exact ⟨s.tb.reference, rfl⟩
  · rw [applyPulseStep_off off, (applyStep_front _ _ _ _).2.1, trimsAfter, stepTimeBase]
    refine ⟨s.tb.reference.map fun r => rebase r (stepToSecond s.tb.counter), ?_⟩
    unfold trimmed
    by_cases silent : offSecond s.tb.counter ≤ s.tb.table.trimBand.toNat
    · simp only [silent, if_true, State.onTb_tb, rebase_stepToSecond, Nat.pos_of_ne_zero off, true_and, satInc_eq]
    · simp only [silent, if_false, rebase_stepToSecond, and_false]

/-- A silent step, or one outside RUNNING, writes nothing (R22, R103). -/
theorem applyPulseStep_unwritten (h : s.oq.state ≠ .running ∨ offSecond s.tb.counter ≤ s.tb.table.trimBand.toNat) :
    Unwritten s (applyPulseStep (offsetOf s.tb.counter) s) := by
  by_cases off : offSecond s.tb.counter = 0
  · rw [applyPulseStep_zero off]
    exact ⟨rfl, rfl, rfl, rfl, rfl, rfl⟩
  · rw [applyPulseStep_off off]
    obtain ⟨n, e⟩ := trimmed_eq s
    rw [e]
    obtain ⟨⟨je, js, tu, xl, hw, cl⟩, -⟩ := applyStep_unwritten (S := stepToSecond s.tb.counter)
      (s := s.onTb fun t => { t with trims := n }) .pulse
      (journaled := decide (s.tb.table.trimBand.toNat < offSecond s.tb.counter)) (h.imp_right (by simp))
    exact ⟨je, js, tu, xl, hw, cl⟩

/-! ### Accepted pulses -/

theorem acceptPulse_taken (s : State) :
    StepTaken (stepToSecond s.tb.counter) s (acceptPulse (offsetOf s.tb.counter) s) :=
  (applyPulseStep_taken s).congr rfl rfl rfl rfl rfl rfl rfl rfl rfl rfl

theorem acceptPulse_tb (s : State) :
    (acceptPulse (offsetOf s.tb.counter) s).tb =
      { s.tb with counter := wholeSecond s.tb.counter, reference := some (wholeSecond s.tb.counter), rejects := 0,
                  holdover := .running 0, trims := trimsAfter s.tb } := by
  obtain ⟨r, e⟩ := applyPulseStep_tb s
  unfold acceptPulse
  rw [State.onTb_tb, e]

theorem acceptPulse_unwritten (h : s.oq.state ≠ .running ∨ offSecond s.tb.counter ≤ s.tb.table.trimBand.toNat) :
    Unwritten s (acceptPulse (offsetOf s.tb.counter) s) := by
  obtain ⟨je, js, tu, xl, hw, cl⟩ := applyPulseStep_unwritten h
  exact ⟨je, js, tu, xl, hw, cl⟩

/-- Settles O23: a pulse that aligns is an accepted pulse, behind the change to LOCKED where the quality is another. -/
theorem pulseLocksTimeBase : Obligations.PulseLocksTimeBase := by
  intro s b e enabled aligned
  refine ⟨takePulse s, exec_pulse enabled rfl, ?_, fun other => ?_, fun still => ?_, fun running other room => ?_,
    fun silent room => ?_⟩
  · by_cases locked : s.tb.quality = .locked
    · rw [takePulse_aligned aligned, if_pos locked, acceptPulse_tb]
      simp only [← locked]
      rfl
    · have accepted := acceptPulse_tb (changeQuality .locked s)
      rw [changeQuality_tb] at accepted
      rw [takePulse_locks aligned locked]
      exact accepted
  · rw [takePulse_locks aligned other]
    exact lockOnPulse_flag _ s
  · by_cases locked : s.tb.quality = .locked
    · rw [takePulse_aligned aligned, if_pos locked]
      exact acceptPulse_taken s
    · rw [takePulse_locks aligned locked, lockOnPulse, changeQuality_closed (still.resolve_right locked)]
      exact (acceptPulse_taken (afterChange { s.tb with quality := .locked } s.oq.queue s)).congr rfl rfl rfl rfl rfl rfl
        rfl rfl rfl rfl
  · refine ⟨_, placeEntry_joined _ _, ?_⟩
    rw [takePulse_locks aligned other, lockOnPulse, changeQuality_room running room]
    exact (acceptPulse_taken (afterChange { s.tb with quality := .locked } _ s)).congr rfl rfl rfl rfl rfl rfl rfl rfl rfl
      rfl
  · suffices kept : Unwritten s (takePulse s) from ⟨kept.je, kept.js, kept.tu, kept.xl, kept.hw, kept.cl⟩
    by_cases locked : s.tb.quality = .locked
    · rw [takePulse_aligned aligned, if_pos locked]
      exact acceptPulse_unwritten silent
    · have changed : ∃ q, changeQuality .locked s = afterChange { s.tb with quality := .locked } q s := by
        by_cases running : s.oq.state = .running
        · have room : s.oq.queue.length < 32 := (room.resolve_left (not_not_intro running)).resolve_left locked
          exact ⟨_, changeQuality_room running room _⟩
        · exact ⟨_, changeQuality_closed running _⟩
      obtain ⟨q, h⟩ := changed
      rw [takePulse_locks aligned locked, lockOnPulse, h]
      obtain ⟨je, js, tu, xl, hw, cl⟩ :=
        acceptPulse_unwritten (s := afterChange { s.tb with quality := .locked } q s) silent
      exact ⟨je, js, tu, xl, hw, cl⟩

/-! ### SET TIME -/

/-- A byte below more significant ones. -/
theorem toNat_append_byte {n : Nat} (x : BitVec n) (y : Byte) : (x ++ y).toNat = 256 * x.toNat + y.toNat := by
  rw [BitVec.toNat_append, ← Nat.shiftLeft_add_eq_or_of_lt y.isLt, Nat.shiftLeft_eq]
  omega

theorem argMicros_eq (s : State) :
    argMicros s = s.hw.entry[4].toNat + 256 * s.hw.entry[5].toNat + 65536 * s.hw.entry[6].toNat := by
  simp only [argMicros, word24, toNat_append_byte]
  omega

theorem toNat_argSeconds (s : State) :
    (argSeconds s).toNat = s.hw.entry[0].toNat + 256 * s.hw.entry[1].toNat + 65536 * s.hw.entry[2].toNat +
      16777216 * s.hw.entry[3].toNat := by
  simp only [argSeconds, word32, toNat_append_byte]
  omega

/-- The time SET TIME gives, by quality (R105 to R107). -/
theorem newTimeOf_eq (s : State) : newTimeOf s = givenTime s := by
  unfold newTimeOf givenTime timeOf microsOf
  rw [toNat_argSeconds, argMicros_eq]
  cases s.tb.quality <;> rfl

/-- A step from a time to another. -/
theorem rebase_difference (t new : Time) : rebase t ((new.val : Int) - t.val) = new := by
  have lands : ((t.val : Int) + ((new.val : Int) - t.val)).toNat = new.val := by omega
  have above : ¬(t.val : Int) + ((new.val : Int) - t.val) < 0 := by omega
  simp only [rebase, clampsAt, decide_eq_true_eq, if_neg above, lands, Fin.ofNat_eq_cast, Fin.cast_val_eq_self]

theorem exec_setTime (free : s.hw.inProgress = none) (unlocked : s.oq.state ≠ .loading) :
    exec .setTime s = .next (if argMicros s < 1000000 then complete .ok (stepToTime (newTimeOf s) s)
      else complete .badarg s) :=
  congrArg Host.Outcome.next (request_taken free unlocked _)

/-- A step that clamps nothing and writes nothing logs nothing (R174). -/
theorem applyStep_ifu_of_no_clamps {S : Int} (cause : StepCause) (journaled : Bool) (closed : s.oq.state ≠ .running)
    (channels : clampedChannels S s = []) (queued : clampedQueued S s = 0) :
    (applyStep S cause journaled s).ifu = s.ifu := by
  have quiet : (clampDetails S s).1 = [] := by
    obtain ⟨numbers, perm, order⟩ := clampDetails_spec S s
    rw [channels] at perm
    rw [queued, perm.eq_nil] at order
    simpa using order
  rw [(applyStep_unwritten (S := S) (s := s) cause (.inl closed)).2, stampsMoved_faults, quiet]
  rfl

/-- A completion leaves what a step has left. -/
theorem StepTaken.complete {S : Int} {t : State} (h : StepTaken S s t) (r : Result) : StepTaken S s (complete r t) := by
  obtain ⟨channels, capture, running, numbers, details, perm, order, faults, lost, flag⟩ := h
  exact ⟨channels, capture, running, numbers, details, perm, order, faults, lost, fun some =>
    getLsbD_of_sticky (complete_quiet r t).sticky (flag some)⟩

/-- Settles O26: SET TIME is one step to the given time. -/
theorem setTimeMovesEveryStamp : Obligations.SetTimeMovesEveryStamp := by
  intro s free unlocked micros new S
  have run := exec_setTime free unlocked
  rw [argMicros_eq, newTimeOf_eq] at run
  refine ⟨fun large => ?_, fun good same => ?_, fun good other => ?_⟩
  · rw [if_neg (Nat.not_lt.mpr large)] at run
    exact run
  · rw [if_pos good, stepToTime, if_pos same] at run
    exact run
  · rw [if_pos good, stepToTime, if_neg other] at run
    obtain ⟨-, tb, -, -, -, -, hw⟩ := applyStep_front S .host true s
    have taken := applyStep_taken S .host true s
    have unwritten (closed : s.oq.state ≠ .running) :=
      (applyStep_unwritten (S := S) (s := s) .host (journaled := true) (.inl closed)).1
    have quiet := applyStep_ifu_of_no_clamps (s := s) (S := S) .host true
    rw [stepTimeBase, rebase_difference] at tb
    generalize applyStep S .host true s = u at *
    refine ⟨complete .ok u, run, taken.complete .ok, tb, ?_, ?_, fun closed => ?_⟩
    · show { u.hw with result := .ok, inProgress := none } = _
      rw [hw]
    · simp [complete, setFlag, flagCmd]
    · obtain ⟨je, js, tu, xl, -, -⟩ := unwritten closed
      refine ⟨je, js, tu, xl, fun channels queued => ?_⟩
      show { u.ifu with irqf := u.ifu.irqf ||| flagCmd } = _
      rw [quiet closed channels queued]
      rfl

end Sys2Proof.Machine
end

section
/-! Packets stored one behind another: the bytes they add to the journal, and what they leave. -/

namespace Sys2Proof.Machine

variable {s t u : State} {a b bytes : List Byte}

/-! ### Appended bytes -/

theorem ring_of_position (p : Pos) (n i : Nat) :
    ((p + BitVec.ofNat 32 n).toNat + i) % Config.ringSize = (p.toNat + (n + i)) % Config.ringSize := by
  simp only [BitVec.toNat_add, BitVec.toNat_ofNat, Config.ringSize]
  omega

/-- Bytes appended behind bytes appended, within the ring (R25). -/
theorem Appended.trans (h : Appended s t a) (g : Appended t u b) (room : a.length + b.length ≤ Config.ringSize) :
    Appended s u (a ++ b) := by
  have later (i : Nat) : (t.js.head.toNat + i) % Config.ringSize = (s.js.head.toNat + (a.length + i)) % Config.ringSize := by
    rw [h.head, ring_of_position]
  refine ⟨?_, fun i hi => ?_, fun x outside => ?_⟩
  · rw [g.head, h.head, BitVec.add_assoc, List.length_append]
    congr 1
    apply BitVec.eq_of_toNat_eq
    simp
  · rw [List.length_append] at hi
    by_cases first : i < a.length
    · rw [List.getElem_append_left first, ← h.written i first]
      refine g.others _ fun j hj => ?_
      rw [later]
      simp only [Config.ringSize] at *
      omega
    · rw [List.getElem_append_right (Nat.le_of_not_lt first), ← g.written (i - a.length) (by omega), later]
      congr 3
      omega
  · rw [g.others x fun j hj => ?_, h.others x fun j hj => outside j (by rw [List.length_append]; omega)]
    rw [later]
    exact outside (a.length + j) (by rw [List.length_append]; omega)

theorem Appended.nil (head : t.js.head = s.js.head) (ram : t.js.ram = s.js.ram) : Appended s t [] :=
  ⟨by simp [head], fun i hi => absurd hi (by simp), fun _ _ => by rw [ram]⟩

/-- Appending is about head and bytes alone. -/
theorem Appended.congr {s' t' : State} (h : Appended s t bytes) (head : s'.js.head = s.js.head)
    (ram : s'.js.ram = s.js.ram) (head' : t'.js.head = t.js.head) (ram' : t'.js.ram = t.js.ram) :
    Appended s' t' bytes :=
  ⟨by rw [head', head]; exact h.head, by rw [head, ram']; exact h.written, by rw [head, ram, ram']; exact h.others⟩

theorem storePacket_appended (canonical : RamCanonical s) (short : bytes.length ≤ Config.ringSize) (isSync : Bool) :
    Appended s (storePacket bytes isSync s) bytes := by
  refine ⟨by rw [storePacket_js], fun i hi => ?_, fun x outside => ?_⟩
  · rw [storePacket_js]
    exact Memory.read_writeBytes_inside canonical _ _ short hi
  · rw [storePacket_js]
    exact Memory.read_writeBytes_outside _ _ _ outside

theorem freeSpace_le (j : Store) : freeSpace j ≤ Config.ringSize := Nat.sub_le _ _

/-! ### What stored packets leave -/

/-- From `s` to `t` the bytes have been appended as packets, of which the SYNCs stand at the positions given; the encoder's
own state apart, nothing else has moved (R25, R26). -/
structure Written (bytes : List Byte) (syncs : List Pos) (s t : State) : Prop where
  appended : Appended s t bytes
  js : t.js = { s.js with ram := t.js.ram, head := t.js.head, index := s.js.index ++ syncs }
  free : freeSpace t.js + bytes.length = freeSpace s.js
  canonical : RamCanonical t
  xl : t.xl = s.xl
  flags : t.ifu.irqf = s.ifu.irqf ∨ t.ifu.irqf = s.ifu.irqf ||| flagAvl
  frame : StoreFrame s t

theorem Written.refl (canonical : RamCanonical s) : Written [] [] s s :=
  ⟨.nil rfl rfl, by simp, by simp, canonical, rfl, .inl rfl, .refl s⟩

theorem Written.trans {x y : List Pos} (h : Written a x s t) (g : Written b y t u) : Written (a ++ b) (x ++ y) s u where
  appended := h.appended.trans g.appended (by
    have := freeSpace_le s.js
    have := h.free
    have := g.free
    omega)
  js := by rw [g.js, h.js]; simp
  free := by rw [List.length_append, ← h.free, ← g.free]; omega
  canonical := g.canonical
  xl := g.xl.trans h.xl
  flags := by
    rcases h.flags with first | first <;> rcases g.flags with second | second <;> rw [second, first]
    · exact .inl rfl
    · exact .inr rfl
    · exact .inr rfl
    · rw [BitVec.or_assoc, BitVec.or_self]
      exact .inr rfl
  frame := h.frame.trans g.frame

/-- A change of the encoder's own state behind the packets. -/
theorem Written.onJe {x : List Pos} (h : Written bytes x s t) (f : Encoder → Encoder) : Written bytes x s (t.onJe f) :=
  ⟨h.appended.congr rfl rfl rfl rfl, h.js, h.free, h.canonical, h.xl, h.flags, h.frame.trans (onJe_frame f t)⟩

theorem Written.fill {x : List Pos} (h : Written bytes x s t) : t.js.fill = s.js.fill := by rw [h.js]
theorem Written.tail {x : List Pos} (h : Written bytes x s t) : t.js.tail = s.js.tail := by rw [h.js]
theorem Written.index {x : List Pos} (h : Written bytes x s t) : t.js.index = s.js.index ++ x := by rw [h.js]

theorem storePacket_written (canonical : RamCanonical s) (room : bytes.length ≤ freeSpace s.js) (isSync : Bool) :
    Written bytes (if isSync then [s.js.head] else []) s (storePacket bytes isSync s) where
  appended := storePacket_appended canonical (room.trans (freeSpace_le _)) isSync
  js := by rw [storePacket_js]; cases isSync <;> simp
  free := by rw [freeSpace_storePacket room]; omega
  canonical := by
    rw [RamCanonical, storePacket_js]
    exact Memory.writeBytes_wf canonical _ _
  xl := storePacket_xl _ _ _
  flags := by
    rw [storePacket, evalAvl_irqf]
    exact (ite_eq_or_eq _ _ _).symm
  frame := storePacket_frame _ _ _

/-! ### Packets the encoder offers -/

/-- The encoder's state after a stored packet that is no SYNC (R14). -/
def jeStored (n : Nat) (e : Encoder) : Encoder := { e with sinceSync := min 16384 (e.sinceSync + n) }

/-- The encoder's state after a stored SYNC of the given time (R12, R13, R14). -/
def jeSynced (time : Time) (e : Encoder) : Encoder :=
  { e with runningTime := time, sinceSync := 0, segment := e.segment + 1#16 }

/-- A packet that fits a NORMAL store is stored (R14, R36). -/
theorem emit_stored (canonical : RamCanonical s) (normal : s.js.fill = .normal)
    (room : bytes.length + 32 ≤ freeSpace s.js) (failure : Time) :
    ∃ t, emit bytes false failure s = (.stored, t) ∧ Written bytes [] s t ∧ t.je = jeStored bytes.length s.je := by
  have fit : fits bytes.length false s = true := fits_iff.mpr ⟨room, by simp⟩
  refine ⟨countStored bytes.length false (storePacket bytes false s), ?_, ?_, ?_⟩
  · rw [emit, offer_of_fits normal fit]
  · exact (storePacket_written canonical (by omega) false).onJe _
  · simp [countStored, jeStored, sinceAfter, Config.ringSize]

/-- A SYNC that fits a NORMAL store is stored (R12, R13, R14, R36). -/
theorem emitSync_stored (canonical : RamCanonical s) (normal : s.js.fill = .normal) (room : 49 ≤ freeSpace s.js)
    (index : s.js.index.length < 64) (time : Time) (image : Image) (failure : Time) :
    ∃ t, emitSync time image failure s = (.stored, t) ∧ Written (syncPacket s time image) [s.js.head] s t ∧
      t.je = jeSynced time s.je := by
  have fit : fits (syncPacket s time image).length true s = true :=
    fits_iff.mpr ⟨by rw [length_syncPacket]; exact room, fun _ => index⟩
  have stored : emit (syncPacket s time image) true failure s =
      (.stored, countStored (syncPacket s time image).length true (storePacket (syncPacket s time image) true s)) := by
    rw [emit, offer_of_fits normal fit]
  refine ⟨_, by rw [emitSync, stored], ?_, ?_⟩
  · refine ((storePacket_written canonical ?_ true).onJe _).onJe _
    rw [length_syncPacket]
    exact le_trans (by decide) room
  · simp [countStored, jeSynced, sinceAfter]

/-- Several packets in order, none a SYNC, that fit together (R15 step 5). -/
theorem emitAll_stored {ps : List (List Byte)} (canonical : RamCanonical s) (normal : s.js.fill = .normal)
    (room : ps.flatten.length + 32 ≤ freeSpace s.js) (failure : Time) :
    Written ps.flatten [] s (emitAll failure ps s) ∧
      ∃ n, (emitAll failure ps s).je = { s.je with sinceSync := n } := by
  induction ps generalizing s with
  | nil => exact ⟨.refl canonical, s.je.sinceSync, rfl⟩
  | cons p ps ih =>
    rw [List.flatten_cons, List.length_append] at room
    obtain ⟨t, emitted, written, je⟩ := emit_stored (bytes := p) canonical normal (by omega) failure
    have rest := ih written.canonical (written.fill.trans normal) (by have := written.free; omega)
    rw [emitAll, emitted]
    refine ⟨written.trans rest.1, ?_⟩
    obtain ⟨n, hn⟩ := rest.2
    exact ⟨n, by rw [hn, je]; rfl⟩

/-! ### The bytes of packets, as the obligations write them -/

theorem byteOf_eq {w : Nat} (v : BitVec w) (i : Nat) : byteOf v i = v.extractLsb' (8 * i) 8 := rfl

theorem bytesOf_two {w : Nat} (v : BitVec w) : bytesOf v 2 = [v.extractLsb' 0 8, v.extractLsb' 8 8] := rfl

theorem bytesOf_three {w : Nat} (v : BitVec w) : bytesOf v 3 = [v.extractLsb' 0 8, v.extractLsb' 8 8, v.extractLsb' 16 8] :=
  rfl

theorem syncPacket_eq (s : State) (time : Time) (image : Image) : syncPacket s time image = syncAs s time image := rfl

/-- A SYNC's bytes come from the segment, mask, quality, hold and policy (R3). -/
theorem syncAs_congr (segment : t.je.segment = s.je.segment) (mask : t.je.mask = s.je.mask)
    (quality : t.tb.quality = s.tb.quality) (hold : t.tu.hold = s.tu.hold) (policy : t.js.table.policy = s.js.table.policy)
    (time : Time) (image : Image) : syncAs t time image = syncAs s time image := by
  simp only [syncAs, segment, mask, quality, hold, policy]

theorem lossPacket_eq (e : Encoder) : lossPacket e = lossAs e.lossCount e.firstLost e.lastLost := rfl

/-- An entry's packet: its head and its delta or distance (R194). -/
theorem entryPacket_eq (running : Time) (e : Entry) :
    entryPacket running e = entryHead (isLate running e).toNat e.body ++ varint (entryDistance running e) := by
  unfold entryPacket
  cases isLate running e <;> cases body : e.body with
  | change ch level => cases level <;> rfl
  | suppress ch level => cases level <;> rfl
  | release ch level => cases level <;> rfl
  | timeq new previous => cases new <;> cases previous <;> rfl
  | mark tag source => cases source <;> rfl

end Sys2Proof.Machine
end

section
/-! Journaled steps in the journal, and marks in the queue. -/

namespace Sys2Proof.Machine

variable {s : State}

/-! ### Journaled steps -/

/-- What a journaled step leaves of the journal: the STEP and the forced SYNC behind it (R13, R23). -/
structure StepWritten (cause : StepCause) (after : Time) (s t : State) : Prop where
  appended : Appended s t (stepPacket cause s.je.runningTime after ++ syncAs s after s.je.image)
  index : t.js.index = s.js.index ++ [s.js.head + 15#32]
  tail : t.js.tail = s.js.tail
  fill : t.js.fill = .normal
  je : t.je = { s.je with runningTime := after, sinceSync := 0, segment := s.je.segment + 1#16 }
  tu : t.tu = s.tu
  xl : t.xl = s.xl

theorem length_stepPacket (cause : StepCause) (old new : Time) : (stepPacket cause old new).length = 15 := rfl

/-- A STEP and its SYNC that fit are stored, one behind the other (R13, R23). -/
theorem emitStep_stored {cause : StepCause} {old new : Time} (canonical : RamCanonical s) (normal : s.js.fill = .normal)
    (room : 64 ≤ freeSpace s.js) (index : s.js.index.length < 64) :
    Written (stepPacket cause old new ++ syncAs s new s.je.image) [s.js.head + 15#32] s (emitStep cause old new s) ∧
      (emitStep cause old new s).je = { s.je with runningTime := new, sinceSync := 0, segment := s.je.segment + 1#16 } := by
  obtain ⟨t, emitted, written, je⟩ := emit_stored (bytes := stepPacket cause old new) canonical normal
    (by rw [length_stepPacket]; omega) new
  have free := written.free
  rw [length_stepPacket] at free
  obtain ⟨u, synced, written', je'⟩ := emitSync_stored written.canonical (written.fill.trans normal) (by omega)
    (by rw [written.index, List.append_nil]; exact index) new t.je.image new
  have frame := written.frame
  unfold emitStep
  rw [emitted]
  dsimp only
  rw [synced]
  have same : syncPacket t new t.je.image = syncAs s new s.je.image := by
    rw [syncPacket_eq, je]
    exact syncAs_congr (by rw [je]; rfl) (by rw [je]; rfl) (by rw [frame.tb]) (by rw [frame.tu]) (by rw [frame.table]) _ _
  rw [same, written.appended.head] at written'
  exact ⟨written.trans written', by rw [je', je]; rfl⟩

theorem applyStep_written (S : Int) (cause : StepCause) (running : s.oq.state = .running) (canonical : RamCanonical s)
    (normal : s.js.fill = .normal) (room : 64 ≤ freeSpace s.js) (index : s.js.index.length < 64) :
    StepWritten cause (rebase s.je.runningTime S) s (applyStep S cause true s) := by
  obtain ⟨-, tb, oq, tu, js, -, -, xl, je⟩ := stampsMoved_front S s
  have state : (stampsMoved S s).oq.state = .running := by rw [oq, rebaseQueue_oq]; exact running
  have quality : (stampsMoved S s).tb.quality = s.tb.quality := by rw [tb]; rfl
  have step : applyStep S cause true s = emitStep cause s.je.runningTime (rebase s.je.runningTime S)
      ((stampsMoved S s).onJe fun e => { e with runningTime := rebase s.je.runningTime S }) := by
    rw [applyStep_eq]
    unfold encoderStep
    simp only [state, je, if_true]
  have js' : ((stampsMoved S s).onJe fun e => { e with runningTime := rebase s.je.runningTime S }).js = s.js := js
  have tu' : ((stampsMoved S s).onJe fun e => { e with runningTime := rebase s.je.runningTime S }).tu = s.tu := tu
  have xl' : ((stampsMoved S s).onJe fun e => { e with runningTime := rebase s.je.runningTime S }).xl = s.xl := xl
  have tb' : ((stampsMoved S s).onJe fun e => { e with runningTime := rebase s.je.runningTime S }).tb.quality =
      s.tb.quality := quality
  have je' : ((stampsMoved S s).onJe fun e => { e with runningTime := rebase s.je.runningTime S }).je =
      { s.je with runningTime := rebase s.je.runningTime S } := by rw [State.onJe_je, je]
  generalize (stampsMoved S s).onJe (fun e => { e with runningTime := rebase s.je.runningTime S }) = u at *
  obtain ⟨written, wje⟩ := emitStep_stored (s := u) (cause := cause) (old := s.je.runningTime)
    (new := rebase s.je.runningTime S) (by rw [RamCanonical, js']; exact canonical) (by rw [js']; exact normal)
    (by rw [js']; exact room) (by rw [js']; exact index)
  have bytes : syncAs u (rebase s.je.runningTime S) u.je.image = syncAs s (rebase s.je.runningTime S) s.je.image := by
    rw [je']
    exact syncAs_congr (by rw [je']) (by rw [je']) tb' (by rw [tu']) (by rw [js']) _ _
  rw [bytes, ← step] at written
  rw [← step, je'] at wje
  exact ⟨written.appended.congr (by rw [js']) (by rw [js']) rfl rfl, by rw [written.index, js'],
    by rw [written.tail, js'], by rw [written.fill, js']; exact normal, wje, by rw [written.frame.tu]; exact tu',
    by rw [written.xl]; exact xl'⟩

/-- The first byte of a STEP (R194). -/
def stepHeader : StepCause → Byte
  | .pulse => 0x50#8
  | .host => 0x51#8

/-- Settles O27: SET TIME and the pulse each apply one journaled step. -/
theorem journaledStepIsWritten : Obligations.JournaledStepIsWritten := by
  intro s running normal room bounded index canonical written
  have journal {cause : StepCause} {S : Int} {u t : State} (h : StepWritten cause (rebase u.je.runningTime S) u t)
      (js : u.js = s.js) (je : u.je = s.je) (tu : u.tu = s.tu) (xl : u.xl = s.xl) :
      written (stepHeader cause) S u.tb.quality t := by
    obtain ⟨appended, index, tail, fill, je', tu', xl'⟩ := h
    rw [je] at appended je'
    have bytes : syncAs u (rebase s.je.runningTime S) s.je.image =
        syncAs { s with tb := { s.tb with quality := u.tb.quality } } (rebase s.je.runningTime S) s.je.image :=
      syncAs_congr (s := { s with tb := { s.tb with quality := u.tb.quality } }) (t := u) (by rw [je]) (by rw [je]) rfl
        (by rw [tu]) (by rw [js]) _ _
    rw [bytes] at appended
    refine ⟨by cases cause <;> exact appended.congr (by rw [js]) (by rw [js]) rfl rfl, ?_, ?_, fill, je', tu'.trans tu, xl'.trans xl⟩
    · rw [index, js]
    · rw [tail, js]
  refine ⟨?_, ?_⟩
  · intro free good other S
    have run := exec_setTime free (by simp [running])
    have small : argMicros s < 1000000 := good
    rw [if_pos small, newTimeOf_eq, stepToTime, if_neg other] at run
    have step := applyStep_written S .host running canonical normal room index
    obtain ⟨-, tb, oq, -, -, -, -⟩ := applyStep_front S .host true s
    rw [rebaseQueue_oq, movedCapture] at oq
    rw [stepTimeBase, rebase_difference] at tb
    have stepped : written 0x51#8 S s.tb.quality (applyStep S .host true s) := journal step rfl rfl rfl rfl
    generalize applyStep S .host true s = u at *
    refine ⟨complete .ok u, run, ?_, ?_, ?_, rfl⟩
    · obtain ⟨appended, index, tail, fill, je, tu, xl⟩ := stepped
      exact ⟨appended.congr rfl rfl rfl rfl, index, tail, fill, je, tu, xl⟩
    · exact congrArg TimeBase.counter tb
    · refine Eq.trans (b := u.oq) rfl ?_
      rw [oq]
      simp [running]
  · intro enabled aligned far locked_or_room
    have off : offSecond s.tb.counter ≠ 0 := by omega
    have accepts {u : State} (tb : u.tb = { s.tb with quality := .locked }) (state : u.oq.state = .running)
        (js : u.js = s.js) (je : u.je = s.je) (tu : u.tu = s.tu) (xl : u.xl = s.xl) (hw : u.hw = s.hw) :
        (acceptPulse (offsetOf s.tb.counter) u).hw = s.hw ∧
          written 0x50#8 (stepToSecond s.tb.counter) .locked (acceptPulse (offsetOf s.tb.counter) u) := by
      have counter : u.tb.counter = s.tb.counter := by rw [tb]
      have loud : decide (u.tb.table.trimBand.toNat < offSecond u.tb.counter) = true := by
        rw [tb]
        simpa using far
      have silent : trimmed u = u := if_neg (by simpa using loud)
      have pulse := applyPulseStep_off (s := u) (by rw [counter]; exact off)
      rw [loud, silent, counter] at pulse
      have step := applyStep_written (s := u) (stepToSecond s.tb.counter) .pulse state
        (by rw [RamCanonical, js]; exact canonical) (by rw [js]; exact normal) (by rw [js]; exact room)
        (by rw [js]; exact index)
      obtain ⟨-, -, -, -, -, -, hw'⟩ := applyStep_front (stepToSecond s.tb.counter) .pulse true u
      obtain ⟨appended, index, tail, fill, je', tu', xl'⟩ := journal step js je tu xl
      rw [← pulse] at appended index tail fill je' tu' xl' hw'
      rw [tb] at appended
      exact ⟨hw'.trans hw, appended.congr rfl rfl rfl rfl, index, tail, fill, je', tu', xl'⟩
    refine ⟨takePulse s, exec_pulse enabled rfl, ?_⟩
    by_cases locked : s.tb.quality = .locked
    · rw [takePulse_aligned aligned, if_pos locked]
      refine accepts ?_ running rfl rfl rfl rfl rfl
      rw [← locked]
    · rw [takePulse_locks aligned locked, lockOnPulse, changeQuality_room running (locked_or_room.resolve_left locked)]
      exact accepts rfl running rfl rfl rfl rfl rfl

/-! ### Marks -/

/-- A host MARK in RUNNING (R66). -/
theorem exec_mark (free : s.hw.inProgress = none) (running : s.oq.state = .running) :
    exec .mark s = .next (complete .ok (takeEntry
      { stamp := s.tb.counter, body := EntryBody.mark (s.hw.entry[1] ++ s.hw.entry[0]) .host } s)) :=
  congrArg Host.Outcome.next ((request_taken free (by simp [running]) _).trans (if_pos running))

end Sys2Proof.Machine
end

section
/-! Arrivals at the queue with room and at the full queue. The encoder handles a released entry the same whatever the
horizon is, so a forced release is one at the horizon. -/

namespace Sys2Proof.Machine

variable {s t : State}

/-! ### The encoder does not look at the horizon -/

/-- The state with another release horizon. -/
def atHorizon (h : Nat) (s : State) : State := s.onOq fun q => { q with horizon := h }

variable (h : Nat)

theorem evalAvl_atHorizon (s : State) : evalAvl (atHorizon h s) = atHorizon h (evalAvl s) := by
  simp only [evalAvl]
  show (if (decide (s.hw.avth.toNat ≤ hostUnread s) && !s.ifu.above) = true then _ else _) = _
  split <;> rfl

theorem reevalFreeing_atHorizon (s : State) : reevalFreeing (atHorizon h s) = atHorizon h (reevalFreeing s) := by
  unfold reevalFreeing
  have same : freeTarget (atHorizon h s) = freeTarget s := rfl
  rw [same]
  cases freeTarget s <;> rfl

theorem discardNotice_atHorizon (old new : Pos) (s : State) :
    discardNotice old new (atHorizon h s) = atHorizon h (discardNotice old new s) := by
  unfold discardNotice
  show (if s.js.exportC.attached = true then _ else _) = _
  split
  · dsimp only
    rw [← reevalFreeing_atHorizon]
    rfl
  · rfl

theorem discardTo_atHorizon (e : Pos) (s : State) : discardTo e (atHorizon h s) = atHorizon h (discardTo e s) := by
  unfold discardTo
  dsimp only
  rw [← discardNotice_atHorizon, ← evalAvl_atHorizon]
  rfl

theorem discardUntil_atHorizon {goal : State → Bool} (blind : ∀ s, goal (atHorizon h s) = goal s) (fuel : Nat)
    (s : State) : discardUntil goal fuel (atHorizon h s) = atHorizon h (discardUntil goal fuel s) := by
  induction fuel generalizing s with
  | zero => rfl
  | succ n ih =>
    unfold discardUntil
    have same : discardTarget (atHorizon h s) = discardTarget s := rfl
    rw [blind, same]
    split
    · rfl
    · split
      · rfl
      · rw [discardTo_atHorizon, ih]

theorem makeRoom_atHorizon {goal : State → Bool} (blind : ∀ s, goal (atHorizon h s) = goal s) (s : State) :
    makeRoom goal (atHorizon h s) = atHorizon h (makeRoom goal s) := by
  unfold makeRoom
  show (match s.js.table.policy with | .keepOldest => _ | .keepNewest => _) = _
  cases s.js.table.policy
  · rfl
  · exact discardUntil_atHorizon h blind _ s

/-- An answer with a state at another horizon. -/
def mapHorizon {α : Type} (r : α × State) : α × State := (r.1, atHorizon h r.2)

theorem storePacket_atHorizon (bytes : List Byte) (isSync : Bool) (s : State) :
    storePacket bytes isSync (atHorizon h s) = atHorizon h (storePacket bytes isSync s) := by
  unfold storePacket
  rw [← evalAvl_atHorizon]
  rfl

theorem offer_atHorizon (bytes : List Byte) (isSync : Bool) (s : State) :
    offer bytes isSync (atHorizon h s) = mapHorizon h (offer bytes isSync s) := by
  unfold offer
  show (match s.js.fill with | .losing => _ | .normal => _) = _
  have fit (u : State) : fits bytes.length isSync (atHorizon h u) = fits bytes.length isSync u := rfl
  cases s.js.fill
  · simp only [makeRoom_atHorizon h fit, fit]
    split
    · exact congrArg (Prod.mk Answer.stored) (storePacket_atHorizon h _ _ _)
    · rfl
  · rfl

theorem emit_atHorizon (bytes : List Byte) (isSync : Bool) (failure : Time) (s : State) :
    emit bytes isSync failure (atHorizon h s) = mapHorizon h (emit bytes isSync failure s) := by
  unfold emit
  rw [offer_atHorizon]
  rcases offer bytes isSync s with ⟨a, s1⟩
  cases a <;> rfl

theorem emitSync_atHorizon (time : Time) (image : Image) (failure : Time) (s : State) :
    emitSync time image failure (atHorizon h s) = mapHorizon h (emitSync time image failure s) := by
  have same : syncPacket (atHorizon h s) time image = syncPacket s time image := rfl
  unfold emitSync
  rw [same, emit_atHorizon]
  rcases emit (syncPacket s time image) true failure s with ⟨a, s1⟩
  cases a <;> rfl

theorem emitAll_atHorizon (failure : Time) (ps : List (List Byte)) (s : State) :
    emitAll failure ps (atHorizon h s) = atHorizon h (emitAll failure ps s) := by
  induction ps generalizing s with
  | nil => rfl
  | cons p ps ih => rw [emitAll, emit_atHorizon]; exact ih _

theorem emitEntry_atHorizon (e : Entry) (s : State) : emitEntry e (atHorizon h s) = atHorizon h (emitEntry e s) := by
  have same : (atHorizon h s).je = s.je := rfl
  unfold emitEntry
  rw [same, emit_atHorizon]
  rcases emit (entryPacket s.je.runningTime e) false e.stamp s with ⟨a, s1⟩
  cases a
  · simp only [mapHorizon]
    split <;> rfl
  · rfl
  · rfl

theorem emitSyncThenEntry_atHorizon (e : Entry) (before : Image) (s : State) :
    emitSyncThenEntry e before (atHorizon h s) = atHorizon h (emitSyncThenEntry e before s) := by
  have same : entrySyncTime e (atHorizon h s) = entrySyncTime e s := rfl
  unfold emitSyncThenEntry
  rw [same, emitSync_atHorizon]
  rcases emitSync (entrySyncTime e s) before e.stamp s with ⟨a, s1⟩
  cases a
  · exact emitEntry_atHorizon h e s1
  · rfl
  · rfl

theorem resumePackets_atHorizon (e : Entry) (before : Image) (s : State) :
    resumePackets e before (atHorizon h s) = atHorizon h (resumePackets e before s) := by
  have same : (atHorizon h s).je = s.je := rfl
  unfold resumePackets
  rw [same, emit_atHorizon]
  rcases emit (lossPacket s.je) false e.stamp s with ⟨a, s1⟩
  cases a
  · simp only [mapHorizon]
    rw [← emitSyncThenEntry_atHorizon]
    rfl
  · rfl
  · rfl

theorem entryPackets_atHorizon (resumed : Bool) (e : Entry) (before : Image) (s : State) :
    entryPackets resumed e before (atHorizon h s) = atHorizon h (entryPackets resumed e before s) := by
  unfold entryPackets
  show (match s.js.fill with | .losing => _ | .normal => _) = _
  cases s.js.fill
  · cases resumed
    · have same : syncDue e (atHorizon h s) = syncDue e s := rfl
      simp only [Bool.false_eq_true, if_false, normalPackets, same]
      split
      · exact emitSyncThenEntry_atHorizon h e before s
      · exact emitEntry_atHorizon h e s
    · exact resumePackets_atHorizon h e before s
  · rfl

theorem resumptionCheck_atHorizon (s : State) : resumptionCheck (atHorizon h s) = mapHorizon h (resumptionCheck s) := by
  have blind (u : State) : resumeRoomFree (atHorizon h u) = resumeRoomFree u := rfl
  unfold resumptionCheck
  show (match s.js.fill with | .normal => _ | .losing => _) = _
  cases s.js.fill
  · rfl
  · simp only [makeRoom_atHorizon h blind, blind]
    split <;> rfl

theorem takeRule_atHorizon (r : TriggerRule) (s : State) :
    takeRule r (atHorizon h s) = mapHorizon h (takeRule r s) := by
  have raised : (if r.interrupt then setFlag flagTrg (atHorizon h s) else atHorizon h s) =
      atHorizon h (if r.interrupt then setFlag flagTrg s else s) := by split <;> rfl
  unfold takeRule
  rw [raised]
  generalize (if r.interrupt then setFlag flagTrg s else s) = u
  dsimp only
  cases r.action.holdAction
  · rfl
  · have same : (atHorizon h u).tu = u.tu := rfl
    simp only [same]
    split <;> rfl

theorem evaluateRules_atHorizon (ch : Channel) (level : Bool) (img : Image) (is : List (Fin 8)) (s : State) :
    evaluateRules ch level img is (atHorizon h s) = mapHorizon h (evaluateRules ch level img is s) := by
  induction is generalizing s with
  | nil => rfl
  | cons i is ih =>
    have same : (atHorizon h s).tu = s.tu := rfl
    unfold evaluateRules
    simp only [same, takeRule_atHorizon]
    split
    · simp only [mapHorizon, ih]
    · exact ih s

theorem evaluateEntry_atHorizon (e : Entry) (s : State) :
    evaluateEntry e (atHorizon h s) = mapHorizon h (evaluateEntry e s) := by
  unfold evaluateEntry
  split
  · exact evaluateRules_atHorizon h _ _ _ _ s
  · rfl

theorem holdStopRequest_atHorizon (s : State) : holdStopRequest (atHorizon h s) = atHorizon h (holdStopRequest s) := by
  have same : (atHorizon h s).oq.state = s.oq.state := rfl
  unfold holdStopRequest
  rw [same]
  split <;> rfl

theorem reportEntry_atHorizon (wasCollecting : Bool) (stamp : Time) (s : State) :
    reportEntry wasCollecting stamp (atHorizon h s) = atHorizon h (reportEntry wasCollecting stamp s) := by
  have counted : (atHorizon h s).onTu (fun u => { u with count := u.count + 1 }) =
      atHorizon h (s.onTu fun u => { u with count := u.count + 1 }) := rfl
  unfold reportEntry
  rw [counted]
  generalize s.onTu (fun u => { u with count := u.count + 1 }) = u
  cases wasCollecting
  · rfl
  · have closed : closeHold (atHorizon h u) = atHorizon h (closeHold u) := rfl
    have same : (atHorizon h u).tu = u.tu := rfl
    simp only [if_true, same, closed, emit_atHorizon, mapHorizon]
    split
    · generalize (emit (holdPacket .byQuota) false stamp (closeHold u)).2 = v
      show (match v.tu.action with | .hold => _ | .holdStop => _) = _
      cases v.tu.action
      · rfl
      · exact holdStopRequest_atHorizon h v
    · rfl

theorem entryWritten_atHorizon (e : Entry) (s : State) : entryWritten e (atHorizon h s) = atHorizon h (entryWritten e s) := by
  unfold entryWritten
  rw [resumptionCheck_atHorizon]
  rcases resumptionCheck s with ⟨resumed, s1⟩
  have image : (atHorizon h s1).onJe (fun j => { j with image := imageAfter e j.image }) =
      atHorizon h (s1.onJe fun j => { j with image := imageAfter e j.image }) := rfl
  simp only [mapHorizon, image, evaluateEntry_atHorizon]
  rcases evaluateEntry e (s1.onJe fun j => { j with image := imageAfter e j.image }) with ⟨hits, s2⟩
  have late : (if isLate (atHorizon h s2).je.runningTime e then logFault .late (orderDetail e) (atHorizon h s2)
      else atHorizon h s2) = atHorizon h (if isLate s2.je.runningTime e then logFault .late (orderDetail e) s2 else s2) := by
    show (if isLate s2.je.runningTime e then _ else _) = _
    split <;> rfl
  have je : (atHorizon h s1).je = s1.je := rfl
  simp only [late, je, entryPackets_atHorizon, emitAll_atHorizon]

/-- A released entry is handled the same at any horizon (R15). -/
theorem handleEntry_atHorizon (e : Entry) (s : State) : handleEntry e (atHorizon h s) = atHorizon h (handleEntry e s) := by
  rw [handleEntry_eq, handleEntry_eq, entryWritten_atHorizon, reportEntry_atHorizon]
  rfl

end Sys2Proof.Machine
end

section
/-! Marks, and arrivals at the full queue of every source. -/

namespace Sys2Proof.Machine

variable {s t : State}

/-! ### Marks -/

/-- The bytes of an XMARK with a good check (R145). -/
theorem check_of_sum {high low check : Byte} (sum : check.toNat = 255 - (high.toNat + low.toNat) % 256) :
    check = ~~~(high + low) := by
  apply BitVec.eq_of_toNat_eq
  rw [BitVec.toNat_not, BitVec.toNat_add, sum]

/-- The MARK entry of a link XMARK (R67). -/
def xmarkEntry (high low : Byte) (s : State) : Entry := { stamp := s.tb.counter, body := .mark (high ++ low) .link }

/-- An XMARK with a good check in RUNNING (R67, R145). -/
theorem exec_xmark_taken {high low check status : Byte} (phase : s.xl.phase = .selected status)
    (sum : check.toNat = 255 - (high.toNat + low.toNat) % 256) (running : s.oq.state = .running) :
    exec (.xmark high low check) s =
      .next (linkServed status (takeEntry (xmarkEntry high low s) (errorCleared s))) := by
  rw [exec_xmark phase, takeXmark, if_pos (check_of_sum sum)]
  exact congrArg (fun t => Host.Outcome.next (linkServed status t)) (if_pos running)

/-- Settles O28: both marks are taken, with room. -/
theorem marksJoinTheQueue : Obligations.MarksJoinTheQueue := by
  intro s running room
  refine ⟨?_, ?_⟩
  · intro free e
    refine ⟨_, placeEntry_joined e _, ?_⟩
    rw [exec_mark free running, takeEntry_room room]
    rfl
  · intro high low check status phase sum e
    refine ⟨_, placeEntry_joined e _, ?_⟩
    rw [exec_xmark_taken phase sum running, takeEntry_room (s := errorCleared s) room]
    rfl

/-! ### The full queue -/

/-- At the full queue the first of the 33 is released (R64). -/
theorem takeEntry_full (full : s.oq.queue.length = 32) (e : Entry) :
    ∃ first rest, placeEntry e s.oq.queue = first :: rest ∧ rest.length = 32 ∧
      takeEntry e s = handleEntry first (logFault .forced (orderDetail first) (s.onOq fun q => { q with queue := rest })) := by
  have more := length_placeEntry e s.oq.queue
  cases placed : placeEntry e s.oq.queue with
  | nil => rw [placed] at more; simp at more
  | cons first rest =>
    rw [placed, List.length_cons] at more
    refine ⟨first, rest, rfl, by omega, ?_⟩
    unfold takeEntry
    rw [if_neg (by simp [full, Config.queueCapacity]), placed]

theorem logFault_forcedHead (first : Entry) (rest : List Entry) (s : State) :
    (forcedHead first rest s).onOq (fun q => { q with queue := rest }) =
      atHorizon 0 (logFault .forced (orderDetail first) (s.onOq fun q => { q with queue := rest })) := by
  rw [logFault_cases]
  rfl

@[simp] theorem addMicros_zero (t : Time) : addMicros t 0 = t := by
  simp [addMicros]

/-- An arrival at the full queue forces a release (R64). -/
theorem forcesRelease_take (full : s.oq.queue.length = 32) (run : runOpen s = true) (e : Entry) :
    ForcesRelease e s (takeEntry e s) := by
  obtain ⟨first, rest, placed, more, taken⟩ := takeEntry_full full e
  have logged := logFault_cases .forced (orderDetail first) (s.onOq fun q => { q with queue := rest })
  have frame := handleEntry_frame first (logFault .forced (orderDetail first) (s.onOq fun q => { q with queue := rest }))
  refine ⟨first, rest, placed ▸ placeEntry_joined e _, ?_, more, ?_, ?_, ?_, fun due => ?_⟩ <;> rw [taken]
  · rw [frame.queue, logFault_oq]
    rfl
  · rw [frame.horizon, logFault_oq]
    rfl
  · refine getLsbD_of_sticky frame.sticky ?_
    rw [logged]
    simp [flagFlt]
  · have faults : (logFault .forced (orderDetail first) (s.onOq fun q => { q with queue := rest })).ifu.faults =
        faultsWith s .forced (BitVec.ofNat 8 (orderKey first)) := by
      rw [logged]
      rfl
    exact faults ▸ frame.faults
  · have come : horizonDue (forcedHead first rest s) = true := by
      have same : runOpen (forcedHead first rest s) = runOpen s := rfl
      show (runOpen (forcedHead first rest s) && reached s.tb.counter (addMicros first.stamp 0)) = true
      rw [same, run, addMicros_zero, reached, due]
      rfl
    have released : exec .horizonExpiry (forcedHead first rest s) =
        .next (handleEntry first ((forcedHead first rest s).onOq fun q => { q with queue := rest })) :=
      congrArg Host.Outcome.next (if_pos come)
    rw [released, logFault_forcedHead, handleEntry_atHorizon]
    rfl

/-- The queue is full still. -/
theorem ForcesRelease.full {e : Entry} (h : ForcesRelease e s t) : t.oq.queue.length = 32 := by
  obtain ⟨_, rest, -, queue, more, -⟩ := h
  rw [queue, more]

/-! ### Changes of quality -/

/-- In RUNNING a change of quality is the taking of its TIMEQ (R101). -/
theorem changeQuality_running (running : s.oq.state = .running) (new : Quality) :
    changeQuality new s = takeEntry (timeqEntry s.tb.counter new s.tb.quality)
      (afterChange { s.tb with quality := new } s.oq.queue s) :=
  (if_pos running).trans (offerEntry_running (s := setFlag flagTqc <| s.onTb fun t => { t with quality := new }) running _)

/-- What a command leaves that changes the quality once, at the full queue (R64, R101). -/
def ForcedChange (s u : State) (new : TimeBase) : Prop :=
  u = takeEntry (timeqEntry s.tb.counter new.quality s.tb.quality) (afterChange new s.oq.queue s)

theorem ChangesTo.forced (running : s.oq.state = .running) {u : State} {new : TimeBase} (h : ChangesTo s u new) :
    ForcedChange s u new := by
  obtain ⟨f, q, rfl, rfl, counter, quality⟩ := h
  have taken := changeQuality_running (s := s.onTb f) running q
  rw [State.onTb_tb, counter, quality] at taken
  exact taken

/-- A forced change is a forced release (R64). -/
theorem ForcedChange.forces (full : s.oq.queue.length = 32) (running : s.oq.state = .running) {u : State} {new : TimeBase}
    (h : ForcedChange s u new) :
    ForcesRelease (timeqEntry s.tb.counter new.quality s.tb.quality) (afterChange new s.oq.queue s) u := by
  have taken := forcesRelease_take (s := afterChange new s.oq.queue s) full (runOpen_of_running running)
    (timeqEntry s.tb.counter new.quality s.tb.quality)
  rwa [← h] at taken

/-! ### Channels -/

/-- One offered entry that is kept, at the full queue (R64). -/
theorem offerEntries_single_forced (full : s.oq.queue.length = 32) (run : runOpen s = true) {e : Entry}
    (kept : takesOffer e s.oq = true) : ForcesRelease e s (offerEntries [e] s) := by
  have taken : offerEntries [e] s = takeEntry e s := (offerEntry_eq e s).trans (if_pos kept)
  rw [taken]
  exact forcesRelease_take full run e

/-- Settles O29: every source takes its entry by `takeEntry`, which forces a release at the full queue. -/
theorem fullQueueForcesRelease : Obligations.FullQueueForcesRelease := by
  intro s full kept
  refine ⟨?_, ?_, ?_, ?_⟩
  · intro free running e
    exact ⟨_, forcesRelease_take full (runOpen_of_running running) e, exec_mark free running⟩
  · intro high low check status running phase sum e
    exact ⟨_, forcesRelease_take (s := errorCleared s) full (runOpen_of_running running) e,
      exec_xmark_taken phase sum running⟩
  · intro running b e changed
    refine ⟨fun i new change => ?_, fun x disables => ?_, fun enabled aligned other => ?_, fun due => ?_⟩
    · obtain ⟨u, run, changes⟩ := change.changes
      exact ⟨u, (changes.forced running).forces full running, run⟩
    · have run := disables.writes
      obtain ⟨-, -, -, -, -, -, -, locked, -, -, alive⟩ := disables
      have forces := ((enterHoldover_changes (s := s.onTb fun t => { t with table := x }) alive).forced
        (s := s.onTb fun t => { t with table := x }) running).forces full running
      rw [State.onTb_tb, show s.tb.quality = .locked from locked] at forces
      exact ⟨_, forces, run⟩
    · have forces := ForcedChange.forces full running (changeQuality_running running .locked)
      refine ⟨_, forces, takePulse s, exec_pulse enabled rfl, ?_⟩
      rw [takePulse_locks aligned other, lockOnPulse]
      have step := acceptPulse_taken (changeQuality .locked s)
      rw [changeQuality_tb] at step
      exact step
    · obtain ⟨run, expired⟩ := DoubleChangeDue.timeout due
      rw [enterHoldover_expired expired] at run
      have first := ForcedChange.forces full running
        (changeQuality_running (s := s.onTb fun t => { t with reference := none, rejects := 0 }) running .holdover)
      have tb := changeQuality_tb .holdover (s.onTb fun t => { t with reference := none, rejects := 0 })
      have again := first.full
      generalize changeQuality .holdover (s.onTb fun t => { t with reference := none, rejects := 0 }) = u at *
      refine ⟨u, first, fun running' => ?_, fun closed => ?_⟩
      · have second := ForcedChange.forces (s := u.onTb fun t => { t with holdover := .stopped }) again running'
          (changeQuality_running (s := u.onTb fun t => { t with holdover := .stopped }) running' .unsynced)
        refine ⟨_, ?_, run⟩
        simp only [State.onTb_tb, tb] at second ⊢
        exact second
      · rw [run]
        exact congrArg Host.Outcome.next (changeQuality_closed (s := u.onTb fun t => { t with holdover := .stopped })
          closed .unsynced)
  · intro ch c put accepted
    have runs {stamp : Time} (k : kept stamp) : runOpen s = true := by
      rcases k with r | ⟨d, -⟩
      · exact runOpen_of_running r
      · exact runOpen_of_draining d
    have takes {stamp : Time} (k : kept stamp) {e : Entry} (stamped : e.stamp = stamp) (channel : isChannelEntry e = true) :
        takesOffer e s.oq = true := by
      rcases k with r | ⟨d, before⟩
      · exact takesOffer_running r e
      · rw [takesOffer_draining d channel, stamped]
        exact before
    have accepts {i : Instr} {seen : ChannelRec} {stamp : Time} (k : kept stamp) (h : Accepts i ch seen stamp s)
        (desc : seen.desc = c.desc) (count : seen.chatterCount = c.chatterCount) (window : seen.window = c.window) :
        accepted i seen (lineLevel seen) stamp := by
      have single {d : ChannelRec} (counted : countAcceptance (countsChatter true seen) seen = (false, d)) :
          ∃ t, ForcesRelease { stamp := stamp, body := .change ch (lineLevel seen) } (put d) t ∧ exec i s = .next t :=
        ⟨_, offerEntries_single_forced (s := setChannel ch d s) full (runs k) (takes k rfl rfl), h.offers (runs k) counted⟩
      refine ⟨fun off => ?_, fun below => ?_, fun reached => ?_⟩
      · rw [← desc] at off
        exact single (countAcceptance_uncounted off true)
      · rw [← desc, ← count] at below
        rw [← desc, ← count, ← window]
        exact single (countAcceptance_below below)
      · rw [← desc, ← count] at reached
        rw [← desc]
        have run := h.offers (runs k) (countAcceptance_reached reached)
        let v := setChannel ch { acceptLevel .stable seen with
          state := .suppressed, chatterCount := 0, window := none, quiet := startTimer (quietMicros seen.desc) } s
        let e : Entry := { stamp := stamp, body := .change ch (lineLevel seen) }
        let f : Entry := { stamp := stamp, body := .suppress ch (lineLevel seen) }
        have first : ForcesRelease e v (offerEntry e v) :=
          offerEntries_single_forced (s := v) full (runs k) (takes k rfl rfl)
        have both : exec i s = .next (offerEntry f (offerEntry e v)) := run
        have open_ : runOpen (offerEntry e v) = true := (offerEntry_runOpen e v).trans (runs k)
        generalize offerEntry e v = u at *
        refine ⟨u, first, fun keeps => ⟨_, ?_, both⟩, fun draining later => ?_⟩
        · refine offerEntries_single_forced (e := f) first.full open_ ?_
          rcases runOpen_iff.mp open_ with r | d
          · exact takesOffer_running r f
          · rw [takesOffer_draining d rfl]
            exact keeps.resolve_left (by simp [d])
        · rw [both, offerEntry_eq, takesOffer_draining draining rfl, later]
          rfl
    refine ⟨fun x stamp k state settle due stamped => ?_, fun k state differs now => ?_, ?_⟩
    · exact accepts k (accepts_settleExpiry state settle due stamped) rfl rfl rfl
    · have level : lineLevel { c with line := !c.line } = !(c.line ^^ c.desc.invert) := lineLevel_flip c
      exact level ▸ accepts k (accepts_rawEdge state differs now) rfl rfl rfl
    · intro x k state quiet due e
      have run := exec_quietExpiry state quiet due
      rw [runs k] at run
      exact ⟨_, offerEntries_single_forced (s := setChannel ch { c with state := .stable, quiet := none } s) full (runs k)
        (takes k rfl rfl), run⟩

end Sys2Proof.Machine
end

section
/-! The handling of a released entry that no rule watches and no hold counts: stored, late, behind a due SYNC, lost, and
resuming the stream. -/

namespace Sys2Proof.Machine

variable {s t : State} {e : Entry}

/-! ### The handling without rules and hold -/

/-- No rule matches an entry that none watches (R112). -/
theorem evaluateEntry_unwatched (unwatched : Unwatched s e) : evaluateEntry e s = ([], s) := by
  unfold evaluateEntry
  split
  case h_1 ch level body =>
    have none (is : List (Fin 8)) : evaluateRules ch level s.je.image is s = ([], s) := by
      induction is with
      | nil => rfl
      | cons i is ih =>
        have off : ruleMatches s.tu.rules[i] ch level s.je.image = false := by
          have other := unwatched i ch level body
          unfold ruleMatches
          cases enabled : s.tu.rules[i].enable
          · simp
          · rw [beq_false_of_ne (other enabled)]
            simp
        rw [evaluateRules, off]
        exact ih
    exact none _
  case h_2 => rfl

/-- The state with the entry's level in the running image (R11). -/
def imaged (e : Entry) (s : State) : State := s.onJe fun j => { j with image := imageAfter e j.image }

/-- The state with the LATE fault of a late entry logged (R9). -/
def lateLogged (e : Entry) (s : State) : State :=
  if isLate s.je.runningTime e then logFault .late (orderDetail e) s else s

/-- An unwatched entry up to its report: its packets alone (R15). -/
theorem entryWritten_plain (unwatched : Unwatched s e) :
    entryWritten e s = entryPackets (resumptionCheck s).1 e (resumptionCheck s).2.je.image
      (lateLogged e (imaged e (resumptionCheck s).2)) := by
  have tu := (resumptionCheck_frame s).tu
  unfold entryWritten
  revert tu
  rcases resumptionCheck s with ⟨resumed, s1⟩
  intro tu
  have same : Unwatched (imaged e s1) e := by
    have rules : (imaged e s1).tu = s.tu := tu
    unfold Unwatched
    rw [rules]
    exact unwatched
  have none : evaluateEntry e (s1.onJe fun j => { j with image := imageAfter e j.image }) = ([], imaged e s1) :=
    evaluateEntry_unwatched same
  dsimp only
  rw [none]
  rfl

/-- Without a hold to count it an entry is written, and no more (R15, R117). -/
theorem handleEntry_uncounted (idle : s.tu.hold ≠ .collecting) : handleEntry e s = entryWritten e s := by
  have counted : (s.tu.hold == .collecting) = false := by simpa using idle
  rw [handleEntry_eq, counted]
  rfl

theorem resumptionCheck_normal (normal : s.js.fill = .normal) : resumptionCheck s = (false, s) := by
  simp [resumptionCheck, normal]

/-- In a NORMAL store (R15). -/
theorem entryWritten_normal (unwatched : Unwatched s e) (normal : s.js.fill = .normal) :
    entryWritten e s = normalPackets e s.je.image (lateLogged e (imaged e s)) := by
  have fill : (lateLogged e (imaged e s)).js.fill = .normal := by
    unfold lateLogged
    split <;> exact normal
  rw [entryWritten_plain unwatched, resumptionCheck_normal normal]
  simp [entryPackets, fill]

/-! ### The entry's packets -/

theorem isLate_eq (running : Time) (e : Entry) : isLate running e = isBefore e.stamp running := rfl

theorem syncDue_none (h : NoSyncDue s e) : syncDue e s = false := by
  obtain ⟨short, near⟩ := h
  rw [syncDue, isLate_eq]
  rcases near with late | near
  · simp [short, late]
  · simp [short, Config.deltaMax, Nat.not_lt.mpr near]

/-- An entry's packet that fits a NORMAL store is stored (R8, R9). -/
theorem emitEntry_stored (canonical : RamCanonical s) (normal : s.js.fill = .normal)
    (room : (entryPacket s.je.runningTime e).length + 32 ≤ freeSpace s.js) :
    Written (entryPacket s.je.runningTime e) [] s (emitEntry e s) ∧
      (emitEntry e s).je = { jeStored (entryPacket s.je.runningTime e).length s.je with
        runningTime := if isLate s.je.runningTime e then s.je.runningTime else e.stamp } := by
  obtain ⟨t, emitted, written, je⟩ := emit_stored canonical normal room e.stamp
  unfold emitEntry
  rw [emitted]
  dsimp only
  split
  · exact ⟨written, je⟩
  · exact ⟨written.onJe _, by rw [State.onJe_je, je]⟩

/-- The later of running time and stamp (R12). -/
theorem entrySyncTime_eq (e : Entry) (s : State) :
    entrySyncTime e s = if isLate s.je.runningTime e then s.je.runningTime else e.stamp := rfl

theorem isBefore_self (t : Time) : isBefore t t = false := by simp [isBefore]

/-- Against its own SYNC a late entry stays late, and another is not (R9, R12). -/
theorem isLate_synced (running : Time) (e : Entry) :
    isLate (if isLate running e then running else e.stamp) e = isLate running e := by
  cases late : isLate running e
  · exact isBefore_self _
  · exact late

/-- A SYNC and the entry behind it that fit a NORMAL store (R12, R15). -/
theorem emitSyncThenEntry_stored {before : Image} (canonical : RamCanonical s) (normal : s.js.fill = .normal)
    (index : s.js.index.length < 64)
    (room : 17 + (entryPacket (entrySyncTime e s) e).length + 32 ≤ freeSpace s.js) :
    Written (syncAs s (entrySyncTime e s) before ++ entryPacket (entrySyncTime e s) e) [s.js.head] s
        (emitSyncThenEntry e before s) ∧
      (emitSyncThenEntry e before s).je =
        { s.je with runningTime := entrySyncTime e s, sinceSync := (entryPacket (entrySyncTime e s) e).length,
                    segment := s.je.segment + 1#16 } := by
  obtain ⟨t, synced, written, je⟩ := emitSync_stored canonical normal (by omega) index (entrySyncTime e s) before e.stamp
  have running : t.je.runningTime = entrySyncTime e s := by rw [je]; rfl
  have free := written.free
  rw [length_syncPacket, syncLength] at free
  have entry := emitEntry_stored (e := e) written.canonical (written.fill.trans normal) (by rw [running]; omega)
  rw [running] at entry
  unfold emitSyncThenEntry
  rw [synced]
  refine ⟨written.trans entry.1, entry.2.trans ?_⟩
  have short : (entryPacket (entrySyncTime e s) e).length ≤ 16384 := by
    have : freeSpace s.js ≤ 16384 := freeSpace_le s.js
    omega
  have late : (if isLate (entrySyncTime e s) e then entrySyncTime e s else e.stamp) = entrySyncTime e s := by
    rw [entrySyncTime_eq, isLate_synced]
    cases isLate s.je.runningTime e <;> rfl
  rw [late, je, jeSynced, jeStored]
  simp [Nat.min_eq_right short]

/-! ### At the horizon -/

/-- The state whose queue has given up its head. -/
theorem HeadDue.released {rest : List Entry} (h : HeadDue s e rest) :
    exec .horizonExpiry s = .next (handleEntry e (withQueue rest s)) := by
  have come : horizonDue s = true := by
    unfold horizonDue
    rw [h.queued]
    simp [h.runs, reached, h.come]
  refine congrArg Host.Outcome.next ((if_pos come).trans ?_)
  unfold releaseHead
  rw [h.queued]
  rfl

/-- What packets leave of the whole state. -/
theorem Written.eq {bytes : List Byte} {x : List Pos} (h : Written bytes x s t) :
    t = { s with js := t.js, je := t.je, ifu := t.ifu } := by
  obtain ⟨icu, tb, oq, tu, hw, cl, pending, choices, -⟩ := h.frame
  have xl := h.xl
  cases t
  simp_all

theorem getLsbD_chanBit (ch c : Channel) : (chanBit ch).getLsbD c = decide (c = ch) := by
  have inside : decide (c.val < 24) = true := decide_eq_true c.isLt
  show (BitVec.ofNat 24 (2 ^ ch.val)).getLsbD c.val = _
  rw [BitVec.getLsbD_ofNat, Nat.testBit_two_pow, inside, Bool.true_and]
  exact decide_eq_decide.mpr (eq_comm.trans Fin.ext_iff.symm)

theorem getLsbD_setLevel (img : Image) (ch c : Channel) (level : Bool) :
    (setLevel img ch level).getLsbD c = if c = ch then level else img.getLsbD c := by
  have inside := c.isLt
  unfold setLevel
  cases level
  · simp only [Bool.false_eq_true, if_false, BitVec.getLsbD_and, BitVec.getLsbD_not, getLsbD_chanBit]
    by_cases same : c = ch <;> simp [same, inside]
  · simp only [if_true, BitVec.getLsbD_or, getLsbD_chanBit]
    by_cases same : c = ch <;> simp [same]

theorem getLsbD_imageAfter (e : Entry) (img : Image) (ch : Channel) :
    (imageAfter e img).getLsbD ch =
      match e.body with
      | .change c level => if ch = c then level else img.getLsbD ch
      | .suppress c level => if ch = c then level else img.getLsbD ch
      | .release c level => if ch = c then level else img.getLsbD ch
      | .timeq _ _ => img.getLsbD ch
      | .mark _ _ => img.getLsbD ch := by
  unfold imageAfter
  cases e.body <;> first | exact getLsbD_setLevel img _ ch _ | rfl

/-- An entry that is not late is handled without a fault. -/
theorem lateLogged_on_time (onTime : isBefore e.stamp s.je.runningTime = false) : lateLogged e (imaged e s) = imaged e s :=
  if_neg (by
    have same : (imaged e s).je.runningTime = s.je.runningTime := rfl
    rw [same, isLate_eq, onTime]
    simp)

/-- A late entry is handled with its fault (R9). -/
theorem lateLogged_late (late : isBefore e.stamp s.je.runningTime = true) :
    lateLogged e (imaged e s) = logFault .late (orderDetail e) (imaged e s) := if_pos late

theorem entryPacket_on_time {running : Time} (onTime : isBefore e.stamp running = false) :
    entryPacket running e = entryHead 0 e.body ++ varint (forward running e.stamp) := by
  rw [entryPacket_eq, entryDistance, isLate_eq, onTime]
  rfl

theorem entryPacket_late {running : Time} (late : isBefore e.stamp running = true) :
    entryPacket running e = entryHead 1 e.body ++ varint
      (match e.body with | .timeq _ _ => 0 | _ => min (forward e.stamp running) 34359738367) := by
  rw [entryPacket_eq, entryDistance, isLate_eq, late]
  cases e.body <;> rfl

/-- An entry on time, without a SYNC due, is its packet alone (R8, R15). -/
theorem entryWritten_on_time (unwatched : Unwatched s e) (normal : s.js.fill = .normal)
    (onTime : isBefore e.stamp s.je.runningTime = false) (noSync : NoSyncDue s e) :
    entryWritten e s = emitEntry e (imaged e s) := by
  rw [entryWritten_normal unwatched normal, lateLogged_on_time onTime, normalPackets]
  have same : syncDue e (imaged e s) = syncDue e s := rfl
  rw [same, syncDue_none noSync, if_neg (by simp)]

/-- Settles O30: the entry's packet is the only thing written. -/
theorem headEntryIsStored : Obligations.HeadEntryIsStored := by
  intro s e rest bytes due unwatched idle normal canonical onTime noSync room
  have packet : entryPacket (imaged e (withQueue rest s)).je.runningTime e = bytes := entryPacket_on_time onTime
  obtain ⟨written, je⟩ := emitEntry_stored (s := imaged e (withQueue rest s)) (e := e) canonical normal
    (by rw [packet]; exact room)
  rw [packet] at written je
  have same : (imaged e (withQueue rest s)).je.runningTime = s.je.runningTime := rfl
  rw [same, isLate_eq, onTime, if_neg (by simp)] at je
  have run := due.released
  rw [handleEntry_uncounted (s := withQueue rest s) idle,
    entryWritten_on_time (s := withQueue rest s) unwatched normal onTime noSync] at run
  generalize emitEntry e (imaged e (withQueue rest s)) = t at *
  refine ⟨t, run, written.appended.congr rfl rfl rfl rfl, by rw [je], by rw [je]; rfl, fun ch => ?_, written.frame.faults,
    written.frame.lost, ?_⟩
  · rw [je]
    exact getLsbD_imageAfter e s.je.image ch
  · have whole := written.eq
    have js := written.js
    rw [List.append_nil] at js
    rw [whole, js, je]
    rfl

end Sys2Proof.Machine
end

section
/-! The late entry, and the entry behind a due SYNC. -/

namespace Sys2Proof.Machine

variable {s t : State} {e : Entry} {rest : List Entry}

/-- What the entry's packets are handled in: the queue given up its head, the image moved on, a late entry's fault
logged (R9, R11). -/
def handedOver (e : Entry) (rest : List Entry) (s : State) : State := lateLogged e (imaged e (withQueue rest s))

theorem handedOver_eq (e : Entry) (rest : List Entry) (s : State) :
    handedOver e rest s = { s with
      oq := { s.oq with queue := rest }, je := { s.je with image := imageAfter e s.je.image },
      ifu := (handedOver e rest s).ifu } := by
  unfold handedOver lateLogged
  split <;> rfl

theorem handedOver_on_time (onTime : isBefore e.stamp s.je.runningTime = false) : (handedOver e rest s).ifu = s.ifu := by
  rw [handedOver, lateLogged_on_time (s := withQueue rest s) onTime]
  rfl

/-- A late entry logs its fault (R9, R174). -/
theorem handedOver_late (late : isBefore e.stamp s.je.runningTime = true) :
    (handedOver e rest s).ifu.faults = faultsWith s .late (BitVec.ofNat 8 (orderKey e)) ∧
      (handedOver e rest s).ifu.irqf.getLsbD 5 = true := by
  rw [handedOver, lateLogged_late (s := withQueue rest s) late, logFault_cases]
  refine ⟨rfl, ?_⟩
  rw [BitVec.getLsbD_or]
  exact Bool.or_true _

/-- A due entry of a NORMAL store, no rule and no hold concerned: its packets (R15). -/
theorem HeadDue.normal (h : HeadDue s e rest) (unwatched : Unwatched s e) (idle : s.tu.hold ≠ .collecting)
    (normal : s.js.fill = .normal) :
    exec .horizonExpiry s = .next (normalPackets e s.je.image (handedOver e rest s)) := by
  rw [h.released, handleEntry_uncounted (s := withQueue rest s) idle,
    entryWritten_normal (s := withQueue rest s) unwatched normal]
  rfl

/-- Whether a SYNC is due does not change between release and packet (R12). -/
theorem syncDue_handedOver : syncDue e (handedOver e rest s) = syncDue e s := by rw [handedOver_eq]; rfl

/-- Settles O31: the entry's packet carries its backward distance, and its fault is logged before. -/
theorem lateEntryIsWrittenBackward : Obligations.LateEntryIsWrittenBackward := by
  intro s e rest back bytes due unwatched idle normal canonical late noSync room
  have run := due.normal unwatched idle normal
  rw [normalPackets, syncDue_handedOver, syncDue_none noSync, if_neg (by simp)] at run
  have fault := handedOver_late (rest := rest) late
  have same := handedOver_eq e rest s
  generalize handedOver e rest s = u at run fault same
  have js : u.js = s.js := by rw [same]
  have running : u.je.runningTime = s.je.runningTime := by rw [same]
  have packet : entryPacket u.je.runningTime e = bytes := by
    rw [running]
    exact entryPacket_late late
  obtain ⟨written, je⟩ := emitEntry_stored (s := u) (e := e) (by rw [RamCanonical, js]; exact canonical)
    (by rw [js]; exact normal) (by rw [packet, js]; exact room)
  rw [packet] at written
  rw [running, isLate_eq, late, if_pos rfl] at je
  refine ⟨_, run, written.appended.congr (by rw [js]) (by rw [js]) rfl rfl, by rw [je], ?_, ?_, ?_, ?_, ?_⟩
  · rw [written.frame.oq, same]
  · rw [written.frame.faults, fault.1]
  · exact getLsbD_of_sticky written.frame.sticky fault.2
  · rw [written.index, js, List.append_nil]
  · rw [written.tail, js]

/-! ### The due SYNC -/

theorem isLate_toNat (late : Bool) : late.toNat = bit late := by cases late <;> rfl

/-- The packet of an entry against the SYNC before it: a late one's with its backward distance, another's with delta 0
(R8, R9, R12). -/
theorem entryPacket_synced (running : Time) (e : Entry) :
    entryPacket (if isBefore e.stamp running then running else e.stamp) e =
      entryHead (isBefore e.stamp running).toNat e.body ++ varint (if isBefore e.stamp running then
        (match e.body with | .timeq _ _ => 0 | _ => min (forward e.stamp running) 34359738367) else 0) := by
  cases late : isBefore e.stamp running
  · show entryPacket e.stamp e = _
    rw [entryPacket_on_time (isBefore_self _)]
    have zero : forward e.stamp e.stamp = 0 := by simp [forward]
    rw [zero]
    rfl
  · exact entryPacket_late late

/-- A SYNC due by length, or by distance before an entry that is not late (R12). -/
theorem syncDue_iff : syncDue e s = true ↔ 256 * s.js.table.syncInterval.toNat ≤ s.je.sinceSync ∨
    (isBefore e.stamp s.je.runningTime = false ∧ 34359738367 < forward s.je.runningTime e.stamp) := by
  show (decide _ || (!isBefore e.stamp s.je.runningTime && decide (34359738367 < forward s.je.runningTime e.stamp))) = true ↔ _
  simp

/-- Settles O32: the SYNC and the entry's packet behind it. -/
theorem dueSyncPrecedesEntry : Obligations.DueSyncPrecedesEntry := by
  intro s e rest late back bytes due unwatched idle normal canonical dueSync occupied room index
  have run := due.normal unwatched idle normal
  rw [normalPackets, syncDue_handedOver, syncDue_iff.mpr dueSync, if_pos rfl] at run
  have onTime := handedOver_on_time (e := e) (rest := rest) (s := s)
  have fault := handedOver_late (e := e) (rest := rest) (s := s)
  have same := handedOver_eq e rest s
  generalize handedOver e rest s = u at run fault same onTime
  have js : u.js = s.js := by rw [same]
  have time : entrySyncTime e u = if late then s.je.runningTime else e.stamp := by
    rw [entrySyncTime_eq, same]
    rfl
  have sync : syncAs u (entrySyncTime e u) s.je.image = syncAs s (if late then s.je.runningTime else e.stamp) s.je.image := by
    rw [time, same]
    rfl
  have packet : entryPacket (entrySyncTime e u) e =
      entryHead late.toNat e.body ++ varint (if late then back else 0) := by
    rw [time]
    exact entryPacket_synced s.je.runningTime e
  have length : bytes.length = 17 + (entryPacket (entrySyncTime e u) e).length := by
    have header := length_syncPacket u (entrySyncTime e u) s.je.image
    rw [syncPacket_eq, sync] at header
    rw [packet]
    exact List.length_append.trans (congrArg (· + _) header)
  obtain ⟨written, je⟩ := emitSyncThenEntry_stored (s := u) (e := e) (before := s.je.image)
    (by rw [RamCanonical, js]; exact canonical) (by rw [js]; exact normal) (by rw [js]; exact index)
    (by rw [js, ← length]; exact room)
  have whole : syncAs u (entrySyncTime e u) s.je.image ++ entryPacket (entrySyncTime e u) e = bytes := by rw [sync, packet]
  rw [whole, js] at written
  refine ⟨_, run, written.appended.congr (by rw [js]) (by rw [js]) rfl rfl, ?_, ?_, ?_, ?_, ?_, ?_, fun h => ?_, fun h => ?_⟩
  · rw [written.index, js]
  · rw [je, time]
  · rw [je, same]
  · rw [je, length]
    exact (Nat.add_sub_cancel_left _ _).symm
  · rw [written.frame.oq, same]
  · rw [written.tail, js]
  · rw [written.frame.faults, onTime h]
  · exact ⟨written.frame.faults.trans (fault h).1, getLsbD_of_sticky written.frame.sticky (fault h).2⟩

end Sys2Proof.Machine
end

section
/-! Released entries and a full store: the lost entry, the entry counted in LOSING, the resumption. -/

namespace Sys2Proof.Machine

variable {s t : State} {e : Entry} {rest : List Entry} {bytes : List Byte}

/-! ### A packet lost -/

/-- The state after an entry's own packet was lost: LOSING, LSS set, the entry the first counted (R16, R17, R40). -/
def lostAt (stamp : Time) (s : State) : State :=
  { s with
    js := { s.js with fill := .losing }, je := { s.je with lossCount := 1, firstLost := stamp, lastLost := stamp },
    ifu := { s.ifu with irqf := s.ifu.irqf ||| 0x08#8 } }

theorem lostAt_flag (stamp : Time) (s : State) : (lostAt stamp s).ifu.irqf.getLsbD 3 = true :=
  (BitVec.getLsbD_or ..).trans (Bool.or_true _)

/-- A packet that does not fit a NORMAL store even after room was made is lost (R17, R40, R41). -/
theorem emit_lost {isSync : Bool} (normal : s.js.fill = .normal)
    (unfit : fits bytes.length isSync (makeRoom (fits bytes.length isSync) s) = false) (failure : Time) :
    emit bytes isSync failure s = (.lost, beginLoss failure (enterLosing (makeRoom (fits bytes.length isSync) s))) := by
  rcases offer_cases bytes isSync s with ⟨losing, -⟩ | ⟨-, fit, -⟩ | ⟨-, -, answer⟩
  · rw [normal] at losing
    cases losing
  · rw [unfit] at fit
    cases fit
  · rw [emit, answer]

/-- An entry's packet lost (R16). -/
theorem emitEntry_lost (normal : s.js.fill = .normal) (packet : entryPacket s.je.runningTime e = bytes)
    (unfit : fits bytes.length false (makeRoom (fits bytes.length false) s) = false) :
    emitEntry e s = lostAt e.stamp (makeRoom (fits bytes.length false) s) := by
  rw [emitEntry, packet, emit_lost normal unfit]
  rfl

/-- KEEP-OLDEST makes no room (R40). -/
theorem makeRoom_keepOldest (goal : State → Bool) (policy : s.js.table.policy = .keepOldest) : makeRoom goal s = s := by
  rw [makeRoom, policy]

theorem fits_packet {n : Nat} : fits n false s = true ↔ n + 32 ≤ freeSpace s.js := by
  rw [fits_iff]
  exact and_iff_left (by simp)

theorem unfit_packet {n : Nat} : fits n false s = false ↔ freeSpace s.js < n + 32 := by
  rw [← Bool.not_eq_true, fits_packet, Nat.not_le]

/-! ### In LOSING -/

/-- In LOSING every packet is dropped (R36). -/
theorem emit_losing (losing : s.js.fill = .losing) (bytes : List Byte) (isSync : Bool) (failure : Time) :
    emit bytes isSync failure s = (.dropped, s) := by
  rw [emit, offer, losing]

theorem emitAll_losing (losing : s.js.fill = .losing) (failure : Time) (ps : List (List Byte)) : emitAll failure ps s = s := by
  induction ps with
  | nil => rfl
  | cons p ps ih => rw [emitAll, emit_losing losing]; exact ih

/-- The state with one more entry counted after the trigger (R117). -/
def postCounted (s : State) : State := s.onTu fun u => { u with count := u.count + 1 }

theorem reportEntry_counts (below : s.tu.count + 1 < s.tu.quota) (stamp : Time) :
    reportEntry true stamp s = postCounted s := if_neg (Nat.not_le.mpr below)

/-- The state after the quota is reached, the closing HOLD packet offered (R118). -/
def quotaClosed (stamp : Time) (s : State) : State :=
  (emit (holdPacket .byQuota) false stamp (closeHold (postCounted s))).2

theorem reportEntry_quota (reached : s.tu.quota ≤ s.tu.count + 1) (stamp : Time) :
    reportEntry true stamp s =
      match s.tu.action with
      | .hold => quotaClosed stamp s
      | .holdStop => holdStopRequest (quotaClosed stamp s) := by
  have action : (quotaClosed stamp s).tu.action = s.tu.action := by rw [quotaClosed, (emit_frame ..).tu]; rfl
  rw [← action]
  exact if_pos reached

theorem holdStopRequest_journal (s : State) :
    (holdStopRequest s).js = s.js ∧ ∃ reason, (holdStopRequest s).je = { s.je with stopReason := reason } := by
  unfold holdStopRequest
  split <;> exact ⟨rfl, _, rfl⟩

/-- The entry's report in LOSING: at most the hold closes and a drain begins (R36, R55, R118). -/
theorem reportEntry_losing (losing : s.js.fill = .losing) (counting : Bool) (stamp : Time) :
    (reportEntry counting stamp s).js = s.js ∧
      ∃ reason, (reportEntry counting stamp s).je = { s.je with stopReason := reason } := by
  cases counting
  · exact ⟨rfl, _, rfl⟩
  · rcases Nat.lt_or_ge (s.tu.count + 1) s.tu.quota with below | reached
    · rw [reportEntry_counts below]
      exact ⟨rfl, _, rfl⟩
    · have dropped : quotaClosed stamp s = closeHold (postCounted s) :=
        congrArg Prod.snd (emit_losing (s := closeHold (postCounted s)) losing _ _ _)
      rw [reportEntry_quota reached, dropped]
      split
      · exact ⟨rfl, _, rfl⟩
      · exact holdStopRequest_journal _

theorem resumptionCheck_losing (losing : s.js.fill = .losing) (policy : s.js.table.policy = .keepOldest)
    (short : freeSpace s.js < 256 * s.js.table.resumeRoom.toNat) : resumptionCheck s = (false, s) := by
  have closed : resumeRoomFree s = false := decide_eq_false (Nat.not_le.mpr short)
  rw [resumptionCheck, losing]
  dsimp only
  rw [makeRoom_keepOldest _ policy, closed]
  rfl

/-- While the store stays LOSING the entry is counted as lost, and nothing is written (R15, R16). -/
theorem entryWritten_losing (losing : s.js.fill = .losing) (policy : s.js.table.policy = .keepOldest)
    (short : freeSpace s.js < 256 * s.js.table.resumeRoom.toNat) :
    (entryWritten e s).js = s.js ∧ (entryWritten e s).je = { s.je with
      image := imageAfter e s.je.image, lossCount := satInc 65535 s.je.lossCount,
      firstLost := if s.je.lossCount = 0 then e.stamp else s.je.firstLost, lastLost := e.stamp } := by
  unfold entryWritten
  rw [resumptionCheck_losing losing policy short]
  dsimp only
  obtain ⟨je, js, -, -⟩ := evaluateEntry_journal e (s.onJe fun j => { j with image := imageAfter e j.image })
  generalize evaluateEntry e (s.onJe fun j => { j with image := imageAfter e j.image }) = evaluated at *
  rw [State.onJe_js] at js
  rw [State.onJe_je] at je
  have logged : (if isLate evaluated.2.je.runningTime e then logFault .late (orderDetail e) evaluated.2 else evaluated.2).js =
      s.js := by rw [apply_ite State.js, logFault_js, ite_self, js]
  have kept : (if isLate evaluated.2.je.runningTime e then logFault .late (orderDetail e) evaluated.2 else evaluated.2).je =
      { s.je with image := imageAfter e s.je.image } := by rw [apply_ite State.je, logFault_je, ite_self, je]
  generalize (if isLate evaluated.2.je.runningTime e then logFault .late (orderDetail e) evaluated.2 else evaluated.2) = u at *
  have counted : entryPackets false e s.je.image u = countLost e.stamp u := by rw [entryPackets, logged, losing]
  have stays : (countLost e.stamp u).js = s.js := logged
  rw [counted, emitAll_losing (stays ▸ losing)]
  refine ⟨stays, ?_⟩
  rw [countLost, State.onJe_je, kept]

/-- Settles O33: KEEP-OLDEST makes no room, so the packet is lost; in LOSING all packets are dropped. -/
theorem fullStoreLosesEntries : Obligations.FullStoreLosesEntries := by
  intro s e rest due policy
  refine ⟨?_, ?_⟩
  · intro unwatched idle normal onTime noSync full
    have run := due.normal unwatched idle normal
    rw [normalPackets, syncDue_handedOver, syncDue_none noSync, if_neg (by simp)] at run
    have ifu := handedOver_on_time (rest := rest) onTime
    have same := handedOver_eq e rest s
    rw [ifu] at same
    generalize handedOver e rest s = u at run same
    have packet : entryPacket u.je.runningTime e = entryHead 0 e.body ++ varint (forward s.je.runningTime e.stamp) := by
      rw [same]
      exact entryPacket_on_time onTime
    have js : u.js = s.js := by rw [same]
    have still (goal : State → Bool) : makeRoom goal u = u := makeRoom_keepOldest goal (by rw [js]; exact policy)
    rw [emitEntry_lost (by rw [js]; exact normal) packet (by rw [still, unfit_packet, js]; exact full), still] at run
    refine ⟨_, run, ?_⟩
    rw [same]
    exact ⟨rfl, rfl, rfl, rfl, rfl⟩
  · intro losing short
    have run := due.released
    obtain ⟨js, je⟩ := entryWritten_losing (s := withQueue rest s) (e := e) losing policy short
    have queue := (handleEntry_frame e (withQueue rest s)).queue
    rw [handleEntry_eq] at run queue
    obtain ⟨store, reason, encoder⟩ := reportEntry_losing (s := entryWritten e (withQueue rest s)) (js ▸ losing)
      ((withQueue rest s).tu.hold == .collecting) e.stamp
    rw [je] at encoder
    refine ⟨_, run, store.trans js, queue, ?_, ?_, ?_, ?_, ?_⟩
    · rw [encoder]
      exact satInc_eq _ _
    all_goals rw [encoder]
    all_goals rfl

/-! ### Resumption -/

theorem length_entryHead (late : Nat) (body : EntryBody) : (entryHead late body).length ≤ 3 := by
  cases body with
  | mark tag source => cases source <;> simp [entryHead]
  | _ => simp [entryHead]

/-- With the resume room free the store returns to NORMAL, and nothing is discarded (R46). -/
theorem resumptionCheck_resumes (losing : s.js.fill = .losing)
    (room : 256 * s.js.table.resumeRoom.toNat ≤ freeSpace s.js) :
    resumptionCheck s = (true, s.onJs fun j => { j with fill := .normal }) := by
  have free : resumeRoomFree s = true := decide_eq_true room
  rw [resumptionCheck, losing]
  dsimp only
  rw [makeRoom_of_goal free, free]
  rfl

/-- The LOSS of the loss record, and the entry behind its forced SYNC (R13, R18). -/
theorem resumePackets_stored {before : Image} (canonical : RamCanonical s) (normal : s.js.fill = .normal)
    (index : s.js.index.length < 64)
    (room : 34 + (entryPacket (entrySyncTime e s) e).length + 32 ≤ freeSpace s.js) :
    Written (lossAs s.je.lossCount s.je.firstLost s.je.lastLost ++
        (syncAs s (entrySyncTime e s) before ++ entryPacket (entrySyncTime e s) e)) [s.js.head + 17#32] s
        (resumePackets e before s) ∧
      ∃ n, (resumePackets e before s).je =
        { s.je with
          lossCount := 0, firstLost := 0, lastLost := 0, runningTime := entrySyncTime e s, sinceSync := n,
          segment := s.je.segment + 1#16 } := by
  obtain ⟨t, emitted, written, je⟩ := emit_stored (bytes := lossPacket s.je) canonical normal
    (by rw [length_lossPacket]; omega) e.stamp
  have free := written.free
  rw [length_lossPacket] at free
  have cleared := written.onJe fun j => { j with lossCount := 0, firstLost := 0, lastLost := 0 }
  unfold resumePackets
  rw [emitted]
  dsimp only
  have encoder : (t.onJe fun j => { j with lossCount := 0, firstLost := 0, lastLost := 0 }).je =
      { s.je with lossCount := 0, firstLost := 0, lastLost := 0, sinceSync := min 16384 (s.je.sinceSync + 17) } := by
    rw [State.onJe_je, je]
    rfl
  have store : (t.onJe fun j => { j with lossCount := 0, firstLost := 0, lastLost := 0 }).js = t.js := rfl
  generalize (t.onJe fun j => { j with lossCount := 0, firstLost := 0, lastLost := 0 }) = u at *
  have time : entrySyncTime e u = entrySyncTime e s := by
    rw [entrySyncTime_eq, entrySyncTime_eq, encoder]
  have sync : syncAs u (entrySyncTime e u) before = syncAs s (entrySyncTime e s) before := by
    rw [time]
    exact syncAs_congr (s := s) (t := u) (by rw [encoder]) (by rw [encoder]) (by rw [cleared.frame.tb])
      (by rw [cleared.frame.tu]) (by rw [cleared.frame.table]) _ _
  obtain ⟨behind, after⟩ := emitSyncThenEntry_stored (s := u) (e := e) (before := before) cleared.canonical
    (cleared.fill.trans normal) (by rw [cleared.index, List.append_nil]; exact index)
    (by rw [time, store]; omega)
  have head : u.js.head = s.js.head + 17#32 := cleared.appended.head
  rw [sync, time, head] at behind
  refine ⟨cleared.trans behind, (entryPacket (entrySyncTime e s) e).length, ?_⟩
  rw [after, encoder, time]

/-- Settles O34: LOSS, forced SYNC and the entry's packet, for which the resume room is enough. -/
theorem resumptionReportsTheLoss : Obligations.ResumptionReportsTheLoss := by
  intro s e rest due unwatched idle losing canonical onTime room resume _ index _ loss
  have run := due.released
  rw [handleEntry_uncounted (s := withQueue rest s) idle, entryWritten_plain (s := withQueue rest s) unwatched,
    resumptionCheck_resumes (s := withQueue rest s) losing room] at run
  dsimp only at run
  rw [lateLogged_on_time (s := (withQueue rest s).onJs fun j => { j with fill := .normal }) onTime] at run
  have time : entrySyncTime e (imaged e ((withQueue rest s).onJs fun j => { j with fill := .normal })) = e.stamp := by
    rw [entrySyncTime_eq]
    exact if_neg (by rw [isLate_eq]; exact Bool.eq_false_iff.mp onTime)
  have packet : entryPacket e.stamp e = entryHead 0 e.body ++ [0#8] := by
    have zero : forward e.stamp e.stamp = 0 := by simp [forward]
    rw [entryPacket_on_time (isBefore_self _), zero]
    rfl
  have short : (entryPacket e.stamp e).length ≤ 4 := by
    rw [packet, List.length_append]
    exact Nat.add_le_add_right (length_entryHead 0 e.body) 1
  obtain ⟨written, n, je⟩ := resumePackets_stored
    (s := imaged e ((withQueue rest s).onJs fun j => { j with fill := .normal })) (e := e) (before := s.je.image)
    canonical rfl index (by
      rw [time]
      show 34 + (entryPacket e.stamp e).length + 32 ≤ freeSpace s.js
      omega)
  rw [time, packet] at written
  rw [time] at je
  change exec .horizonExpiry s =
    .next (resumePackets e s.je.image (imaged e ((withQueue rest s).onJs fun j => { j with fill := .normal }))) at run
  generalize resumePackets e s.je.image (imaged e ((withQueue rest s).onJs fun j => { j with fill := .normal })) = t at *
  refine ⟨t, run, ?_, written.fill, written.index, by rw [je], by rw [je], by rw [je], by rw [je], by rw [je]; rfl, ?_⟩
  · rw [List.append_assoc]
    exact written.appended.congr rfl rfl rfl rfl
  · rw [written.frame.oq]
    rfl

end Sys2Proof.Machine
end

section
/-! Discard: where a step leaves tail, readers and link, and the entry that a discard step makes room for. -/

namespace Sys2Proof.Machine

variable {s t u : State} {e : Entry} {rest : List Entry} {bytes : List Byte} {x p : Pos}

/-! ### A discard step -/

/-- The bounds come from the store and the hold alone. -/
theorem FreedTo.congr (h : FreedTo s p) (js : t.js = s.js) (tu : t.tu = s.tu) : FreedTo t p := by
  unfold FreedTo
  rw [js, tu]
  exact h

/-- A discard step and its notice to the link (R41 to R43, R146). -/
theorem discardTo_eq (x : Pos) (s : State) :
    ∃ p, (s.js.exportC.attached = true → FreedTo (discardedTo x s) p) ∧ (s.js.exportC.attached = false → p = x) ∧
      (discardTo x s).js = tailAt p (discardedTo x s).js ∧ (discardTo x s).xl = (discardedTo x s).xl := by
  have store : (discardedTo x s).js = { moveTail x s.js with
      hostC := discardConsumer s.js.tail x s.js.hostC,
      exportC := if (discardConsumer s.js.tail x s.js.exportC).attached then
          { discardConsumer s.js.tail x s.js.exportC with
            release := firstStart (discardConsumer s.js.tail x s.js.exportC).read
              (prunedFrames s.js.tail x s.xl.outstanding),
            read := if below s.js.tail (discardConsumer s.js.tail x s.js.exportC).read x then x
              else (discardConsumer s.js.tail x s.js.exportC).read }
        else discardConsumer s.js.tail x s.js.exportC } := rfl
  have link : (discardedTo x s).xl = { s.xl with
      outstanding := if (discardConsumer s.js.tail x s.js.exportC).attached then prunedFrames s.js.tail x s.xl.outstanding
        else s.xl.outstanding } := rfl
  rw [discardConsumer_attached] at store link
  cases attached : s.js.exportC.attached
  · rw [attached] at store link
    obtain ⟨js, xl⟩ := discardTo_detached x attached
    have untouched : discardConsumer s.js.tail x s.js.exportC = s.js.exportC := by simp [discardConsumer, attached]
    refine ⟨x, by simp, by simp, ?_, ?_⟩
    · have tail : (discardedTo x s).js.tail = x := rfl
      have same := tailAt_tail (discardedTo x s).js
      rw [tail] at same
      rw [same, js, store, if_neg (by simp), untouched]
      rfl
    · rw [xl, link]
      rfl
  · rw [attached, if_pos rfl] at store link
    obtain ⟨u, moved, tu, -, -, xl, js⟩ := discardTo_attached x attached
    obtain ⟨p, freed, at_⟩ := reevalFreeing_freedTo u
    have same : u.js = (discardedTo x s).js := js.trans store.symm
    refine ⟨p, fun _ => freed.congr same.symm tu.symm, by simp, ?_, ?_⟩
    · rw [moved, at_, same]
    · rw [moved, reevalFreeing_xl, xl, link]

/-- The first index entry after the tail of a rising index (R26, R41). -/
theorem nextSync_iff {j : Store} (rising : j.index.Pairwise fun a b => distFrom j.tail a < distFrom j.tail b) :
    nextSync j = some x ↔ NextSegment j x := by
  unfold nextSync
  constructor
  · intro found
    obtain ⟨after, before, behind, split, none⟩ := List.find?_eq_some_iff_append.mp found
    rw [split] at rising
    obtain ⟨-, rising, -⟩ := List.pairwise_append.mp rising
    refine ⟨by rw [split]; simp, by simpa using after, fun y hy positive => ?_⟩
    rw [split, List.mem_append, List.mem_cons] at hy
    rcases hy with hy | rfl | hy
    · have := none y hy
      simp at this
      omega
    · exact le_refl _
    · exact (List.rel_of_pairwise_cons rising hy).le
  · rintro ⟨member, positive, first⟩
    cases found : j.index.find? fun e => decide (0 < distFrom j.tail e) with
    | none => exact absurd positive (by simpa using List.find?_eq_none.mp found x member)
    | some y =>
      have positive' : 0 < distFrom j.tail y := by simpa using List.find?_some found
      have nearer := first y (List.mem_of_find?_eq_some found) positive'
      obtain ⟨after, before, behind, split, none⟩ := List.find?_eq_some_iff_append.mp found
      rw [split] at rising member
      obtain ⟨-, rising, -⟩ := List.pairwise_append.mp rising
      rw [List.mem_append, List.mem_cons] at member
      rcases member with member | rfl | member
      · have := none x member
        simp at this
        omega
      · rfl
      · have := List.rel_of_pairwise_cons rising member
        omega

/-- A discard step is possible to the next entry that an active hold does not protect (R41). -/
theorem discardTarget_eq (rising : s.js.index.Pairwise fun a b => distFrom s.js.tail a < distFrom s.js.tail b)
    (next : NextSegment s.js x) (allowed : s.tu.hold = .noHold ∨ distFrom s.js.tail x ≤ distFrom s.js.tail s.tu.start) :
    discardTarget s = some x := by
  rw [discardTarget, (nextSync_iff rising).mpr next]
  rcases allowed with idle | inside
  · simp [holdBound, holdActive, idle]
  · unfold holdBound
    cases holdActive s
    · rfl
    · exact if_neg (by rw [below_iff]; omega)

/-- No discard step is possible where the next entry is protected, or none follows (R41). -/
theorem discardTarget_none (rising : s.js.index.Pairwise fun a b => distFrom s.js.tail a < distFrom s.js.tail b)
    (blocked : ∀ x, NextSegment s.js x → s.tu.hold ≠ .noHold ∧ distFrom s.js.tail s.tu.start < distFrom s.js.tail x) :
    discardTarget s = none := by
  cases next : nextSync s.js with
  | none => rw [discardTarget, next]
  | some x =>
    obtain ⟨held, beyond⟩ := blocked x ((nextSync_iff rising).mp next)
    have active : holdActive s = true := by simp [holdActive, held]
    rw [discardTarget, next, holdBound, active]
    exact if_pos (below_iff.mpr beyond)

/-- After a discard step to the last entry no further one is possible (R41). -/
theorem nextSync_discarded (last : ∀ y ∈ s.js.index, distFrom s.js.tail y ≤ distFrom s.js.tail x) :
    nextSync (tailAt p (discardedTo x s).js) = none := by
  rw [nextSync, List.find?_eq_none]
  intro y hy
  simp only [tailAt, discardedTo, List.mem_filter, decide_eq_true_eq] at hy
  obtain ⟨⟨member, behind⟩, kept⟩ := hy
  have same : y = x := distFrom_inj (Nat.le_antisymm (last y member) (by simpa using behind))
  rw [same, distFrom_self, Nat.le_zero] at kept
  have tail : p = x := distFrom_inj (t := x) (by rw [kept, distFrom_self])
  simp [same, tail, tailAt]

/-! ### Room made under KEEP-NEWEST -/

theorem makeRoom_blocked {goal : State → Bool} (target : discardTarget s = none) : makeRoom goal s = s := by
  unfold makeRoom
  split
  · rfl
  · cases s.js.index.length with
    | zero => rfl
    | succ n =>
      rw [discardUntil, target]
      split <;> rfl

/-- One discard step made room, or was the last possible one (R41). -/
theorem makeRoom_step {goal : State → Bool} (policy : s.js.table.policy = .keepNewest) (open_ : goal s = false)
    (target : discardTarget s = some x) (ends : goal (discardTo x s) = true ∨ discardTarget (discardTo x s) = none) :
    makeRoom goal s = discardTo x s := by
  rw [makeRoom, policy]
  cases length : s.js.index.length with
  | zero =>
    have member := (discardTarget_spec target).1
    rw [List.length_eq_zero_iff.mp length] at member
    cases member
  | succ n =>
    dsimp only
    rw [discardUntil, open_, target]
    show discardUntil goal n (discardTo x s) = _
    cases n with
    | zero => rfl
    | succ n =>
      rw [discardUntil]
      rcases ends with goal' | blocked
      · rw [if_pos goal']
      · rw [blocked]
        split <;> rfl

/-- An entry's packet for which room was made is stored as it is where the room is there (R41). -/
theorem emitEntry_roomMade (normal : s.js.fill = .normal) (packet : entryPacket s.je.runningTime e = bytes)
    (made : makeRoom (fits bytes.length false) s = u) (je : u.je = s.je) (fit : fits bytes.length false u = true) :
    emitEntry e s = emitEntry e u := by
  have fill : u.js.fill = .normal := by rw [← made, makeRoom_fill, normal]
  have same : emit bytes false e.stamp s = emit bytes false e.stamp u := by
    rw [emit, emit, offer, offer, normal, fill, made, makeRoom_of_goal fit]
  rw [emitEntry, emitEntry, je, packet, same]

/-- Settles O35: a discard step is `discardTo`, and the entry's packet is offered after it. -/
theorem discardMovesReadersOn : Obligations.DiscardMovesReadersOn := by
  intro s e rest bytes lost sound due unwatched idle normal canonical onTime noSync policy full
  have run := due.normal unwatched idle normal
  rw [normalPackets, syncDue_handedOver, syncDue_none noSync, if_neg (by simp)] at run
  have same := handedOver_eq e rest s
  generalize handedOver e rest s = v at run same
  have js : v.js = s.js := by rw [same]
  have xl : v.xl = s.xl := by rw [same]
  have tu : v.tu = s.tu := by rw [same]
  have running : v.je.runningTime = s.je.runningTime := by rw [same]
  have packet : entryPacket v.je.runningTime e = bytes := by
    rw [running]
    exact entryPacket_on_time onTime
  have rising : v.js.index.Pairwise fun a b => distFrom v.js.tail a < distFrom v.js.tail b := by
    rw [js]
    exact sound.indexRising
  have unfit : fits bytes.length false v = false := by
    rw [unfit_packet, js]
    exact full
  have lostIn {w : State} {j : Store} (made : makeRoom (fits bytes.length false) v = w) (store : w.js = j)
      (still : freeSpace j < bytes.length + 32) (frame : StoreFrame v w) (je : w.je = v.je) :
      ∃ t, exec .horizonExpiry s = .next t ∧ lost j t ∧ t.xl = w.xl ∧ t.tu = s.tu ∧ t.oq.queue = rest := by
    rw [emitEntry_lost (by rw [js]; exact normal) packet (by rw [made, unfit_packet, store]; exact still), made] at run
    refine ⟨_, run, ⟨?_, lostAt_flag _ _, rfl, rfl, rfl, ?_⟩, rfl, ?_, ?_⟩
    · rw [← store]
      rfl
    · show w.je.runningTime = _
      rw [je, running]
    · exact frame.tu.trans tu
    · show w.oq.queue = rest
      rw [frame.oq, same]
  refine ⟨fun x next allowed => ?_, fun blocked => ?_⟩
  · have target := discardTarget_eq (s := v) rising (by rw [js]; exact next) (by rw [js, tu]; exact allowed)
    obtain ⟨p, freed, detached, store, link⟩ := discardTo_eq x v
    have same_js : (discardedTo x v).js = (discardedTo x s).js := by rw [same]; rfl
    have same_xl : (discardedTo x v).xl = (discardedTo x s).xl := by rw [same]; rfl
    rw [same_js] at store
    rw [same_xl] at link
    have frame := discardTo_frame x v
    refine ⟨p, fun attached => (freed (by rw [js]; exact attached)).congr same_js.symm tu.symm,
      fun attached => detached (by rw [js]; exact attached), fun room => ?_, fun still last => ?_⟩
    · have fit : fits bytes.length false (discardTo x v) = true := by
        rw [fits_packet, store]
        exact room
      have made := makeRoom_step (s := v) (by rw [js]; exact policy) unfit target (.inl fit)
      rw [emitEntry_roomMade (by rw [js]; exact normal) packet made (discardTo_je x v) fit] at run
      have fill : (discardTo x v).js.fill = .normal := by rw [discardTo_fill, js, normal]
      have ram : (discardTo x v).js.ram = s.js.ram := by rw [discardTo_ram, js]
      have head : (discardTo x v).js.head = s.js.head := by rw [discardTo_head, js]
      have running' : (discardTo x v).je.runningTime = s.je.runningTime := by rw [discardTo_je, running]
      have packet' : entryPacket (discardTo x v).je.runningTime e = bytes := by rw [running']; exact entryPacket_on_time onTime
      generalize discardTo x v = w at *
      obtain ⟨written, je⟩ := emitEntry_stored (s := w) (e := e) (by rw [RamCanonical, ram]; exact canonical) fill
        (by rw [packet', ← fits_packet]; exact fit)
      rw [packet'] at written
      rw [running', isLate_eq, onTime, if_neg (by simp)] at je
      refine ⟨_, run, written.appended.congr head.symm ram.symm rfl rfl, ?_, ?_, ?_, ?_, by rw [je]⟩
      · have whole := written.js
        rw [List.append_nil, store] at whole
        exact whole
      · rw [written.xl, link]
      · rw [written.frame.tu, frame.tu, tu]
      · rw [written.frame.oq, frame.oq, same]
    · have ended : discardTarget (discardTo x v) = none := by
        rw [discardTarget, store, nextSync_discarded last]
      have made := makeRoom_step (s := v) (by rw [js]; exact policy) unfit target (.inr ended)
      obtain ⟨t, run', lost', xl', rest'⟩ := lostIn made store still frame (discardTo_je x v)
      exact ⟨t, run', lost', xl'.trans link, rest'⟩
  · have made := makeRoom_blocked (goal := fits bytes.length false) (discardTarget_none (s := v) rising
      (by rw [js, tu]; exact blocked))
    obtain ⟨t, run', lost', xl', rest'⟩ := lostIn made js full (.refl v) rfl
    exact ⟨t, run', lost', xl'.trans xl, rest'⟩

end Sys2Proof.Machine
end

section
/-! The evaluation of a CHANGE: which rules match, what they do, and the TRIGGER packets behind the CHANGE. -/

namespace Sys2Proof.Machine

variable {s t : State} {e : Entry} {rest : List Entry} {r : TriggerRule} {rs : List TriggerRule}

/-! ### A matching rule -/

/-- The interrupt a matching rule asks for (R114). -/
def ruleFlagged (r : TriggerRule) (s : State) : State := if r.interrupt then setFlag flagTrg s else s

theorem ruleFlagged_eq (r : TriggerRule) (s : State) :
    ruleFlagged r s = { s with ifu := { s.ifu with irqf := if r.interrupt then s.ifu.irqf ||| flagTrg else s.ifu.irqf } } := by
  unfold ruleFlagged
  split <;> rfl

theorem ruleFlagged_trg (r : TriggerRule) (s : State) :
    (ruleFlagged r s).ifu.irqf.getLsbD 1 = (s.ifu.irqf.getLsbD 1 || r.interrupt) := by
  rw [ruleFlagged_eq]
  cases r.interrupt
  · exact (Bool.or_false _).symm
  · exact BitVec.getLsbD_or ..

theorem takeRule_note (action : r.action = .note) : takeRule r s = (false, ruleFlagged r s) := by
  unfold takeRule
  rw [action]
  rfl

/-- The hold action of a rule that has one (R113). -/
def holdActionOf (r : TriggerRule) : HoldAction := if r.action = .hold then .hold else .holdStop

theorem holdAction_eq (action : r.action ≠ .note) : r.action.holdAction = some (holdActionOf r) := by
  unfold holdActionOf
  cases h : r.action
  · exact absurd h action
  · rfl
  · rfl

theorem takeRule_busy (action : r.action ≠ .note) (held : s.tu.hold ≠ .noHold) : takeRule r s = (true, ruleFlagged r s) := by
  have tu : (ruleFlagged r s).tu = s.tu := by rw [ruleFlagged_eq]
  unfold takeRule
  rw [holdAction_eq action]
  exact if_neg (tu ▸ held)

theorem takeRule_starts (action : r.action ≠ .note) (idle : s.tu.hold = .noHold) :
    takeRule r s = (false, startHold (holdActionOf r) (ruleFlagged r s)) := by
  have tu : (ruleFlagged r s).tu = s.tu := by rw [ruleFlagged_eq]
  unfold takeRule
  rw [holdAction_eq action]
  exact if_pos (tu ▸ idle)

/-- A matching rule's outcome, and the hold state it leaves (R113, R116). -/
theorem holdBusyList_cons (r : TriggerRule) (rs : List TriggerRule) (s : State) :
    holdBusyList s.tu.hold (r :: rs) = (takeRule r s).1 :: holdBusyList (takeRule r s).2.tu.hold rs := by
  have tu : (ruleFlagged r s).tu = s.tu := by rw [ruleFlagged_eq]
  by_cases action : r.action = .note
  · rw [holdBusyList, if_pos action, takeRule_note action, tu]
  · rw [holdBusyList, if_neg action]
    by_cases idle : s.tu.hold = .noHold
    · rw [if_pos idle, takeRule_starts action idle]
      rfl
    · rw [if_neg idle, takeRule_busy action idle, tu]

/-! ### Matching rules in order -/

/-- Matching rules taken one after another (R113). -/
def rulesTaken : List TriggerRule → State → State
  | [], s => s
  | r :: rs, s => rulesTaken rs (takeRule r s).2

/-- Evaluation finds the matching rules in order, with their outcomes (R111 to R113). -/
theorem evaluateRules_eq (ch : Channel) (level : Bool) (img : Image) (is : List (Fin 8)) (s : State) :
    let hits := is.filter fun i => ruleMatches s.tu.rules[i] ch level img
    let rules := hits.map fun i => s.tu.rules[i]
    evaluateRules ch level img is s = (hits.zip (holdBusyList s.tu.hold rules), rulesTaken rules s) := by
  intro hits rules
  induction is generalizing s with
  | nil => rfl
  | cons i is ih =>
    by_cases fires : ruleMatches s.tu.rules[i] ch level img = true
    · have kept := (takeRule_frame s.tu.rules[i] s).rules
      have behind := ih (takeRule s.tu.rules[i] s).2
      simp only [kept] at behind
      simp only [hits, rules, List.filter_cons_of_pos (p := fun i => ruleMatches s.tu.rules[i] ch level img) fires,
        List.map_cons, holdBusyList_cons, rulesTaken]
      rw [evaluateRules, if_pos fires]
      show ((i, (takeRule s.tu.rules[i] s).1) :: (evaluateRules ch level img is (takeRule s.tu.rules[i] s).2).1,
        (evaluateRules ch level img is (takeRule s.tu.rules[i] s).2).2) = _
      rw [behind]
      rfl
    · simp only [hits, rules, List.filter_cons_of_neg (p := fun i => ruleMatches s.tu.rules[i] ch level img) fires]
      rw [evaluateRules, if_neg fires]
      exact ih s

/-- TRG is set when some matching rule's interrupt field is (R114). -/
theorem rulesTaken_trg (rs : List TriggerRule) (s : State) :
    (rulesTaken rs s).ifu.irqf.getLsbD 1 = (s.ifu.irqf.getLsbD 1 || rs.any fun r => r.interrupt) := by
  induction rs generalizing s with
  | nil => exact (Bool.or_false _).symm
  | cons r rs ih =>
    have first : (takeRule r s).2.ifu = (ruleFlagged r s).ifu := by
      by_cases action : r.action = .note
      · rw [takeRule_note action]
      · by_cases idle : s.tu.hold = .noHold
        · rw [takeRule_starts action idle]
          rfl
        · rw [takeRule_busy action idle]
    rw [rulesTaken, ih, first, ruleFlagged_trg, List.any_cons, Bool.or_assoc]

/-- An active hold stays as it is, and so does no hold where no rule has a hold action (R113, R120). -/
theorem rulesTaken_tu (kept : s.tu.hold ≠ .noHold ∨ ∀ r ∈ rs, r.action = .note) : (rulesTaken rs s).tu = s.tu := by
  induction rs generalizing s with
  | nil => rfl
  | cons r rs ih =>
    have tu : (takeRule r s).2.tu = s.tu := by
      by_cases action : r.action = .note
      · rw [takeRule_note action, ruleFlagged_eq]
      · have held : s.tu.hold ≠ .noHold := kept.resolve_right fun h => action (h r (by simp))
        exact takeRule_tu held r
    rw [rulesTaken, ih, tu]
    rw [tu]
    exact kept.imp_right fun h r hr => h r (List.mem_cons_of_mem _ hr)

/-- The first rule with a hold action starts the hold (R113, R116). -/
theorem rulesTaken_starts (idle : s.tu.hold = .noHold) (first : rs.find? (fun r => r.action != .note) = some r) :
    (rulesTaken rs s).tu = (startHold (holdActionOf r) s).tu := by
  induction rs generalizing s with
  | nil => cases first
  | cons q qs ih =>
    rw [rulesTaken]
    by_cases action : q.action = .note
    · have tu : (takeRule q s).2.tu = s.tu := by rw [takeRule_note action, ruleFlagged_eq]
      have js : (takeRule q s).2.js = s.js := (takeRule_journal q s).2.1
      rw [List.find?_cons_of_neg (by simp [action])] at first
      rw [ih (by rw [tu]; exact idle) first]
      simp [startHold, tu, js]
    · rw [List.find?_cons_of_pos (by simp [action])] at first
      cases first
      rw [takeRule_starts action idle, rulesTaken_tu (.inl (by simp [startHold]))]
      simp [startHold, ruleFlagged_eq]

/-! ### The statement's words -/

/-- The match against the image after the CHANGE, channel by channel (R112). -/
theorem masked_eq_iff (img mask value : Image) :
    (img &&& mask == value &&& mask) = (List.finRange 24).all fun c => !mask.getLsbD c || img.getLsbD c == value.getLsbD c := by
  rw [Bool.eq_iff_iff, beq_iff_eq, List.all_eq_true]
  constructor
  · intro same c _
    have bit := congrArg (fun x : Image => x.getLsbD c) same
    simp only [BitVec.getLsbD_and] at bit
    cases masked : mask.getLsbD c
    · rfl
    · rw [masked, Bool.and_true, Bool.and_true] at bit
      rw [bit]
      exact beq_self_eq_true _
  · intro all
    apply BitVec.eq_of_getLsbD_eq
    intro i inside
    have bit := all ⟨i, inside⟩ (List.mem_finRange _)
    simp only [BitVec.getLsbD_and]
    cases masked : mask.getLsbD i
    · simp
    · rw [masked] at bit
      rw [Bool.and_true, Bool.and_true]
      exact beq_iff_eq.mp bit

theorem ruleMatches_eq {img : Image} {image : Channel → Bool} (same : ∀ c : Channel, img.getLsbD c = image c)
    (r : TriggerRule) (ch : Channel) (level : Bool) : ruleMatches r ch level img = RuleFires r ch level image := by
  unfold ruleMatches RuleFires
  rw [masked_eq_iff]
  simp only [same]
  cases r.edge <;> rfl

/-- An entry on time, without a SYNC due: its packet and the TRIGGER packets behind it (R15). -/
theorem entryWritten_evaluated {hits : List (Fin 8 × Bool)} (normal : s.js.fill = .normal)
    (onTime : isBefore e.stamp s.je.runningTime = false) (noSync : NoSyncDue s e)
    (evaluated : evaluateEntry e (imaged e s) = (hits, t)) :
    entryWritten e s = emitAll e.stamp (hits.map fun h => triggerPacket h.1 h.2) (emitEntry e t) := by
  obtain ⟨je, js, -, -⟩ := evaluateEntry_journal e (imaged e s)
  rw [evaluated] at je js
  have running : t.je.runningTime = s.je.runningTime := by rw [je]; rfl
  have since : t.je.sinceSync = s.je.sinceSync := by rw [je]; rfl
  have store : t.js = s.js := js
  have due : syncDue e t = false := by rw [syncDue, running, since, store]; exact syncDue_none noSync
  have fill : t.js.fill = .normal := by rw [store, normal]
  unfold entryWritten
  rw [resumptionCheck_normal normal]
  dsimp only
  have same : (s.onJe fun j => { j with image := imageAfter e j.image }) = imaged e s := rfl
  rw [same, evaluated]
  dsimp only
  rw [running, isLate_eq, onTime, if_neg (by simp)]
  simp [entryPackets, fill, normalPackets, due]

/-- Settles O36: the matching rules are those `evaluateRules` finds, and their packets follow the CHANGE. -/
theorem matchingRulesAct : Obligations.MatchingRulesAct := by
  intro s stamp ch level rest e image hits rules n P bytes due idle normal canonical onTime noSync occupied room
  have run := due.released
  rw [handleEntry_uncounted (s := withQueue rest s) idle] at run
  have fires : (fun i : Fin 8 => ruleMatches s.tu.rules[i] ch level (imageAfter e s.je.image)) =
      fun i : Fin 8 => RuleFires s.tu.rules[i] ch level image := by
    funext i
    exact ruleMatches_eq (getLsbD_imageAfter e s.je.image) _ _ _
  have evaluated : evaluateEntry e (imaged e (withQueue rest s)) =
      (hits.zip (holdBusyList s.tu.hold rules), rulesTaken rules (imaged e (withQueue rest s))) := by
    have found := evaluateRules_eq ch level (imageAfter e s.je.image) (List.finRange 8) (imaged e (withQueue rest s))
    dsimp only at found
    have filtered : (List.finRange 8).filter (fun i : Fin 8 => ruleMatches (imaged e (withQueue rest s)).tu.rules[i] ch level
        (imageAfter e s.je.image)) = hits := congrArg (List.filter · (List.finRange 8)) fires
    rw [filtered] at found
    exact found
  rw [entryWritten_evaluated (s := withQueue rest s) normal onTime noSync evaluated] at run
  obtain ⟨je, js, oq, -⟩ := evaluateEntry_journal e (imaged e (withQueue rest s))
  rw [evaluated] at je js oq
  have trg := rulesTaken_trg rules (imaged e (withQueue rest s))
  have kept := rulesTaken_tu (s := imaged e (withQueue rest s)) (rs := rules)
  have starts (r : TriggerRule) := rulesTaken_starts (s := imaged e (withQueue rest s)) (rs := rules) (r := r)
  dsimp only at je js oq
  generalize rulesTaken rules (imaged e (withQueue rest s)) = u at *
  have running : u.je.runningTime = s.je.runningTime := by rw [je]; rfl
  have store : u.js = s.js := js
  have packet : entryPacket u.je.runningTime e = entryHead 0 e.body ++ varint (forward s.je.runningTime stamp) := by
    rw [running]
    exact entryPacket_on_time onTime
  have packets : ((hits.zip (holdBusyList s.tu.hold rules)).map fun h => triggerPacket h.1 h.2).flatten =
      (hits.zip (holdBusyList s.tu.hold rules)).flatMap fun h =>
        [(if h.2 then 0x81#8 else 0x80#8), BitVec.ofNat 8 h.1.val] := by
    rw [List.flatMap]
    congr 1
    refine List.map_congr_left fun h _ => ?_
    rcases h with ⟨i, busy⟩
    cases busy <;> rfl
  have length : (entryPacket u.je.runningTime e).length +
      ((hits.zip (holdBusyList s.tu.hold rules)).map fun h => triggerPacket h.1 h.2).flatten.length = bytes.length := by
    rw [packet, packets, ← List.length_append]
  obtain ⟨first, -⟩ := emitEntry_stored (s := u) (e := e) (by rw [RamCanonical, store]; exact canonical)
    (by rw [store]; exact normal) (by rw [store]; omega)
  have free := first.free
  rw [store] at free
  obtain ⟨behind, -⟩ := emitAll_stored (ps := (hits.zip (holdBusyList s.tu.hold rules)).map fun h => triggerPacket h.1 h.2)
    first.canonical (first.fill.trans (by rw [store]; exact normal)) (by omega) e.stamp
  have written := first.trans behind
  rw [packet, packets] at written
  refine ⟨_, run, written.appended.congr (by rw [store]) (by rw [store]) rfl rfl, written.frame.oq.trans oq, ?_,
    fun h => written.frame.tu.trans (kept h), fun none r first => ?_⟩
  · have bit : ∀ a : BitVec 8, (a ||| flagAvl).getLsbD 1 = a.getLsbD 1 := fun a => by simp [flagAvl]
    refine Eq.trans ?_ trg
    rcases written.flags with flags | flags <;> rw [flags]
    exact bit _
  · rw [written.frame.tu, starts r none first]
    rfl

end Sys2Proof.Machine
end

section
/-! The released entry that a COLLECTING hold counts, and the close of the hold at its quota. -/

namespace Sys2Proof.Machine

variable {s t : State} {e : Entry} {rest : List Entry}

/-! ### The stop reason through the handling of an entry -/

theorem emitEntry_stopReason (e : Entry) (s : State) : (emitEntry e s).je.stopReason = s.je.stopReason := by
  have kept := (emit_je (entryPacket s.je.runningTime e) false e.stamp s).2.2.2
  unfold emitEntry
  generalize emit (entryPacket s.je.runningTime e) false e.stamp s = answer at *
  rcases answer with ⟨a, s1⟩
  cases a
  · dsimp only
    split <;> exact kept
  · exact kept
  · exact kept

theorem emitSyncThenEntry_stopReason (e : Entry) (before : Image) (s : State) :
    (emitSyncThenEntry e before s).je.stopReason = s.je.stopReason := by
  have kept := (emitSync_je (entrySyncTime e s) before e.stamp s).2.2.1
  unfold emitSyncThenEntry
  generalize emitSync (entrySyncTime e s) before e.stamp s = answer at *
  rcases answer with ⟨a, s1⟩
  cases a
  · exact (emitEntry_stopReason e s1).trans kept
  · exact kept
  · exact kept

theorem resumePackets_stopReason (e : Entry) (before : Image) (s : State) :
    (resumePackets e before s).je.stopReason = s.je.stopReason := by
  have kept := (emit_je (lossPacket s.je) false e.stamp s).2.2.2
  unfold resumePackets
  generalize emit (lossPacket s.je) false e.stamp s = answer at *
  rcases answer with ⟨a, s1⟩
  cases a
  · exact (emitSyncThenEntry_stopReason ..).trans kept
  · exact kept
  · exact kept

theorem entryPackets_stopReason (resumed : Bool) (e : Entry) (before : Image) (s : State) :
    (entryPackets resumed e before s).je.stopReason = s.je.stopReason := by
  unfold entryPackets normalPackets
  split
  · rfl
  · split
    · exact resumePackets_stopReason ..
    · split
      · exact emitSyncThenEntry_stopReason ..
      · exact emitEntry_stopReason ..

theorem emitAll_stopReason (failure : Time) (ps : List (List Byte)) (s : State) :
    (emitAll failure ps s).je.stopReason = s.je.stopReason := by
  induction ps generalizing s with
  | nil => rfl
  | cons p ps ih => exact (ih _).trans (emit_je p false failure s).2.2.2

theorem resumptionCheck_je (s : State) : (resumptionCheck s).2.je = s.je := by
  unfold resumptionCheck
  split
  · rfl
  · dsimp only
    split
    · exact makeRoom_je _ s
    · exact makeRoom_je _ s

/-- Writing an entry leaves the stop reason. -/
theorem entryWritten_stopReason (e : Entry) (s : State) : (entryWritten e s).je.stopReason = s.je.stopReason := by
  unfold entryWritten
  dsimp only
  rw [emitAll_stopReason, entryPackets_stopReason, apply_ite State.je, logFault_je, ite_self, (evaluateEntry_journal _ _).1,
    State.onJe_je, resumptionCheck_je]

/-! ### The close by quota -/

theorem holdStopRequest_running (running : s.oq.state = .running) :
    holdStopRequest s = { s with
      oq := { s.oq with stopStamp := s.tb.counter, state := .draining }, je := { s.je with stopReason := .holdStop } } :=
  if_pos running

theorem holdStopRequest_idle (idle : s.oq.state ≠ .running) : holdStopRequest s = s := if_neg idle

/-- The hold closed at its quota: CLOSED with its start kept (R118). -/
theorem quotaClosed_tu (stamp : Time) (s : State) :
    (quotaClosed stamp s).tu = { s.tu with count := s.tu.count + 1, hold := .closed } := (emit_frame ..).tu

theorem quotaClosed_flag (stamp : Time) (s : State) : (quotaClosed stamp s).ifu.irqf.getLsbD 2 = true :=
  getLsbD_of_sticky (emit_frame ..).sticky (closeHold_flag _)

theorem quotaClosed_oq (stamp : Time) (s : State) : (quotaClosed stamp s).oq = s.oq := (emit_frame ..).oq

theorem quotaClosed_tb (stamp : Time) (s : State) : (quotaClosed stamp s).tb = s.tb := (emit_frame ..).tb

theorem quotaClosed_stopReason (stamp : Time) (s : State) : (quotaClosed stamp s).je.stopReason = s.je.stopReason :=
  (emit_je ..).2.2.2

/-- The report that reaches the quota: the close, and for HOLD-STOP the drain asked for (R55, R118). -/
structure ClosedByQuota (stamp : Time) (s t : State) : Prop where
  tu : t.tu = { s.tu with count := s.tu.count + 1, hold := .closed }
  flag : t.ifu.irqf.getLsbD 2 = true
  drains : s.tu.action = .holdStop → s.oq.state = .running →
    t.oq.state = .draining ∧ t.oq.stopStamp = s.tb.counter ∧ t.je.stopReason = .holdStop
  stays : (s.tu.action = .hold ∨ s.oq.state ≠ .running) → t.oq = s.oq ∧ t.je.stopReason = s.je.stopReason
  js : t.js = (quotaClosed stamp s).js
  ifu : t.ifu = (quotaClosed stamp s).ifu
  je : ∃ reason, t.je = { (quotaClosed stamp s).je with stopReason := reason }

theorem reportEntry_closes (reached : s.tu.quota ≤ s.tu.count + 1) (stamp : Time) :
    ClosedByQuota stamp s (reportEntry true stamp s) := by
  have tu := quotaClosed_tu stamp s
  have flag := quotaClosed_flag stamp s
  have oq := quotaClosed_oq stamp s
  have reason := quotaClosed_stopReason stamp s
  have tb := quotaClosed_tb stamp s
  have unstopped : ClosedByQuota stamp s (quotaClosed stamp s) ∨ s.tu.action = .holdStop ∧ s.oq.state = .running := by
    by_cases stops : s.tu.action = .holdStop ∧ s.oq.state = .running
    · exact .inr stops
    · exact .inl ⟨tu, flag, fun a b => absurd ⟨a, b⟩ stops, fun _ => ⟨oq, reason⟩, rfl, rfl, _, rfl⟩
  rw [reportEntry_quota reached]
  cases action : s.tu.action with
  | hold => exact unstopped.resolve_right (by simp [action])
  | holdStop =>
    dsimp only
    by_cases running : s.oq.state = .running
    · rw [holdStopRequest_running (by rw [oq]; exact running)]
      refine ⟨tu, flag, fun _ _ => ⟨rfl, tb ▸ rfl, rfl⟩, fun h => absurd h (by simp [action, running]), rfl, rfl, _, rfl⟩
    · rw [holdStopRequest_idle (by rw [oq]; exact running)]
      exact unstopped.resolve_right fun h => running h.2

/-- The closing HOLD packet that fits (R5, R118). -/
theorem quotaClosed_stored (canonical : RamCanonical s) (normal : s.js.fill = .normal) (room : 33 ≤ freeSpace s.js)
    (stamp : Time) : Appended s (quotaClosed stamp s) [0x91#8] ∧ (quotaClosed stamp s).js.fill = .normal := by
  obtain ⟨t, emitted, written, -⟩ := emit_stored (s := closeHold (postCounted s)) (bytes := holdPacket .byQuota) canonical
    normal room stamp
  have same : quotaClosed stamp s = t := congrArg Prod.snd emitted
  rw [same]
  exact ⟨written.appended.congr rfl rfl rfl rfl, written.fill.trans normal⟩

/-- The closing HOLD packet that does not fit under KEEP-OLDEST: a loss record without an entry (R17). -/
theorem quotaClosed_lost (normal : s.js.fill = .normal) (policy : s.js.table.policy = .keepOldest)
    (full : freeSpace s.js < 33) (stamp : Time) :
    (quotaClosed stamp s).js = { s.js with fill := .losing } ∧ (quotaClosed stamp s).ifu.irqf.getLsbD 3 = true ∧
      (quotaClosed stamp s).je = { s.je with lossCount := 0, firstLost := stamp, lastLost := stamp } := by
  have still (goal : State → Bool) : makeRoom goal (closeHold (postCounted s)) = closeHold (postCounted s) :=
    makeRoom_keepOldest goal policy
  have lost := emit_lost (s := closeHold (postCounted s)) (bytes := holdPacket .byQuota) (isSync := false) normal
    (by rw [still, unfit_packet]; exact full) stamp
  rw [still] at lost
  have same : quotaClosed stamp s = beginLoss stamp (enterLosing (closeHold (postCounted s))) := congrArg Prod.snd lost
  rw [same]
  exact ⟨rfl, (BitVec.getLsbD_or ..).trans (Bool.or_true _), rfl⟩

/-- Settles O37: the report of the entry counts it, or closes the hold behind its packets. -/
theorem quotaClosesHold : Obligations.QuotaClosesHold := by
  intro s e rest due collecting
  have run := due.released
  have queue := (handleEntry_frame e (withQueue rest s)).queue
  have collects : ((withQueue rest s).tu.hold == .collecting) = true := by
    show (s.tu.hold == .collecting) = true
    rw [collecting]
    rfl
  rw [handleEntry_eq, collects] at run queue
  have tu := entryWritten_tu (s := withQueue rest s) (by rw [show (withQueue rest s).tu = s.tu from rfl, collecting]; simp) e
  have oq := entryWritten_oq e (withQueue rest s)
  have tb := (entryWritten_frame e (withQueue rest s)).tb
  have reason := entryWritten_stopReason e (withQueue rest s)
  have plain (normal : s.js.fill = .normal) (unwatched : Unwatched s e)
      (onTime : isBefore e.stamp s.je.runningTime = false) (noSync : NoSyncDue s e) :=
    entryWritten_on_time (s := withQueue rest s) unwatched normal onTime noSync
  have losing' (losing : s.js.fill = .losing) (policy : s.js.table.policy = .keepOldest)
      (short : freeSpace s.js < 256 * s.js.table.resumeRoom.toNat) :=
    (entryWritten_losing (s := withQueue rest s) (e := e) losing policy short).1
  generalize entryWritten e (withQueue rest s) = v at *
  have tu : v.tu = s.tu := tu
  have tb : v.tb = s.tb := tb
  have reason : v.je.stopReason = s.je.stopReason := reason
  have oq : v.oq = { s.oq with queue := rest } := oq
  refine ⟨_, run, queue, fun below => ?_, fun reached => ?_⟩
  · rw [reportEntry_counts (by rw [tu]; exact below)]
    refine ⟨?_, ?_⟩
    · show { v.tu with count := v.tu.count + 1 } = _
      rw [tu]
    · show v.oq.state = _
      rw [oq]
  · have closed := reportEntry_closes (s := v) (by rw [tu, reached]) e.stamp
    generalize reportEntry true e.stamp v = t at *
    refine ⟨by rw [closed.tu, tu], closed.flag, fun action running => ?_, fun kept => ?_,
      fun normal canonical unwatched onTime noSync => ?_, fun losing policy short => ?_⟩
    · have drains := closed.drains (by rw [tu]; exact action) (by rw [oq]; exact running)
      rw [tb] at drains
      exact drains
    · have stays := closed.stays (by
        rw [tu, oq]
        exact kept.imp_right fun draining => (by rw [draining]; decide))
      rw [oq, reason] at stays
      exact stays
    · have written := plain normal unwatched onTime noSync
      have packet : entryPacket (imaged e (withQueue rest s)).je.runningTime e =
        entryHead 0 e.body ++ varint (forward s.je.runningTime e.stamp) := entryPacket_on_time onTime
      refine ⟨fun room => ?_, fun exactly policy => ?_⟩
      · obtain ⟨first, -⟩ := emitEntry_stored (s := imaged e (withQueue rest s)) (e := e) canonical normal
          (by rw [packet]; exact le_trans (Nat.le_succ _) room)
        rw [packet, ← written] at first
        have free : freeSpace v.js + _ = freeSpace s.js := first.free
        obtain ⟨behind, fill⟩ := quotaClosed_stored first.canonical (first.fill.trans normal) (by omega) e.stamp
        rw [← closed.js] at fill
        refine ⟨?_, fill⟩
        have le : freeSpace s.js ≤ Config.ringSize := freeSpace_le _
        exact (first.appended.trans behind (by rw [List.length_singleton]; omega)).congr rfl rfl (by rw [closed.js])
          (by rw [closed.js])
      · obtain ⟨first, -⟩ := emitEntry_stored (s := imaged e (withQueue rest s)) (e := e) canonical normal
          (by rw [packet]; exact exactly.le)
        rw [packet, ← written] at first
        have free : freeSpace v.js + _ = freeSpace s.js := first.free
        have table : v.js.table = s.js.table := first.frame.table
        obtain ⟨js, flag, je⟩ := quotaClosed_lost (first.fill.trans normal) (by rw [table]; exact policy) (by omega) e.stamp
        rw [← closed.js] at js
        rw [← closed.ifu] at flag
        obtain ⟨after, je'⟩ := closed.je
        rw [je] at je'
        refine ⟨first.appended.congr rfl rfl (by rw [js]) (by rw [js]), by rw [js], flag, ?_, ?_, ?_⟩ <;> rw [je']
    · have still := losing' losing policy short
      have same : v.js = s.js := still
      have dropped : quotaClosed e.stamp v = closeHold (postCounted v) :=
        congrArg Prod.snd (emit_losing (s := closeHold (postCounted v)) (same ▸ losing) _ _ _)
      rw [closed.js, dropped]
      exact same

end Sys2Proof.Machine
end

section
/-! The opening of a run, by START and by AUTO_START. -/

namespace Sys2Proof.Machine

variable {s t : State}

/-- An image's bit is its function's value. -/
theorem getLsbD_imageOf (f : Channel → Bool) (ch : Channel) : (imageOf f).getLsbD ch = f ch := by
  have folded (l : List Channel) (img : Image) :
      (l.foldl (fun img ch => if f ch then img ||| chanBit ch else img) img).getLsbD ch =
        (img.getLsbD ch || (decide (ch ∈ l) && f ch)) := by
    induction l generalizing img with
    | nil => simp
    | cons c l ih =>
      rw [List.foldl_cons, ih]
      by_cases same : ch = c
      · subst same
        cases value : f ch
        · simp
        · rw [if_pos rfl, BitVec.getLsbD_or, getLsbD_chanBit]
          simp
      · have bit : (if f c then img ||| chanBit c else img).getLsbD ch = img.getLsbD ch := by
          split
          · rw [BitVec.getLsbD_or, getLsbD_chanBit, decide_eq_false same, Bool.or_false]
          · rfl
        rw [bit]
        simp [same]
  refine (folded (List.finRange 24) 0#24).trans ?_
  rw [decide_eq_true (List.mem_finRange ch)]
  simp

/-- The START notice as the statement of START writes it (R85). -/
theorem startNotice_eq (start : Time) (c : ChannelRec) :
    startNotice start c =
      let raised : Option Time := c.stamp.map fun x => if isBefore x start then start else x
      let d : ChannelRec := { c with stamp := if c.state = .settling then raised else c.stamp }
      if c.desc.enable then { d with chatterCount := 0, window := none, quiet := none } else d := by
  unfold startNotice
  split <;> rfl

/-- What the opening of a run with room leaves (R19, R52). -/
structure RunBegun (s t : State) : Prop where
  appended : Appended s t (syncAs { s with je := { s.je with mask := enabledImage s } } s.tb.counter
    (liveImage s &&& enabledImage s))
  js : t.js = { s.js with ram := t.js.ram, head := t.js.head, index := s.js.index ++ [s.js.head] }
  je : t.je = { s.je with
    runningTime := s.tb.counter, image := liveImage s &&& enabledImage s, mask := enabledImage s, sinceSync := 0,
    segment := s.je.segment + 1#16 }
  xl : t.xl = s.xl

/-- The run opens with its first SYNC stored and indexed (R19). -/
theorem openRun_begun (canonical : RamCanonical s) (normal : s.js.fill = .normal) (room : 49 ≤ freeSpace s.js)
    (index : s.js.index.length < 64) : RunBegun s (openRun s) := by
  obtain ⟨t, synced, written, je⟩ := emitSync_stored
    (s := (s.onOq fun q => { q with horizon := horizonOf s }).onJe fun e =>
      { e with runningTime := s.tb.counter, image := liveImage s &&& enabledImage s, mask := enabledImage s })
    canonical normal room index s.tb.counter (liveImage s &&& enabledImage s) s.tb.counter
  have begun : beginRun (s.onOq fun q => { q with horizon := horizonOf s }) = t := congrArg Prod.snd synced
  unfold openRun
  dsimp only
  rw [begun]
  exact ⟨written.appended.congr rfl rfl rfl rfl, written.js, je, written.xl⟩

/-- A START taken in STOPPED with room (R47, R51). -/
theorem requestStart_taken (stopped : s.oq.state = .stopped) (room : 49 ≤ freeSpace s.js)
    (index : s.js.index.length < 64) : requestStart s = (.ok, openRun s) := by
  have fit : fits syncLength true s = true := fits_iff.mpr ⟨room, fun _ => index⟩
  rw [requestStart, if_pos stopped]
  dsimp only
  rw [makeRoom_of_goal fit, if_pos fit]

theorem complete_flag (r : Result) (s : State) : (complete r s).ifu.irqf.getLsbD 7 = true :=
  (BitVec.getLsbD_or ..).trans (Bool.or_true _)

/-- Settles O38: START opens the run and completes. -/
theorem startOpensRun : Obligations.StartOpensRun := by
  intro s free stopped normal room index canonical
  have run : exec .start s = .next (complete .ok (openRun s)) := by
    refine congrArg Host.Outcome.next ((request_taken free (by rw [stopped]; decide) _).trans ?_)
    rw [commandStart, requestStart_taken stopped room index]
  obtain ⟨icu, tb, oq, tu, -, cl, hw, -⟩ := openRun_front s
  obtain ⟨appended, js, je, xl⟩ := openRun_begun canonical normal room index
  obtain ⟨covers, attained⟩ := horizonOf_spec s
  refine ⟨_, run, ?_⟩
  have horizon : (complete .ok (openRun s)).oq = { s.oq with horizon := horizonOf s, state := .running } := oq
  have encoder : (complete .ok (openRun s)).je = (openRun s).je := rfl
  have window : (complete .ok (openRun s)).hw = { (openRun s).hw with result := .ok, inProgress := none } := rfl
  have flag := complete_flag .ok (openRun s)
  have appended := appended.congr rfl rfl (t' := complete .ok (openRun s)) rfl rfl
  refine ⟨by rw [horizon], fun ch on => ?_, ?_, fun ch => ?_, ?_, ?_, js, fun ch => ?_, tb, tu, xl, cl, ?_, flag⟩
  · rw [horizon]
    exact covers ch on
  · rw [horizon]
    exact attained
  · rw [encoder, je]
    have mask : (enabledImage s).getLsbD ch = s.icu[ch].desc.enable := getLsbD_imageOf _ ch
    have live : (liveImage s).getLsbD ch = s.icu[ch].accepted := getLsbD_imageOf _ ch
    refine ⟨mask, ?_⟩
    show (liveImage s &&& enabledImage s).getLsbD ch = _
    rw [BitVec.getLsbD_and, mask, live, Bool.and_comm]
  · rw [encoder, je]
  · rw [encoder, je]
    exact appended
  · show (openRun s).icu[ch] = _
    rw [icu, ← startNotice_eq]
    exact Vector.getElem_map ..
  · rw [window, hw]

/-- A RELOAD in progress completes with OK (R188). -/
theorem completeReload_completes (hw : t.hw = s.hw) :
    (s.hw.inProgress = some .reload → (completeReload t).hw = { s.hw with result := .ok, inProgress := none } ∧
      (completeReload t).ifu.irqf.getLsbD 7 = true) ∧ (s.hw.inProgress ≠ some .reload → (completeReload t).hw = s.hw) := by
  unfold completeReload
  rw [hw]
  refine ⟨fun reload => ?_, fun other => ?_⟩
  · rw [if_pos reload]
    refine ⟨?_, complete_flag .ok t⟩
    show { t.hw with result := .ok, inProgress := none } = _
    rw [hw]
  · rw [if_neg other, hw]

/-- Completing a RELOAD is the host window's and the flags' alone. -/
theorem completeReload_eq (t : State) :
    completeReload t = { t with hw := (completeReload t).hw, ifu := (completeReload t).ifu } := by
  unfold completeReload
  split <;> rfl

/-- Settles O60: AUTO_START is a START without its own completion. -/
theorem autoStartOpensRun : Obligations.AutoStartOpensRun := by
  intro s due completes
  have run : exec .autoStart s = .next (completeReload (requestStart (s.onCl fun c => { c with autoStartDue := false })).2) :=
    congrArg Host.Outcome.next (if_pos due)
  refine ⟨fun stopped normal room index canonical => ?_, fun started => ?_⟩
  · rw [requestStart_taken (s := s.onCl fun c => { c with autoStartDue := false }) stopped room index] at run
    obtain ⟨-, -, oq, -, -, cl, hw, -⟩ := openRun_front (s.onCl fun c => { c with autoStartDue := false })
    obtain ⟨appended, js, je, -⟩ := openRun_begun (s := s.onCl fun c => { c with autoStartDue := false }) canonical normal
      room index
    dsimp only at run
    generalize openRun (s.onCl fun c => { c with autoStartDue := false }) = t at *
    have hw : t.hw = s.hw := hw
    have done := completeReload_completes hw
    have same := completeReload_eq t
    generalize completeReload t = u at *
    have js' : u.js = t.js := by rw [same]
    have je' : u.je = t.je := by rw [same]
    have oq' : u.oq = t.oq := by rw [same]
    have cl' : u.cl = t.cl := by rw [same]
    refine ⟨u, run, by rw [oq', oq], by rw [oq', oq]; rfl, by rw [cl', cl]; rfl, ?_, by rw [js', js]; rfl,
      by rw [je', je]; rfl, by rw [je', je]; rfl, done⟩
    rw [je', je]
    exact appended.congr rfl rfl (by rw [js']) (by rw [js'])
  · have refused : requestStart (s.onCl fun c => { c with autoStartDue := false }) =
        (.locked, s.onCl fun c => { c with autoStartDue := false }) := if_neg started
    rw [refused] at run
    have done := completeReload_completes (s := s) (t := s.onCl fun c => { c with autoStartDue := false }) rfl
    have same := completeReload_eq (s.onCl fun c => { c with autoStartDue := false })
    dsimp only at run
    generalize completeReload (s.onCl fun c => { c with autoStartDue := false }) = u at *
    exact ⟨u, run, by rw [same]; rfl, by rw [same]; rfl, by rw [same]; rfl, by rw [same]; rfl, done⟩

end Sys2Proof.Machine
end

section
/-! Refused commands, STOP, RESTART and RELOAD. -/

namespace Sys2Proof.Machine

variable {s t : State}

/-! ### Refused commands -/

/-- Every host command is a CMD write's body (R156). -/
theorem hostCommand_request {c : Instr} (h : isHostCommand c = true) : ∃ body, ∀ s, exec c s = .next (request body s) := by
  cases c <;> first | exact ⟨_, fun _ => rfl⟩ | cases h

/-- A CMD write while BUSY is a collision (R159). -/
theorem request_busy {l : LongCommand} (busy' : s.hw.inProgress = some l) (body : State → State) :
    request body s = { s with hw := { s.hw with collision := true } } := if_pos (by simp [busy, busy'])

/-- A CMD write in LOADING is LOCKED (R158). -/
theorem request_loading (free : s.hw.inProgress = none) (loading : s.oq.state = .loading) (body : State → State) :
    request body s = completedWith .locked s := by
  rw [request, if_neg (by simp [busy, free]), if_pos loading]
  rfl

/-- A code that names no command (R158). -/
theorem commandOf_unknown {code : Byte} (h : code = 0#8 ∨ 14 < code.toNat) : commandOf code = complete .unknown := by
  have outside : code.toNat = 0 ∨ 14 < code.toNat := h.imp_left fun zero => by rw [zero]; rfl
  unfold commandOf
  split <;> first | omega | rfl

/-- Settles O39: the check that each refused command fails. -/
theorem refusedCommandsChangeOnlyTheResult : Obligations.RefusedCommandsChangeOnlyTheResult := by
  intro s
  refine ⟨fun c host => ?_, fun free unlocked => ?_⟩
  · obtain ⟨body, run⟩ := hostCommand_request host
    refine ⟨fun l busy' => ?_, fun free loading => ?_⟩
    · rw [run, request_busy busy']
    · rw [run, request_loading free loading]
  · have taken (body : State → State) : Host.Outcome.next (request body s) = (.next (body s) : Host.Outcome State Fault Refusal) :=
      congrArg _ (request_taken free unlocked body)
    refine ⟨fun started c code => ?_, fun idle c code => ?_, fun detached c code => ?_, fun stopped policy full => ?_,
      fun code unnamed => ?_⟩
    · have start : commandStart s = completedWith .locked s := by
        rw [commandStart, requestStart, if_neg started]
        rfl
      rcases code with rfl | rfl | rfl
      · exact (taken commandStart).trans (congrArg _ start)
      · exact (taken commandRestart).trans (congrArg _ (if_neg started))
      · exact (taken commandReload).trans (congrArg _ (if_neg started))
    · rcases code with rfl | rfl
      · exact (taken commandStop).trans (congrArg _ (if_neg idle))
      · exact (taken commandMark).trans (congrArg _ (if_neg idle))
    · have unread : ¬s.js.hostC.attached = true := by simp [detached]
      rcases code with rfl | rfl
      · exact (taken commandRelease).trans (congrArg _ (if_neg unread))
      · exact (taken commandReread).trans (congrArg _ (if_neg unread))
    · refine (taken commandStart).trans (congrArg _ ?_)
      have unfit : fits syncLength true s = false := by
        rw [← Bool.not_eq_true, fits_iff]
        rintro ⟨room, index⟩
        have index : s.js.index.length < 64 := index rfl
        have room : 49 ≤ freeSpace s.js := room
        omega
      have refused : requestStart s = (.nospace, s) := by
        rw [requestStart, if_pos stopped]
        dsimp only
        rw [makeRoom_keepOldest _ policy, unfit]
        rfl
      rw [commandStart, refused]
      rfl
    · refine (taken (commandOf code)).trans (congrArg _ ?_)
      rw [commandOf_unknown unnamed]
      rfl

/-! ### STOP and RESTART -/

/-- The emptied journal (R48): the store, the encoder's counts, the hold and the link's list, AVL evaluated. -/
theorem clearJournal_eq (s : State) : clearJournal s = { s with
    js := emptyStore s.js, je := clearEncoder s.je, tu := clearHold s.tu, xl := { s.xl with outstanding := [] },
    ifu := (clearJournal s).ifu } := by
  have frame := evalAvl_frame ((((s.onJs emptyStore).onJe clearEncoder).onTu clearHold).onXl fun x =>
    { x with outstanding := [] })
  have je := evalAvl_je ((((s.onJs emptyStore).onJe clearEncoder).onTu clearHold).onXl fun x => { x with outstanding := [] })
  have js := evalAvl_js ((((s.onJs emptyStore).onJe clearEncoder).onTu clearHold).onXl fun x => { x with outstanding := [] })
  have xl := evalAvl_xl ((((s.onJs emptyStore).onJe clearEncoder).onTu clearHold).onXl fun x => { x with outstanding := [] })
  unfold clearJournal
  generalize evalAvl ((((s.onJs emptyStore).onJe clearEncoder).onTu clearHold).onXl fun x => { x with outstanding := [] }) = t
    at *
  obtain ⟨icu, tb, oq, tu, hw, cl, pending, choices, -⟩ := frame
  cases t
  simp_all

/-- An emptied journal has nothing unread, so AVL is not raised (R48, R171). -/
theorem clearJournal_irqf (threshold : 1 ≤ s.hw.avth.toNat) : (clearJournal s).ifu.irqf = s.ifu.irqf := by
  rw [clearJournal, evalAvl_irqf, if_neg]
  · rfl
  · rintro ⟨unread, -⟩
    have none : hostUnread ((((s.onJs emptyStore).onJe clearEncoder).onTu clearHold).onXl fun x =>
        { x with outstanding := [] }) = 0 := by
      simp [hostUnread, unreadOf, emptyStore, clearConsumer]
    rw [none] at unread
    exact absurd (threshold.trans unread) (by decide)

/-- Settles O40: a drain begun with BUSY, and the cleared journal with BUSY. -/
theorem stopAndRestartHoldBusy : Obligations.StopAndRestartHoldBusy := by
  intro s
  refine ⟨fun free running => ?_, fun free stopped => ?_, fun restart => congrArg _ (if_pos restart),
    fun other => congrArg _ (if_neg other)⟩
  · exact congrArg Host.Outcome.next ((request_taken free (by simp [running]) _).trans (if_pos running))
  · have run : exec .restart s = .next (keepBusy .restart (clearJournal s)) :=
      congrArg Host.Outcome.next ((request_taken free (by simp [stopped]) _).trans (if_pos stopped))
    have frame := evalAvl_frame ((((s.onJs emptyStore).onJe clearEncoder).onTu clearHold).onXl fun x =>
      { x with outstanding := [] })
    have current : AvlCurrent (clearJournal s) := evalAvl_current _
    refine ⟨_, run, current, frame.irqe, frame.faults, frame.lost, clearJournal_irqf, ?_⟩
    show keepBusy .restart (clearJournal s) = { s with
      js := emptyStore s.js, je := clearEncoder s.je, tu := clearHold s.tu, xl := { s.xl with outstanding := [] },
      hw := { s.hw with inProgress := some .restart }, ifu := (clearJournal s).ifu }
    have same := clearJournal_eq s
    generalize clearJournal s = t at *
    rw [keepBusy, same]
    rfl

/-! ### RELOAD -/

/-- A time table written again changes nothing (R93). -/
theorem writeTimeTable_same {x : TimeTable} (table : s.tb.table = x) (off : x.ppsEnable = false) :
    writeTimeTable x s = s := by
  subst table
  simp [writeTimeTable, off, State.onTb]

/-- What a written time table leaves of the time base (R93). -/
theorem writeTimeTable_kept (x : TimeTable) (s : State) :
    (writeTimeTable x s).tb.counter = s.tb.counter ∧ (writeTimeTable x s).tb.trims = s.tb.trims ∧
      (writeTimeTable x s).tb.table = x := by
  have held (s : State) : (enterHoldover s).tb.counter = s.tb.counter ∧ (enterHoldover s).tb.trims = s.tb.trims ∧
      (enterHoldover s).tb.table = s.tb.table := by
    rw [enterHoldover_tb, heldOver]
    split <;> exact ⟨rfl, rfl, rfl⟩
  have timed (s : State) : (takeTimeout s).tb.counter = s.tb.counter ∧ (takeTimeout s).tb.trims = s.tb.trims ∧
      (takeTimeout s).tb.table = s.tb.table := by
    rw [takeTimeout_tb, timedOut, heldOver]
    split
    · exact ⟨rfl, rfl, rfl⟩
    · split <;> exact ⟨rfl, rfl, rfl⟩
  have expired (s : State) : (takeHoldoverExpiry s).tb.counter = s.tb.counter ∧
      (takeHoldoverExpiry s).tb.trims = s.tb.trims ∧ (takeHoldoverExpiry s).tb.table = s.tb.table := by
    rw [takeHoldoverExpiry_tb, holdoverExpired]
    split <;> exact ⟨rfl, rfl, rfl⟩
  unfold writeTimeTable
  dsimp only
  split
  all_goals split
  all_goals split
  all_goals simp [held, timed, expired]

/-- PPS disabled in LOCKED, the holdover timer still running: HOLDOVER with the reference absent (R93, R99). -/
theorem writeTimeTable_disables {x : TimeTable} {n : Nat} (locked : s.tb.quality = .locked)
    (enabled : s.tb.table.ppsEnable = true) (off : x.ppsEnable = false) (timer : s.tb.holdover = .running n)
    (early : n < 1000000 * x.holdoverLimit.toNat) :
    writeTimeTable x s = enterHoldover (s.onTb fun t => { t with table := x }) := by
  have tb : (enterHoldover (s.onTb fun t => { t with table := x })).tb =
      { s.tb with table := x, quality := .holdover, reference := none, rejects := 0 } := by
    rw [enterHoldover_tb, heldOver]
    simp [timer]
  have entered : (s.tb.table.ppsEnable && !x.ppsEnable &&
      (s.onTb fun t => { t with table := x }).tb.quality == .locked) = true := by
    simp [enabled, off, locked]
  have noTimeout : timeoutDue (enterHoldover (s.onTb fun t => { t with table := x })) = false := by
    rw [timeoutDue, tb]
  have noExpiry : holdoverDue (enterHoldover (s.onTb fun t => { t with table := x })) = false := by
    rw [holdoverDue, tb]
    simp [timer, early]
  unfold writeTimeTable
  dsimp only
  rw [if_pos entered]
  simp [noTimeout, noExpiry]

/-- The tables reset but for the time table. -/
def tablesCleared (s : State) : State :=
  ((s.onIcu fun v => v.map fun c => ChannelRec.reset c.line).onTu fun u =>
    { u with rules := Vector.replicate 8 TriggerRule.reset }).onJs fun j => { j with table := JournalTable.reset }

theorem resetTables_eq (s : State) : resetTables s = writeTimeTable TimeTable.reset (tablesCleared s) := rfl

theorem tablesCleared_icu (ch : Channel) (s : State) :
    (tablesCleared s).icu[ch] = { State.reset.icu[ch] with line := s.icu[ch].line } := by
  have first : (tablesCleared s).icu[ch] = ChannelRec.reset s.icu[ch].line := Vector.getElem_map ..
  have second : State.reset.icu[ch] = ChannelRec.reset false := Vector.getElem_replicate ..
  rw [first, second]
  rfl

/-- Settles O41: the clearing of RESTART, the tables reset, LOADING; then READING. -/
theorem reloadEntersLoading : Obligations.ReloadEntersLoading := by
  intro s
  refine ⟨fun free stopped => ?_, fun reload loading idle table => ?_⟩
  · have run : exec .reload s = .next (keepBusy .reload (((resetTables (clearJournal s)).onOq fun q =>
        { q with state := .loading }).onCl Loader.forReload)) :=
      congrArg Host.Outcome.next ((request_taken free (by simp [stopped]) _).trans (if_pos stopped))
    have same := clearJournal_eq s
    generalize clearJournal s = u at *
    have closed : u.oq.state ≠ .running := by
      rw [same]
      show s.oq.state ≠ .running
      rw [stopped]
      decide
    have tb : u.tb = s.tb := by rw [same]
    have only : TimeOnly (tablesCleared u) (resetTables u) := resetTables_idle closed
    obtain ⟨counter, -, table⟩ := writeTimeTable_kept TimeTable.reset (tablesCleared u)
    have disables {n : Nat} := writeTimeTable_disables (x := TimeTable.reset) (n := n) (s := tablesCleared u)
    have icu (ch : Channel) : u.icu[ch] = s.icu[ch] := by rw [same]
    rw [← resetTables_eq] at counter table disables
    have journal : (tablesCleared u).js = { emptyStore s.js with table := JournalTable.reset } ∧
        (tablesCleared u).oq = s.oq ∧ (tablesCleared u).hw = s.hw ∧ (tablesCleared u).tu = State.reset.tu ∧
        (tablesCleared u).xl = { s.xl with outstanding := [] } ∧ (tablesCleared u).je = clearEncoder s.je := by
      rw [same]
      exact ⟨rfl, rfl, rfl, rfl, rfl, rfl⟩
    obtain ⟨js, oq, hw, tu, xl, je⟩ := journal
    have cleared := tablesCleared_icu (s := u)
    have kept : (tablesCleared u).tb = u.tb := rfl
    generalize tablesCleared u = w at *
    generalize resetTables u = v at *
    have js' : v.js = w.js := by rw [only]
    refine ⟨_, run, ?_, ?_, ?_, ?_, table, counter.trans (by rw [kept, tb]), fun ch => ?_, ?_, ?_, ?_, rfl, rfl, rfl⟩
    · show { v.oq with state := .loading } = _
      rw [only, oq]
    · show { v.hw with inProgress := some .reload } = _
      rw [only, hw]
    · show v.js.head = _ ∧ v.js.tail = _ ∧ v.js.index = _ ∧ v.js.fill = _ ∧ v.js.ram = _ ∧ v.js.hostC = _ ∧
        v.js.exportC = _ ∧ v.js.table = _
      rw [js', js]
      exact ⟨rfl, rfl, rfl, rfl, rfl, rfl, rfl, rfl⟩
    · show v.tu = _
      rw [only, tu]
    · show v.icu[ch] = _
      rw [only]
      exact (cleared ch).trans (by rw [icu])
    · show v.xl = _
      rw [only, xl]
    · show v.je = _
      rw [only, je]
      rfl
    · rintro locked enabled ⟨n, timer, early⟩
      show v.tb.holdover = _ ∧ v.tb.quality = _ ∧ v.tb.reference = _ ∧ v.ifu.irqf.getLsbD 4 = _
      rw [kept, tb] at disables
      rw [disables locked enabled rfl timer early]
      have flag := enterHoldover_flag (w.onTb fun t => { t with table := TimeTable.reset })
      have held := enterHoldover_tb (w.onTb fun t => { t with table := TimeTable.reset })
      rw [heldOver, State.onTb_tb, kept, tb, timer] at held
      rw [held, timer]
      exact ⟨rfl, rfl, rfl, flag⟩
  · have clearing : reloadClearing s = true := by simp [reloadClearing, reload, loading, idle]
    have run : exec .reloadClearingDone s = .next (beginReading (tablesCleared s)) := by
      refine congrArg Host.Outcome.next ((if_pos clearing).trans ?_)
      rw [resetTables_eq, writeTimeTable_same (s := tablesCleared s) (x := TimeTable.reset) table rfl]
    exact ⟨_, run, rfl, rfl, rfl, rfl, rfl, rfl, fun ch => tablesCleared_icu ch s, rfl⟩

end Sys2Proof.Machine
end

section
/-! The close of a run at its drain expiry. -/

namespace Sys2Proof.Machine

variable {s t : State} {e : Entry} {rest : List Entry} {bytes : List Byte}

/-! ### Close-exempt packets -/

/-- A close-exempt packet that fits is stored (R38). -/
theorem emitExempt_stored (canonical : RamCanonical s) (room : bytes.length ≤ freeSpace s.js) :
    Written bytes [] s (emitExempt bytes s) ∧ (emitExempt bytes s).je = jeStored bytes.length s.je := by
  rw [emitExempt, if_pos room]
  refine ⟨(storePacket_written canonical room false).onJe _, ?_⟩
  simp [countStored, jeStored, sinceAfter, Config.ringSize]

/-- The closing LOSS of a LOSING store, or nothing in a NORMAL one (R20). -/
def closingBytes (s : State) : List Byte :=
  match s.js.fill with
  | .normal => []
  | .losing => lossAs s.je.lossCount s.je.firstLost s.je.lastLost

theorem length_closingBytes (s : State) : (closingBytes s).length ≤ 17 := by
  unfold closingBytes
  split
  · exact Nat.zero_le _
  · exact le_of_eq (length_lossPacket s.je)

/-- A store with its reserve free takes the closing LOSS and is NORMAL again (R20, R38). -/
structure LossClosed (s t : State) : Prop where
  appended : Appended s t (closingBytes s)
  free : freeSpace t.js + (closingBytes s).length = freeSpace s.js
  canonical : RamCanonical t
  fill : t.js.fill = .normal
  frame : StoreFrame s t
  runningTime : t.je.runningTime = s.je.runningTime
  image : t.je.image = s.je.image
  segment : t.je.segment = s.je.segment
  stopReason : t.je.stopReason = s.je.stopReason
  cleared : s.js.fill = .losing → t.je.lossCount = 0

theorem closingLoss_closed (canonical : RamCanonical s) (reserve : 32 ≤ freeSpace s.js) : LossClosed s (closingLoss s) := by
  unfold closingLoss
  cases fill : s.js.fill with
  | normal =>
    have none : closingBytes s = [] := by rw [closingBytes, fill]
    refine ⟨none ▸ .nil rfl rfl, by rw [none]; rfl, canonical, fill, .refl s, rfl, rfl, rfl, rfl, fun h => ?_⟩
    rw [fill] at h
    cases h
  | losing =>
    have loss : closingBytes s = lossPacket s.je := by rw [closingBytes, fill]; rfl
    have room : (lossPacket s.je).length ≤ freeSpace s.js := by rw [length_lossPacket]; omega
    obtain ⟨written, je⟩ := emitExempt_stored canonical room
    dsimp only
    rw [if_pos room]
    generalize emitExempt (lossPacket s.je) s = u at *
    rw [← loss] at written
    have frame : StoreFrame u ((u.onJs fun j => { j with fill := .normal }).onJe fun e =>
        { e with lossCount := 0, firstLost := 0, lastLost := 0 }) := by constructor <;> simp
    refine ⟨written.appended.congr rfl rfl rfl rfl, written.free, written.canonical, rfl, written.frame.trans frame, ?_, ?_,
      ?_, ?_, fun _ => rfl⟩ <;> simp only [State.onJe_je, State.onJs_je, je, jeStored]

/-! ### END -/

/-- The bytes of END (R5, R194). -/
def endBytes (reason : StopReason) (stop : Time) : List Byte :=
  (match reason with | .hostStop => 0xA0#8 | .holdStop => 0xA1#8) :: fullTime stop

theorem endPacket_eq (reason : StopReason) (stop : Time) : endPacket reason stop = endBytes reason stop := by
  cases reason <;> rfl

theorem length_endBytes (reason : StopReason) (stop : Time) : (endBytes reason stop).length = 8 := rfl

/-- The journal's ending with the reserve free: LOSS of a LOSING store, then END as the last eight bytes (R20, R38). -/
structure RunClosed (s t : State) : Prop where
  appended : Appended s t (closingBytes s ++ endBytes s.je.stopReason s.oq.stopStamp)
  last : BytesAt t.js.ram (t.js.head - 8#32) (endBytes s.je.stopReason s.oq.stopStamp)
  occupied : 8 ≤ occupancy t.js
  fill : t.js.fill = .normal
  sticky : s.ifu.irqf &&& t.ifu.irqf = s.ifu.irqf
  runningTime : t.je.runningTime = s.je.runningTime
  image : t.je.image = s.je.image
  segment : t.je.segment = s.je.segment
  cleared : s.js.fill = .losing → t.je.lossCount = 0

theorem endRun_closed (canonical : RamCanonical s) (reserve : 32 ≤ freeSpace s.js) : RunClosed s (endRun s) := by
  have closed := closingLoss_closed canonical reserve
  have short := length_closingBytes s
  unfold endRun
  dsimp only
  generalize closingLoss s = u at *
  have free := closed.free
  have packet : endPacket u.je.stopReason u.oq.stopStamp = endBytes s.je.stopReason s.oq.stopStamp := by
    rw [endPacket_eq, closed.stopReason, closed.frame.oq]
  rw [packet]
  obtain ⟨written, je⟩ := emitExempt_stored (bytes := endBytes s.je.stopReason s.oq.stopStamp) closed.canonical
    (by rw [length_endBytes]; omega)
  generalize emitExempt (endBytes s.je.stopReason s.oq.stopStamp) u = v at *
  have free' := written.free
  rw [length_endBytes] at free'
  have most : freeSpace u.js ≤ 16384 := freeSpace_le u.js
  refine ⟨?_, fun i inside => ?_, ?_, written.fill.trans closed.fill, ?_, ?_, ?_, ?_, fun losing => ?_⟩
  · refine (closed.appended.trans written.appended ?_).congr rfl rfl rfl rfl
    rw [length_endBytes]
    show _ ≤ 16384
    omega
  · have start : v.js.head - 8#32 = u.js.head := by
      rw [written.appended.head]
      exact BitVec.add_sub_cancel _ _
    show v.js.ram.read (((v.js.head - 8#32).toNat + i) % _) = _
    rw [start]
    exact written.appended.written i inside
  · show 8 ≤ occupancy v.js
    have : freeSpace v.js = 16384 - occupancy v.js := rfl
    omega
  · exact sticky_trans closed.frame.sticky written.frame.sticky
  · exact (congrArg Encoder.runningTime je).trans closed.runningTime
  · exact (congrArg Encoder.image je).trans closed.image
  · exact (congrArg Encoder.segment je).trans closed.segment
  · exact (congrArg Encoder.lossCount je).trans (closed.cleared losing)

/-! ### The entries and the hold before it -/

/-- Outside RUNNING a released entry leaves the stop reason (R55). -/
theorem handleEntry_stopReason (idle : s.oq.state ≠ .running) (e : Entry) :
    (handleEntry e s).je.stopReason = s.je.stopReason := by
  have written := entryWritten_stopReason e s
  have oq := entryWritten_oq e s
  rw [handleEntry_eq]
  generalize entryWritten e s = u at *
  cases s.tu.hold == .collecting
  · exact written
  · rcases Nat.lt_or_ge (u.tu.count + 1) u.tu.quota with below | reached
    · rw [reportEntry_counts below]
      exact written
    · exact ((reportEntry_closes reached e.stamp).stays (.inr (by rw [oq]; exact idle))).2.trans written

theorem releaseAll_stopReason (es : List Entry) {s : State} (draining : s.oq.state = .draining) :
    (releaseAll es s).je.stopReason = s.je.stopReason := by
  induction es generalizing s with
  | nil => rfl
  | cons e es ih =>
    have idle : (s.onOq fun q => { q with queue := es }).oq.state ≠ .running := by
      show s.oq.state ≠ .running
      rw [draining]
      decide
    have oq := handleEntry_oq_of_not_running idle e
    rw [releaseAll, ih (by rw [oq]; exact draining)]
    exact handleEntry_stopReason idle e

theorem runReleased_moves (draining : s.oq.state = .draining) : Moves s (runReleased s) := by
  have released := releaseAll_moves (s := s) (by simp [runOpen, draining]) s.oq.queue
  have still := releaseAll_draining s.oq.queue draining
  unfold runReleased
  dsimp only
  generalize releaseAll s.oq.queue s = u at *
  split
  · exact released.trans (.head (.closeHold ‹_›) (emit_plain_moves (by simp [runOpen, closeHold, setFlag, still]) _ _))
  · exact released

theorem runReleased_stopReason (draining : s.oq.state = .draining) :
    (runReleased s).je.stopReason = s.je.stopReason := by
  have released := releaseAll_stopReason s.oq.queue draining
  unfold runReleased
  dsimp only
  split
  · exact (emit_je ..).2.2.2.trans released
  · exact released

theorem runReleased_hold (s : State) : (runReleased s).tu.hold ≠ .collecting := by
  unfold runReleased
  dsimp only
  split
  · rw [(emit_frame ..).tu]
    simp [closeHold, setFlag]
  · assumption

/-- What the moves of a sound journal with its reserve keep. -/
theorem Moves.keep_reserve (h : Moves s t) (sound : JournalSound s) (reserve : ReserveKept s) (canonical : RamCanonical s) :
    ReserveKept t ∧ RamCanonical t :=
  (h.keep (P := fun u => JournalSound u ∧ ReserveKept u ∧ RamCanonical u)
    (fun m ⟨a, b, c⟩ => ⟨m.sound a, m.reserve a b, m.canonical c⟩) ⟨sound, reserve, canonical⟩).2

/-- The run ended: the notices to the channels, STP, the completion of a STOP (R58, R86). -/
theorem runEnded_eq (s : State) : runEnded s = { s with
    je := { s.je with stopReason := .hostStop }, icu := s.icu.map runEndNotice, ifu := (runEnded s).ifu,
    hw := if s.hw.inProgress = some .stop then { s.hw with result := .ok, inProgress := none } else s.hw } := by
  by_cases stops : s.hw.inProgress = some .stop
  · have ended : runEnded s = complete .ok (setFlag flagStp
        ((s.onJe fun e => { e with stopReason := .hostStop }).onIcu fun c => c.map runEndNotice)) := if_pos stops
    rw [if_pos stops, ended]
    rfl
  · have ended : runEnded s = setFlag flagStp
        ((s.onJe fun e => { e with stopReason := .hostStop }).onIcu fun c => c.map runEndNotice) := if_neg stops
    rw [if_neg stops, ended]
    rfl

theorem runEnded_flags (s : State) : s.ifu.irqf &&& (runEnded s).ifu.irqf = s.ifu.irqf ∧
    (runEnded s).ifu.irqf.getLsbD 6 = true ∧
    (s.hw.inProgress = some .stop → (runEnded s).ifu.irqf.getLsbD 7 = true) := by
  have stp (a : BitVec 8) : (a ||| flagStp).getLsbD 6 = true := (BitVec.getLsbD_or ..).trans (Bool.or_true _)
  unfold runEnded
  dsimp only
  show s.ifu.irqf &&& (if s.hw.inProgress = some .stop then _ else _ : State).ifu.irqf = _ ∧
    (if s.hw.inProgress = some .stop then _ else _ : State).ifu.irqf.getLsbD 6 = _ ∧
    (_ → (if s.hw.inProgress = some .stop then _ else _ : State).ifu.irqf.getLsbD 7 = _)
  split
  · exact ⟨sticky_trans (sticky_or _ flagStp) (sticky_or _ flagCmd), getLsbD_of_sticky (sticky_or _ flagCmd) (stp _),
      fun _ => complete_flag _ _⟩
  · exact ⟨sticky_or _ flagStp, stp _, fun h => absurd h ‹_›⟩

theorem runEndNotice_spec (c : ChannelRec) :
    (runEndNotice c).state ≠ .suppressed ∧ (runEndNotice c).state ≠ .suppressedSettling ∧
      (runEndNotice c).chatterCount = 0 ∧ (runEndNotice c).window = none ∧ (runEndNotice c).quiet = none ∧
      (runEndNotice c).accepted = c.accepted ∧ (runEndNotice c).stamp = c.stamp := by
  refine ⟨?_, ?_, rfl, rfl, rfl, rfl, rfl⟩ <;> cases h : c.state <;> simp [runEndNotice, h]

/-! ### The drain expiry -/

/-- The entry at the head of a draining queue may be released first (R58, R63). -/
theorem closeDrain_head (draining : s.oq.state = .draining) (queue : s.oq.queue = e :: rest) :
    closeDrain s = closeDrain (handleEntry e (withQueue rest s)) := by
  have oq : (handleEntry e (withQueue rest s)).oq = { s.oq with queue := rest } :=
    handleEntry_oq_of_not_running (s := withQueue rest s) (by simp [withQueue, draining]) e
  have same : runReleased s = runReleased (handleEntry e (withQueue rest s)) := by
    unfold runReleased
    rw [queue, oq]
    rfl
  rw [closeDrain_eq_ended, closeDrain_eq_ended, same]

theorem emit_segment (bytes : List Byte) (failure : Time) (s : State) :
    (emit bytes false failure s).2.je.segment = s.je.segment := by
  have offered := offer_je bytes false s
  rcases emit_cases bytes false failure s with ⟨s1, ho, he⟩ | ⟨s1, ho, he⟩ | ⟨s1, ho, he⟩ <;> rw [he]
  all_goals
    have kept : s1.je = s.je := by rw [ho] at offered; exact offered
    exact (congrArg Encoder.segment kept :)

/-- A run without entries left: the hold's close alone (R119). -/
theorem runReleased_empty (queue : s.oq.queue = []) : runReleased s =
    if s.tu.hold = .collecting then (emit (holdPacket .byStop) false s.je.runningTime (closeHold s)).2 else s := by
  unfold runReleased
  rw [queue]
  rfl

/-- Settles O42: the entries released, the hold closed, the journal ended, the notices given. -/
theorem drainExpiryClosesRun : Obligations.DrainExpiryClosesRun := by
  intro s sound reserve canonical draining come
  have due (u : State) (oq : u.oq.state = .draining ∧ u.oq.stopStamp = s.oq.stopStamp ∧ u.oq.horizon = s.oq.horizon)
      (tb : u.tb = s.tb) : exec .drainExpiry u = .next (closeDrain u) := by
    refine congrArg Host.Outcome.next (if_pos ?_)
    simp [drainDue, reached, oq, tb, come]
  have run := due s ⟨draining, rfl, rfl⟩ rfl
  obtain ⟨reserve', canonical'⟩ := (runReleased_moves draining).keep_reserve sound reserve canonical
  have oq := runReleased_oq draining
  have front := runReleased_front s
  have reason := runReleased_stopReason draining
  have hold := runReleased_hold s
  have empty := runReleased_empty (s := s)
  have ending := closeDrain_eq_ended s
  have run' := run
  rw [ending] at run'
  generalize runReleased s = v at *
  have room : 32 ≤ freeSpace v.js := reserve'.reserve (by simp [runOpen, oq, draining])
  have closed := endRun_closed canonical' room
  have stop : v.oq.stopStamp = s.oq.stopStamp := by rw [oq]
  obtain ⟨icu1, -, oq1, tu1, -, -, hw1⟩ := endRun_front v
  generalize endRun v = w at *
  have same := runEnded_eq w
  obtain ⟨sticky, stp, cmd⟩ := runEnded_flags w
  generalize runEnded w = t at *
  have js : t.js = w.js := by rw [same]
  have hw : w.hw = s.hw := hw1.trans front.hw
  have tu : t.tu = v.tu := by rw [same, tu1]
  refine ⟨t, run', ?_, by rw [js]; exact closed.fill, by rw [tu]; exact hold, by rw [same], stp, fun ch => ?_,
    fun stops => ⟨?_, cmd (by rw [hw]; exact stops)⟩, fun other => ?_, by rw [js]; exact closed.occupied,
    by rw [js, ← reason, ← stop]; exact closed.last, fun e rest head u released => ?_, fun queue => ?_⟩
  · rw [same, oq1, oq]
  · have notice : t.icu[ch] = runEndNotice s.icu[ch] := by
      rw [same, icu1, front.icu]
      exact Vector.getElem_map ..
    rw [notice]
    exact runEndNotice_spec _
  · rw [same, hw]
    exact if_pos stops
  · rw [same, hw]
    exact if_neg other
  · rw [head.released] at released
    cases released
    have oq : (handleEntry e (withQueue rest s)).oq = { s.oq with queue := rest } :=
      handleEntry_oq_of_not_running (s := withQueue rest s) (by simp [withQueue, draining]) e
    rw [run, due _ (by rw [oq]; exact ⟨draining, rfl, rfl⟩) (handleEntry_front e (withQueue rest s)).tb,
      closeDrain_head draining head.queued]
  · have appended {a : List Byte} (first : Appended s v a) (length : a.length ≤ 17) :
        Appended s t (a ++ (closingBytes v ++ endBytes s.je.stopReason s.oq.stopStamp)) := by
      have second := closed.appended
      rw [reason, stop] at second
      have short := length_closingBytes v
      refine (first.trans second ?_).congr rfl rfl (by rw [js]) (by rw [js])
      rw [List.length_append, length_endBytes]
      show _ ≤ 16384
      omega
    have je : t.je = { w.je with stopReason := .hostStop } := by rw [same]
    have cleared (losing : v.js.fill = .losing) : t.je.lossCount = 0 := by
      rw [je]
      exact closed.cleared losing
    have flag {i : Nat} (set : v.ifu.irqf.getLsbD i = true) : t.ifu.irqf.getLsbD i = true :=
      getLsbD_of_sticky sticky (getLsbD_of_sticky closed.sticky set)
    have kept : t.je.runningTime = v.je.runningTime ∧ t.je.image = v.je.image ∧ t.je.segment = v.je.segment := by
      rw [je]
      exact ⟨closed.runningTime, closed.image, closed.segment⟩
    have closing := empty queue
    by_cases collecting : s.tu.hold = .collecting
    · rw [if_pos collecting] at closing
      have frame := emit_frame (holdPacket .byStop) false s.je.runningTime (closeHold s)
      have carried := emit_je (holdPacket .byStop) false s.je.runningTime (closeHold s)
      have segment := emit_segment (holdPacket .byStop) s.je.runningTime (closeHold s)
      rw [← closing] at frame carried segment
      refine ⟨fun h => absurd collecting h, fun _ => ⟨tu.trans frame.tu, flag (getLsbD_of_sticky frame.sticky
        (closeHold_flag s))⟩, fun _ h => absurd collecting h, fun normal _ room => ?_, fun normal _ full policy => ?_,
        fun losing => ?_, kept.1.trans carried.2.2.1, kept.2.1.trans carried.1, kept.2.2.trans segment⟩
      · obtain ⟨x, emitted, written, -⟩ := emit_stored (s := closeHold s) (bytes := holdPacket .byStop) canonical normal
          room s.je.runningTime
        have whole : v = x := closing.trans (congrArg Prod.snd emitted)
        have fill : v.js.fill = .normal := by rw [whole]; exact written.fill.trans normal
        have none : closingBytes v = [] := by rw [closingBytes, fill]
        have first := written.appended
        rw [← whole] at first
        have done := appended (first.congr rfl rfl rfl rfl) (by decide)
        rw [none] at done
        exact done
      · have still (goal : State → Bool) : makeRoom goal (closeHold s) = closeHold s := makeRoom_keepOldest goal policy
        have lost := emit_lost (s := closeHold s) (bytes := holdPacket .byStop) (isSync := false) normal
          (by rw [still, unfit_packet]; exact full.trans_lt (by decide)) s.je.runningTime
        rw [still] at lost
        have whole : v = beginLoss s.je.runningTime (enterLosing (closeHold s)) := closing.trans (congrArg Prod.snd lost)
        have loss : closingBytes v = lossAs 0 s.je.runningTime s.je.runningTime := by rw [whole]; rfl
        have done := appended (a := []) (by rw [whole]; exact .nil rfl rfl) (by decide)
        rw [loss] at done
        exact ⟨done, flag (by rw [whole]; exact (BitVec.getLsbD_or ..).trans (Bool.or_true _))⟩
      · have whole : v = closeHold s := closing.trans (congrArg Prod.snd (emit_losing (s := closeHold s) losing _ _ _))
        have fill : v.js.fill = .losing := by rw [whole]; exact losing
        have loss : closingBytes v = lossAs s.je.lossCount s.je.firstLost s.je.lastLost := by
          rw [closingBytes, fill, whole]
          rfl
        have done := appended (a := []) (by rw [whole]; exact .nil rfl rfl) (by decide)
        rw [loss] at done
        exact ⟨done, cleared fill⟩
    · rw [if_neg collecting] at closing
      rw [closing] at kept tu cleared appended
      have done := appended (a := []) (.nil rfl rfl) (by decide)
      refine ⟨fun _ => tu, fun h => absurd h collecting, fun normal _ => ?_, fun _ h => absurd h collecting,
        fun _ h => absurd h collecting, fun losing => ?_, kept⟩
      · rw [closingBytes, normal] at done
        exact done
      · rw [closingBytes, losing] at done
        exact ⟨done, cleared losing⟩

end Sys2Proof.Machine
end

section
/-! The reader commands, RELEASE HOLD and CLEAR FAULTS. -/

namespace Sys2Proof.Machine

variable {s t : State}

/-- A command taken outside LOADING with none in progress, carried out and completed. -/
theorem next_request {body : State → State} (free : s.hw.inProgress = none) (unlocked : s.oq.state ≠ .loading)
    (done : body s = t) : (.next (request body s) : Host.Outcome State Fault Refusal) = .next t :=
  congrArg Host.Outcome.next ((request_taken free unlocked body).trans done)

/-- What completes behind an AVL evaluation: only flags and the comparison are further changed (R157, R171). -/
theorem complete_evalAvl (r : Result) (s : State) :
    complete r (evalAvl s) = { completedWith r s with ifu := (complete r (evalAvl s)).ifu } ∧
      (complete r (evalAvl s)).ifu.irqf.getLsbD 7 = true ∧ AvlCurrent (complete r (evalAvl s)) ∧
      (complete r (evalAvl s)).ifu.faults = s.ifu.faults ∧
      s.ifu.irqf &&& (complete r (evalAvl s)).ifu.irqf = s.ifu.irqf := by
  have frame := evalAvl_frame s
  have js := evalAvl_js s
  have je := evalAvl_je s
  have xl := evalAvl_xl s
  have current : AvlCurrent (evalAvl s) := evalAvl_current s
  generalize evalAvl s = t at *
  refine ⟨?_, complete_flag r t, current, frame.faults, sticky_trans frame.sticky (sticky_or _ flagCmd)⟩
  obtain ⟨icu, tb, oq, tu, hw, cl, pending, choices, -⟩ := frame
  cases t
  simp only at *
  subst icu tb oq tu hw cl pending choices js je xl
  rfl

/-- The attach point as the statement writes it (R26, R29). -/
theorem attachPoint_eq (j : Store) : attachPoint j = match j.index with | [] => j.head | p :: _ => p := by
  unfold attachPoint
  cases j.index <;> rfl

/-- Settles O43: each command sets its marks, then evaluates AVL or freeing. -/
theorem readerCommandsMoveTheMarks : Obligations.ReaderCommandsMoveTheMarks := by
  intro s free unlocked c point counts
  have run (i : Instr) (body : State → State) (row : exec i s = .next (request body s)) {t : State} (done : body s = t) :
      exec i s = .next t := row.trans (next_request free unlocked done)
  refine ⟨?_, fun attached => ?_, fun attached => ?_, fun attached => ?_, fun detached => ?_⟩
  · have point : attachPoint s.js = point := attachPoint_eq s.js
    have done := complete_evalAvl .ok (s.onJs fun j => { j with hostC := attachConsumer j j.hostC })
    refine ⟨_, run .attach commandAttach rfl rfl, ?_⟩
    rw [← point]
    exact done
  · have done := complete_evalAvl .ok (s.onJs fun j => { j with hostC := { j.hostC with read := j.hostC.release } })
    exact ⟨_, run .reread commandReread rfl (if_pos attached), done⟩
  · intro u
    obtain ⟨p, freed, moved⟩ := reevalFreeing_freedTo u
    refine ⟨p, freed, run .release commandRelease rfl ((if_pos attached).trans ?_)⟩
    exact congrArg (complete .ok) moved
  · intro u
    obtain ⟨p, freed, moved⟩ := reevalFreeing_freedTo u
    have body : commandDetach s = complete .ok (evalAvl { u with js := tailAt p u.js }) := by
      rw [← moved]
      exact congrArg (complete .ok) (if_pos attached)
    exact ⟨p, _, freed, run .detach commandDetach rfl body, complete_evalAvl .ok { u with js := tailAt p u.js }⟩
  · exact run .detach commandDetach rfl (congrArg (complete .ok) (if_neg (by simp [show s.js.hostC.attached = false from detached])))

/-! ### The hold and the fault log -/

/-- The end of an active hold: freeing, then in RUNNING the report (R21, R121; log entry 13). -/
theorem releaseHold_active (active : s.tu.hold ≠ .noHold) : releaseHold s =
    if s.oq.state = .running then
      emitHoldReleased (reevalFreeing (s.onTu fun u => { u with hold := .noHold, count := 0 }))
    else reevalFreeing (s.onTu fun u => { u with hold := .noHold, count := 0 }) :=
  if_pos (by simp [holdActive, active])

/-- Settles O44: freeing comes first, the HOLD packet second. -/
theorem releaseHoldAndClearFaults : Obligations.ReleaseHoldAndClearFaults := by
  intro s free
  refine ⟨fun unlocked none => ?_, fun unlocked active => ?_, fun unlocked => next_request free unlocked rfl,
    fun loading => congrArg Host.Outcome.next (request_loading free loading _)⟩
  · exact next_request (body := commandReleaseHold) free unlocked
      (congrArg (complete .ok) (if_neg (by simp [holdActive, none])))
  · intro u
    obtain ⟨p, freed, moved⟩ := reevalFreeing_freedTo u
    have released := releaseHold_active active
    refine ⟨p, freed, fun idle => ?_, fun running normal canonical room => ?_⟩
    · refine next_request (body := commandReleaseHold) free unlocked ?_
      show complete .ok (releaseHold s) = complete .ok { u with js := tailAt p u.js }
      rw [released, if_neg idle, ← moved]
      rfl
    · have run : exec .releaseHold s = .next (complete .ok (emitHoldReleased { u with js := tailAt p u.js })) := by
        refine next_request (body := commandReleaseHold) free unlocked (congrArg (complete .ok) ?_)
        rw [released, if_pos running, ← moved]
        rfl
      obtain ⟨t, emitted, written, -⟩ := emit_stored (s := { u with js := tailAt p u.js }) (bytes := holdPacket .released)
        canonical normal room u.je.runningTime
      have same : emitHoldReleased { u with js := tailAt p u.js } = t := congrArg Prod.snd emitted
      rw [same] at run
      refine ⟨_, run, written.appended.congr rfl rfl rfl rfl, written.tail, written.frame.tu, rfl, ?_⟩
      exact written.index.trans (List.append_nil _)

end Sys2Proof.Machine
end

section
/-! Table entries, count fields and the CRC: what is written reads back. -/

namespace Sys2Proof.Machine

/-! ### Fields and their codes -/

theorem yesNo_eq_some {v : Nat} {x : Bool} : yesNo v = some x ↔ v = yesNoCode x := by
  unfold yesNo yesNoCode
  split <;> cases x <;> simp <;> omega

theorem ruleEdgeOf_eq_some {v : Nat} {x : RuleEdge} : ruleEdgeOf v = some x ↔ v = x.code := by
  unfold ruleEdgeOf RuleEdge.code
  split <;> cases x <;> simp <;> omega

theorem ruleActionOf_eq_some {v : Nat} {x : RuleAction} : ruleActionOf v = some x ↔ v = x.code := by
  unfold ruleActionOf RuleAction.code
  split <;> cases x <;> simp <;> omega

theorem ppsEdgeOf_eq_some {v : Nat} {x : PpsEdge} : ppsEdgeOf v = some x ↔ v = ppsEdgeCode x := by
  unfold ppsEdgeOf ppsEdgeCode
  split <;> cases x <;> simp <;> omega

theorem policyOf_eq_some {v : Byte} {x : FillPolicy} : policyOf v = some x ↔ v = BitVec.ofNat 8 x.code := by
  have value : v = BitVec.ofNat 8 x.code ↔ v.toNat = x.code := by
    rw [← BitVec.toNat_inj]
    cases x <;> rfl
  rw [value]
  unfold policyOf FillPolicy.code
  split <;> cases x <;> simp <;> omega

/-! ### Words and their bytes -/

theorem byteOf_word16 (low high : Byte) : byteOf (word16 low high) 0 = low ∧ byteOf (word16 low high) 1 = high := by
  constructor <;> apply BitVec.eq_of_toNat_eq <;> simp [byteOf, word16, toNat_append_byte] <;> omega

theorem bytes_of_word16 {low high : Byte} {w : BitVec 16} (h : word16 low high = w) :
    byteOf w 0 = low ∧ byteOf w 1 = high := h ▸ byteOf_word16 low high

theorem word16_byteOf (w : BitVec 16) : word16 (byteOf w 0) (byteOf w 1) = w := by
  apply BitVec.eq_of_toNat_eq
  simp [byteOf, word16, toNat_append_byte, Nat.shiftRight_eq_div_pow]
  omega

theorem byteOf_word24 (a b c : Byte) :
    byteOf (word24 a b c) 0 = a ∧ byteOf (word24 a b c) 1 = b ∧ byteOf (word24 a b c) 2 = c := by
  refine ⟨?_, ?_, ?_⟩ <;> apply BitVec.eq_of_toNat_eq <;>
    simp [byteOf, word24, toNat_append_byte, Nat.shiftRight_eq_div_pow] <;> omega

theorem bytes_of_word24 {a b c : Byte} {w : BitVec 24} (h : word24 a b c = w) :
    byteOf w 0 = a ∧ byteOf w 1 = b ∧ byteOf w 2 = c := h ▸ byteOf_word24 a b c

theorem word24_byteOf (w : BitVec 24) : word24 (byteOf w 0) (byteOf w 1) (byteOf w 2) = w := by
  apply BitVec.eq_of_toNat_eq
  simp [byteOf, word24, toNat_append_byte, Nat.shiftRight_eq_div_pow]
  omega

/-! ### Bytes split into fields -/

theorem toNat_nibbles (b : Byte) : b.toNat = bitField b 3 0 + 16 * bitField b 7 4 := by
  have := b.isLt
  simp only [bitField]
  omega

/-- A byte of two nibbles has these nibbles. -/
theorem bitField_nibbles {m n : Nat} (low : m < 16) (high : n < 16) :
    bitField (BitVec.ofNat 8 (m + 16 * n)) 3 0 = m ∧ bitField (BitVec.ofNat 8 (m + 16 * n)) 7 4 = n := by
  simp only [bitField, BitVec.toNat_ofNat]
  omega

theorem entryBytes_eq (b : EntryBytes) : b = #v[b[0], b[1], b[2], b[3], b[4], b[5], b[6], b[7]] := by
  apply Vector.ext
  intro i inside
  match i, inside with
  | 0, _ => rfl
  | 1, _ => rfl
  | 2, _ => rfl
  | 3, _ => rfl
  | 4, _ => rfl
  | 5, _ => rfl
  | 6, _ => rfl
  | 7, _ => rfl

theorem ofNat_eq_byte {b : Byte} {n : Nat} (h : b.toNat = n) : BitVec.ofNat 8 n = b := by
  rw [← h, BitVec.ofNat_toNat, BitVec.setWidth_eq]

/-- Eight bytes are theirs when each is. -/
theorem entryBytes_congr {b : EntryBytes} {c0 c1 c2 c3 c4 c5 c6 c7 : Byte} (h0 : c0 = b[0]) (h1 : c1 = b[1]) (h2 : c2 = b[2])
    (h3 : c3 = b[3]) (h4 : c4 = b[4]) (h5 : c5 = b[5]) (h6 : c6 = b[6]) (h7 : c7 = b[7]) :
    #v[c0, c1, c2, c3, c4, c5, c6, c7] = b := by
  subst h0 h1 h2 h3 h4 h5 h6 h7
  exact (entryBytes_eq b).symm

theorem yesNoCode_lt (x : Bool) : yesNoCode x < 2 := by cases x <;> decide

/-! ### Channel descriptors -/

/-- What a descriptor's bytes say, and the checks of R72. -/
theorem decodeChannel_eq_some {b : EntryBytes} {d : ChanDesc} : decodeChannel b = some d ↔
    (bitField b[0] 3 0 = yesNoCode d.enable ∧ bitField b[0] 7 4 = yesNoCode d.invert) ∧
      (chatterLimitOk b[2] = true ∧ b[3] ≠ 0#8 ∧ b[4] ≠ 0#8 ∧ b[5] = 0#8 ∧ b[6] = 0#8 ∧ b[7] = 0#8) ∧
        b[1] = d.settle ∧ b[2] = d.chatterLimit ∧ b[3] = d.chatterWindow ∧ b[4] = d.quietTime := by
  rw [← yesNo_eq_some, ← yesNo_eq_some]
  unfold decodeChannel
  split
  case h_1 enable invert low high =>
    rw [low, high]
    split
    case isTrue checks =>
      simp only [Bool.and_eq_true, beq_iff_eq, bne_iff_ne] at checks
      obtain ⟨⟨⟨⟨⟨limit, window⟩, quiet⟩, five⟩, six⟩, seven⟩ := checks
      cases d
      simp [limit, window, quiet, five, six, seven, and_assoc]
    case isFalse fails =>
      simp only [reduceCtorEq, false_iff]
      rintro ⟨-, ⟨limit, window, quiet, five, six, seven⟩, -⟩
      simp [limit, window, quiet, five, six, seven] at fails
  case h_2 none =>
    simp only [reduceCtorEq, false_iff]
    rintro ⟨⟨low, high⟩, -⟩
    exact none _ _ low high

theorem encodeChannel_of_decode {b : EntryBytes} {d : ChanDesc} (h : decodeChannel b = some d) : encodeChannel d = b := by
  obtain ⟨⟨enable, invert⟩, ⟨-, -, -, five, six, seven⟩, settle, limit, window, quiet⟩ := decodeChannel_eq_some.mp h
  have first : BitVec.ofNat 8 (yesNoCode d.enable + 16 * yesNoCode d.invert) = b[0] := by
    refine ofNat_eq_byte ?_
    rw [toNat_nibbles, enable, invert]
  exact entryBytes_congr first settle.symm limit.symm window.symm quiet.symm five.symm six.symm seven.symm

theorem decode_encodeChannel {d : ChanDesc} (limit : chatterLimitOk d.chatterLimit = true) (window : d.chatterWindow ≠ 0#8)
    (quiet : d.quietTime ≠ 0#8) : decodeChannel (encodeChannel d) = some d :=
  decodeChannel_eq_some.mpr ⟨bitField_nibbles ((yesNoCode_lt _).trans (by decide)) ((yesNoCode_lt _).trans (by decide)),
    ⟨limit, window, quiet, rfl, rfl, rfl⟩, rfl, rfl, rfl, rfl⟩

/-! ### Trigger rules -/

/-- What a rule's bytes say, and the checks of R110. -/
theorem decodeTrigger_eq_some {b : EntryBytes} {r : TriggerRule} : decodeTrigger b = some r ↔
    (bitField b[0] 4 0 = r.channel.val ∧ bitField b[0] 6 5 = r.edge.code ∧ bitField b[0] 7 7 = 0) ∧
      (bitField b[1] 1 0 = yesNoCode r.enable ∧ bitField b[1] 3 2 = r.action.code ∧
        bitField b[1] 5 4 = yesNoCode r.interrupt ∧ bitField b[1] 7 6 = 0) ∧
        r.value &&& ~~~r.mask = 0#24 ∧ word24 b[2] b[3] b[4] = r.mask ∧ word24 b[5] b[6] b[7] = r.value := by
  rw [← ruleEdgeOf_eq_some, ← yesNo_eq_some, ← ruleActionOf_eq_some, ← yesNo_eq_some]
  unfold decodeTrigger
  dsimp only
  split
  case h_1 edge enable action interrupt edge' enable' action' interrupt' =>
    rw [edge', enable', action', interrupt']
    split
    case isTrue channel =>
      split
      case isTrue checks =>
        simp only [Bool.and_eq_true, beq_iff_eq] at checks
        obtain ⟨⟨top, top'⟩, value⟩ := checks
        cases r
        simp only [Option.some.injEq, TriggerRule.mk.injEq, Fin.ext_iff, top, top', and_true]
        constructor
        · rintro ⟨rfl, same, rfl, rfl, rfl, rfl, rfl⟩
          exact ⟨⟨same, rfl⟩, ⟨rfl, rfl, rfl⟩, value, rfl, rfl⟩
        · rintro ⟨⟨same, rfl⟩, ⟨rfl, rfl, rfl⟩, -, rfl, rfl⟩
          exact ⟨rfl, same, rfl, rfl, rfl, rfl, rfl⟩
      case isFalse fails =>
        simp only [reduceCtorEq, false_iff]
        rintro ⟨⟨-, -, top⟩, ⟨-, -, -, top'⟩, value, mask, word⟩
        rw [← mask, ← word] at value
        simp [top, top', value] at fails
    case isFalse outside =>
      simp only [reduceCtorEq, false_iff]
      rintro ⟨⟨channel, -⟩, -⟩
      exact outside (channel ▸ r.channel.isLt)
  case h_2 none =>
    simp only [reduceCtorEq, false_iff]
    rintro ⟨⟨-, edge, -⟩, ⟨enable, action, interrupt, -⟩, -⟩
    exact none _ _ _ _ edge enable action interrupt

theorem RuleEdge.code_lt (x : RuleEdge) : x.code < 3 := by cases x <;> decide
theorem RuleAction.code_lt (x : RuleAction) : x.code < 3 := by cases x <;> decide

theorem toNat_ruleBits (b : Byte) : b.toNat = bitField b 4 0 + 32 * bitField b 6 5 + 128 * bitField b 7 7 := by
  have := b.isLt
  simp only [bitField]
  omega

theorem toNat_pairs (b : Byte) :
    b.toNat = bitField b 1 0 + 4 * bitField b 3 2 + 16 * bitField b 5 4 + 64 * bitField b 7 6 := by
  have := b.isLt
  simp only [bitField]
  omega

theorem encodeTrigger_of_decode {b : EntryBytes} {r : TriggerRule} (h : decodeTrigger b = some r) :
    encodeTrigger r = b := by
  obtain ⟨⟨channel, edge, top⟩, ⟨enable, action, interrupt, top'⟩, -, mask, value⟩ := decodeTrigger_eq_some.mp h
  have first : BitVec.ofNat 8 (r.channel.val + 32 * r.edge.code) = b[0] := by
    refine ofNat_eq_byte ?_
    rw [toNat_ruleBits, channel, edge, top, Nat.mul_zero, Nat.add_zero]
  have second : BitVec.ofNat 8 (yesNoCode r.enable + 4 * r.action.code + 16 * yesNoCode r.interrupt) = b[1] := by
    refine ofNat_eq_byte ?_
    rw [toNat_pairs, enable, action, interrupt, top', Nat.mul_zero, Nat.add_zero]
  obtain ⟨m0, m1, m2⟩ := bytes_of_word24 mask
  obtain ⟨v0, v1, v2⟩ := bytes_of_word24 value
  exact entryBytes_congr first second m0 m1 m2 v0 v1 v2

theorem decode_encodeTrigger {r : TriggerRule} (h : r.value &&& ~~~r.mask = 0#24) :
    decodeTrigger (encodeTrigger r) = some r := by
  have inside := r.channel.isLt
  have edge := r.edge.code_lt
  have action := r.action.code_lt
  have enable := yesNoCode_lt r.enable
  have interrupt := yesNoCode_lt r.interrupt
  refine decodeTrigger_eq_some.mpr ⟨?_, ?_, h, word24_byteOf r.mask, word24_byteOf r.value⟩
  · simp only [encodeTrigger, bitField, BitVec.toNat_ofNat, Vector.getElem_mk, List.getElem_toArray,
      List.getElem_cons_zero]
    omega
  · simp only [encodeTrigger, bitField, BitVec.toNat_ofNat, Vector.getElem_mk, List.getElem_toArray,
      List.getElem_cons_zero, List.getElem_cons_succ]
    omega

/-! ### The time entry and the journal entry -/

theorem ppsEdgeCode_lt (x : PpsEdge) : ppsEdgeCode x < 2 := by cases x <;> decide

/-- What the time entry's bytes say, and the checks of R92. -/
theorem decodeTime_eq_some {b : EntryBytes} {x : TimeTable} : decodeTime b = some x ↔
    (bitField b[0] 3 0 = yesNoCode x.ppsEnable ∧ bitField b[0] 7 4 = ppsEdgeCode x.ppsEdge) ∧
      ((10 ≤ x.lockWindow.toNat ∧ x.lockWindow.toNat ≤ 50000) ∧ x.holdoverLimit ≠ 0#16 ∧ b[6] = 0#8 ∧ b[7] = 0#8) ∧
        word16 b[1] b[2] = x.lockWindow ∧ b[3] = x.trimBand ∧ word16 b[4] b[5] = x.holdoverLimit := by
  rw [← yesNo_eq_some, ← ppsEdgeOf_eq_some]
  unfold decodeTime
  dsimp only
  split
  case h_1 enable edge enable' edge' =>
    rw [enable', edge']
    split
    case isTrue checks =>
      simp only [Bool.and_eq_true, beq_iff_eq, bne_iff_ne, decide_eq_true_eq] at checks
      obtain ⟨⟨⟨⟨least, most⟩, limit⟩, six⟩, seven⟩ := checks
      cases x
      simp only [Option.some.injEq, TimeTable.mk.injEq, six, seven, and_true]
      constructor
      · rintro ⟨rfl, rfl, rfl, rfl, rfl⟩
        exact ⟨⟨rfl, rfl⟩, ⟨⟨least, most⟩, limit⟩, rfl, rfl, rfl⟩
      · rintro ⟨⟨rfl, rfl⟩, -, rfl, rfl, rfl⟩
        exact ⟨rfl, rfl, rfl, rfl, rfl⟩
    case isFalse fails =>
      simp only [reduceCtorEq, false_iff]
      rintro ⟨-, ⟨⟨least, most⟩, limit, six, seven⟩, window, -, hold⟩
      rw [← window] at least most
      rw [← hold] at limit
      simp [least, most, limit, six, seven] at fails
  case h_2 none =>
    simp only [reduceCtorEq, false_iff]
    rintro ⟨⟨enable, edge⟩, -⟩
    exact none _ _ enable edge

/-- Two time entries are one when their bytes, the trim count among them, are. -/
theorem encodeTime_of_decode {b a : EntryBytes} {x : TimeTable} {trims : Nat} (h : decodeTime b = some x)
    (same : a[0] = b[0] ∧ a[1] = b[1] ∧ a[2] = b[2] ∧ a[3] = b[3] ∧ a[4] = b[4] ∧ a[5] = b[5])
    (count : a[6] = byteOf (BitVec.ofNat 16 trims) 0 ∧ a[7] = byteOf (BitVec.ofNat 16 trims) 1) :
    encodeTime x trims = a := by
  obtain ⟨⟨enable, edge⟩, -, window, band, limit⟩ := decodeTime_eq_some.mp h
  have first : BitVec.ofNat 8 (yesNoCode x.ppsEnable + 16 * ppsEdgeCode x.ppsEdge) = b[0] := by
    refine ofNat_eq_byte ?_
    rw [toNat_nibbles, enable, edge]
  obtain ⟨w0, w1⟩ := bytes_of_word16 window
  obtain ⟨l0, l1⟩ := bytes_of_word16 limit
  obtain ⟨c0, c1, c2, c3, c4, c5⟩ := same
  exact entryBytes_congr (first.trans c0.symm) (w0.trans c1.symm) (w1.trans c2.symm) (band.symm.trans c3.symm)
    (l0.trans c4.symm) (l1.trans c5.symm) count.1.symm count.2.symm

theorem decode_encodeTime {x : TimeTable} (least : 10 ≤ x.lockWindow.toNat) (most : x.lockWindow.toNat ≤ 50000)
    (limit : x.holdoverLimit ≠ 0#16) : decodeTime (encodeTime x 0) = some x :=
  decodeTime_eq_some.mpr ⟨bitField_nibbles ((yesNoCode_lt _).trans (by decide)) ((ppsEdgeCode_lt _).trans (by decide)),
    ⟨⟨least, most⟩, limit, rfl, rfl⟩, word16_byteOf x.lockWindow, rfl, word16_byteOf x.holdoverLimit⟩

/-- What the journal entry's bytes say, and the checks of R39. -/
theorem decodeJournal_eq_some {b : EntryBytes} {j : JournalTable} : decodeJournal b = some j ↔
    b[0] = BitVec.ofNat 8 j.policy.code ∧
      ((1 ≤ j.syncInterval.toNat ∧ j.syncInterval.toNat ≤ 16) ∧ (1 ≤ j.resumeRoom.toNat ∧ j.resumeRoom.toNat ≤ 16) ∧
        j.p.toNat ≤ 15 ∧ (1 ≤ j.q.toNat ∧ j.q.toNat ≤ 4095) ∧ b[6] = 0#8 ∧ b[7] = 0#8) ∧
        b[1] = j.syncInterval ∧ b[2] = j.resumeRoom ∧ b[3] = j.p ∧ word16 b[4] b[5] = j.q := by
  rw [← policyOf_eq_some]
  unfold decodeJournal
  dsimp only
  split
  case h_1 policy policy' =>
    rw [policy']
    split
    case isTrue checks =>
      simp only [Bool.and_eq_true, beq_iff_eq, decide_eq_true_eq] at checks
      obtain ⟨⟨⟨⟨⟨⟨⟨⟨s1, s2⟩, r1⟩, r2⟩, p1⟩, q1⟩, q2⟩, six⟩, seven⟩ := checks
      cases j
      simp only [Option.some.injEq, JournalTable.mk.injEq, six, seven, and_true]
      constructor
      · rintro ⟨rfl, rfl, rfl, rfl, rfl⟩
        exact ⟨rfl, ⟨⟨s1, s2⟩, ⟨r1, r2⟩, p1, q1, q2⟩, rfl, rfl, rfl, rfl⟩
      · rintro ⟨rfl, -, rfl, rfl, rfl, rfl⟩
        exact ⟨rfl, rfl, rfl, rfl, rfl⟩
    case isFalse fails =>
      simp only [reduceCtorEq, false_iff]
      rintro ⟨-, ⟨⟨s1, s2⟩, ⟨r1, r2⟩, p1, ⟨q1, q2⟩, six, seven⟩, sync, room, before, quota⟩
      rw [← sync] at s1 s2
      rw [← room] at r1 r2
      rw [← before] at p1
      rw [← quota] at q1 q2
      simp [s1, s2, r1, r2, p1, q1, q2, six, seven] at fails
  case h_2 none =>
    simp only [reduceCtorEq, false_iff]
    rintro ⟨policy, -⟩
    rw [none] at policy
    cases policy

theorem encodeJournal_of_decode {b : EntryBytes} {j : JournalTable} (h : decodeJournal b = some j) :
    encodeJournal j = b := by
  obtain ⟨policy, ⟨-, -, -, -, six, seven⟩, sync, room, before, quota⟩ := decodeJournal_eq_some.mp h
  obtain ⟨q0, q1⟩ := bytes_of_word16 quota
  exact entryBytes_congr policy.symm sync.symm room.symm before.symm q0 q1 six.symm seven.symm

theorem decode_encodeJournal {j : JournalTable}
    (sync : 1 ≤ j.syncInterval.toNat ∧ j.syncInterval.toNat ≤ 16) (room : 1 ≤ j.resumeRoom.toNat ∧ j.resumeRoom.toNat ≤ 16)
    (before : j.p.toNat ≤ 15) (quota : 1 ≤ j.q.toNat ∧ j.q.toNat ≤ 4095) :
    decodeJournal (encodeJournal j) = some j :=
  decodeJournal_eq_some.mpr ⟨rfl, ⟨sync, room, before, quota, rfl, rfl⟩, rfl, rfl, rfl, word16_byteOf j.q⟩

/-! ### Count fields -/

/-- A count reads back from its field (R2). -/
theorem readCount_varintBytes (fuel n : Nat) (h : n < 128 ^ (fuel + 1)) :
    readCount (varintBytes (fuel + 1) n) = some n := by
  induction fuel generalizing n with
  | zero =>
    have small : n < 128 := by simpa using h
    rw [varintBytes, if_pos small, readCount, BitVec.toNat_ofNat, Nat.mod_eq_of_lt (by omega), if_pos small]
  | succ fuel ih =>
    rw [varintBytes]
    by_cases small : n < 128
    · rw [if_pos small, readCount, BitVec.toNat_ofNat, Nat.mod_eq_of_lt (by omega), if_pos small]
    · have rest : n / 128 < 128 ^ (fuel + 1) := Nat.div_lt_of_lt_mul (by rw [pow_succ'] at h; exact h)
      have first : (BitVec.ofNat 8 (n % 128 + 128)).toNat = n % 128 + 128 := by
        rw [BitVec.toNat_ofNat]
        omega
      rw [if_neg small, readCount, first, if_neg (by omega), ih _ rest, Option.map_some]
      congr 1
      omega

/-- Settles O47: each table's characterisation, and the count field byte by byte. -/
theorem encodingsRoundTrip : Obligations.EncodingsRoundTrip := by
  refine ⟨fun b d => encodeChannel_of_decode, fun b r => encodeTrigger_of_decode, fun b j => encodeJournal_of_decode,
    fun b x h => ?_, fun d => decode_encodeChannel, fun r => decode_encodeTrigger, fun x => decode_encodeTime,
    fun j s1 s2 r1 r2 p q1 q2 => decode_encodeJournal ⟨s1, s2⟩ ⟨r1, r2⟩ p ⟨q1, q2⟩, fun n most => ⟨?_, ?_⟩⟩
  · obtain ⟨-, ⟨-, -, six, seven⟩, -⟩ := decodeTime_eq_some.mp h
    exact encodeTime_of_decode h ⟨rfl, rfl, rfl, rfl, rfl, rfl⟩ ⟨six, seven⟩
  · exact readCount_varintBytes 4 n (lt_of_le_of_lt most (by decide))
  · simp only [varint, varintBytes]
    split_ifs <;> first | rfl | omega

/-! ### The CRC -/

/-- Without its top bit set a CRC register is shifted alone (R136). -/
theorem crcBit_toNat {x : BitVec 16} (small : x.toNat < 32768) : (crcBit x).toNat = 2 * x.toNat := by
  have clear : x.msb = false := by
    rw [BitVec.msb_eq_decide]
    exact decide_eq_false (by omega)
  rw [crcBit, clear, if_neg (by simp), BitVec.toNat_shiftLeft, Nat.shiftLeft_eq]
  omega

/-- A register of one byte is shifted up by a byte (R136). -/
theorem crcBits_toNat {x : BitVec 16} (small : x.toNat < 256) :
    (crcBit <| crcBit <| crcBit <| crcBit <| crcBit <| crcBit <| crcBit <| crcBit x).toNat = 256 * x.toNat := by
  have h1 := crcBit_toNat (x := x) (by omega)
  have h2 := crcBit_toNat (x := crcBit x) (by omega)
  have h3 := crcBit_toNat (x := crcBit (crcBit x)) (by omega)
  have h4 := crcBit_toNat (x := crcBit (crcBit (crcBit x))) (by omega)
  have h5 := crcBit_toNat (x := crcBit (crcBit (crcBit (crcBit x)))) (by omega)
  have h6 := crcBit_toNat (x := crcBit (crcBit (crcBit (crcBit (crcBit x))))) (by omega)
  have h7 := crcBit_toNat (x := crcBit (crcBit (crcBit (crcBit (crcBit (crcBit x)))))) (by omega)
  have h8 := crcBit_toNat (x := crcBit (crcBit (crcBit (crcBit (crcBit (crcBit (crcBit x))))))) (by omega)
  omega

/-- The register's own high byte leaves its low byte, moved up (R136). -/
theorem crcByte_high (crc : BitVec 16) : crcByte crc (crc.extractLsb' 8 8) = crc.extractLsb' 0 8 ++ 0#8 := by
  have cleared : crc ^^^ (crc.extractLsb' 8 8 ++ 0#8) = 0#8 ++ crc.extractLsb' 0 8 := by
    apply BitVec.eq_of_getLsbD_eq
    intro i inside
    simp only [BitVec.getLsbD_xor, BitVec.getLsbD_append, BitVec.getLsbD_extractLsb', BitVec.getLsbD_zero]
    rcases Nat.lt_or_ge i 8 with low | high
    · simp [low]
    · have same : 8 + (i - 8) = i := by omega
      simp [Nat.not_lt.mpr high, same]
      omega
  have small : (0#8 ++ crc.extractLsb' 0 8 : BitVec 16).toNat < 256 := by
    rw [toNat_append_byte]
    simpa using (crc.extractLsb' 0 8).isLt
  apply BitVec.eq_of_toNat_eq
  rw [crcByte, cleared, crcBits_toNat small, toNat_append_byte, toNat_append_byte]
  simp

/-- A byte against a register that holds it at the top clears the register (R136). -/
theorem crcByte_own (b : Byte) : crcByte (b ++ 0#8) b = 0#16 := by
  apply BitVec.eq_of_toNat_eq
  rw [crcByte, BitVec.xor_self, crcBits_toNat (by decide)]
  rfl

/-- The register over the nine digits, digit by digit (R136). -/
theorem crc16_digits :
    crc16 [0x31#8, 0x32#8, 0x33#8, 0x34#8, 0x35#8, 0x36#8, 0x37#8, 0x38#8, 0x39#8] = 0x29B1#16 := by
  have d1 : crcByte 0xFFFF#16 0x31#8 = 0xC782#16 := by decide
  have d2 : crcByte 0xC782#16 0x32#8 = 15802#16 := by decide
  have d3 : crcByte 15802#16 0x33#8 = 23502#16 := by decide
  have d4 : crcByte 23502#16 0x34#8 = 21321#16 := by decide
  have d5 : crcByte 21321#16 0x35#8 = 17760#16 := by decide
  have d6 : crcByte 17760#16 0x36#8 = 12020#16 := by decide
  have d7 : crcByte 12020#16 0x37#8 = 30488#16 := by decide
  have d8 : crcByte 30488#16 0x38#8 = 41259#16 := by decide
  have d9 : crcByte 41259#16 0x39#8 = 0x29B1#16 := by decide
  simp only [crc16, crcOver, List.foldl_cons, List.foldl_nil, d1, d2, d3, d4, d5, d6, d7, d8, d9]

/-- Settles O48: the two bytes of the register clear it, the high one first. -/
theorem crcAbsorbsItsOwnValue : Obligations.CrcAbsorbsItsOwnValue := by
  refine ⟨fun bytes => ?_, crc16_digits⟩
  have split : crc16 (bytes ++ [(crc16 bytes).extractLsb' 8 8, (crc16 bytes).extractLsb' 0 8]) =
      crcByte (crcByte (crc16 bytes) ((crc16 bytes).extractLsb' 8 8)) ((crc16 bytes).extractLsb' 0 8) :=
    List.foldl_append
  rw [split, crcByte_high, crcByte_own]

end Sys2Proof.Machine
end

section
/-! WRITE ENTRY and READ ENTRY: the selection, the checks in their order, the reading back, and what a written entry does. -/

namespace Sys2Proof.Machine

variable {s t : State}

/-! ### The selected entry -/

theorem slotOf_channel {table index : Byte} {ch : Channel} (id : table.toNat = 1) (place : index.toNat = ch.val) :
    slotOf table index = some (.channel ch) := by
  have inside : index.toNat < 24 := place ▸ ch.isLt
  unfold slotOf
  rw [id]
  refine (dif_pos inside).trans ?_
  congr 2
  exact Fin.ext place

theorem slotOf_trigger {table index : Byte} {i : Fin 8} (id : table.toNat = 2) (place : index.toNat = i.val) :
    slotOf table index = some (.trigger i) := by
  have inside : index.toNat < 8 := place ▸ i.isLt
  unfold slotOf
  rw [id]
  refine (dif_pos inside).trans ?_
  congr 2
  exact Fin.ext place

theorem slotOf_time {table index : Byte} (id : table.toNat = 3) (place : index.toNat = 0) :
    slotOf table index = some .time := by
  unfold slotOf
  rw [id]
  exact if_pos place

theorem slotOf_journal {table index : Byte} (id : table.toNat = 4) (place : index.toNat = 0) :
    slotOf table index = some .journal := by
  unfold slotOf
  rw [id]
  exact if_pos place

/-- An id other than 1 to 4, or an index out of range (R164). -/
theorem slotOf_none {table index : Byte}
    (unnamed : ¬((table.toNat = 1 ∧ index.toNat < 24) ∨ (table.toNat = 2 ∧ index.toNat < 8) ∨
      (table.toNat = 3 ∧ index.toNat = 0) ∨ (table.toNat = 4 ∧ index.toNat = 0))) : slotOf table index = none := by
  unfold slotOf
  split
  · exact dif_neg (by omega)
  · exact dif_neg (by omega)
  · exact if_neg (by omega)
  · exact if_neg (by omega)
  · rfl

/-- What an id selects, with the index in range. -/
theorem slot_of_found {table index : Byte}
    (found : (table.toNat = 1 ∧ index.toNat < 24) ∨ (table.toNat = 2 ∧ index.toNat < 8) ∨
      (table.toNat = 3 ∧ index.toNat = 0) ∨ (table.toNat = 4 ∧ index.toNat = 0)) :
    (table.toNat = 1 ∧ ∃ ch, slotOf table index = some (.channel ch)) ∨
      (table.toNat = 2 ∧ ∃ i, slotOf table index = some (.trigger i)) ∨
      (table.toNat = 3 ∧ slotOf table index = some .time) ∨ (table.toNat = 4 ∧ slotOf table index = some .journal) := by
  rcases found with ⟨id, inside⟩ | ⟨id, inside⟩ | ⟨id, place⟩ | ⟨id, place⟩
  · exact .inl ⟨id, ⟨index.toNat, inside⟩, slotOf_channel id rfl⟩
  · exact .inr (.inl ⟨id, ⟨index.toNat, inside⟩, slotOf_trigger id rfl⟩)
  · exact .inr (.inr (.inl ⟨id, slotOf_time id place⟩))
  · exact .inr (.inr (.inr ⟨id, slotOf_journal id place⟩))

/-! ### The two commands -/

theorem commandReadEntry_read {slot : TableSlot} (named : slotOf s.hw.tabsel s.hw.tabidx = some slot) :
    commandReadEntry s = completedWith .ok { s with hw := { s.hw with entry := encodeSlot slot s } } := by
  rw [commandReadEntry, named]
  rfl

theorem commandReadEntry_unnamed (unnamed : slotOf s.hw.tabsel s.hw.tabidx = none) :
    commandReadEntry s = completedWith .badarg s := by
  rw [commandReadEntry, unnamed]
  rfl

theorem commandWriteEntry_unnamed (unnamed : slotOf s.hw.tabsel s.hw.tabidx = none) :
    commandWriteEntry s = completedWith .badarg s := by
  rw [commandWriteEntry, unnamed]
  rfl

theorem commandWriteEntry_locked {slot : TableSlot} (named : slotOf s.hw.tabsel s.hw.tabidx = some slot)
    (locked : tableLocked slot s = true) : commandWriteEntry s = completedWith .locked s := by
  rw [commandWriteEntry, named]
  exact if_pos locked

theorem commandWriteEntry_failing {slot : TableSlot} (named : slotOf s.hw.tabsel s.hw.tabidx = some slot)
    (unlocked : tableLocked slot s = false) (fails : decodeEntry slot s.hw.entry = none) :
    commandWriteEntry s = completedWith .badarg s := by
  rw [commandWriteEntry, named]
  dsimp only
  rw [unlocked, if_neg (by simp), fails]
  rfl

/-! ### Reading back -/

theorem writeTimeTable_unlocked (x : TimeTable) (unlocked : s.oq.state ≠ .loading) :
    (writeTimeTable x s).oq.state ≠ .loading := by
  by_cases running : s.oq.state = .running
  · have kept := (writeTimeTable_timeKept x s).run
    intro loading
    simp [runOpen, running, loading] at kept
  · rw [(writeTimeTable_timeOnly running x).oq]
    exact unlocked

/-- A written entry leaves the host window, and LOADING does not begin (R164). -/
theorem applyEntry_hw (e : TableEntry) (s : State) : (applyEntry e s).hw = s.hw := by
  cases e
  case time x => exact (writeTimeTable_timeKept x s).hw
  all_goals rfl

theorem applyEntry_unlocked (e : TableEntry) (unlocked : s.oq.state ≠ .loading) : (applyEntry e s).oq.state ≠ .loading := by
  cases e
  case time x => exact writeTimeTable_unlocked x unlocked
  all_goals exact unlocked

/-- The bytes that read back from an entry written from the given ones: the trim count in the time entry's last two, the
bytes as written elsewhere (R165). -/
def ReadsBack (slot : TableSlot) (written read : EntryBytes) (trims : Nat) : Prop :=
  (slot = .time → ∀ i : Fin 8, 6 ≤ i.val → read[i] = (BitVec.ofNat 16 trims).extractLsb' (8 * (i.val - 6)) 8) ∧
    ∀ i : Fin 8, (slot ≠ .time ∨ i.val < 6) → read[i] = written[i]

theorem readsBack_same {slot : TableSlot} {b read : EntryBytes} {trims : Nat} (other : slot ≠ .time) (same : read = b) :
    ReadsBack slot b read trims := ⟨fun h => absurd h other, fun i _ => by rw [same]⟩

theorem readsBack_time {b : EntryBytes} {x : TimeTable} {trims : Nat} (decoded : decodeTime b = some x) :
    ReadsBack .time b (encodeTime x trims) trims := by
  have read : encodeTime x trims = #v[b[0], b[1], b[2], b[3], b[4], b[5], byteOf (BitVec.ofNat 16 trims) 0,
      byteOf (BitVec.ofNat 16 trims) 1] := encodeTime_of_decode decoded ⟨rfl, rfl, rfl, rfl, rfl, rfl⟩ ⟨rfl, rfl⟩
  rw [read]
  refine ⟨fun _ i last => ?_, fun i first => ?_⟩
  · match i, last with
    | 6, _ => rfl
    | 7, _ => rfl
  · have low : i.val < 6 := first.resolve_left (fun h => h rfl)
    match i, low with
    | 0, _ => rfl
    | 1, _ => rfl
    | 2, _ => rfl
    | 3, _ => rfl
    | 4, _ => rfl
    | 5, _ => rfl

/-- An entry written reads back (R164, R165). -/
theorem encodeSlot_applied {slot : TableSlot} {b : EntryBytes} {e : TableEntry} (decoded : decodeEntry slot b = some e)
    (s : State) : ReadsBack slot b (encodeSlot slot (applyEntry e s)) s.tb.trims := by
  cases slot with
  | channel i =>
    obtain ⟨x, fields, rfl⟩ := Option.map_eq_some_iff.mp decoded
    refine readsBack_same (by simp) ?_
    have get : (applyEntry (.channel i x) s).icu[i] = setupChannel x s.icu[i] := setChannel_get i _ s
    rw [encodeSlot, get]
    exact encodeChannel_of_decode fields
  | trigger i =>
    obtain ⟨x, fields, rfl⟩ := Option.map_eq_some_iff.mp decoded
    refine readsBack_same (by simp) ?_
    have get : (applyEntry (.trigger i x) s).tu.rules[i] = x := Vector.getElem_set_self ..
    rw [encodeSlot, get]
    exact encodeTrigger_of_decode fields
  | time =>
    obtain ⟨x, fields, rfl⟩ := Option.map_eq_some_iff.mp decoded
    obtain ⟨-, trims, table⟩ := writeTimeTable_kept x s
    rw [encodeSlot, applyEntry, table, trims]
    exact readsBack_time fields
  | journal =>
    obtain ⟨x, fields, rfl⟩ := Option.map_eq_some_iff.mp decoded
    exact readsBack_same (by simp) (encodeJournal_of_decode fields)

/-- A passing entry is written, and READ ENTRY then returns it (R164, R165). -/
theorem writeEntry_readEntry {slot : TableSlot} {e : TableEntry} (free : s.hw.inProgress = none)
    (unlocked : s.oq.state ≠ .loading) (named : slotOf s.hw.tabsel s.hw.tabidx = some slot)
    (open_ : tableLocked slot s = false) (decoded : decodeEntry slot s.hw.entry = some e) :
    ∃ t, exec .writeEntry s = .next t ∧ t.hw = { s.hw with result := .ok, inProgress := none } ∧
      t.ifu.irqf.getLsbD 7 = true ∧ ∃ u, exec .readEntry t = .next u ∧ u.hw.result = .ok ∧
        ReadsBack slot s.hw.entry u.hw.entry s.tb.trims := by
  have hw := applyEntry_hw e s
  have still := applyEntry_unlocked e unlocked
  have read := encodeSlot_applied decoded s
  have run : exec .writeEntry s = .next (complete .ok (applyEntry e s)) :=
    next_request free unlocked (commandWriteEntry_written named open_ decoded)
  generalize applyEntry e s = v at *
  have window : (complete .ok v).hw = { s.hw with result := .ok, inProgress := none } := by rw [← hw]; rfl
  have same : encodeSlot slot (complete .ok v) = encodeSlot slot v := by cases slot <;> rfl
  have again : exec .readEntry (complete .ok v) = .next (completedWith .ok { complete .ok v with
      hw := { (complete .ok v).hw with entry := encodeSlot slot (complete .ok v) } }) :=
    next_request (s := complete .ok v) rfl still (commandReadEntry_read (by rw [window]; exact named))
  rw [← same] at read
  exact ⟨_, run, window, complete_flag .ok v, _, again, rfl, read⟩

/-- Settles O45: the selection first, then the lock, then the fields. -/
theorem writtenEntriesReadBack : Obligations.WrittenEntriesReadBack := by
  intro s free unlocked id idx found
  refine ⟨fun none => ⟨next_request free unlocked (commandWriteEntry_unnamed (slotOf_none none)),
    next_request free unlocked (commandReadEntry_unnamed (slotOf_none none))⟩, ?_, fun named kind started => ?_,
    fun named kind => ?_⟩
  · intro returns
    exact ⟨fun ch table index => next_request free unlocked (commandReadEntry_read (slotOf_channel table index)),
      fun i table index => next_request free unlocked (commandReadEntry_read (slotOf_trigger table index)),
      fun table index => next_request free unlocked (commandReadEntry_read (slotOf_time table index)),
      fun table index => next_request free unlocked (commandReadEntry_read (slotOf_journal table index))⟩
  · have locked (slot : TableSlot) (h : slotOf s.hw.tabsel s.hw.tabidx = some slot) (own : tableLocked slot s = true) :
        exec .writeEntry s = .next (completedWith .locked s) := next_request free unlocked (commandWriteEntry_locked h own)
    rcases slot_of_found named with ⟨-, ch, slot⟩ | ⟨two, -⟩ | ⟨three, -⟩ | ⟨-, slot⟩
    · exact locked _ slot (by simp [tableLocked, started])
    · exact absurd kind (by show ¬(s.hw.tabsel.toNat = 1 ∨ s.hw.tabsel.toNat = 4); omega)
    · exact absurd kind (by show ¬(s.hw.tabsel.toNat = 1 ∨ s.hw.tabsel.toNat = 4); omega)
    · exact locked _ slot (by simp [tableLocked, started])
  · intro passes
    have each (slot : TableSlot) (h : slotOf s.hw.tabsel s.hw.tabidx = some slot) (own : tableLocked slot s = false)
        (time : id = 3 ↔ slot = .time) (agrees : passes ↔ (decodeEntry slot s.hw.entry).isSome) :
        (¬passes → exec .writeEntry s = .next (completedWith .badarg s)) ∧
        (passes → ∃ t, exec .writeEntry s = .next t ∧ t.hw = { s.hw with result := .ok, inProgress := none } ∧
          t.ifu.irqf.getLsbD 7 = true ∧ ∃ u, exec .readEntry t = .next u ∧ u.hw.result = .ok ∧
          (∀ i : Fin 8, id = 3 → 6 ≤ i.val →
            u.hw.entry[i] = (BitVec.ofNat 16 s.tb.trims).extractLsb' (8 * (i.val - 6)) 8) ∧
          (∀ i : Fin 8, (id ≠ 3 ∨ i.val < 6) → u.hw.entry[i] = s.hw.entry[i])) := by
      rw [agrees]
      refine ⟨fun fails => ?_, fun decodes => ?_⟩
      · exact next_request free unlocked (commandWriteEntry_failing h own (by simpa using fails))
      · obtain ⟨e, decoded⟩ := Option.isSome_iff_exists.mp decodes
        obtain ⟨t, run, window, flag, u, again, ok, last, first⟩ := writeEntry_readEntry free unlocked h own decoded
        refine ⟨t, run, window, flag, u, again, ok, fun i three => last (time.mp three) i, fun i outside => first i ?_⟩
        exact outside.imp_left fun h => mt time.mpr h
    have ids : passes ↔ (s.hw.tabsel.toNat = 1 ∧ (decodeChannel s.hw.entry).isSome) ∨
        (s.hw.tabsel.toNat = 2 ∧ (decodeTrigger s.hw.entry).isSome) ∨
        (s.hw.tabsel.toNat = 3 ∧ (decodeTime s.hw.entry).isSome) ∨
        (s.hw.tabsel.toNat = 4 ∧ (decodeJournal s.hw.entry).isSome) := Iff.rfl
    have three : id = s.hw.tabsel.toNat := rfl
    have stopped (other : ¬(s.hw.tabsel.toNat = 2 ∨ s.hw.tabsel.toNat = 3)) : s.oq.state = .stopped := by
      rcases kind with two | three | stopped
      · exact absurd (.inl two) other
      · exact absurd (.inr three) other
      · exact stopped
    rcases slot_of_found named with ⟨h, ch, slot⟩ | ⟨h, i, slot⟩ | ⟨h, slot⟩ | ⟨h, slot⟩
    · exact each _ slot (by simp [tableLocked, stopped (by omega)]) (by simp [three, h]) (by simp [ids, h, decodeEntry])
    · exact each _ slot rfl (by simp [three, h]) (by simp [ids, h, decodeEntry])
    · exact each _ slot rfl (by simp [three, h]) (by simp [ids, h, decodeEntry])
    · exact each _ slot (by simp [tableLocked, stopped (by omega)]) (by simp [three, h]) (by simp [ids, h, decodeEntry])

/-- A passing entry is written, no other command in progress (R164). -/
theorem exec_writeEntry_written {slot : TableSlot} {e : TableEntry} (free : s.hw.inProgress = none)
    (unlocked : s.oq.state ≠ .loading) (named : slotOf s.hw.tabsel s.hw.tabidx = some slot)
    (open_ : tableLocked slot s = false) (decoded : decodeEntry slot s.hw.entry = some e) :
    exec .writeEntry s = .next (completedWith .ok (applyEntry e s)) :=
  next_request free unlocked (commandWriteEntry_written named open_ decoded)

/-- A time table that does not disable PPS in LOCKED: W, then the holdover limit (R93, log entry 24). -/
theorem writeTimeTable_enabled {x : TimeTable}
    (keeps : s.tb.quality ≠ .locked ∨ s.tb.table.ppsEnable = false ∨ x.ppsEnable = true) :
    let u := s.onTb fun t => { t with table := x }
    let v := if s.tb.table.lockWindow != x.lockWindow && timeoutDue u then takeTimeout u else u
    writeTimeTable x s = if s.tb.table.holdoverLimit != x.holdoverLimit && holdoverDue v then takeHoldoverExpiry v else v := by
  have none : (s.tb.table.ppsEnable && !x.ppsEnable && (s.onTb fun t => { t with table := x }).tb.quality == .locked) = false := by
    rcases keeps with quality | old | new
    · simp [quality]
    · simp [old]
    · simp [new]
  unfold writeTimeTable
  dsimp only
  rw [none]
  rfl

/-- Settles O46: each table's own effect. -/
theorem writtenEntryTakesEffect : Obligations.WrittenEntryTakesEffect := by
  intro s free unlocked b
  refine ⟨?_, fun r i table place decoded => ?_, fun j stopped table place decoded => ?_,
    fun x table place decoded => ⟨?_, ?_⟩⟩
  · intro d ch stopped table place decoded c
    have run := exec_writeEntry_written (e := .channel ch d) free unlocked
      (slotOf_channel (by rw [table]; rfl) place) (by simp [tableLocked, stopped]) (by simp [decodeEntry, decoded])
    have set : setupChannel d s.icu[ch] = c := by
      unfold setupChannel
      cases enable : d.enable <;> simp [c, enable]
    rw [run, applyEntry, set]
    rfl
  · exact exec_writeEntry_written (e := .trigger i r) free unlocked (slotOf_trigger (by rw [table]; rfl) place) rfl
      (by simp [decodeEntry, decoded])
  · exact exec_writeEntry_written (e := .journal j) free unlocked
      (slotOf_journal (by rw [table]; rfl) (by rw [place]; rfl)) (by simp [tableLocked, stopped])
      (by simp [decodeEntry, decoded])
  · intro keeps u
    have run := exec_writeEntry_time free unlocked table place decoded
    have written := writeTimeTable_enabled (x := x) keeps
    dsimp only at written
    refine ⟨if s.tb.table.lockWindow != x.lockWindow && timeoutDue u then takeTimeout u else u, ?_, writeTimeTable x s, ?_, run⟩
    · split
      · rename_i same
        rw [if_neg]
        simp [show s.tb.table.lockWindow = x.lockWindow from same.symm]
      · rename_i other
        have changed : (s.tb.table.lockWindow != x.lockWindow) = true := by simpa using fun h => other h.symm
        rw [changed, Bool.true_and]
        rfl
    · rw [written]
      split
      · rename_i same
        rw [if_neg]
        · rfl
        · simp [show s.tb.table.holdoverLimit = x.holdoverLimit from same.symm]
      · rename_i other
        have changed : (s.tb.table.holdoverLimit != x.holdoverLimit) = true := by simpa using fun h => other h.symm
        rw [changed, Bool.true_and]
        rfl
  · intro window limit locked enabled disabled alive
    have run := DisablesPps.writes ⟨free, unlocked, table, place, decoded, window, limit, locked, enabled, disabled, alive⟩
    have flag := enterHoldover_flag (s.onTb fun t => { t with table := x })
    have held := enterHoldover_tb (s.onTb fun t => { t with table := x })
    generalize enterHoldover (s.onTb fun t => { t with table := x }) = v at *
    refine ⟨_, run, getLsbD_of_sticky (sticky_or _ flagCmd) flag, ?_⟩
    refine held.trans ?_
    unfold heldOver
    split
    · rename_i expired
      exact absurd expired alive
    · rfl

end Sys2Proof.Machine
end

section
/-! The host window: what a read of each register returns, the reads with an effect, the register writes, and the strobes
of the bus. -/

namespace Sys2Proof.Machine

variable {s t : State}

/-! ### The status bytes -/

/-- CAPST's fields stand at their bits (R153, R198). -/
theorem capstFields (c : CaptureState) (h : HoldState) (busy losing attached filled : Bool) :
    let v := BitVec.ofNat 8 c.code ||| bitAt 2 busy ||| bitAt 3 losing ||| BitVec.ofNat 8 (16 * h.code) |||
      bitAt 6 attached ||| bitAt 7 filled
    v.toNat % 4 = c.code ∧ v.getLsbD 2 = busy ∧ v.getLsbD 3 = losing ∧ v.toNat / 16 % 4 = h.code ∧
      v.getLsbD 6 = attached ∧ v.getLsbD 7 = filled := by
  cases c <;> cases h <;> revert busy losing attached filled <;> decide

/-- TIMEST's fields stand at their bits while fewer than three rejects are counted (R153, R198). -/
theorem timestFields (q : Quality) (enabled : Bool) {rejects : Nat} (few : rejects ≤ 2) :
    let v := BitVec.ofNat 8 q.code ||| bitAt 2 enabled ||| BitVec.ofNat 8 (8 * rejects)
    v.toNat % 4 = q.code ∧ v.getLsbD 2 = enabled ∧ v.toNat / 8 = rejects := by
  interval_cases rejects <;> cases q <;> revert enabled <;> decide

/-- CMDFLAG's three bits, and no other (R153, R198). -/
theorem cmdflagFields : ∀ collision readEmpty skip : Bool,
    let v := bitAt 0 collision ||| bitAt 1 readEmpty ||| bitAt 2 skip
    v.getLsbD 0 = collision ∧ v.getLsbD 1 = readEmpty ∧ v.getLsbD 2 = skip ∧ v.toNat < 8 := by decide

theorem isLosing_eq (s : State) : isLosing s = decide (s.js.fill = .losing) := by
  unfold isLosing
  cases s.js.fill <;> rfl

theorem hostUnread_pos : 0 < hostUnread s ↔ s.js.hostC.attached = true ∧ s.js.hostC.read ≠ s.js.head := by
  unfold hostUnread unreadOf
  by_cases here : s.js.hostC.attached = true
  · have zero : (s.js.head - s.js.hostC.read).toNat = 0 ↔ s.js.hostC.read = s.js.head := by
      rw [← BitVec.toNat_inj]
      have := s.js.head.isLt
      have := s.js.hostC.read.isLt
      rw [BitVec.toNat_sub]
      omega
    simp only [here, if_true, true_and]
    rw [ne_eq, ← zero]
    omega
  · simp [here]

theorem jdataByte_served (here : s.js.hostC.attached = true) (more : s.js.hostC.read ≠ s.js.head) :
    jdataByte s = some (s.js.ram.read (s.js.hostC.read.toNat % 16384)) := if_pos ⟨here, more⟩

theorem jdataByte_none (h : ¬ (s.js.hostC.attached = true ∧ s.js.hostC.read ≠ s.js.head)) : jdataByte s = none :=
  if_neg h

/-- Settles O52: each register by its arm of the read, the status bytes by their fields. -/
theorem statusRegistersShowTheirOwners : Obligations.StatusRegistersShowTheirOwners := by
  unfold Obligations.StatusRegistersShowTheirOwners
  intro s few
  refine ⟨?capst, timestFields _ _ few, cmdflagFields _ _ _, rfl, rfl, ?result, rfl, rfl, ?entry, rfl, rfl, ?avth, ?jdata,
    rfl, rfl, rfl, rfl, rfl, rfl, ?latches⟩
  case capst =>
    have fields := capstFields s.oq.state s.tu.hold (busy s) (isLosing s) s.js.hostC.attached (decide (0 < hostUnread s))
    rw [isLosing_eq] at fields
    exact fields
  case result =>
    show s.hw.result.code.toNat = _
    cases s.hw.result <;> rfl
  case entry =>
    intro i
    have staged : readRegister (8 + i.val) s = s.hw.entry.toList.getD i 0#8 := match i with
      | 0 | 1 | 2 | 3 | 4 | 5 | 6 | 7 => rfl
    rw [staged]
    simp
  case avth =>
    show 256 * (byteOf s.hw.avth 1).toNat + (byteOf s.hw.avth 0).toNat = _
    simp only [byteOf, BitVec.extractLsb'_toNat, Nat.shiftRight_eq_div_pow]
    omega
  case jdata =>
    show (jdataByte s).getD 0#8 = _
    change _ = if 0 < hostUnread s then _ else _
    by_cases more : s.js.hostC.attached = true ∧ s.js.hostC.read ≠ s.js.head
    · rw [jdataByte_served more.1 more.2, if_pos (hostUnread_pos.mpr more)]
      rfl
    · rw [jdataByte_none more, if_neg (fun h => more (hostUnread_pos.mp h))]
      rfl
  case latches =>
    refine ⟨rfl, ?_, ?_, ?_, ?_, ?_⟩
    · exact fun | 0 | 1 | 2 => ⟨rfl, rfl, rfl⟩
    · exact fun | 0 | 1 | 2 | 3 => rfl
    · exact fun | 0 | 1 | 2 | 3 | 4 | 5 => rfl
    · exact fun | 0 | 1 | 2 | 3 | 4 | 5 | 6 | 7 => rfl
    · exact fun | 0 | 1 => rfl

/-! ### Reads with an effect -/

theorem timeWord_eq (t : Time) :
    timeWord t = BitVec.ofNat 56 (t.val % 1000000 * 2 ^ 32 + t.val / 1000000) := by
  apply BitVec.eq_of_toNat_eq
  have micros : t.val % 1000000 < 1000000 := Nat.mod_lt _ (by decide)
  have seconds : t.val / 1000000 < 2 ^ 32 := by have := t.isLt; omega
  simp only [timeWord, microsOf, secondsOf, BitVec.toNat_append, BitVec.toNat_ofNat]
  rw [← Nat.shiftLeft_add_eq_or_of_lt (Nat.mod_lt _ (by decide)), Nat.shiftLeft_eq]
  generalize t.val % 1000000 = m at *
  generalize t.val / 1000000 = q at *
  rw [Nat.mod_eq_of_lt seconds]
  omega

theorem faultWord_eq (t : Time) (detail code : Byte) :
    timeWord t ++ detail ++ code =
      BitVec.ofNat 72 (((t.val % 1000000 * 2 ^ 32 + t.val / 1000000) * 2 ^ 8 + detail.toNat) * 2 ^ 8 + code.toNat) := by
  apply BitVec.eq_of_toNat_eq
  have bound := t.isLt
  rw [toNat_append_byte, toNat_append_byte, timeWord_eq]
  simp only [BitVec.toNat_ofNat]
  omega

theorem latchGroup_live (s : State) (ch : Channel) : (latchGroup .live s).live.getLsbD ch = s.icu[ch].accepted :=
  getLsbD_imageOf _ ch

/-- A group's first byte is read from the group's fresh latch (R150). -/
theorem readRegister_group (g : Group) (s : State) :
    readRegister (groupAddress g) s = latchByte (latchGroup g s) (groupAddress g) := by
  cases g <;> rfl

theorem latchGroup_flthead (s : State) :
    (latchGroup .flthead s).flthead = match s.ifu.faults with
      | [] => 0#72
      | f :: _ => BitVec.ofNat 72 (((f.time.val % 1000000 * 2 ^ 32 + f.time.val / 1000000) * 2 ^ 8 +
          f.detail.toNat) * 2 ^ 8 + f.kind.code.toNat) := by
  show faultHead s.ifu = _
  unfold faultHead
  cases s.ifu.faults with
  | nil => rfl
  | cons f fs => exact faultWord_eq f.time f.detail f.kind.code

/-- The bus lines and the byte on D7–D0 are no part of what a register reads as. -/
theorem readRegister_lines (a : Nat) (d : Option Byte) (b : HostBus) (s : State) :
    readRegister a (withBus (withData s d) b) = readRegister a s := rfl

/-- A read access does what the row of its address does (R148, R198). -/
theorem readAccess_row {a : BitVec 6} {i : Instr} (row : rowOfRead a = some i) (s : State) :
    exec i s = .next (readAccess a.toNat s) := by
  unfold rowOfRead at row
  split at row
  case h_10 => cases row
  all_goals
    cases row
    rename_i place
    rw [place]
    rfl

theorem groupAt_eq_some {a : Nat} {g : Group} (h : groupAt a = some g) : a = groupAddress g := by
  unfold groupAt at h
  split at h
  case h_8 => cases h
  all_goals
    cases h
    rfl

/-- A read of any other address only drives its register's value (R148). -/
theorem readAccess_plain {a : BitVec 6} (row : rowOfRead a = none) (s : State) :
    readAccess a.toNat s = drive (readRegister a.toNat s) s := by
  unfold rowOfRead at row
  split at row
  case h_10 jdata javail hskip hposr timenow flthead live jhead holds =>
    have plain : groupAt a.toNat = none := by
      unfold groupAt
      split <;> first | rfl | contradiction
    unfold readAccess
    split
    · contradiction
    · contradiction
    · rw [plain]
  all_goals cases row

theorem readJdata_drives (s : State) : (readJdata s).hw.dataOut = some ((jdataByte s).getD 0#8) := by
  unfold readJdata
  cases jdataByte s <;> rfl

/-- The window with a byte driven on D7–D0. -/
def drivenOn (b : Byte) (w : HostWindow) : HostWindow := { w with dataOut := some b }

/-- HOST's read mark one byte on. -/
def hostMoved (s : State) : State := s.onJs fun j => { j with hostC := { j.hostC with read := j.hostC.read + 1#32 } }

theorem readJdata_served (here : s.js.hostC.attached = true) (more : s.js.hostC.read ≠ s.js.head) :
    readJdata s = drive (s.js.ram.read (s.js.hostC.read.toNat % 16384)) (evalAvl (hostMoved s)) := by
  unfold readJdata
  rw [jdataByte_served here more]
  rfl

/-- Every read access drives its register's value (R148). -/
theorem readAccess_drives (a : Nat) (s : State) : (readAccess a s).hw.dataOut = some (readRegister a s) := by
  unfold readAccess
  split
  case h_1 => exact readJdata_drives s
  case h_2 => rfl
  case h_3 =>
    split
    case h_1 g at_ => rw [groupAt_eq_some at_]; rfl
    case h_2 => rfl

theorem rdFalls_eq {a : BitVec 6} (up : s.hw.bus.rd = true) :
    busEdge (.rdFalls a) s =
      (let lines := withBus (withData s none)
        { s.hw.bus with rd := false, spoiled := s.hw.bus.spoiled || (!s.hw.bus.cs && !s.hw.bus.wr) }
      if !s.hw.bus.cs && s.hw.bus.wr then readAccess a.toNat lines else lines) := by
  unfold busEdge
  dsimp only
  rw [if_pos up]
  rfl

theorem rdFalls_taken {a : BitVec 6} (up : s.hw.bus.rd = true) (cs : s.hw.bus.cs = false) (wr : s.hw.bus.wr = true) :
    busEdge (.rdFalls a) s = readAccess a.toNat (withBus (withData s none) { s.hw.bus with rd := false }) := by
  rw [rdFalls_eq up]
  simp [cs, wr]

theorem rdFalls_unselected {a : BitVec 6} (up : s.hw.bus.rd = true) (cs : s.hw.bus.cs = true) :
    busEdge (.rdFalls a) s = withBus (withData s none) { s.hw.bus with rd := false } := by
  rw [rdFalls_eq up]
  simp [cs]

theorem rdFalls_writing {a : BitVec 6} (up : s.hw.bus.rd = true) (cs : s.hw.bus.cs = false) (wr : s.hw.bus.wr = false) :
    busEdge (.rdFalls a) s = withBus (withData s none) { s.hw.bus with rd := false, spoiled := true } := by
  rw [rdFalls_eq up]
  simp [cs, wr]

/-- Settles O49: each read by its own definition, and a taken strobe by the row of its address. -/
theorem readsWithAnEffect : Obligations.ReadsWithAnEffect := by
  unfold Obligations.ReadsWithAnEffect
  intro s c
  refine ⟨?served, ?empty, ?skips, ?groups, ?rises, ?falls⟩
  case served =>
    intro here more
    refine ⟨_, congrArg Host.Outcome.next (readJdata_served here more), ?_⟩
    have frame := evalAvl_frame (hostMoved s)
    exact ⟨evalAvl_js _, evalAvl_current _, congrArg (drivenOn _) frame.hw, frame.faults, frame.oq, evalAvl_xl _, frame.tu, evalAvl_je _, frame.tb⟩
  case empty =>
    intro done
    have none : jdataByte s = Option.none := jdataByte_none (by
      rintro ⟨here, more⟩
      rcases done with gone | read
      · rw [gone] at here; cases here
      · exact more read)
    show Host.Outcome.next (readJdata s) = _
    unfold readJdata
    rw [none]
    rfl
  case skips => rfl
  case groups =>
    intro g
    refine ⟨latchGroup g s, ?_, ?_⟩
    · show Host.Outcome.next (readGroup g s) = _
      unfold readGroup
      rw [readRegister_group]
      rfl
    · cases g
      case timenow => exact ⟨rfl, rfl, rfl, timeWord_eq _, rfl, nofun, fun _ => rfl, rfl, rfl⟩
      case flthead => exact ⟨rfl, rfl, rfl, rfl, latchGroup_flthead s, nofun, fun _ => rfl, rfl, rfl⟩
      case live => exact ⟨rfl, rfl, rfl, rfl, rfl, fun _ => latchGroup_live s, fun other => absurd rfl other, rfl, rfl⟩
      all_goals exact ⟨rfl, rfl, rfl, rfl, rfl, nofun, fun _ => rfl, rfl, rfl⟩
  case rises =>
    intro low
    have low : s.hw.bus.rd = false := low
    unfold busEdge
    simp only [low]
    rfl
  case falls =>
    intro a up
    refine ⟨fun cs wr => ⟨?_, ?_, ?_⟩, ?_, ?_⟩
    · intro i row
      rw [rdFalls_taken up cs wr]
      exact readAccess_row row _
    · intro row
      rw [rdFalls_taken up cs wr, readAccess_plain row]
      rfl
    · rw [rdFalls_taken up cs wr, readAccess_drives]
      rfl
    · exact fun cs => rdFalls_unselected up cs
    · exact fun cs wr => rdFalls_writing up cs wr

/-! ### Register writes -/

theorem evalAvl_ifu (s : State) :
    (evalAvl s).ifu = { s.ifu with
      above := decide (s.hw.avth.toNat ≤ hostUnread s),
      irqf := if s.ifu.above = false ∧ s.hw.avth.toNat ≤ hostUnread s then s.ifu.irqf ||| 0x01#8 else s.ifu.irqf } := by
  unfold evalAvl setFlag
  by_cases h : s.hw.avth.toNat ≤ hostUnread s <;> cases h2 : s.ifu.above <;> simp [h, State.onIfu, flagAvl]

theorem evalAvl_eq (s : State) : evalAvl s = { s with ifu := (evalAvl s).ifu } := by
  unfold evalAvl setFlag
  dsimp only
  split <;> rfl

theorem avthAfter_formed (v : Byte) (w : HostWindow) (low : 1 ≤ 256 * v.toNat + w.avthLow.toNat)
    (high : 256 * v.toNat + w.avthLow.toNat ≤ 16384) : (avthAfter v w).toNat = 256 * v.toNat + w.avthLow.toNat := by
  unfold avthAfter
  have formed : (word16 w.avthLow v).toNat = 256 * v.toNat + w.avthLow.toNat := toNat_append_byte v w.avthLow
  rw [if_pos (by rw [formed]; exact ⟨low, high⟩), formed]

theorem avthAfter_ignored (v : Byte) (w : HostWindow)
    (out : 256 * v.toNat + w.avthLow.toNat = 0 ∨ 16384 < 256 * v.toNat + w.avthLow.toNat) : avthAfter v w = w.avth := by
  unfold avthAfter
  have formed : (word16 w.avthLow v).toNat = 256 * v.toNat + w.avthLow.toNat := toNat_append_byte v w.avthLow
  refine if_neg ?_
  rintro ⟨low, high⟩
  rw [formed] at low high
  have high : 256 * v.toNat + w.avthLow.toNat ≤ 16384 := high
  omega

/-- A staging byte is held at its place (R160). -/
theorem writeRegister_entry (i : Fin 8) (v : Byte) (s : State) :
    writeRegister (8 + i.val) v s = { s with hw := { s.hw with entry := s.hw.entry.set i v } } := by
  have held : writeRegister (8 + i.val) v s = s.onHw fun w => { w with entry := w.entry.setIfInBounds i v } := match i with
    | 0 | 1 | 2 | 3 | 4 | 5 | 6 | 7 => rfl
  have inside : s.hw.entry.setIfInBounds i v = s.hw.entry.set i v := by
    ext k hk
    simp [Vector.getElem_setIfInBounds, Vector.getElem_set]
  rw [held, ← inside]
  rfl

/-- A write to an address with neither a row of its own nor a staging byte is ignored (R148, R198). -/
theorem writeRegister_ignored {a : BitVec 6} {v : Byte} (formed : (Instr.registerWrite a v).wellFormed = true)
    (out : a.toNat < 6 ∨ 16 ≤ a.toNat) (s : State) : writeRegister a.toNat v s = s := by
  have none : writeHasOwnRow a = false := by simpa [Instr.wellFormed] using formed
  have own (b : BitVec 6) (row : writeHasOwnRow b = true) : a.toNat ≠ b.toNat := by
    intro same
    rw [BitVec.toNat_inj] at same
    rw [same, row] at none
    cases none
  unfold writeRegister
  split
  case h_3 => omega
  case h_4 => omega
  case h_10 => exact if_neg (by omega)
  case h_1 place => exact absurd place (own 0x04#6 rfl)
  case h_2 place => exact absurd place (own 0x05#6 rfl)
  case h_5 place => exact absurd place (own 0x10#6 rfl)
  case h_6 place => exact absurd place (own 0x11#6 rfl)
  case h_7 place => exact absurd place (own 0x12#6 rfl)
  case h_8 place => exact absurd place (own 0x13#6 rfl)
  case h_9 place => exact absurd place (own 0x31#6 rfl)

theorem wrRises_eq {a : BitVec 6} {v : Byte} (low : s.hw.bus.wr = false) :
    busEdge (.wrRises a v) s =
      (let lines := withBus s { s.hw.bus with wr := true, spoiled := false }
      if !s.hw.bus.cs && !s.hw.bus.spoiled then writeRegister a.toNat v lines else lines) := by
  unfold busEdge
  dsimp only
  rw [if_neg (by rw [low]; decide)]
  rfl

theorem wrRises_taken {a : BitVec 6} {v : Byte} (low : s.hw.bus.wr = false) (cs : s.hw.bus.cs = false)
    (clean : s.hw.bus.spoiled = false) :
    busEdge (.wrRises a v) s = writeRegister a.toNat v (withBus s { s.hw.bus with wr := true }) := by
  rw [wrRises_eq low, ← clean]
  simp [cs, clean]

theorem wrRises_untaken {a : BitVec 6} {v : Byte} (low : s.hw.bus.wr = false)
    (out : s.hw.bus.cs = true ∨ s.hw.bus.spoiled = true) :
    busEdge (.wrRises a v) s = withBus s { s.hw.bus with wr := true, spoiled := false } := by
  rw [wrRises_eq low]
  rcases out with cs | spoiled
  · simp [cs]
  · simp [spoiled]

/-- Settles O51: each write by its own definition, and a taken strobe by the row of its address and byte. -/
theorem windowRegisterWrites : Obligations.WindowRegisterWrites := by
  unfold Obligations.WindowRegisterWrites
  intro v s
  refine ⟨rfl, ?avth, ?cmdflag, rfl, rfl, ?entry, ?ignored, ?wrFalls, ?csFalls, ?csRises, ?wrRises⟩
  case avth =>
    refine ⟨_, rfl, ?_⟩
    unfold writeAvthHigh
    rw [evalAvl_eq]
    refine ⟨avthAfter_formed v s.hw, avthAfter_ignored v s.hw, rfl, ?_, rfl⟩
    exact evalAvl_ifu _
  case cmdflag =>
    show Host.Outcome.next (writeCmdflag v s) = _
    unfold writeCmdflag
    cases v.getLsbD 0 <;> cases v.getLsbD 1 <;> simp [State.onHw]
  case entry =>
    intro i
    have place : (BitVec.ofNat 6 (8 + i.val)).toNat = 8 + i.val :=
      Nat.mod_eq_of_lt (by have := i.isLt; omega)
    show Host.Outcome.next (writeRegister (BitVec.ofNat 6 (8 + i.val)).toNat v s) = _
    rw [place, writeRegister_entry]
  case ignored =>
    intro a formed out
    exact congrArg _ (writeRegister_ignored formed out s)
  case wrFalls => exact fun up => if_pos up
  case csFalls => exact fun up => if_pos up
  case csRises => rfl
  case wrRises =>
    intro a low
    refine ⟨?_, ?_⟩
    · intro cs clean
      rw [wrRises_taken low cs clean, exec_eq_act, act_rowOfWrite]
    · exact fun out => wrRises_untaken low out

end Sys2Proof.Machine
end

section
/-! EXPORT's link: attachment, the building, delivery and withdrawal of frames, transactions, and the wires of the port. -/

namespace Sys2Proof.Machine

variable {s t : State}

/-! ### Attachment -/

/-- A command that refuses leaves its transaction served and the error bit set (R130). -/
theorem linkServed_linkError (v : Byte) (s : State) :
    linkServed v (linkError (errorCleared s)) = { s with xl := { s.xl with error := true, phase := .served v [] } } := rfl

theorem exec_xrewind {v : Byte} (h : s.xl.phase = .selected v) :
    exec .xrewind s = .next (linkServed v (takeXrewind (errorCleared s))) := by
  rw [← linkCommand_noResponse h]; rfl

theorem exec_xattach {v : Byte} (h : s.xl.phase = .selected v) :
    exec .xattach s = .next (linkServed v (takeXattach (errorCleared s))) := by
  rw [← linkCommand_noResponse h]; rfl

theorem exec_xdetach {v : Byte} (h : s.xl.phase = .selected v) :
    exec .xdetach s = .next (linkServed v (takeXdetach (errorCleared s))) := by
  rw [← linkCommand_noResponse h]; rfl

/-- XDETACH's own effect, before freeing (R143). -/
def exportDetached (s : State) : State :=
  (s.onXl fun x => { x with outstanding := [] }).onJs fun j =>
    { j with exportC := { j.exportC with read := j.exportC.release, attached := false } }

theorem takeXdetach_attached (unlocked : s.oq.state ≠ .loading) (here : s.js.exportC.attached = true) :
    takeXdetach s = reevalFreeing (exportDetached s) := by
  rw [takeXdetach, if_neg unlocked, if_pos here]
  rfl

/-- Settles O57: each clause is its case of the command, carried out on the state with the error bit cleared. -/
theorem linkAttachment : Obligations.LinkAttachment := by
  unfold Obligations.LinkAttachment
  intro v s selected x c served point
  refine ⟨?rewind, ?rewindRefused, ?locked, ?attach, ?detach, ?gone⟩
  case rewind =>
    intro here
    have here : (errorCleared s).js.exportC.attached = true := here
    rw [exec_xrewind selected, takeXrewind, if_pos here]
    rfl
  case rewindRefused =>
    intro away
    have away : ¬ (errorCleared s).js.exportC.attached = true := Bool.eq_false_iff.mp away
    rw [exec_xrewind selected, takeXrewind, if_neg away]
    rfl
  case locked =>
    intro loading
    have loading : (errorCleared s).oq.state = .loading := loading
    rw [exec_xattach selected, exec_xdetach selected, takeXattach, takeXdetach, if_pos loading, if_pos loading]
    exact ⟨rfl, rfl⟩
  case attach =>
    intro unlocked
    have unlocked : ¬ (errorCleared s).oq.state = .loading := unlocked
    have marks : attachPoint s.js = point := attachPoint_eq s.js
    rw [exec_xattach selected, takeXattach, if_neg unlocked, ← marks]
    rfl
  case detach =>
    intro unlocked here
    obtain ⟨p, freed, moved⟩ := reevalFreeing_freedTo (linkServed v (exportDetached (errorCleared s)))
    refine ⟨p, freed, ?_⟩
    rw [exec_xdetach selected, takeXdetach_attached (s := errorCleared s) unlocked here, linkServed_reevalFreeing, moved]
    rfl
  case gone =>
    intro unlocked away
    have unlocked : ¬ (errorCleared s).oq.state = .loading := unlocked
    have away : ¬ (errorCleared s).js.exportC.attached = true := Bool.eq_false_iff.mp away
    rw [exec_xdetach selected, takeXdetach, if_neg unlocked, if_neg away]
    rfl

/-! ### Building a frame -/

theorem linkCommand_selected {v : Byte} (h : s.xl.phase = .selected v) (body : State → List Byte × State) :
    linkCommand body s = (body (errorCleared s)).2.onXl
      fun x => { x with phase := .served v (body (errorCleared s)).1 } := by
  simp only [linkCommand, h, errorCleared]

/-- The length of a frame in the terms of the statement (R134). -/
theorem frameLength_eq (n : Nat) (s : State) :
    frameLength n s = if s.js.exportC.attached = false ∨ 4 ≤ s.xl.outstanding.length then 0
      else min n (unread s.js s.js.exportC) := by
  have full : windowFull s = decide (4 ≤ s.xl.outstanding.length) := rfl
  unfold frameLength
  rw [full]
  cases s.js.exportC.attached
  · simp
  · by_cases many : 4 ≤ s.xl.outstanding.length
    · simp [many]
    · simp only [many, decide_false]
      rfl

/-- The flags of a frame (R135, R195). -/
theorem flagFields : ∀ skip hold losing full away : Bool,
    let v := bitAt 0 skip ||| bitAt 1 hold ||| bitAt 2 losing ||| bitAt 3 full ||| bitAt 4 away
    v.getLsbD 0 = skip ∧ v.getLsbD 1 = hold ∧ v.getLsbD 2 = losing ∧ v.getLsbD 3 = full ∧ v.getLsbD 4 = away ∧
      v.toNat < 32 := by decide

theorem holdActive_eq (s : State) : holdActive s = decide (s.tu.hold ≠ .noHold) := by
  unfold holdActive
  cases s.tu.hold <;> rfl

/-- The ring offset `i` bytes behind a position. -/
theorem ringOffset_add (pos : Pos) (i : Nat) :
    (pos + BitVec.ofNat 32 i).toNat % Config.ringSize = (pos.toNat + i) % 16384 := by
  have size : Config.ringSize = 16384 := rfl
  rw [size, BitVec.toNat_add, BitVec.toNat_ofNat]
  omega

theorem buildFrame_response (n : Nat) (s : State) :
    (buildFrame n s).1 = 0xFF#8 :: frameBytes (frameLength n s) s := rfl

/-- Settles O54: the frame is built on the state with the error bit cleared. -/
theorem xfetchBuildsAFrame : Obligations.XfetchBuildsAFrame := by
  unfold Obligations.XfetchBuildsAFrame
  intro n v s selected x c k frame
  have run (t : State) (done : linkCommand (takeXfetch n) s = t) : exec (.xfetch n) s = .next t :=
    congrArg Host.Outcome.next done
  refine ⟨?refused, ?built⟩
  case refused =>
    intro bad
    have bad : n.toNat = 0 ∨ Config.frameDataMax < n.toNat := bad.imp (fun zero => by rw [zero]; rfl) id
    apply run
    rw [linkCommand_selected selected, takeXfetch, if_pos bad]
    rfl
  case built =>
    intro some most
    have good : ¬ (n.toNat = 0 ∨ Config.frameDataMax < n.toNat) := by
      have : Config.frameDataMax = 64 := rfl
      omega
    have length : frameLength n.toNat (errorCleared s) = k := frameLength_eq n.toNat (errorCleared s)
    have fields := flagFields s.js.exportC.skipPending (holdActive s) (isLosing s)
      (s.js.exportC.attached && windowFull s) (!s.js.exportC.attached)
    obtain ⟨skip, hold, losing, full, away, small⟩ := fields
    refine ⟨frameFlags s, s.js.ram.readBytes c.read k, Memory.readBytes_length _ _ _, ?_, skip, hold.trans (holdActive_eq s),
      losing.trans (isLosing_eq s), full, away, small, ?_⟩
    · intro i h
      rw [Memory.readBytes_length] at h
      rw [Memory.readBytes_getElem _ _ _ h, ringOffset_add]
    · apply run
      rw [linkCommand_selected selected, takeXfetch, if_neg good, buildFrame_served, buildFrame_response, length]
      rfl

/-! ### Delivery and withdrawal -/

theorem exec_transactionEnd_selected {v : Byte} (h : s.xl.phase = .selected v) (d : Option ArgCommand) :
    exec (.transactionEnd d) s = .next (closeTransaction (if d.isSome then linkError s else s)) := by
  show Host.Outcome.next (endTransaction d s) = _
  simp only [endTransaction, h]

theorem exec_transactionEnd_served {v : Byte} {r : List Byte} (h : s.xl.phase = .served v r)
    (grounded : s.xl.flight = none) (d : Option ArgCommand) : exec (.transactionEnd d) s = .next (closeTransaction s) := by
  show Host.Outcome.next (endTransaction d s) = _
  simp only [endTransaction, h, grounded]

theorem exec_transactionEnd_flying {v : Byte} {r : List Byte} {f : Flight} (h : s.xl.phase = .served v r)
    (flying : s.xl.flight = some f) (d : Option ArgCommand) :
    exec (.transactionEnd d) s = .next (closeTransaction (withdrawFrame f s)) := by
  show Host.Outcome.next (endTransaction d s) = _
  simp only [endTransaction, h, flying]

theorem exec_frameDelivered {f : Flight} (flying : s.xl.flight = some f) :
    exec .frameDelivered s = .next (deliverFrame f s) := by
  show Host.Outcome.next (match s.xl.flight with | none => s | some f => deliverFrame f s) = _
  simp only [flying]

/-- A frame carries data when its ends differ (R134). -/
theorem frameData_pos {f : FrameRec} : 0 < frameData f ↔ f.start ≠ f.stop := by
  unfold frameData
  rw [ne_eq, ← BitVec.toNat_inj, BitVec.toNat_sub]
  have := f.start.isLt
  have := f.stop.isLt
  omega

theorem frameClockedOut_whole {f : Flight} (flying : s.xl.flight = some f)
    (whole : s.xl.port.received.length = 2 + f.bytes.length) : frameClockedOut s = some f := by
  simp [frameClockedOut, flying, whole]

/-- Settles O55: delivery and withdrawal by the frame in flight, and the last byte of a frame by the port's laws. -/
theorem framesAreDeliveredOrWithdrawn : Obligations.FramesAreDeliveredOrWithdrawn := by
  unfold Obligations.FramesAreDeliveredOrWithdrawn
  intro s x c closed
  refine ⟨?noFlight, ?delivered, ?idle, ?selected, ?served, ?withdrawn, ?wires⟩
  case noFlight =>
    intro grounded
    have grounded : s.xl.flight = none := grounded
    show Host.Outcome.next (match s.xl.flight with | none => s | some f => deliverFrame f s) = _
    simp only [grounded]
  case delivered =>
    intro f flying
    rw [exec_frameDelivered flying, deliverFrame]
    by_cases data : f.frame.start = f.frame.stop
    · have none : ¬ 0 < frameData f.frame := fun some => frameData_pos.mp some data
      rw [if_pos data]
      simp only [none, if_false]
      rfl
    · rw [if_neg data]
      simp only [frameData_pos.mpr data, if_true]
      rfl
  case idle =>
    intro deselected d
    have deselected : s.xl.phase = .deselected := deselected
    show Host.Outcome.next (endTransaction d s) = _
    simp only [endTransaction, deselected]
  case selected =>
    intro v selected
    exact ⟨exec_transactionEnd_selected selected none, fun d => exec_transactionEnd_selected selected (some d)⟩
  case served =>
    intro v r d served grounded
    exact exec_transactionEnd_served served grounded d
  case withdrawn =>
    intro v r d f served flying
    rw [exec_transactionEnd_flying served flying]
    refine ⟨fun empty => ?_, fun older data listed => ?_, fun data unlisted => ?_⟩
    · rw [withdrawFrame_empty (fun some => frameData_pos.mp some empty)]
      rfl
    · rw [withdrawFrame_listed (frameData_pos.mpr data) listed]
      rfl
    · rw [withdrawFrame_unlisted (frameData_pos.mpr data) (fun last => unlisted (List.mem_of_getLast? last))]
      rfl
  case wires =>
    intro b v r f served flying low sampled behind
    have inTransaction : transactionOpen s.xl.phase = true := by rw [show s.xl.phase = .served v r from served]; rfl
    rw [linkEdge_rise_whole inTransaction low sampled, byteReceived, frameClockedOut_whole (f := f)]
    · exact exec_frameDelivered flying
    · exact flying
    · show (s.xl.port.received ++ [b]).length = _
      rw [List.length_append, show s.xl.port.received.length = _ from behind, List.length_singleton]
      omega

end Sys2Proof.Machine
end

section
/-! Transactions of EXPORT's link, the codes of its commands, and the wires of its port. -/

namespace Sys2Proof.Machine

variable {s t : State}

/-! ### The status byte -/

/-- The link status byte's eight flags (R129, R195). -/
theorem linkStatusFields : ∀ attached unread full skip hold losing loading error : Bool,
    let v := bitAt 0 attached ||| bitAt 1 unread ||| bitAt 2 full ||| bitAt 3 skip ||| bitAt 4 hold ||| bitAt 5 losing |||
      bitAt 6 loading ||| bitAt 7 error
    v.getLsbD 0 = attached ∧ v.getLsbD 1 = unread ∧ v.getLsbD 2 = full ∧ v.getLsbD 3 = skip ∧ v.getLsbD 4 = hold ∧
      v.getLsbD 5 = losing ∧ v.getLsbD 6 = loading ∧ v.getLsbD 7 = error := by decide

/-- In LOADING an attached reader has read everything, for the journal is empty (R50, R60). -/
theorem loading_unread (sound : JournalSound s) (loading : s.oq.state = .loading)
    (here : s.js.exportC.attached = true) : exportUnread s = 0 := by
  obtain ⟨head, tail⟩ := sound.loadingEmpty loading
  have behind : distFrom s.js.tail s.js.exportC.read ≤ occupancy s.js := (sound.exportMarks here).2
  have none : occupancy s.js = 0 := by
    unfold occupancy
    rw [head, tail]
    rfl
  unfold exportUnread unreadOf
  rw [if_pos here]
  unfold distFrom at behind
  rw [none, tail] at behind
  rw [head]
  simp only [BitVec.toNat_sub] at *
  omega

theorem linkStatus_ne_full (sound : JournalSound s) : linkStatus s ≠ 0xFF#8 := by
  intro full
  obtain ⟨attached, some, -, -, -, -, loading, -⟩ := linkStatusFields s.js.exportC.attached
    (decide (0 < exportUnread s)) (decide (s.xl.outstanding.length = Config.frameCapacity)) s.js.exportC.skipPending
    (holdActive s) (isLosing s) (s.oq.state == .loading) s.xl.error
  have bits : ∀ i < 8, (linkStatus s).getLsbD i = true := by rw [full]; decide
  have here : s.js.exportC.attached = true := attached.symm.trans (bits 0 (by decide))
  have more : decide (0 < exportUnread s) = true := some.symm.trans (bits 1 (by decide))
  have state : (s.oq.state == .loading) = true := loading.symm.trans (bits 6 (by decide))
  have empty := loading_unread sound (by simpa using state) here
  rw [empty] at more
  exact absurd more (by decide)

/-! ### Commands out of place -/

theorem linkCommand_ignored (h : ∀ v, s.xl.phase ≠ .selected v) (body : State → List Byte × State) :
    linkCommand body s = s := by
  unfold linkCommand
  split
  case h_1 v selected => exact absurd selected (h v)
  case h_2 => rfl

theorem takeLinkBytes_ignored (h : ∀ v, s.xl.phase ≠ .selected v) (code : Byte) (args : List Byte) :
    takeLinkBytes code args s = s := by
  unfold takeLinkBytes
  split
  · exact linkCommand_ignored h _
  · split
    case h_1 v selected => exact absurd selected (h v)
    case h_2 => rfl

/-! ### The codes -/

theorem namesLinkCommand_false {code : Byte} (h : (Instr.linkUnknownCommand code).wellFormed = true) :
    code ≠ 0x10#8 ∧ code ≠ 0x20#8 ∧ code ≠ 0x30#8 ∧ code ≠ 0x40#8 ∧ code ≠ 0x50#8 ∧ code ≠ 0x51#8 ∧ code ≠ 0x60#8 := by
  simpa [Instr.wellFormed, namesLinkCommand, not_or, and_assoc] using h

theorem namesLinkCommand_true {code : Byte} (h : ¬ (Instr.linkUnknownCommand code).wellFormed = true) :
    code = 0x10#8 ∨ code = 0x20#8 ∨ code = 0x30#8 ∨ code = 0x40#8 ∨ code = 0x50#8 ∨ code = 0x51#8 ∨ code = 0x60#8 := by
  simp only [Instr.wellFormed, namesLinkCommand, Bool.not_eq_true', Bool.not_eq_false, Bool.or_eq_true, beq_iff_eq,
    or_assoc] at h
  exact h

theorem linkCommandOf_unknown {code : Byte} (h : (Instr.linkUnknownCommand code).wellFormed = true) (args : List Byte) :
    linkCommandOf code args = some (.linkUnknownCommand code) := by
  obtain ⟨h1, h2, h3, h4, h5, h6, h7⟩ := namesLinkCommand_false h
  simp only [linkCommandOf, h1, h2, h3, h4, h5, h6, h7, if_false]

theorem linkBody_unknown {code : Byte} (h : (Instr.linkUnknownCommand code).wellFormed = true) (args : List Byte) :
    linkBody code args = some (noResponse linkError) := by
  obtain ⟨h1, h2, h3, h4, h5, h6, h7⟩ := namesLinkCommand_false h
  simp only [linkBody, h1, h2, h3, h4, h5, h6, h7, if_false]

/-- What a command's bytes carry out is the command's own meaning (R128). -/
theorem exec_linkCommandOf {code : Byte} {args : List Byte} {c : Instr} (named : linkCommandOf code args = some c)
    (s : State) : exec c s = .next (takeLinkBytes code args s) := by
  by_cases unknown : (Instr.linkUnknownCommand code).wellFormed = true
  · rw [linkCommandOf_unknown unknown] at named
    cases named
    show Host.Outcome.next (takeLinkBytes code [] s) = _
    simp only [takeLinkBytes, linkBody_unknown unknown]
  · rcases namesLinkCommand_true unknown with rfl | rfl | rfl | rfl | rfl | rfl | rfl
    · cases named; rfl
    · match args, named with
      | _ :: _, named => cases named; rfl
    · match args, named with
      | _ :: _ :: _, named => cases named; rfl
    · cases named; rfl
    · cases named; rfl
    · cases named; rfl
    · match args, named with
      | _ :: _ :: _ :: _, named => cases named; rfl

/-- A command's last argument is due exactly while its bytes name no command (R128, R131). -/
theorem linkArgumentsDue_isSome (code : Byte) (args : List Byte) :
    (linkArgumentsDue code args).isSome = (linkCommandOf code args).isNone := by
  by_cases unknown : (Instr.linkUnknownCommand code).wellFormed = true
  · obtain ⟨-, xfetch, xack, -, -, -, xmark⟩ := namesLinkCommand_false unknown
    rw [linkCommandOf_unknown unknown]
    simp [linkArgumentsDue, xfetch, xack, xmark]
  · rcases namesLinkCommand_true unknown with rfl | rfl | rfl | rfl | rfl | rfl | rfl
    · rfl
    · match args with
      | [] => rfl
      | _ :: _ => simp [linkArgumentsDue, linkCommandOf]
    · match args with
      | [] => rfl
      | [_] => rfl
      | _ :: _ :: _ => simp [linkArgumentsDue, linkCommandOf]
    · rfl
    · rfl
    · rfl
    · match args with
      | [] => rfl
      | [_] => rfl
      | [_, _] => rfl
      | _ :: _ :: _ :: _ => simp [linkArgumentsDue, linkCommandOf]

theorem linkBody_none {code : Byte} {args : List Byte} (h : linkCommandOf code args = none) :
    linkBody code args = none := by
  unfold linkCommandOf at h
  unfold linkBody
  split_ifs at h ⊢ <;> split at h <;> first | rfl | cases h

/-- While arguments are due only the error bit is cleared (R130). -/
theorem takeLinkBytes_due {code v : Byte} {args : List Byte} (due : linkCommandOf code args = none)
    (selected : s.xl.phase = .selected v) : takeLinkBytes code args s = errorCleared s := by
  simp only [takeLinkBytes, linkBody_none due, selected]
  rfl

/-! ### The wires -/

theorem transactionOpen_iff {p : LinkPhase} : transactionOpen p = false ↔ p = .deselected ∨ p = .endedByReset := by
  cases p <;> simp [transactionOpen]

theorem xdoBit_idle (idle : s.xl.phase = .deselected ∨ s.xl.phase = .endedByReset) : xdoBit s = none := by
  have undriven : (fun i => xdoByte (i + 1) s) = fun _ => none := by
    funext i
    unfold xdoByte
    rcases idle with h | h <;> rw [h]
  unfold xdoBit
  rw [undriven]
  rfl

theorem frameClockedOut_short (short : ∀ f, s.xl.flight = some f → s.xl.port.received.length ≠ 2 + f.bytes.length) :
    frameClockedOut s = none := by
  unfold frameClockedOut
  rw [Option.filter_eq_none_iff]
  intro f flying
  simpa using short f flying

/-- Settles O53: the begin and end of a transaction, its commands by their codes, and each edge by the port's laws. -/
theorem linkTransactionsAndStatus : Obligations.LinkTransactionsAndStatus := by
  unfold Obligations.LinkTransactionsAndStatus
  intro s x c
  refine ⟨?begins, ?already, ?ignored, ?xstat, ?unknown, ?named, ?bytes, ?wires⟩
  case begins =>
    intro idle
    have idle : s.xl.phase = .deselected := idle
    refine ⟨linkStatus s, ?_, ?_⟩
    · show Host.Outcome.next (beginTransaction s) = _
      simp only [beginTransaction, idle]
      rfl
    · obtain ⟨attached, some, full, skip, hold, losing, loading, error⟩ := linkStatusFields s.js.exportC.attached
        (decide (0 < exportUnread s)) (decide (s.xl.outstanding.length = Config.frameCapacity)) s.js.exportC.skipPending
        (holdActive s) (isLosing s) (s.oq.state == .loading) s.xl.error
      refine ⟨attached, some, full, skip, hold.trans (holdActive_eq s), losing.trans (isLosing_eq s), loading.trans ?_,
        error, linkStatus_ne_full⟩
      cases s.oq.state <;> rfl
  case already =>
    intro busy
    show Host.Outcome.next (beginTransaction s) = _
    unfold beginTransaction
    split
    case h_1 idle => exact absurd idle busy
    case h_2 => rfl
  case ignored =>
    intro busy a b d
    have same (body : State → List Byte × State) : linkCommand body s = s := linkCommand_ignored busy body
    exact ⟨congrArg _ (same _), congrArg _ (same _), congrArg _ (same _), congrArg _ (same _), congrArg _ (same _),
      congrArg _ (same _), congrArg _ (same _), congrArg _ (takeLinkBytes_ignored busy a [])⟩
  case xstat =>
    intro v selected n
    show Host.Outcome.next (linkCommand _ s) = _
    rw [linkCommand_selected selected]
    rfl
  case unknown =>
    intro v code selected unknown
    show Host.Outcome.next (takeLinkBytes code [] s) = _
    simp only [takeLinkBytes, linkBody_unknown unknown]
    rw [linkCommand_noResponse selected, linkServed_linkError]
  case named =>
    intro a b d more
    exact ⟨rfl, rfl, rfl, rfl, rfl, rfl, rfl, fun unknown => linkCommandOf_unknown unknown more, rfl, rfl, rfl⟩
  case bytes =>
    intro code args
    exact ⟨fun c named => exec_linkCommandOf named s, linkArgumentsDue_isSome code args,
      fun v due selected => takeLinkBytes_due due selected⟩
  case wires =>
    refine ⟨rfl, ?endEmpty, ?endBytes, ?idle, ?inside, ?presented⟩
    case endEmpty =>
      intro empty
      have empty : s.xl.port.received = [] := empty
      show Host.Outcome.next (endTransaction none s) = .next (endTransaction (decodedCommand s.xl.port.received) s)
      rw [empty]
      rfl
    case endBytes =>
      intro code args whole
      have whole : s.xl.port.received = code :: args := whole
      show _ = Host.Outcome.next (endTransaction (decodedCommand s.xl.port.received) s)
      rw [whole]
      rfl
    case idle =>
      intro idle
      have shut : transactionOpen s.xl.phase = false := transactionOpen_iff.mpr idle
      refine ⟨xdoBit_idle idle, ?_, ?_⟩
      · intro high
        have high : s.xl.port.clock = true := high
        simp only [linkEdge, high, shut]
        rfl
      · intro low d
        have low : s.xl.port.clock = false := low
        simp only [linkEdge, low, shut]
        rfl
    case inside =>
      intro busy
      have inTransaction : transactionOpen s.xl.phase = true :=
        Bool.eq_true_of_not_eq_false (fun shut => busy (transactionOpen_iff.mp shut))
      refine ⟨?_, ?_, ?_⟩
      · intro high
        have high : s.xl.port.clock = true := high
        simp only [linkEdge, high, inTransaction]
        rfl
      · intro low short d
        have low : s.xl.port.clock = false := low
        have rises : s.onLinkPort (SerialPort.rise d) =
            withLinkPort s { s.xl.port with clock := true, sampled := s.xl.port.sampled ++ [d] } :=
          congrArg (withLinkPort s) (SerialPort.rise_short short d)
        simp only [linkEdge, low, inTransaction, rises]
        simp [withLinkPort, x]
      · intro b code args low sampled short whole
        have whole : s.xl.port.received ++ [b] = code :: args := whole
        rw [linkEdge_rise_whole inTransaction low sampled, byteReceived, frameClockedOut_short, whole]
        · rfl
        · intro f flying
          have behind : s.xl.port.received.length ≠ 1 + f.bytes.length := short f flying
          show (s.xl.port.received ++ [b]).length ≠ _
          rw [List.length_append, List.length_singleton]
          omega
    case presented =>
      intro i j v small place
      have bit := SerialPort.output_bit small place fun i => xdoByte (i + 1) s
      refine ⟨fun selected => bit.trans ?_, fun r served => bit.trans ?_⟩
      · have selected : s.xl.phase = .selected v := selected
        simp [xdoByte, selected]
      · have served : s.xl.phase = .served v r := served
        simp [xdoByte, served]

end Sys2Proof.Machine
end

section
/-! The configuration loader: the checks of an image in their order, the end of a failed load, and the wires of the
memory's port. -/

namespace Sys2Proof.Machine

variable {s t : State}

/-! ### The check of a record -/

theorem recordPasses_iff {table index : Byte} {entry : EntryBytes} :
    RecordPasses table index entry ↔ (checkRecord table index entry).isSome = true := by
  have code (n : Nat) (small : n < 256) : table = BitVec.ofNat 8 n ↔ table.toNat = n := by
    rw [← BitVec.toNat_inj, BitVec.toNat_ofNat, Nat.mod_eq_of_lt small]
  have first : index = 0#8 ↔ index.toNat = 0 := by rw [← BitVec.toNat_inj]; rfl
  unfold RecordPasses
  rw [code 1 (by decide), code 2 (by decide), code 3 (by decide), code 4 (by decide), first]
  unfold checkRecord
  by_cases found : (table.toNat = 1 ∧ index.toNat < 24) ∨ (table.toNat = 2 ∧ index.toNat < 8) ∨
      (table.toNat = 3 ∧ index.toNat = 0) ∨ (table.toNat = 4 ∧ index.toNat = 0)
  · rcases found with ⟨id, inside⟩ | ⟨id, inside⟩ | ⟨id, place⟩ | ⟨id, place⟩
    · rw [slotOf_channel (ch := ⟨index.toNat, inside⟩) id rfl]
      simp [id, inside, decodeEntry]
    · rw [slotOf_trigger (i := ⟨index.toNat, inside⟩) id rfl]
      simp [id, inside, decodeEntry]
    · rw [slotOf_time id place]
      simp [id, place, decodeEntry]
    · rw [slotOf_journal id place]
      simp [id, place, decodeEntry]
  · rw [slotOf_none found]
    refine iff_of_false (fun passes => found ?_) (by simp)
    rcases passes with ⟨id, inside, -⟩ | ⟨id, inside, -⟩ | ⟨id, place, -⟩ | ⟨id, place, -⟩
    · exact .inl ⟨id, inside⟩
    · exact .inr (.inl ⟨id, inside⟩)
    · exact .inr (.inr (.inl ⟨id, place⟩))
    · exact .inr (.inr (.inr ⟨id, place⟩))

/-! ### A failed load -/

/-- The image bytes read so far: the running CRC, the RAM and the number of staged records. -/
def imageRead (crc : BitVec 16) (ram : Memory) (staged : Nat) (s : State) : State :=
  { s with js := { s.js with ram := ram }, cl := { s.cl with crc := crc, staged := staged } }

/-- From `s` to `t` a load has failed with a reason, after bytes that left the CRC and the RAM given (R187, R188). -/
def LoadFailed (reason : Byte) (crc : BitVec 16) (ram : Memory) (s t : State) : Prop :=
  (∀ i, memoryPort i t = { selected := false, clocks := 0, mdo := none }) ∧ t.oq = { s.oq with state := .stopped } ∧
    t.cl = { s.cl with state := .idle, staged := 0, crc := crc } ∧
    t.ifu.faults = faultsWith s .loadfail reason ∧ t.ifu.irqf.getLsbD 5 = true ∧ t.ifu.irqf.getLsbD 6 = true ∧
    t.js = { s.js with ram := ram } ∧ t.tb = s.tb ∧ t.icu = s.icu ∧ t.tu = s.tu ∧
    (s.hw.inProgress = some .reload → t.hw = { s.hw with result := .ok, inProgress := none } ∧
      t.ifu.irqf.getLsbD 7 = true) ∧
    (s.hw.inProgress ≠ some .reload → t.hw = s.hw)

theorem completeReload_keepsFlag {i : Nat} (h : s.ifu.irqf.getLsbD i = true) :
    (completeReload s).ifu.irqf.getLsbD i = true := by
  unfold completeReload
  split
  · show (s.ifu.irqf ||| flagCmd).getLsbD i = true
    rw [BitVec.getLsbD_or, h, Bool.true_or]
  · exact h

theorem completeReload_faults (s : State) : (completeReload s).ifu.faults = s.ifu.faults := by
  unfold completeReload
  split <;> rfl

theorem memoryPort_idle (idle : mselLow s = false) (i : Nat) :
    memoryPort i s = { selected := false, clocks := 0, mdo := none } := by
  rw [memoryPort, idle, if_neg (by decide)]

/-- What a failed load leaves before its RELOAD completes: the records discarded, LOADFAIL, STOPPED, STP (R187). -/
def failedLoad (reason : Byte) (crc : BitVec 16) (ram : Memory) (s : State) : State :=
  setFlag flagStp
    (((logFault .loadfail reason (imageRead crc ram 0 s)).onCl fun c => { c with state := .idle }).onOq
      fun q => { q with state := .stopped })

theorem failLoad_read (reason : Byte) (crc : BitVec 16) (ram : Memory) (staged : Nat) (s : State) :
    failLoad reason (imageRead crc ram staged s) = completeReload (failedLoad reason crc ram s) := rfl

theorem failedLoad_irqf (reason : Byte) (crc : BitVec 16) (ram : Memory) (s : State) :
    (failedLoad reason crc ram s).ifu.irqf = s.ifu.irqf ||| flagFlt ||| flagStp := by
  unfold failedLoad
  rw [logFault_cases]
  rfl

theorem failLoad_failed (reason : Byte) (crc : BitVec 16) (ram : Memory) (staged : Nat) (s : State) :
    LoadFailed reason crc ram s (failLoad reason (imageRead crc ram staged s)) := by
  rw [failLoad_read]
  have flag := failedLoad_irqf reason crc ram s
  have rest : failedLoad reason crc ram s = { s with
      oq := { s.oq with state := .stopped }, cl := { s.cl with state := .idle, staged := 0, crc := crc },
      js := { s.js with ram := ram }, ifu := (failedLoad reason crc ram s).ifu } := by
    unfold failedLoad
    rw [logFault_cases]
    rfl
  have faults : (failedLoad reason crc ram s).ifu.faults = faultsWith s .loadfail reason := by
    unfold failedLoad
    rw [logFault_cases]
    rfl
  generalize failedLoad reason crc ram s = u at *
  have same := completeReload_eq u
  obtain ⟨reload, other⟩ := completeReload_completes (s := s) (t := u) (by rw [rest])
  have flagFive := completeReload_keepsFlag (s := u) (i := 5) (by rw [flag]; simp [flagFlt, flagStp])
  have flagSix := completeReload_keepsFlag (s := u) (i := 6) (by rw [flag]; simp [flagFlt, flagStp])
  have logged := (completeReload_faults u).trans faults
  generalize completeReload u = t at *
  have cl : t.cl = { s.cl with state := .idle, staged := 0, crc := crc } := by rw [same, rest]
  refine ⟨memoryPort_idle ?_, ?_, cl, logged, flagFive, flagSix, ?_, ?_, ?_, ?_, reload, other⟩
  · rw [mselLow, cl]
    rfl
  all_goals rw [same, rest]

/-! ### The header -/

theorem takeHeader_format {f : Byte} (bad : f ≠ 0xC3#8) (w lo hi g : Byte) (s : State) :
    takeHeader f w lo hi g s = failLoad 1#8 (receive [f] s) := if_pos bad

theorem takeHeader_version {w : Byte} (bad : w ≠ 1#8) (lo hi g : Byte) (s : State) :
    takeHeader 0xC3#8 w lo hi g s = failLoad 1#8 (receive [0xC3#8, w] s) := by
  rw [takeHeader, if_neg (by decide), if_pos bad]

theorem takeHeader_count {lo hi : Byte} (many : 64 < 256 * hi.toNat + lo.toNat) (g : Byte) (s : State) :
    takeHeader 0xC3#8 1#8 lo hi g s = failLoad 2#8 (receive [0xC3#8, 1#8, lo, hi] s) := by
  have count : (word16 lo hi).toNat = 256 * hi.toNat + lo.toNat := toNat_append_byte hi lo
  rw [takeHeader, if_neg (by decide), if_neg (by decide), if_pos (by rw [count]; exact many)]

theorem takeHeader_taken {lo hi : Byte} (few : 256 * hi.toNat + lo.toNat ≤ 64) (g : Byte) (s : State) :
    takeHeader 0xC3#8 1#8 lo hi g s = { s with cl := { s.cl with
      crc := crcOver s.cl.crc [0xC3#8, 1#8, lo, hi, g], count := 256 * hi.toNat + lo.toNat, read := 0,
      headerSeen := true, autoStart := g.getLsbD 0, attachHost := g.getLsbD 1, attachExport := g.getLsbD 2 } } := by
  have count : (word16 lo hi).toNat = 256 * hi.toNat + lo.toNat := toNat_append_byte hi lo
  have most : ¬ Config.recordMax < (word16 lo hi).toNat := by
    rw [count]
    exact Nat.not_lt.mpr few
  rw [takeHeader, if_neg (by decide), if_neg (by decide), if_neg most, count]
  rfl

theorem receive_eq (bytes : List Byte) (s : State) :
    receive bytes s = imageRead (crcOver s.cl.crc bytes) s.js.ram s.cl.staged s := rfl

/-! ### Bytes at the memory's port -/

/-- While no header, record or CRC is complete the bytes wait in the port (log entry 32). -/
theorem imageByteReceived_waits (h : imageTaken (s.cl.port.received.drop 3) s.cl = none) : imageByteReceived s = s := by
  unfold imageByteReceived
  rw [show commandBytes = 3 from rfl, h]

/-- The bytes that complete a header, a record or the CRC leave the port, and the loader takes them. -/
theorem imageByteReceived_taken {sent bytes : List Byte} {take : State → State} (three : sent.length = 3)
    (received : s.cl.port.received = sent ++ bytes) (h : imageTaken bytes s.cl = some take) :
    imageByteReceived s = take (withMemoryPort s { s.cl.port with received := sent }) := by
  have image : s.cl.port.received.drop 3 = bytes := by rw [received, ← three, List.drop_left]
  have command : s.cl.port.received.take 3 = sent := by rw [received, ← three, List.take_left]
  unfold imageByteReceived
  rw [show commandBytes = 3 from rfl, image, h]
  show take _ = take _
  rw [← command]
  rfl

theorem imageTaken_record {c : Loader} (seen : c.headerSeen = true) (due : c.read < c.count) (id idx : Byte)
    (entry : EntryBytes) : imageTaken (id :: idx :: entry.toList) c = some (takeRecord id idx entry) := by
  unfold imageTaken
  rw [if_neg (by rw [seen]; decide), if_pos due, entryBytes_eq entry]
  rfl

theorem imageTaken_crc {c : Loader} (seen : c.headerSeen = true) (last : c.read = c.count) (lo hi : Byte) :
    imageTaken [lo, hi] c = some (takeCrc lo hi) := by
  unfold imageTaken
  rw [if_neg (by rw [seen]; decide), if_neg (by omega)]

theorem imageTaken_nil (c : Loader) : imageTaken [] c = none := by
  unfold imageTaken
  split_ifs <;> rfl

theorem imageTaken_recordShort {c : Loader} {bytes : List Byte} (seen : c.headerSeen = true) (due : c.read < c.count)
    (short : bytes.length < 10) : imageTaken bytes c = none := by
  unfold imageTaken
  rw [if_neg (by rw [seen]; decide), if_pos due]
  split
  · exact absurd short (by simp)
  · rfl

theorem imageTaken_crcShort {c : Loader} {bytes : List Byte} (seen : c.headerSeen = true) (last : c.read = c.count)
    (short : bytes.length < 2) : imageTaken bytes c = none := by
  unfold imageTaken
  rw [if_neg (by rw [seen]; decide), if_neg (by omega)]
  split
  · exact absurd short (by simp)
  · rfl

/-- The beginning of a header that has passed its checks so far (R181). -/
theorem imageTaken_headerShort {c : Loader} {bytes : List Byte} {lo hi : Byte} (first : c.headerSeen = false)
    (begins : bytes <+: [0xC3#8, 1#8, lo, hi]) (few : bytes.length = 4 → 256 * hi.toNat + lo.toNat ≤ 64) :
    imageTaken bytes c = none := by
  have most : bytes.length ≤ 4 := begins.length_le
  have bytesAre := List.prefix_iff_eq_take.mp begins
  unfold imageTaken
  rw [if_pos first]
  generalize bytes.length = n at *
  subst bytesAre
  match n, most with
  | 0, _ => rfl
  | 1, _ => rfl
  | 2, _ => rfl
  | 3, _ => rfl
  | 4, _ =>
    have count : (word16 lo hi).toNat = 256 * hi.toNat + lo.toNat := toNat_append_byte hi lo
    exact if_pos (by rw [count]; exact few rfl)

/-- The bytes of a header: as soon as a check fails, or all five (R181). -/
theorem imageTaken_header {c : Loader} (first : c.headerSeen = false) (f w lo hi g : Byte) :
    imageTaken [f, w, lo, hi, g] c = some (takeHeader f w lo hi g) := by
  unfold imageTaken
  rw [if_pos first]

theorem imageTaken_format {c : Loader} (first : c.headerSeen = false) {f : Byte} (bad : f ≠ 0xC3#8) :
    imageTaken [f] c = some (takeHeader f 0#8 0#8 0#8 0#8) := by
  unfold imageTaken
  rw [if_pos first]
  exact if_neg bad

theorem imageTaken_version {c : Loader} (first : c.headerSeen = false) (f : Byte) {w : Byte} (bad : w ≠ 1#8) :
    imageTaken [f, w] c = some (takeHeader f w 0#8 0#8 0#8) := by
  unfold imageTaken
  rw [if_pos first]
  exact if_neg bad

theorem imageTaken_count {c : Loader} (first : c.headerSeen = false) (f w : Byte) {lo hi : Byte}
    (many : 64 < 256 * hi.toNat + lo.toNat) : imageTaken [f, w, lo, hi] c = some (takeHeader f w lo hi 0#8) := by
  have count : (word16 lo hi).toNat = 256 * hi.toNat + lo.toNat := toNat_append_byte hi lo
  unfold imageTaken
  rw [if_pos first]
  exact if_neg (by rw [count]; exact Nat.not_le.mpr many)

/-- What follows the first byte that fails is not looked at (R181). -/
theorem takeHeader_formatOnly {f : Byte} (bad : f ≠ 0xC3#8) (w lo hi g : Byte) (s : State) :
    takeHeader f w lo hi g s = takeHeader f 0#8 0#8 0#8 0#8 s := by
  rw [takeHeader_format bad, takeHeader_format bad]

theorem takeHeader_versionOnly (f : Byte) {w : Byte} (bad : w ≠ 1#8) (lo hi g : Byte) (s : State) :
    takeHeader f w lo hi g s = takeHeader f w 0#8 0#8 0#8 s := by
  by_cases format : f = 0xC3#8
  · rw [format, takeHeader_version bad, takeHeader_version bad]
  · rw [takeHeader_format format, takeHeader_format format]

theorem takeHeader_countOnly (f w : Byte) {lo hi : Byte} (many : 64 < 256 * hi.toNat + lo.toNat) (g : Byte) (s : State) :
    takeHeader f w lo hi g s = takeHeader f w lo hi 0#8 s := by
  by_cases format : f = 0xC3#8
  · by_cases version : w = 1#8
    · rw [format, version, takeHeader_count many, takeHeader_count many]
    · rw [takeHeader_versionOnly f version, takeHeader_versionOnly f version lo hi 0#8]
  · rw [takeHeader_format format, takeHeader_format format]

theorem exec_loadHeader (reading : s.cl.state = .reading) (first : s.cl.headerSeen = false) (f w lo hi g : Byte) :
    exec (.loadHeaderReceived f w lo hi g) s = .next (takeHeader f w lo hi g s) :=
  congrArg Host.Outcome.next (if_pos ⟨reading, first⟩)

theorem exec_loadRecord (reading : s.cl.state = .reading) (seen : s.cl.headerSeen = true) (due : s.cl.read < s.cl.count)
    (id idx : Byte) (entry : EntryBytes) : exec (.loadRecordReceived id idx entry) s = .next (takeRecord id idx entry s) :=
  congrArg Host.Outcome.next (if_pos ⟨reading, seen, due⟩)

theorem exec_loadCrc (reading : s.cl.state = .reading) (seen : s.cl.headerSeen = true) (last : s.cl.read = s.cl.count)
    (lo hi : Byte) : exec (.loadCrcReceived lo hi) s = .next (takeCrc lo hi s) :=
  congrArg Host.Outcome.next (if_pos ⟨reading, seen, last⟩)

/-! ### Records and the CRC -/

/-- A record's bytes staged behind the others, its bytes in the running CRC (R182). -/
def recordStaged (bytes : List Byte) (s : State) : State :=
  imageRead (crcOver s.cl.crc bytes) (s.js.ram.writeBytes (10 * s.cl.staged) bytes) (s.cl.staged + 1) s

theorem takeRecord_fails {id idx : Byte} {entry : EntryBytes} (fails : ¬ RecordPasses id idx entry) (s : State) :
    takeRecord id idx entry s = failLoad 3#8 (recordStaged (recordBytes id idx entry) s) := by
  have none : checkRecord id idx entry = none := by simpa [recordPasses_iff] using fails
  simp only [takeRecord, none]
  rfl

theorem takeRecord_passes {id idx : Byte} {entry : EntryBytes} (passes : RecordPasses id idx entry) (s : State) :
    takeRecord id idx entry s =
      (recordStaged (recordBytes id idx entry) s).onCl fun c => { c with read := c.read + 1 } := by
  obtain ⟨e, some⟩ := Option.isSome_iff_exists.mp (recordPasses_iff.mp passes)
  simp only [takeRecord, some]
  rfl

theorem takeRecord_ram (id idx : Byte) (entry : EntryBytes) (s : State) :
    (takeRecord id idx entry s).js.ram = s.js.ram.writeBytes (10 * s.cl.staged) (recordBytes id idx entry) := by
  by_cases passes : RecordPasses id idx entry
  · rw [takeRecord_passes passes]
    rfl
  · rw [takeRecord_fails passes]
    obtain ⟨-, -, -, -, -, -, js, -⟩ := failLoad_failed 3#8 _ _ _ s
    exact congrArg Store.ram js

/-- Settles O58: the checks by their order in the header, the record and the CRC, and the wires by the port's laws. -/
theorem imageIsCheckedInOrder : Obligations.ImageIsCheckedInOrder := by
  unfold Obligations.ImageIsCheckedInOrder
  intro s reading failed
  have selected : mselLow s = true := by rw [mselLow, reading]; rfl
  have sent (i : Nat) : [0x03#8, 0x00#8, 0x00#8].getD i 0x00#8 = if i = 0 then 0x03#8 else 0x00#8 := match i with
    | 0 | 1 | 2 => rfl
    | _ + 3 => rfl
  have port (i : Nat) :
      memoryPort i s = { selected := true, clocks := 8, mdo := some (if i = 0 then 0x03#8 else 0x00#8) } := by
    rw [memoryPort, if_pos selected, sent]
  refine ⟨port, ?header, ?record, ?crc, ?wires⟩
  case header =>
    intro f w lo hi g first count
    refine ⟨_, exec_loadHeader reading first f w lo hi g, ?_, ?_, ?_, ?_⟩
    · intro bad
      rw [takeHeader_format bad]
      exact failLoad_failed 1#8 _ _ _ s
    · rintro rfl bad
      rw [takeHeader_version bad]
      exact failLoad_failed 1#8 _ _ _ s
    · rintro rfl rfl many
      rw [takeHeader_count many]
      exact failLoad_failed 2#8 _ _ _ s
    · rintro rfl rfl few
      exact takeHeader_taken few g s
  case record =>
    intro id idx entry seen due canonical bytes passes
    refine ⟨_, exec_loadRecord reading seen due id idx entry, ?_, ?_, ?_, ?_⟩
    · intro i inside
      rw [takeRecord_ram]
      have ten : (recordBytes id idx entry).length ≤ Config.ringSize := by
        simp [recordBytes, Config.ringSize]
      exact Memory.read_writeBytes_inside canonical _ _ ten inside
    · intro a outside
      rw [takeRecord_ram]
      refine Memory.read_writeBytes_outside _ _ _ fun i inside => outside i ?_
      simpa [recordBytes] using inside
    · intro fails
      rw [takeRecord_ram, takeRecord_fails fails]
      exact failLoad_failed 3#8 _ _ _ s
    · intro passes
      rw [takeRecord_ram, takeRecord_passes passes]
      rfl
  case crc =>
    intro lo hi seen last
    refine ⟨_, exec_loadCrc reading seen last lo hi, ?_, ?_⟩
    · exact fun agrees => if_pos agrees
    · intro differs
      have differs : ¬ word16 lo hi = s.cl.crc := differs
      rw [takeCrc, if_neg differs]
      exact failLoad_failed 4#8 s.cl.crc s.js.ram s.cl.staged s
  case wires =>
    refine ⟨?falls, ?short, ?presents, ?byte⟩
    case falls =>
      intro high
      have high : s.cl.port.clock = true := high
      simp only [memoryEdge, reading, high]
      rfl
    case short =>
      intro low few d
      have low : s.cl.port.clock = false := low
      have rises : s.onMemoryPort (SerialPort.rise d) =
          withMemoryPort s { s.cl.port with clock := true, sampled := s.cl.port.sampled ++ [d] } :=
        congrArg (withMemoryPort s) (SerialPort.rise_short few d)
      simp only [memoryEdge, reading, low, rises]
      simp [withMemoryPort]
    case presents =>
      intro i j small place
      refine (SerialPort.output_bit small place fun i => (memoryPort i s).mdo).trans ?_
      rw [port]
      rfl
    case byte =>
      intro b low sampled whole t
      have edge : t = imageByteReceived (withMemoryPort s whole) := memoryEdge_rise_whole reading low sampled
      rw [edge]
      refine ⟨?command, ?image⟩
      case command =>
        intro early
        refine imageByteReceived_waits ?_
        have none : whole.received.drop 3 = [] := by
          refine List.drop_eq_nil_of_le ?_
          show (s.cl.port.received ++ [b]).length ≤ 3
          rw [List.length_append, List.length_singleton]
          exact early
        exact (congrArg (imageTaken · _) none).trans (imageTaken_nil _)
      case image =>
        intro sent bytes three received u
        have taken {take : State → State} (h : imageTaken bytes s.cl = some take) :
            imageByteReceived (withMemoryPort s whole) = take u :=
          imageByteReceived_taken (s := withMemoryPort s whole) three received h
        have waits (h : imageTaken bytes s.cl = none) :
            imageByteReceived (withMemoryPort s whole) = withMemoryPort s whole := by
          refine imageByteReceived_waits ?_
          have image : whole.received.drop 3 = bytes := by
            rw [show whole.received = sent ++ bytes from received, ← three, List.drop_left]
          exact (congrArg (imageTaken · _) image).trans h
        refine ⟨?headers, ?records, ?crcs⟩
        case headers =>
          intro first f w lo hi g
          have run := exec_loadHeader (s := u) reading first f w lo hi g
          refine ⟨?_, ?_, ?_, ?_, ?_⟩
          · rintro rfl bad
            rw [taken (imageTaken_format first bad), run, takeHeader_formatOnly bad]
          · rintro rfl bad
            rw [taken (imageTaken_version first f bad), run, takeHeader_versionOnly f bad]
          · rintro rfl many
            rw [taken (imageTaken_count first f w many), run, takeHeader_countOnly f w many]
          · rintro rfl
            rw [taken (imageTaken_header first f w lo hi g), run]
          · exact fun begins few => waits (imageTaken_headerShort first begins few)
        case records =>
          intro seen due
          refine ⟨?_, fun short => waits (imageTaken_recordShort seen due short)⟩
          rintro id idx entry rfl
          rw [taken (imageTaken_record seen due id idx entry)]
          exact exec_loadRecord (s := u) reading seen due id idx entry
        case crcs =>
          intro seen last
          refine ⟨?_, fun short => waits (imageTaken_crcShort seen last short)⟩
          rintro lo hi rfl
          rw [taken (imageTaken_crc seen last lo hi)]
          exact exec_loadCrc (s := u) reading seen last lo hi

end Sys2Proof.Machine
end

section
/-! The end of a load: the staged records are written as WRITE ENTRY would write them, and the readers are attached. -/

namespace Sys2Proof.Machine

variable {s t : State}

/-! ### Outside RUNNING the time base goes its way alone -/

/-- Two parts outside RUNNING with one time base. -/
structure TimeAlike (s t : State) : Prop where
  left : s.oq.state ≠ .running
  right : t.oq.state ≠ .running
  tb : s.tb = t.tb

theorem TimeAlike.onTb (h : TimeAlike s t) (f : TimeBase → TimeBase) : TimeAlike (s.onTb f) (t.onTb f) :=
  ⟨h.left, h.right, congrArg f h.tb⟩

theorem TimeAlike.changeQuality (h : TimeAlike s t) (q : Quality) : TimeAlike (changeQuality q s) (changeQuality q t) := by
  rw [changeQuality_idle h.left, changeQuality_idle h.right]
  exact ⟨h.left, h.right, (h.onTb fun t => { t with quality := q }).tb⟩

theorem TimeAlike.enterHoldover (h : TimeAlike s t) : TimeAlike (enterHoldover s) (enterHoldover t) := by
  have entered := (h.onTb fun t => { t with reference := none, rejects := 0 }).changeQuality .holdover
  unfold Machine.enterHoldover
  dsimp only
  generalize Machine.changeQuality .holdover (s.onTb _) = s1 at *
  generalize Machine.changeQuality .holdover (t.onTb _) = t1 at *
  rw [entered.tb]
  split
  · exact (entered.onTb _).changeQuality _
  · exact entered

theorem TimeAlike.takeTimeout (h : TimeAlike s t) : TimeAlike (takeTimeout s) (takeTimeout t) := by
  unfold Machine.takeTimeout
  rw [h.tb]
  split
  · exact (h.onTb _).changeQuality _
  · exact h.enterHoldover

theorem TimeAlike.takeHoldoverExpiry (h : TimeAlike s t) : TimeAlike (takeHoldoverExpiry s) (takeHoldoverExpiry t) := by
  unfold Machine.takeHoldoverExpiry
  rw [h.tb]
  split
  · exact h.onTb _
  · exact h.onTb _
  · exact h.onTb _
  · exact (h.onTb _).changeQuality _

/-- A further change of the time base, where it is due. -/
theorem TimeAlike.further (h : TimeAlike s t) {f : State → State} (g : TimeAlike (f s) (f t)) (due : State → Bool)
    (same : due s = due t) : TimeAlike (if due s then f s else s) (if due t then f t else t) := by
  rw [same]
  split
  · exact g
  · exact h

theorem timeoutDue_congr (h : s.tb = t.tb) : timeoutDue s = timeoutDue t := by
  unfold timeoutDue lockMicros
  rw [h]

theorem holdoverDue_congr (h : s.tb = t.tb) : holdoverDue s = holdoverDue t := by
  unfold holdoverDue
  rw [h]

/-- Outside RUNNING a written time table's effect depends on the time base alone (R93). -/
theorem TimeAlike.writeTimeTable (h : TimeAlike s t) (x : TimeTable) :
    TimeAlike (writeTimeTable x s) (writeTimeTable x t) := by
  unfold Machine.writeTimeTable
  dsimp only
  rw [h.tb]
  have a1 := h.onTb fun t => { t with table := x }
  have a2 := a1.further a1.enterHoldover
    (fun u => t.tb.table.ppsEnable && !x.ppsEnable && u.tb.quality == .locked) (by rw [a1.tb])
  have a3 := a2.further a2.takeTimeout (fun u => t.tb.table.lockWindow != x.lockWindow && timeoutDue u)
    (by rw [timeoutDue_congr a2.tb])
  exact a3.further a3.takeHoldoverExpiry (fun u => t.tb.table.holdoverLimit != x.holdoverLimit && holdoverDue u)
    (by rw [holdoverDue_congr a3.tb])

/-! ### The tables written -/

/-- Two parts outside RUNNING with the same channels, time base, triggers and store: what the tables and their effects
stand in. -/
structure TablesAlike (s t : State) : Prop where
  time : TimeAlike s t
  icu : s.icu = t.icu
  tu : s.tu = t.tu
  js : s.js = t.js

theorem TablesAlike.applyEntry (h : TablesAlike s t) (e : TableEntry) :
    TablesAlike (applyEntry e s) (applyEntry e t) := by
  obtain ⟨time, icu, tu, js⟩ := h
  cases e with
  | channel i d =>
    refine ⟨⟨time.left, time.right, time.tb⟩, ?_, tu, js⟩
    show s.icu.set i (setupChannel d s.icu[i]) = t.icu.set i (setupChannel d t.icu[i])
    rw [icu]
  | trigger i r => exact ⟨⟨time.left, time.right, time.tb⟩, icu, congrArg (fun u : TriggerUnit => { u with rules := u.rules.set i r }) tu, js⟩
  | time x =>
    have a := writeTimeTable_timeOnly time.left x
    have b := writeTimeTable_timeOnly time.right x
    refine ⟨time.writeTimeTable x, ?_, ?_, ?_⟩
    · show (writeTimeTable x s).icu = (writeTimeTable x t).icu
      rw [a, b]
      exact icu
    · show (writeTimeTable x s).tu = (writeTimeTable x t).tu
      rw [a, b]
      exact tu
    · show (writeTimeTable x s).js = (writeTimeTable x t).js
      rw [a.js, b.js]
      exact js
  | journal x => exact ⟨⟨time.left, time.right, time.tb⟩, icu, tu, congrArg (fun j : Store => { j with table := x }) js⟩

/-- The store with another journal table. -/
def withTable (x : JournalTable) (j : Store) : Store := { j with table := x }

/-- Outside RUNNING a written entry changes of the store the table alone, and logs no fault (R164). -/
theorem applyEntry_store (idle : s.oq.state ≠ .running) (e : TableEntry) :
    (∃ x, (applyEntry e s).js = withTable x s.js) ∧
      (applyEntry e s).ifu.faults = s.ifu.faults := by
  cases e with
  | time x =>
    have only := writeTimeTable_timeOnly idle x
    have js : (applyEntry (.time x) s).js = s.js := only.js
    exact ⟨⟨s.js.table, js⟩, by show (writeTimeTable x s).ifu.faults = _; rw [only]⟩
  | _ => exact ⟨⟨_, rfl⟩, rfl⟩

theorem stagedEntry_congr (h : s.js.ram = t.js.ram) (i : Nat) : stagedEntry i s = stagedEntry i t := by
  unfold stagedEntry stagedByte
  rw [h]

/-- What the records leave outside the tables (R184). -/
theorem applyRecords_kept (is : List Nat) {s : State} (idle : s.oq.state ≠ .running) :
    (applyRecords is s).hw = s.hw ∧ (applyRecords is s).ifu.faults = s.ifu.faults := by
  induction is generalizing s with
  | nil => exact ⟨rfl, rfl⟩
  | cons i is ih =>
    unfold applyRecords
    split
    · exact ih idle
    · rename_i e _
      obtain ⟨hw, faults⟩ := ih (s := applyEntry e s) (by rw [applyEntry_oq idle e]; exact idle)
      exact ⟨hw.trans (applyEntry_hw e s), faults.trans (applyEntry_store idle e).2⟩

/-- A staged record that passes is written by WRITE ENTRY of its bytes in STOPPED (R164, R184). -/
theorem stagedForWrite_written {i : Nat} {e : TableEntry} (stopped : t.oq.state = .stopped)
    (checked : stagedEntry i t = some e) :
    exec .writeEntry (stagedForWrite i t) = .next (completedWith .ok (applyEntry e (stagedForWrite i t))) := by
  obtain ⟨slot, named, decoded⟩ := Option.bind_eq_some_iff.mp checked
  refine exec_writeEntry_written (s := stagedForWrite i t) rfl ?_ named ?_ decoded
  · show t.oq.state ≠ .loading
    rw [stopped]
    decide
  · cases slot
    case channel => exact bne_eq_false_iff_eq.mpr stopped
    case journal => exact bne_eq_false_iff_eq.mpr stopped
    case trigger => rfl
    case time => rfl

/-- The records applied in LOADING and the entries written in STOPPED take alike parts to alike parts (R184). -/
theorem applyRecords_writesInOrder (is : List Nat) {s t : State} (alike : TablesAlike s t) (stopped : t.oq.state = .stopped)
    (pass : ∀ i ∈ is, (stagedEntry i t).isSome = true) :
    ∃ u, WritesInOrder is t u ∧ TablesAlike (applyRecords is s) u ∧ u.oq = t.oq ∧
      ∃ x, u.js = withTable x t.js := by
  induction is generalizing s t with
  | nil => exact ⟨t, rfl, alike, rfl, t.js.table, rfl⟩
  | cons i is ih =>
    obtain ⟨e, checked⟩ := Option.isSome_iff_exists.mp (pass i List.mem_cons_self)
    have run := stagedForWrite_written stopped checked
    have same : stagedEntry i s = some e := (stagedEntry_congr (congrArg Store.ram alike.js) i).trans checked
    have idle : (stagedForWrite i t).oq.state ≠ .running := alike.time.right
    obtain ⟨x, store⟩ := (applyEntry_store idle e).1
    have capture := applyEntry_oq idle e
    have next : TablesAlike (applyEntry e s) (completedWith .ok (applyEntry e (stagedForWrite i t))) := by
      have staged : TablesAlike s (stagedForWrite i t) := ⟨⟨alike.time.left, idle, alike.time.tb⟩, alike.icu, alike.tu, alike.js⟩
      obtain ⟨⟨left, right, tb⟩, icu, tu, js⟩ := staged.applyEntry e
      exact ⟨⟨left, right, tb⟩, icu, tu, js⟩
    generalize applyEntry e (stagedForWrite i t) = v at *
    have ram : (completedWith .ok v).js.ram = t.js.ram := by
      show v.js.ram = _
      rw [store]
      rfl
    obtain ⟨u, writes, applied, oq, y, js⟩ := ih next ((congrArg Capture.state capture).trans stopped)
      fun k member => by
        rw [stagedEntry_congr ram]
        exact pass k (List.mem_cons_of_mem _ member)
    refine ⟨u, ⟨_, run, rfl, writes⟩, ?_, oq.trans capture, y, ?_⟩
    · unfold applyRecords
      rw [same]
      exact applied
    · rw [js]
      show withTable y v.js = _
      rw [store]
      rfl

/-! ### The end of APPLYING -/

/-- A reader as a load leaves it: attached where the image's flag says so (R29, R185). -/
def readerAfterLoad (on : Bool) (j : Store) (c : Consumer) : Consumer := if on then attachConsumer j c else c

/-- The attach flags of the image change the readers alone, and the AVL comparison with them (R185). -/
theorem readersAttached (on : Bool) (s : State) :
    let u := if on then attachHostOp s else s
    u.icu = s.icu ∧ u.tb = s.tb ∧ u.tu = s.tu ∧ u.hw = s.hw ∧ u.oq = s.oq ∧ u.cl = s.cl ∧ u.ifu.faults = s.ifu.faults ∧
      u.js = { s.js with hostC := readerAfterLoad on s.js s.js.hostC } := by
  cases on
  · exact ⟨rfl, rfl, rfl, rfl, rfl, rfl, rfl, rfl⟩
  · have frame := evalAvl_frame (s.onJs fun j => { j with hostC := attachConsumer j j.hostC })
    exact ⟨frame.icu, frame.tb, frame.tu, frame.hw, frame.oq, frame.cl, frame.faults, evalAvl_js _⟩

/-- What the end of a load keeps of its records, with the readers attached (R184, R185). -/
theorem recordsApplied_attached (s : State) :
    let a := applyRecords (List.range s.cl.staged) s
    let u := recordsApplied s
    u.icu = a.icu ∧ u.tb = a.tb ∧ u.tu = a.tu ∧ u.hw = a.hw ∧ u.oq = a.oq ∧ u.ifu.faults = a.ifu.faults ∧
      u.js = { a.js with
        hostC := readerAfterLoad s.cl.attachHost a.js a.js.hostC,
        exportC := readerAfterLoad s.cl.attachExport a.js a.js.exportC } := by
  have loader := applyRecords_cl (List.range s.cl.staged) s
  unfold recordsApplied
  dsimp only
  generalize applyRecords (List.range s.cl.staged) s = a at *
  rw [loader]
  obtain ⟨icu, tb, tu, hw, oq, cl, faults, js⟩ := readersAttached s.cl.attachHost a
  generalize (if s.cl.attachHost = true then attachHostOp a else a) = v at *
  rw [cl, loader]
  cases s.cl.attachExport
  · exact ⟨icu, tb, tu, hw, oq, faults, js⟩
  · refine ⟨icu, tb, tu, hw, oq, faults, ?_⟩
    show { v.js with exportC := attachConsumer v.js v.js.exportC } = _
    rw [js]
    rfl

/-- What the records of a valid image leave, and the same by WRITE ENTRY in STOPPED (R184). -/
theorem recordsWritten (away : s.oq.state = .loading ∨ s.cl.staged = 0)
    (pass : ∀ i < s.cl.staged, (stagedEntry i s).isSome = true) :
    ∃ u, WritesInOrder (List.range s.cl.staged) { s with oq := { s.oq with state := .stopped } } u ∧
      let a := applyRecords (List.range s.cl.staged) s
      a.icu = u.icu ∧ a.tb = u.tb ∧ a.tu = u.tu ∧ u.oq = { s.oq with state := .stopped } ∧ a.oq = s.oq ∧ a.hw = s.hw ∧
        a.ifu.faults = s.ifu.faults ∧ a.js = u.js ∧ ∃ x, u.js = withTable x s.js := by
  rcases away with loading | none
  · have idle : s.oq.state ≠ .running := by rw [loading]; decide
    have alike : TablesAlike s { s with oq := { s.oq with state := .stopped } } :=
      ⟨⟨idle, CaptureState.noConfusion, rfl⟩, rfl, rfl, rfl⟩
    obtain ⟨u, writes, ⟨time, icu, tu, js⟩, oq, table⟩ := applyRecords_writesInOrder (List.range s.cl.staged) alike rfl
      fun i member => pass i (List.mem_range.mp member)
    obtain ⟨hw, faults⟩ := applyRecords_kept (List.range s.cl.staged) idle
    exact ⟨u, writes, icu, time.tb, tu, oq, applyRecords_oq _ idle, hw, faults, js, table⟩
  · rw [none]
    exact ⟨_, rfl, rfl, rfl, rfl, rfl, rfl, rfl, rfl, rfl, s.js.table, rfl⟩

/-- The end of a load completes a RELOAD, unless the START asked for comes first (R185, R188). -/
theorem reloadCompleted (later : Bool) (t : State) :
    let u := if later then t else completeReload t
    u = { t with hw := u.hw, ifu := u.ifu } ∧ u.ifu.faults = t.ifu.faults ∧
      (later = false → t.hw.inProgress = some .reload →
        u.hw = { t.hw with result := .ok, inProgress := none } ∧ u.ifu.irqf.getLsbD 7 = true) ∧
      (later = true ∨ t.hw.inProgress ≠ some .reload → u.hw = t.hw) := by
  cases later
  · obtain ⟨reload, other⟩ := completeReload_completes (s := t) (t := t) rfl
    exact ⟨completeReload_eq t, completeReload_faults t, fun _ => reload, fun h => other (h.resolve_left (by decide))⟩
  · exact ⟨rfl, rfl, nofun, fun _ => rfl⟩

/-- Settles O59: the records one by one as WRITE ENTRY writes them, then the readers, then the end of the load. -/
theorem applyingEndsTheLoad : Obligations.ApplyingEndsTheLoad := by
  unfold Obligations.ApplyingEndsTheLoad
  intro s applying away passes attachedAt
  obtain ⟨u, writes, icu, tb, tu, capture, oq, hw, faults, js, x, table⟩ :=
    recordsWritten away fun i inside => recordPasses_iff.mp (passes i inside)
  refine ⟨u, writes, _, congrArg Host.Outcome.next ((if_pos applying).trans (finishLoad_eq s)), ?_⟩
  have loader := recordsApplied_cl s
  obtain ⟨icu', tb', tu', hw', oq', faults', js'⟩ := recordsApplied_attached s
  generalize applyRecords (List.range s.cl.staged) s = a at *
  generalize recordsApplied s = r at *
  have reader (on : Bool) (j : Store) (c : Consumer) : readerAfterLoad on j c = attachedAt on j c := by
    cases on
    · rfl
    · exact congrArg (fun p => ({ c with attached := true, read := p, release := p } : Consumer)) (attachPoint_eq j)
  have store : r.js = { s.js with
      table := u.js.table, hostC := attachedAt s.cl.attachHost s.js s.js.hostC,
      exportC := attachedAt s.cl.attachExport s.js s.js.exportC } := by
    rw [js', js, table, reader, reader]
    rfl
  have due : r.cl.autoStart = s.cl.autoStart := congrArg Loader.autoStart loader
  have window : r.hw = s.hw := hw'.trans hw
  generalize ended : ((r.onCl fun c => { c with state := .idle, staged := 0, autoStartDue := c.autoStart }).onOq
    fun q => { q with state := .stopped }) = e
  obtain ⟨same, logged, reload, other⟩ := reloadCompleted e.cl.autoStartDue e
  dsimp only
  generalize (if e.cl.autoStartDue = true then e else completeReload e) = t at *
  subst ended
  have oqEnd : t.oq = { s.oq with state := .stopped } := by
    rw [same]
    show { r.oq with state := .stopped } = _
    rw [oq', oq]
  refine ⟨?_, ?_, ?_, oqEnd.trans capture.symm, oqEnd, ?_, ?_, ?_, ?_, ?_⟩
  · rw [same]; exact icu'.trans icu
  · rw [same]; exact tb'.trans tb
  · rw [same]; exact tu'.trans tu
  · rw [same]
    show { r.cl with state := .idle, staged := 0, autoStartDue := r.cl.autoStart } = _
    rw [loader]
  · rw [same]; exact store
  · exact logged.trans (faults'.trans faults)
  · intro later inProgress
    have done := reload (due.trans later) ((congrArg HostWindow.inProgress window).trans inProgress)
    exact ⟨done.1.trans (congrArg (fun w : HostWindow => { w with result := .ok, inProgress := none }) window), done.2⟩
  · intro kept
    refine (other (kept.imp (due.trans ·) fun differs same => differs ?_)).trans window
    exact (congrArg HostWindow.inProgress window).symm.trans same

end Sys2Proof.Machine
end

section
/-! Outside a run nothing is appended: command by command, the head and the journal's bytes stand. -/

namespace Sys2Proof.Machine

variable {c : Instr} {s t u : State}

/-- From `s` to `t` the head and the journal's bytes stand. -/
def Unappended (s t : State) : Prop := t.js.head = s.js.head ∧ t.js.ram = s.js.ram

theorem Unappended.refl (s : State) : Unappended s s := ⟨rfl, rfl⟩

theorem Unappended.trans (h : Unappended s t) (g : Unappended t u) : Unappended s u :=
  ⟨g.1.trans h.1, g.2.trans h.2⟩

theorem Unappended.of_js (h : t.js = s.js) : Unappended s t := ⟨by rw [h], by rw [h]⟩

/-- A conditional further change. -/
theorem Unappended.then_ite (h : Unappended s t) {p : Prop} [Decidable p] (g : p → Unappended t u) :
    Unappended s (if p then u else t) := by
  split
  · exact h.trans (g ‹_›)
  · exact h

/-! ### Operations of the store and of the interfaces -/

theorem evalAvl_unappended (s : State) : Unappended s (evalAvl s) := .of_js (evalAvl_js s)

theorem reevalFreeing_unappended (s : State) : Unappended s (reevalFreeing s) := ⟨reevalFreeing_head s, reevalFreeing_ram s⟩

theorem makeRoom_unappended (goal : State → Bool) (s : State) : Unappended s (makeRoom goal s) :=
  ⟨makeRoom_head goal s, makeRoom_ram goal s⟩

theorem request_unappended {body : State → State} (h : Unappended s (body s)) : Unappended s (request body s) := by
  unfold request
  split
  · exact .refl s
  · split
    · exact .refl s
    · exact h

theorem linkCommand_unappended {body : State → List Byte × State} (h : Unappended s (body (errorCleared s)).2) :
    Unappended s (linkCommand body s) := by
  cases phase : s.xl.phase with
  | selected v =>
    rw [linkCommand_selected phase]
    exact h
  | _ =>
    rw [linkCommand_ignored (by simp [phase])]
    exact .refl s

theorem takeXfetch_unappended (n : Byte) (s : State) : Unappended s (takeXfetch n s).2 := by
  unfold takeXfetch
  split <;> exact .refl s

theorem takeXack_unappended (seq check : Byte) (s : State) : Unappended s (takeXack seq check s) := by
  unfold takeXack
  split
  · split
    · exact .refl s
    · exact Unappended.trans (.refl s) (reevalFreeing_unappended _)
  · exact .of_js (by rw [logFault_cases]; rfl)

theorem takeXrewind_unappended (s : State) : Unappended s (takeXrewind s) := by
  unfold takeXrewind
  split <;> exact .refl s

theorem takeXattach_unappended (s : State) : Unappended s (takeXattach s) := by
  unfold takeXattach
  split <;> exact .refl s

theorem takeXdetach_unappended (s : State) : Unappended s (takeXdetach s) := by
  unfold takeXdetach
  split
  · exact .refl s
  · exact (Unappended.refl s).then_ite fun _ => Unappended.trans (.refl s) (reevalFreeing_unappended _)

theorem takeXmark_unappended (idle : s.oq.state ≠ .running) (high low check : Byte) :
    Unappended s (takeXmark high low check s) := by
  unfold takeXmark
  split
  · exact .refl s
  · exact .of_js (by rw [logFault_cases]; rfl)

/-- A command's first byte, whatever it names: with no argument byte no command is taken that marks or fetches. -/
theorem takeLinkBytes_first_unappended (code : Byte) (s : State) : Unappended s (takeLinkBytes code [] s) := by
  have waits : Unappended s (match s.xl.phase with
      | .selected _ => s.onXl fun x => { x with error := false }
      | _ => s) := by
    split <;> exact .refl s
  unfold takeLinkBytes linkBody
  split_ifs
  · exact linkCommand_unappended (body := fun s => (xstatResponse s, s)) (.refl s)
  · exact waits
  · exact waits
  · exact linkCommand_unappended (takeXrewind_unappended _)
  · exact linkCommand_unappended (takeXattach_unappended _)
  · exact linkCommand_unappended (takeXdetach_unappended _)
  · exact waits
  · exact linkCommand_unappended (.refl s)

theorem endTransaction_unappended (decoded : Option ArgCommand) (s : State) :
    Unappended s (endTransaction decoded s) := by
  unfold endTransaction
  split
  · exact .refl s
  · exact .refl s
  · split <;> exact .refl s
  · split
    · exact .refl s
    · unfold withdrawFrame
      dsimp only
      split_ifs <;> exact .refl s

/-- RELEASE HOLD outside a run only frees (R121). -/
theorem releaseHold_unappended (idle : s.oq.state ≠ .running) : Unappended s (releaseHold s) := by
  unfold releaseHold
  split
  · exact Unappended.trans (.refl s) (reevalFreeing_unappended _)
  · exact .refl s

/-- A register write that is no command. -/
theorem writeRegister_unappended {a : Nat} (noCommand : a ≠ 4) (v : Byte) (s : State) :
    Unappended s (writeRegister a v s) := by
  unfold writeRegister
  split
  case h_1 => contradiction
  case h_8 => exact Unappended.trans (.refl s) (evalAvl_unappended _)
  case h_10 => exact (Unappended.refl s).then_ite fun _ => .refl s
  all_goals exact .refl s

/-- A calm command outside a run, RESTART apart. -/
theorem act_calm_unappended (own : ownOperands c = true) (calm : isCalm c = true) (other : c ≠ .restart)
    (idle : s.oq.state ≠ .running) : Unappended s (act c s) := by
  cases c
  case restart => exact absurd rfl other
  case releaseHold => exact request_unappended (releaseHold_unappended idle)
  case restartClearingDone => exact (Unappended.refl s).then_ite fun _ => .refl s
  case attach => exact request_unappended (evalAvl_unappended _)
  case detach =>
    refine request_unappended ((Unappended.refl s).then_ite fun _ => ?_)
    refine Unappended.trans ?_ (evalAvl_unappended _)
    exact Unappended.trans (.refl s) (reevalFreeing_unappended _)
  case release =>
    refine request_unappended ?_
    unfold commandRelease
    split
    · exact Unappended.trans (.refl s) (reevalFreeing_unappended _)
    · exact .refl s
  case reread =>
    refine request_unappended ?_
    unfold commandReread
    split
    · exact Unappended.trans (.refl s) (evalAvl_unappended _)
    · exact .refl s
  case readEntry =>
    refine request_unappended ?_
    unfold commandReadEntry
    split <;> exact .refl s
  case clearFaults => exact request_unappended (.refl s)
  case unknownCommand code =>
    refine request_unappended ?_
    have unnamed : commandOf code = complete .unknown := by
      simp only [ownOperands, Instr.wellFormed, namesHostCommand, Bool.not_eq_true', Bool.and_eq_false_iff,
        decide_eq_false_iff_not] at own
      unfold commandOf
      split <;> first | rfl | omega
    rw [unnamed]
    exact .refl s
  case jdataRead =>
    show Unappended s (readJdata s)
    unfold readJdata
    split
    · exact Unappended.trans (.refl s) (evalAvl_unappended _)
    · exact .refl s
  case avthHighWrite v => exact Unappended.trans (.refl s) (evalAvl_unappended _)
  case registerWrite a v =>
    refine writeRegister_unappended (fun command => ?_) v s
    have named : a = 0x04#6 := BitVec.eq_of_toNat_eq command
    rw [named] at own
    cases own
  case transactionBegin =>
    show Unappended s (beginTransaction s)
    unfold beginTransaction
    split <;> exact .refl s
  case xstat => exact linkCommand_unappended (body := fun s => (xstatResponse s, s)) (.refl s)
  case xfetch n => exact linkCommand_unappended (takeXfetch_unappended n _)
  case xack seq check => exact linkCommand_unappended (takeXack_unappended seq check _)
  case xrewind => exact linkCommand_unappended (takeXrewind_unappended _)
  case xattach => exact linkCommand_unappended (takeXattach_unappended _)
  case xdetach => exact linkCommand_unappended (takeXdetach_unappended _)
  case linkUnknownCommand code =>
    show Unappended s (takeLinkBytes code [] s)
    exact takeLinkBytes_first_unappended code s
  case frameDelivered =>
    show Unappended s (match s.xl.flight with | none => s | some f => deliverFrame f s)
    split <;> exact .refl s
  case transactionEnd decoded => exact endTransaction_unappended decoded s
  all_goals first | exact Unappended.refl s | cases calm

/-! ### Channels and the time base -/

theorem offerEntries_closed (closed : runOpen s = false) (es : List Entry) : offerEntries es s = s := by
  have shut (e : Entry) : offerEntry e s = s := by
    unfold offerEntry
    split
    case h_1 running => rw [runOpen, running] at closed; cases closed
    case h_2 draining => rw [runOpen, draining] at closed; cases closed
    all_goals rfl
  induction es with
  | nil => rfl
  | cons e es ih => rw [offerEntries, shut e, ih]

theorem acceptChange_unappended (closed : runOpen s = false) (ch : Channel) (stamp : Time) :
    Unappended s (acceptChange ch stamp s) := by
  rw [acceptChange_eq, offerEntries_closed (by rw [setChannel_runOpen]; exact closed)]
  exact .refl s

theorem takeEdge_unappended (closed : runOpen s = false) (ch : Channel) : Unappended s (takeEdge ch s) := by
  rw [takeEdge_eq]
  split
  · exact acceptChange_unappended closed ch _
  · exact .refl s

theorem settleExpires_unappended (closed : runOpen s = false) (ch : Channel) : Unappended s (settleExpires ch s) := by
  unfold settleExpires
  dsimp only
  split
  · exact acceptChange_unappended closed ch _
  · exact .refl s

theorem quietExpires_unappended (closed : runOpen s = false) (ch : Channel) : Unappended s (quietExpires ch s) := by
  unfold quietExpires
  dsimp only
  rw [closed]
  exact .refl s

theorem TimeOnly.unappended (h : TimeOnly s t) : Unappended s t := .of_js h.js

theorem applyPulseStep_unappended (idle : s.oq.state ≠ .running) (e : Int) : Unappended s (applyPulseStep e s) := by
  unfold applyPulseStep
  split
  · exact .refl s
  · refine Unappended.trans ?_ (.of_js (applyStep_unwritten _ (.inl ?_)).1.js)
    · split <;> exact .refl s
    · split <;> exact idle

theorem acceptPulse_unappended (idle : s.oq.state ≠ .running) (e : Int) : Unappended s (acceptPulse e s) :=
  applyPulseStep_unappended idle e

theorem lockOnPulse_unappended (idle : s.oq.state ≠ .running) (e : Int) : Unappended s (lockOnPulse e s) := by
  have changed := changeQuality_timeOnly idle .locked
  exact changed.unappended.trans (acceptPulse_unappended (by rw [changed.oq]; exact idle) e)

theorem beginAcquiring_unappended (idle : s.oq.state ≠ .running) (o : Origin) : Unappended s (beginAcquiring o s) := by
  have begun : TimeOnly s (beginAcquiring o s) :=
    (onTb_timeOnly _ s).trans (changeQuality_timeOnly (s := s.onTb _) idle .acquiring)
  exact begun.unappended

theorem takePulse_unappended (idle : s.oq.state ≠ .running) : Unappended s (takePulse s) := by
  unfold takePulse
  dsimp only
  split
  · exact beginAcquiring_unappended idle _
  · split
    · exact lockOnPulse_unappended idle _
    · exact .refl s
  · split
    · exact acceptPulse_unappended idle _
    · split
      · exact .refl s
      · exact beginAcquiring_unappended idle _
  · split
    · exact lockOnPulse_unappended idle _
    · exact beginAcquiring_unappended idle _

theorem stepToTime_unappended (idle : s.oq.state ≠ .running) (new : Time) : Unappended s (stepToTime new s) := by
  unfold stepToTime
  split
  · exact .refl s
  · exact .of_js (applyStep_unwritten _ (.inl idle)).1.js

/-! ### The tables and the loader -/

theorem applyEntry_unappended (idle : s.oq.state ≠ .running) (e : TableEntry) : Unappended s (applyEntry e s) := by
  obtain ⟨x, js⟩ := (applyEntry_store idle e).1
  rw [Unappended, js]
  exact ⟨rfl, rfl⟩

theorem commandWriteEntry_unappended (idle : s.oq.state ≠ .running) : Unappended s (commandWriteEntry s) := by
  unfold commandWriteEntry
  split
  · exact .refl s
  · split
    · exact .refl s
    · split
      · exact .refl s
      · exact applyEntry_unappended idle _

theorem resetTables_js (idle : s.oq.state ≠ .running) :
    (resetTables s).js = { s.js with table := JournalTable.reset } := by
  rw [resetTables_eq, (writeTimeTable_timeOnly (s := tablesCleared s) idle _).js]
  rfl

theorem applyRecords_unappended (is : List Nat) {s : State} (idle : s.oq.state ≠ .running) :
    Unappended s (applyRecords is s) := by
  induction is generalizing s with
  | nil => exact .refl s
  | cons i is ih =>
    unfold applyRecords
    split
    · exact ih idle
    · rename_i e _
      exact (applyEntry_unappended idle e).trans (ih (by rw [applyEntry_oq idle e]; exact idle))

theorem completeReload_js (s : State) : (completeReload s).js = s.js := by rw [completeReload_eq]

theorem finishLoad_unappended (idle : s.oq.state ≠ .running) : Unappended s (finishLoad s) := by
  have attached : Unappended s (recordsApplied s) := by
    obtain ⟨-, -, -, -, -, -, js⟩ := recordsApplied_attached s
    have records := applyRecords_unappended (List.range s.cl.staged) idle
    rw [Unappended, js]
    exact records
  rw [finishLoad_eq]
  dsimp only
  split
  · exact attached
  · exact attached.trans (.of_js (completeReload_js _))

theorem failLoad_js (reason : Byte) (s : State) : (failLoad reason s).js = s.js := by
  unfold failLoad
  rw [completeReload_js]
  rfl

theorem takeHeader_unappended (f w lo hi g : Byte) (s : State) : Unappended s (takeHeader f w lo hi g s) := by
  unfold takeHeader
  split_ifs
  · exact .of_js (failLoad_js _ _)
  · exact .of_js (failLoad_js _ _)
  · exact .of_js (failLoad_js _ _)
  · exact .refl s

theorem takeRecord_head (id idx : Byte) (entry : EntryBytes) (s : State) :
    (takeRecord id idx entry s).js.head = s.js.head := by
  by_cases passes : RecordPasses id idx entry
  · rw [takeRecord_passes passes]
    rfl
  · rw [takeRecord_fails passes, failLoad_js]
    rfl

theorem takeCrc_unappended (lo hi : Byte) (s : State) : Unappended s (takeCrc lo hi s) := by
  unfold takeCrc
  split
  · exact .refl s
  · exact .of_js (failLoad_js _ _)

/-! ### Every command -/

/-- From `s` to `t` nothing has been appended, a record may have been staged, or the store has been emptied (R19, R48,
R49). -/
def NothingAppended (s t : State) : Prop :=
  Unappended s t ∨ t.js.head = s.js.head ∧ s.cl.state = .reading ∨
    t.js.head = 0#32 ∧ t.js.tail = 0#32 ∧ t.js.index = [] ∧ t.js.ram = s.js.ram

theorem request_nothingAppended {body : State → State} (h : runOpen (body s) = false → NothingAppended s (body s))
    (after : runOpen (request body s) = false) : NothingAppended s (request body s) := by
  unfold request at *
  split
  · exact .inl (.refl s)
  · rename_i free
    rw [if_neg free] at after
    split
    · exact .inl (.refl s)
    · rename_i unlocked
      rw [if_neg unlocked] at after
      exact h after

/-- The store emptied by RESTART or RELOAD (R48). -/
theorem nothingAppended_of_emptied (h : t.js = { (emptyStore s.js) with table := t.js.table }) : NothingAppended s t := by
  refine .inr (.inr ?_)
  rw [h]
  exact ⟨rfl, rfl, rfl, rfl⟩

theorem commandRestart_nothingAppended (s : State) : NothingAppended s (commandRestart s) := by
  unfold commandRestart
  split
  · have js : (keepBusy .restart (clearJournal s)).js = emptyStore s.js := clearJournal_js s
    exact nothingAppended_of_emptied (by rw [js])
  · exact .inl (.refl s)

theorem commandReload_nothingAppended (s : State) : NothingAppended s (commandReload s) := by
  unfold commandReload
  split
  · rename_i stopped
    have idle : (clearJournal s).oq.state ≠ .running := by
      rw [clearJournal_eq, stopped]
      decide
    have js : (resetTables (clearJournal s)).js = { (emptyStore s.js) with table := JournalTable.reset } := by
      rw [resetTables_js idle, clearJournal_js]
    exact nothingAppended_of_emptied (by
      show (resetTables (clearJournal s)).js = { emptyStore s.js with table := (resetTables (clearJournal s)).js.table }
      rw [js])
  · exact .inl (.refl s)

/-- A START that opens no run appends nothing (R47, R51). -/
theorem requestStart_unappended (after : runOpen (requestStart s).2 = false) : Unappended s (requestStart s).2 := by
  unfold requestStart at *
  split
  · rename_i stopped
    rw [if_pos stopped] at after
    dsimp only at after ⊢
    split
    · rename_i fit
      rw [if_pos fit] at after
      have opened := (openRun_front (makeRoom (fits syncLength true) s)).2.2.1
      rw [runOpen, opened] at after
      cases after
    · exact makeRoom_unappended _ s
  · exact .refl s

/-- Outside a run, before and behind a command, nothing is appended (R19). -/
theorem act_nothingAppended (own : ownOperands c = true) (closed : runOpen s = false)
    (after : runOpen (act c s) = false) : NothingAppended s (act c s) := by
  have idle : s.oq.state ≠ .running := fun running => by rw [runOpen, running] at closed; cases closed
  have waits {p : Prop} [Decidable p] {u : State} (h : Unappended s u) : NothingAppended s (if p then u else s) :=
    .inl ((Unappended.refl s).then_ite fun _ => h)
  by_cases restart : c = .restart
  · subst restart
    exact request_nothingAppended (fun _ => commandRestart_nothingAppended s) after
  cases calm : isCalm c
  case true => exact .inl (act_calm_unappended own calm restart idle)
  case false =>
    cases c
    case deviceReset b => exact .inr (.inr ⟨rfl, rfl, rfl, rfl⟩)
    case rawEdge ch => 
      exact .inl (takeEdge_unappended (s := setChannel ch { s.icu[ch] with line := !s.icu[ch].line } s) closed ch)
    case settleExpiry ch => exact waits (settleExpires_unappended closed ch)
    case windowExpiry ch => exact waits (.refl s)
    case quietExpiry ch => exact waits (quietExpires_unappended closed ch)
    case pulse edge => exact waits (takePulse_unappended idle)
    case timeout => exact waits (takeTimeout_timeOnly idle).unappended
    case holdoverExpiry => exact waits (takeHoldoverExpiry_timeOnly idle).unappended
    case horizonExpiry =>
      have waiting : horizonDue s = false := by
        unfold horizonDue
        split
        · rfl
        · rw [closed, Bool.false_and]
      show NothingAppended s (if horizonDue s then releaseHead s else s)
      rw [waiting]
      exact .inl (.refl s)
    case drainExpiry =>
      have waiting : drainDue s = false := by
        rw [runOpen, Bool.or_eq_false_iff] at closed
        rw [drainDue, closed.2, Bool.false_and]
      show NothingAppended s (if drainDue s then closeDrain s else s)
      rw [waiting]
      exact .inl (.refl s)
    case start => exact request_nothingAppended (fun after => .inl (requestStart_unappended after)) after
    case stop =>
      refine request_nothingAppended (fun _ => .inl ?_) after
      unfold commandStop
      rw [if_neg idle]
      exact .refl s
    case reload => exact request_nothingAppended (fun _ => commandReload_nothingAppended s) after
    case mark =>
      refine request_nothingAppended (fun _ => .inl ?_) after
      unfold commandMark
      rw [if_neg idle]
      exact .refl s
    case setTime =>
      refine request_nothingAppended (fun _ => .inl ?_) after
      unfold commandSetTime
      split
      · exact stepToTime_unappended idle _
      · exact .refl s
    case writeEntry => exact request_nothingAppended (fun _ => .inl (commandWriteEntry_unappended idle)) after
    case xmark high low check =>
      exact .inl (linkCommand_unappended (takeXmark_unappended (s := errorCleared s) idle high low check))
    case loadHeaderReceived f w lo hi g => exact waits (takeHeader_unappended f w lo hi g s)
    case loadRecordReceived id idx entry =>
      show NothingAppended s (if s.cl.state = .reading ∧ s.cl.headerSeen = true ∧ s.cl.read < s.cl.count then
        takeRecord id idx entry s else s)
      split
      · rename_i due
        exact .inr (.inl ⟨takeRecord_head id idx entry s, due.1⟩)
      · exact .inl (.refl s)
    case loadCrcReceived lo hi => exact waits (takeCrc_unappended lo hi s)
    case applyingDone => exact waits (finishLoad_unappended idle)
    case autoStart =>
      have asked := requestStart_unappended (s := s.onCl fun c => { c with autoStartDue := false })
      show NothingAppended s (if s.cl.autoStartDue then takeAutoStart s else s)
      have after : runOpen (if s.cl.autoStartDue then takeAutoStart s else s) = false := after
      split
      · rename_i due
        rw [if_pos due, takeAutoStart, runOpen, completeReload_oq] at after
        exact .inl ((asked after).trans (.of_js (completeReload_js _)))
      · exact .inl (.refl s)
    case reloadClearingDone =>
      refine waits ?_
      rw [Unappended]
      show (resetTables s).js.head = _ ∧ (resetTables s).js.ram = _
      rw [resetTables_js idle]
      exact ⟨rfl, rfl⟩
    all_goals cases calm

/-- Settles O11: command by command. -/
theorem nothingAppendedOutsideRun : Obligations.NothingAppendedOutsideRun := by
  unfold Obligations.NothingAppendedOutsideRun
  intro c s t run closed after
  obtain rfl := eq_act_of_exec run
  rw [← act_rowOf] at after ⊢
  rcases act_nothingAppended (rowOf_ownOperands c) closed after with stays | staged | emptied
  · exact .inl stays
  · exact .inr (.inl staged)
  · exact .inr (.inr emptied)

end Sys2Proof.Machine
end
